-- ==== Sys2Proof/Word.lean ====
section
/-!
DEFINITION. The word types of the machine (spec/00_scope.md R9, R10) and the plainest arithmetic on them.
-/

namespace Sys2Proof

/-- A register value or an address: a 32-bit string (R10). -/
abbrev Word := BitVec 32

/-- The addressable unit of memory (R70). -/
abbrev Byte := BitVec 8

/-- A halfword of memory, and a THUMB instruction (R70, R110). -/
abbrev Half := BitVec 16

/-- A 4-bit field that names a register, R0 to R15 (R20). -/
abbrev RegNo := BitVec 4

/-- A 3-bit field that names a Lo register, R0 to R7 (R22). -/
abbrev LoReg := BitVec 3

/-- The field that names R13, the stack pointer (R21). -/
abbrev SP : RegNo := 13#4

/-- The field that names R14, the link register (R21). -/
abbrev LR : RegNo := 14#4

/-- The field that names R15, the program counter (R20). -/
abbrev PC : RegNo := 15#4

/-- A Lo register as a register number (R22). -/
abbrev lo (r : LoReg) : RegNo := r.setWidth 4

end Sys2Proof
end

