-- ==== Sys2Proof/Config.lean ====
section
/-!
DEFINITION. What the implementation fixes and the free values. A free value is an opaque constant without a body, applied to the
counter `draws` of the state: nothing can be proved about it (spec/00_scope.md R11 `draw`).
-/

namespace Sys2Proof

/-- Bits 27:8 that an MRS returns: `PSR_RESERVED_READ` (R8, R38; decision D9; log entry 10). -/
opaque Config.psrReservedRead : Nat → BitVec 20

/-- The C flag after MUL, MLA or THUMB MUL with flags: `MUL_C` (R254; decision D16; log entry 11). -/
opaque Config.mulC : Nat → Bool

/-- The C flag after a long multiply with flags: `MULL_C` (R262; decision D16; log entry 11). -/
opaque Config.mullC : Nat → Bool

/-- The V flag after a long multiply with flags: `MULL_V` (R262; decision D16; log entry 11). -/
opaque Config.mullV : Nat → Bool

/-- The word a reset during the run leaves in a register; the second argument numbers the register (R491, R540; log entry 22). -/
opaque Config.resetWord : Nat → Nat → Word

/-- What a device answers to a read at an address; a narrower read takes the low bits (R74, R7 (a); log entry 5). -/
opaque Config.deviceRead : Nat → Word → Word

end Sys2Proof
end

