-- ==== Sys2Proof/Syntax.lean ====
section
/-!
DEFINITION. The instructions: one constructor of `Instr` for each row of spec/opcode_table.json, in its order.
A constructor carries every bit its row leaves free, the bits the machine ignores among them, so that an instruction and its
encoding determine each other.
-/

namespace Sys2Proof

/-- The fifteen conditions of Table 3-2 (R160). The sixteenth code is a row of its own, `Instr.reservedCondition`. -/
inductive Cond where
  | eq | ne | cs | cc | mi | pl | vs | vc | hi | ls | ge | lt | gt | le | al
  deriving DecidableEq, Repr

/-- The shift types of the barrel shifter (R115). -/
inductive ShiftType where
  | lsl | lsr | asr | ror
  deriving DecidableEq, Repr

/-- Operand 2 of a data processing instruction (R115, R116). -/
inductive Operand2 where
  /-- I = 1: an 8-bit immediate rotated right by twice `rotate` (R116). -/
  | imm (rotate : BitVec 4) (imm8 : BitVec 8)
  /-- A register shifted by an amount in the instruction (R115). -/
  | shiftImm (ty : ShiftType) (amount : BitVec 5) (rm : RegNo)
  /-- A register shifted by the bottom byte of another register (R115). -/
  | shiftReg (ty : ShiftType) (rs rm : RegNo)
  deriving DecidableEq, Repr

/-- The offset of a single data transfer (R120, R271). -/
inductive Offset where
  /-- I = 0: a 12-bit unsigned immediate. -/
  | imm (imm12 : BitVec 12)
  /-- I = 1: a register shifted by an amount in the instruction. -/
  | reg (ty : ShiftType) (amount : BitVec 5) (rm : RegNo)
  deriving DecidableEq, Repr

/-- The P and W bits of a plain single data transfer (R120, R272). P = 0 with W = 1 is a T form, an instruction of its own. -/
inductive Index where
  /-- P = 1: the offset is applied before the transfer; `writeback` is the W bit. -/
  | pre (writeback : Bool)
  /-- P = 0, W = 0: the offset is applied after the transfer and the base is always written back. -/
  | post
  deriving DecidableEq, Repr

/-- One constructor per row of spec/opcode_table.json. Operand names are those of the spec's field lists. -/
inductive Instr where
  /-- Condition field 1111 (R132 (a)); `bits` are bits 27:0. -/
  | reservedCondition (bits : BitVec 28)
  /-- BX Rn (R162). -/
  | bx (cond : Cond) (rn : RegNo)
  /-- MUL Rd,Rm,Rs (R252); `rn` is the ignored field 15:12. -/
  | mul (cond : Cond) (s : Bool) (rd rn rs rm : RegNo)
  /-- MLA Rd,Rm,Rs,Rn (R253). -/
  | mla (cond : Cond) (s : Bool) (rd rn rs rm : RegNo)
  /-- UMULL RdLo,RdHi,Rm,Rs (R259). -/
  | umull (cond : Cond) (s : Bool) (rdHi rdLo rs rm : RegNo)
  /-- UMLAL RdLo,RdHi,Rm,Rs (R260). -/
  | umlal (cond : Cond) (s : Bool) (rdHi rdLo rs rm : RegNo)
  /-- SMULL RdLo,RdHi,Rm,Rs (R261). -/
  | smull (cond : Cond) (s : Bool) (rdHi rdLo rs rm : RegNo)
  /-- SMLAL RdLo,RdHi,Rm,Rs (R267). -/
  | smlal (cond : Cond) (s : Bool) (rdHi rdLo rs rm : RegNo)
  /-- SWP Rd,Rm,[Rn] (R341). -/
  | swp (cond : Cond) (rn rd rm : RegNo)
  /-- SWPB Rd,Rm,[Rn] (R343). -/
  | swpb (cond : Cond) (rn rd rm : RegNo)
  /-- STRH, register offset (R293); `p`, `u`, `w` are bits 24, 23, 21 (R119). -/
  | strhReg (cond : Cond) (p u w : Bool) (rn rd rm : RegNo)
  /-- STRH, immediate offset (R293). -/
  | strhImm (cond : Cond) (p u w : Bool) (rn rd : RegNo) (imm8 : BitVec 8)
  /-- LDRH, register offset (R292). -/
  | ldrhReg (cond : Cond) (p u w : Bool) (rn rd rm : RegNo)
  /-- LDRH, immediate offset (R292). -/
  | ldrhImm (cond : Cond) (p u w : Bool) (rn rd : RegNo) (imm8 : BitVec 8)
  /-- LDRSB, register offset (R294). -/
  | ldrsbReg (cond : Cond) (p u w : Bool) (rn rd rm : RegNo)
  /-- LDRSB, immediate offset (R294). -/
  | ldrsbImm (cond : Cond) (p u w : Bool) (rn rd : RegNo) (imm8 : BitVec 8)
  /-- LDRSH, register offset (R295). -/
  | ldrshReg (cond : Cond) (p u w : Bool) (rn rd rm : RegNo)
  /-- LDRSH, immediate offset (R295). -/
  | ldrshImm (cond : Cond) (p u w : Bool) (rn rd : RegNo) (imm8 : BitVec 8)
  /-- Signed store S = 1, H = 0, L = 0, register offset (R297). -/
  | signedStoreByteReg (cond : Cond) (p u w : Bool) (rn rd rm : RegNo)
  /-- Signed store S = 1, H = 0, L = 0, immediate offset (R297). -/
  | signedStoreByteImm (cond : Cond) (p u w : Bool) (rn rd : RegNo) (imm8 : BitVec 8)
  /-- Signed store S = 1, H = 1, L = 0, register offset (R297). -/
  | signedStoreHalfReg (cond : Cond) (p u w : Bool) (rn rd rm : RegNo)
  /-- Signed store S = 1, H = 1, L = 0, immediate offset (R297). -/
  | signedStoreHalfImm (cond : Cond) (p u w : Bool) (rn rd : RegNo) (imm8 : BitVec 8)
  /-- Decode row 7 (R132 (b)): bits 27:25 = 000, bit 7 = 1, bit 4 = 1 and no multiply, swap or halfword transfer. -/
  | notDefinedExtension (cond : Cond) (bits : BitVec 28)
  /-- MRS Rd,psr (R231); `spsr` is bit 22. -/
  | mrs (cond : Cond) (spsr : Bool) (rd : RegNo)
  /-- MSR psr,Rm (R232). -/
  | msr (cond : Cond) (spsr : Bool) (rm : RegNo)
  /-- MSR psrf,Rm (R233). -/
  | msrFlg (cond : Cond) (spsr : Bool) (rm : RegNo)
  /-- MSR psrf,#expression (R234). -/
  | msrFlgImm (cond : Cond) (spsr : Bool) (rotate : BitVec 4) (imm8 : BitVec 8)
  /-- Decode row 12 (R132 (c)): opcode 1000 to 1011 with S = 0, no PSR transfer and no BX. -/
  | notDefinedTest (cond : Cond) (bits : BitVec 28)
  /-- AND (R201). -/
  | and (cond : Cond) (s : Bool) (rn rd : RegNo) (op2 : Operand2)
  /-- EOR (R202). -/
  | eor (cond : Cond) (s : Bool) (rn rd : RegNo) (op2 : Operand2)
  /-- SUB (R203). -/
  | sub (cond : Cond) (s : Bool) (rn rd : RegNo) (op2 : Operand2)
  /-- RSB (R204). -/
  | rsb (cond : Cond) (s : Bool) (rn rd : RegNo) (op2 : Operand2)
  /-- ADD (R205). -/
  | add (cond : Cond) (s : Bool) (rn rd : RegNo) (op2 : Operand2)
  /-- ADC (R206). -/
  | adc (cond : Cond) (s : Bool) (rn rd : RegNo) (op2 : Operand2)
  /-- SBC (R207). -/
  | sbc (cond : Cond) (s : Bool) (rn rd : RegNo) (op2 : Operand2)
  /-- RSC (R208). -/
  | rsc (cond : Cond) (s : Bool) (rn rd : RegNo) (op2 : Operand2)
  /-- TST (R209); S = 1 in every encoding, `rd` = 15 is TSTP (R198). -/
  | tst (cond : Cond) (rn rd : RegNo) (op2 : Operand2)
  /-- TEQ (R210); `rd` = 15 is TEQP (R198). -/
  | teq (cond : Cond) (rn rd : RegNo) (op2 : Operand2)
  /-- CMP (R211); `rd` = 15 is CMPP (R198). -/
  | cmp (cond : Cond) (rn rd : RegNo) (op2 : Operand2)
  /-- CMN (R212); `rd` = 15 is CMNP (R198). -/
  | cmn (cond : Cond) (rn rd : RegNo) (op2 : Operand2)
  /-- ORR (R213). -/
  | orr (cond : Cond) (s : Bool) (rn rd : RegNo) (op2 : Operand2)
  /-- MOV (R214); `rn` is ignored. -/
  | mov (cond : Cond) (s : Bool) (rn rd : RegNo) (op2 : Operand2)
  /-- BIC (R215). -/
  | bic (cond : Cond) (s : Bool) (rn rd : RegNo) (op2 : Operand2)
  /-- MVN (R216); `rn` is ignored. -/
  | mvn (cond : Cond) (s : Bool) (rn rd : RegNo) (op2 : Operand2)
  /-- The undefined instruction (R350); `high` is bits 24:5, `low` bits 3:0. -/
  | undefined (cond : Cond) (high : BitVec 20) (low : BitVec 4)
  /-- LDRT (R279). -/
  | ldrt (cond : Cond) (u : Bool) (rn rd : RegNo) (off : Offset)
  /-- LDRBT (R279). -/
  | ldrbt (cond : Cond) (u : Bool) (rn rd : RegNo) (off : Offset)
  /-- STRT (R279). -/
  | strt (cond : Cond) (u : Bool) (rn rd : RegNo) (off : Offset)
  /-- STRBT (R279). -/
  | strbt (cond : Cond) (u : Bool) (rn rd : RegNo) (off : Offset)
  /-- LDR (R273). -/
  | ldr (cond : Cond) (u : Bool) (ix : Index) (rn rd : RegNo) (off : Offset)
  /-- LDRB (R274). -/
  | ldrb (cond : Cond) (u : Bool) (ix : Index) (rn rd : RegNo) (off : Offset)
  /-- STR (R275). -/
  | str (cond : Cond) (u : Bool) (ix : Index) (rn rd : RegNo) (off : Offset)
  /-- STRB (R278). -/
  | strb (cond : Cond) (u : Bool) (ix : Index) (rn rd : RegNo) (off : Offset)
  /-- LDMIA / LDMFD (R330); `s`, `w` are bits 22 and 21 (R121). -/
  | ldmia (cond : Cond) (s w : Bool) (rn : RegNo) (list : BitVec 16)
  /-- LDMIB / LDMED (R331). -/
  | ldmib (cond : Cond) (s w : Bool) (rn : RegNo) (list : BitVec 16)
  /-- LDMDA / LDMFA (R332). -/
  | ldmda (cond : Cond) (s w : Bool) (rn : RegNo) (list : BitVec 16)
  /-- LDMDB / LDMEA (R333). -/
  | ldmdb (cond : Cond) (s w : Bool) (rn : RegNo) (list : BitVec 16)
  /-- STMIA / STMEA (R334). -/
  | stmia (cond : Cond) (s w : Bool) (rn : RegNo) (list : BitVec 16)
  /-- STMIB / STMFA (R335). -/
  | stmib (cond : Cond) (s w : Bool) (rn : RegNo) (list : BitVec 16)
  /-- STMDA / STMED (R336). -/
  | stmda (cond : Cond) (s w : Bool) (rn : RegNo) (list : BitVec 16)
  /-- STMDB / STMFD (R337). -/
  | stmdb (cond : Cond) (s w : Bool) (rn : RegNo) (list : BitVec 16)
  /-- B label (R165). -/
  | b (cond : Cond) (offset : BitVec 24)
  /-- BL label (R166). -/
  | bl (cond : Cond) (offset : BitVec 24)
  /-- STC (R354). -/
  | stc (cond : Cond) (p u n w : Bool) (rn crd cp : BitVec 4) (offset : BitVec 8)
  /-- LDC (R354). -/
  | ldc (cond : Cond) (p u n w : Bool) (rn crd cp : BitVec 4) (offset : BitVec 8)
  /-- CDP (R353). -/
  | cdp (cond : Cond) (opc crn crd cp : BitVec 4) (info : BitVec 3) (crm : BitVec 4)
  /-- MCR (R356). -/
  | mcr (cond : Cond) (opc : BitVec 3) (crn rd cp : BitVec 4) (info : BitVec 3) (crm : BitVec 4)
  /-- MRC (R356). -/
  | mrc (cond : Cond) (opc : BitVec 3) (crn rd cp : BitVec 4) (info : BitVec 3) (crm : BitVec 4)
  /-- SWI (R348); the comment field is ignored by the processor (R349). -/
  | swi (cond : Cond) (comment : BitVec 24)
  /-- THUMB format 1 LSL Rd,Rs,#Offset5 (R371). -/
  | tLslImm (offset5 : BitVec 5) (rs rd : LoReg)
  /-- THUMB format 1 LSR Rd,Rs,#Offset5 (R372). -/
  | tLsrImm (offset5 : BitVec 5) (rs rd : LoReg)
  /-- THUMB format 1 ASR Rd,Rs,#Offset5 (R373). -/
  | tAsrImm (offset5 : BitVec 5) (rs rd : LoReg)
  /-- THUMB format 2 ADD Rd,Rs,Rn (R375). -/
  | tAddReg (rn rs rd : LoReg)
  /-- THUMB format 2 SUB Rd,Rs,Rn (R377). -/
  | tSubReg (rn rs rd : LoReg)
  /-- THUMB format 2 ADD Rd,Rs,#Offset3 (R376). -/
  | tAddImm3 (offset3 : BitVec 3) (rs rd : LoReg)
  /-- THUMB format 2 SUB Rd,Rs,#Offset3 (R378). -/
  | tSubImm3 (offset3 : BitVec 3) (rs rd : LoReg)
  /-- THUMB format 3 MOV Rd,#Offset8 (R380). -/
  | tMovImm (rd : LoReg) (offset8 : BitVec 8)
  /-- THUMB format 3 CMP Rd,#Offset8 (R381). -/
  | tCmpImm (rd : LoReg) (offset8 : BitVec 8)
  /-- THUMB format 3 ADD Rd,#Offset8 (R382). -/
  | tAddImm (rd : LoReg) (offset8 : BitVec 8)
  /-- THUMB format 3 SUB Rd,#Offset8 (R383). -/
  | tSubImm (rd : LoReg) (offset8 : BitVec 8)
  /-- THUMB format 4 AND Rd,Rs (R385). -/
  | tAnd (rs rd : LoReg)
  /-- THUMB format 4 EOR Rd,Rs (R386). -/
  | tEor (rs rd : LoReg)
  /-- THUMB format 4 LSL Rd,Rs (R387). -/
  | tLsl (rs rd : LoReg)
  /-- THUMB format 4 LSR Rd,Rs (R388). -/
  | tLsr (rs rd : LoReg)
  /-- THUMB format 4 ASR Rd,Rs (R389). -/
  | tAsr (rs rd : LoReg)
  /-- THUMB format 4 ADC Rd,Rs (R390). -/
  | tAdc (rs rd : LoReg)
  /-- THUMB format 4 SBC Rd,Rs (R391). -/
  | tSbc (rs rd : LoReg)
  /-- THUMB format 4 ROR Rd,Rs (R392). -/
  | tRor (rs rd : LoReg)
  /-- THUMB format 4 TST Rd,Rs (R393). -/
  | tTst (rs rd : LoReg)
  /-- THUMB format 4 NEG Rd,Rs (R394). -/
  | tNeg (rs rd : LoReg)
  /-- THUMB format 4 CMP Rd,Rs (R395). -/
  | tCmp (rs rd : LoReg)
  /-- THUMB format 4 CMN Rd,Rs (R396). -/
  | tCmn (rs rd : LoReg)
  /-- THUMB format 4 ORR Rd,Rs (R397). -/
  | tOrr (rs rd : LoReg)
  /-- THUMB format 4 MUL Rd,Rs (R398). -/
  | tMul (rs rd : LoReg)
  /-- THUMB format 4 BIC Rd,Rs (R399). -/
  | tBic (rs rd : LoReg)
  /-- THUMB format 4 MVN Rd,Rs (R400). -/
  | tMvn (rs rd : LoReg)
  /-- THUMB format 5 ADD (R403); `hs` = H2 :: Rs, `hd` = H1 :: Rd (R402). -/
  | tAddHi (hs hd : RegNo)
  /-- THUMB format 5 CMP (R404). -/
  | tCmpHi (hs hd : RegNo)
  /-- THUMB format 5 MOV (R405). -/
  | tMovHi (hs hd : RegNo)
  /-- THUMB format 5 BX (R411, R413); `low` is the unnamed field 2:0. -/
  | tBx (h1 : Bool) (hs : RegNo) (low : BitVec 3)
  /-- THUMB format 6 LDR Rd,[PC,#Imm] (R421). -/
  | tLdrPc (rd : LoReg) (word8 : BitVec 8)
  /-- THUMB format 7 STR Rd,[Rb,Ro] (R422). -/
  | tStrReg (ro rb rd : LoReg)
  /-- THUMB format 7 STRB Rd,[Rb,Ro] (R423). -/
  | tStrbReg (ro rb rd : LoReg)
  /-- THUMB format 7 LDR Rd,[Rb,Ro] (R424). -/
  | tLdrReg (ro rb rd : LoReg)
  /-- THUMB format 7 LDRB Rd,[Rb,Ro] (R425). -/
  | tLdrbReg (ro rb rd : LoReg)
  /-- THUMB format 8 STRH Rd,[Rb,Ro] (R427). -/
  | tStrhReg (ro rb rd : LoReg)
  /-- THUMB format 8 LDSB Rd,[Rb,Ro] (R429). -/
  | tLdsbReg (ro rb rd : LoReg)
  /-- THUMB format 8 LDRH Rd,[Rb,Ro] (R428). -/
  | tLdrhReg (ro rb rd : LoReg)
  /-- THUMB format 8 LDSH Rd,[Rb,Ro] (R430). -/
  | tLdshReg (ro rb rd : LoReg)
  /-- THUMB format 9 STR Rd,[Rb,#Imm] (R432). -/
  | tStrImm (offset5 : BitVec 5) (rb rd : LoReg)
  /-- THUMB format 9 LDR Rd,[Rb,#Imm] (R433). -/
  | tLdrImm (offset5 : BitVec 5) (rb rd : LoReg)
  /-- THUMB format 9 STRB Rd,[Rb,#Imm] (R434). -/
  | tStrbImm (offset5 : BitVec 5) (rb rd : LoReg)
  /-- THUMB format 9 LDRB Rd,[Rb,#Imm] (R435). -/
  | tLdrbImm (offset5 : BitVec 5) (rb rd : LoReg)
  /-- THUMB format 10 STRH Rd,[Rb,#Imm] (R436). -/
  | tStrhImm (offset5 : BitVec 5) (rb rd : LoReg)
  /-- THUMB format 10 LDRH Rd,[Rb,#Imm] (R437). -/
  | tLdrhImm (offset5 : BitVec 5) (rb rd : LoReg)
  /-- THUMB format 11 STR Rd,[SP,#Imm] (R438). -/
  | tStrSp (rd : LoReg) (word8 : BitVec 8)
  /-- THUMB format 11 LDR Rd,[SP,#Imm] (R439). -/
  | tLdrSp (rd : LoReg) (word8 : BitVec 8)
  /-- THUMB format 12 ADD Rd,PC,#Imm (R440). -/
  | tAddPc (rd : LoReg) (word8 : BitVec 8)
  /-- THUMB format 12 ADD Rd,SP,#Imm (R441). -/
  | tAddSp (rd : LoReg) (word8 : BitVec 8)
  /-- THUMB format 13 ADD SP,#Imm (R443). -/
  | tSpPlus (sword7 : BitVec 7)
  /-- THUMB format 13 ADD SP,#-Imm (R444). -/
  | tSpMinus (sword7 : BitVec 7)
  /-- THUMB format 14 PUSH of Lo registers (R446). -/
  | tPush (list : BitVec 8)
  /-- THUMB format 14 PUSH of Lo registers and LR (R447). -/
  | tPushLr (list : BitVec 8)
  /-- THUMB format 14 POP of Lo registers (R448). -/
  | tPop (list : BitVec 8)
  /-- THUMB format 14 POP of Lo registers and PC (R449). -/
  | tPopPc (list : BitVec 8)
  /-- THUMB format 15 STMIA Rb!,Rlist (R451). -/
  | tStmia (rb : LoReg) (list : BitVec 8)
  /-- THUMB format 15 LDMIA Rb!,Rlist (R452). -/
  | tLdmia (rb : LoReg) (list : BitVec 8)
  /-- THUMB format 16 BEQ (R600). -/
  | tBeq (soffset8 : BitVec 8)
  /-- THUMB format 16 BNE (R601). -/
  | tBne (soffset8 : BitVec 8)
  /-- THUMB format 16 BCS (R602). -/
  | tBcs (soffset8 : BitVec 8)
  /-- THUMB format 16 BCC (R603). -/
  | tBcc (soffset8 : BitVec 8)
  /-- THUMB format 16 BMI (R604). -/
  | tBmi (soffset8 : BitVec 8)
  /-- THUMB format 16 BPL (R605). -/
  | tBpl (soffset8 : BitVec 8)
  /-- THUMB format 16 BVS (R606). -/
  | tBvs (soffset8 : BitVec 8)
  /-- THUMB format 16 BVC (R607). -/
  | tBvc (soffset8 : BitVec 8)
  /-- THUMB format 16 BHI (R608). -/
  | tBhi (soffset8 : BitVec 8)
  /-- THUMB format 16 BLS (R609). -/
  | tBls (soffset8 : BitVec 8)
  /-- THUMB format 16 BGE (R610). -/
  | tBge (soffset8 : BitVec 8)
  /-- THUMB format 16 BLT (R611). -/
  | tBlt (soffset8 : BitVec 8)
  /-- THUMB format 16 BGT (R612). -/
  | tBgt (soffset8 : BitVec 8)
  /-- THUMB format 16 BLE (R613). -/
  | tBle (soffset8 : BitVec 8)
  /-- Format 16 with Cond = 1110 (R140 (c), R462). -/
  | tCond1110 (low : BitVec 8)
  /-- THUMB format 17 SWI Value8 (R465). -/
  | tSwi (value8 : BitVec 8)
  /-- THUMB format 18 B label (R468). -/
  | tB (offset11 : BitVec 11)
  /-- THUMB format 19 BL, first half (R473). -/
  | tBlFirst (offset : BitVec 11)
  /-- THUMB format 19 BL, second half (R474). -/
  | tBlSecond (offset : BitVec 11)
  /-- Not allocated, 0xB100 to 0xB1FF (R140 (d)). -/
  | tFreeB1 (low : BitVec 8)
  /-- Not allocated, 0xB200 to 0xB3FF (R140 (d)). -/
  | tFreeB2 (low : BitVec 9)
  /-- Not allocated, 0xB600 to 0xB7FF (R140 (d)). -/
  | tFreeB6 (low : BitVec 9)
  /-- Not allocated, 0xB800 to 0xBBFF (R140 (d)). -/
  | tFreeB8 (low : BitVec 10)
  /-- Not allocated, 0xBE00 to 0xBFFF (R140 (d)). -/
  | tFreeBE (low : BitVec 9)
  /-- Not allocated, 0xE800 to 0xEFFF (R140 (d)). -/
  | tFreeE8 (low : BitVec 11)
  deriving DecidableEq, Repr

end Sys2Proof
end

