-- ==== Sys2Proof/WellFormed.lean ====
section
/-!
DEFINITION. Which terms of `Instr` are instructions: those whose fields are what some encoding holds. Every field has the width of
its encoding, so only the two rows that are defined as remainders need a check (spec/30_encoding.md R113 rows 7 and 12).
-/

namespace Sys2Proof

/-- Bits 27:0 match row 2 of R113: MUL, MLA. -/
def isMultiply (b : BitVec 28) : Bool :=
  !b[27] && !b[26] && !b[25] && !b[24] && !b[23] && !b[22] && b[7] && !b[6] && !b[5] && b[4]

/-- Bits 27:0 match row 3 of R113: the long multiplies. -/
def isMultiplyLong (b : BitVec 28) : Bool :=
  !b[27] && !b[26] && !b[25] && !b[24] && b[23] && b[7] && !b[6] && !b[5] && b[4]

/-- Bits 27:0 match row 4 of R113: SWP, SWPB. -/
def isSwap (b : BitVec 28) : Bool :=
  !b[27] && !b[26] && !b[25] && b[24] && !b[23] && !b[21] && !b[20] && b.extractLsb' 8 4 == 0#4
    && b[7] && !b[6] && !b[5] && b[4]

/-- Bits 27:0 match row 5 of R113: halfword transfers with a register offset. -/
def isHalfwordReg (b : BitVec 28) : Bool :=
  !b[27] && !b[26] && !b[25] && !b[22] && b.extractLsb' 8 4 == 0#4 && b[7] && b[4] && (b[6] || b[5])

/-- Bits 27:0 match row 6 of R113: halfword transfers with an immediate offset. -/
def isHalfwordImm (b : BitVec 28) : Bool :=
  !b[27] && !b[26] && !b[25] && b[22] && b[7] && b[4] && (b[6] || b[5])

/-- Bits 27:0 match the mask of row 7 of R113, which the rows above share. -/
def isExtension (b : BitVec 28) : Bool :=
  !b[27] && !b[26] && !b[25] && b[7] && b[4]

/-- Bits 27:0 match row 1 of R113: BX. -/
def isBranchExchange (b : BitVec 28) : Bool :=
  !b[27] && !b[26] && !b[25] && b[24] && !b[23] && !b[22] && b[21] && !b[20] && b.extractLsb' 16 4 == 15#4
    && b.extractLsb' 12 4 == 15#4 && b.extractLsb' 8 4 == 15#4 && b.extractLsb' 4 4 == 1#4

/-- Bits 27:0 match row 8 of R113: MRS. -/
def isMrs (b : BitVec 28) : Bool :=
  !b[27] && !b[26] && !b[25] && b[24] && !b[23] && !b[21] && !b[20] && b.extractLsb' 16 4 == 15#4
    && b.extractLsb' 8 4 == 0#4 && b.extractLsb' 4 4 == 0#4 && b.extractLsb' 0 4 == 0#4

/-- Bits 27:0 match row 9 or 10 of R113: MSR from a register, to the whole PSR or to the flags. -/
def isMsrReg (b : BitVec 28) : Bool :=
  !b[27] && !b[26] && !b[25] && b[24] && !b[23] && b[21] && !b[20]
    && (b.extractLsb' 16 4 == 9#4 || b.extractLsb' 16 4 == 8#4) && b.extractLsb' 12 4 == 15#4
    && b.extractLsb' 8 4 == 0#4 && b.extractLsb' 4 4 == 0#4

/-- Bits 27:0 match row 11 of R113: MSR of an immediate to the flags. -/
def isMsrImm (b : BitVec 28) : Bool :=
  !b[27] && !b[26] && b[25] && b[24] && !b[23] && b[21] && !b[20] && b.extractLsb' 16 4 == 8#4
    && b.extractLsb' 12 4 == 15#4

/-- Bits 27:0 match the mask of row 12 of R113, opcodes 1000 to 1011 with S = 0. -/
def isTestWithoutS (b : BitVec 28) : Bool :=
  !b[27] && !b[26] && b[24] && !b[23] && !b[20]

/-- Bits 27:0 reach row 7 of R113 (R132 (b)). -/
def reachesExtension (b : BitVec 28) : Bool :=
  isExtension b && !isMultiply b && !isMultiplyLong b && !isSwap b && !isHalfwordReg b && !isHalfwordImm b

/-- Bits 27:0 reach row 12 of R113 (R132 (c)). -/
def reachesTestWithoutS (b : BitVec 28) : Bool :=
  isTestWithoutS b && !isExtension b && !isBranchExchange b && !isMrs b && !isMsrReg b && !isMsrImm b

/-- The check of an instruction: the two remainder rows hold bits that no earlier row takes. -/
def Instr.wf : Instr → Bool
  | .notDefinedExtension _ bits => reachesExtension bits
  | .notDefinedTest _ bits => reachesTestWithoutS bits
  | .reservedCondition .. | .bx .. | .mul .. | .mla .. | .umull .. | .umlal .. | .smull .. | .smlal .. | .swp ..
  | .swpb .. | .strhReg .. | .strhImm .. | .ldrhReg .. | .ldrhImm .. | .ldrsbReg .. | .ldrsbImm .. | .ldrshReg ..
  | .ldrshImm .. | .signedStoreByteReg .. | .signedStoreByteImm .. | .signedStoreHalfReg .. | .signedStoreHalfImm ..
  | .mrs .. | .msr .. | .msrFlg .. | .msrFlgImm .. | .and .. | .eor .. | .sub .. | .rsb .. | .add .. | .adc ..
  | .sbc .. | .rsc .. | .tst .. | .teq .. | .cmp .. | .cmn .. | .orr .. | .mov .. | .bic .. | .mvn .. | .undefined ..
  | .ldrt .. | .ldrbt .. | .strt .. | .strbt .. | .ldr .. | .ldrb .. | .str .. | .strb .. | .ldmia .. | .ldmib ..
  | .ldmda .. | .ldmdb .. | .stmia .. | .stmib .. | .stmda .. | .stmdb .. | .b .. | .bl .. | .stc .. | .ldc ..
  | .cdp .. | .mcr .. | .mrc .. | .swi .. | .tLslImm .. | .tLsrImm .. | .tAsrImm .. | .tAddReg .. | .tSubReg ..
  | .tAddImm3 .. | .tSubImm3 .. | .tMovImm .. | .tCmpImm .. | .tAddImm .. | .tSubImm .. | .tAnd .. | .tEor ..
  | .tLsl .. | .tLsr .. | .tAsr .. | .tAdc .. | .tSbc .. | .tRor .. | .tTst .. | .tNeg .. | .tCmp .. | .tCmn ..
  | .tOrr .. | .tMul .. | .tBic .. | .tMvn .. | .tAddHi .. | .tCmpHi .. | .tMovHi .. | .tBx .. | .tLdrPc ..
  | .tStrReg .. | .tStrbReg .. | .tLdrReg .. | .tLdrbReg .. | .tStrhReg .. | .tLdsbReg .. | .tLdrhReg ..
  | .tLdshReg .. | .tStrImm .. | .tLdrImm .. | .tStrbImm .. | .tLdrbImm .. | .tStrhImm .. | .tLdrhImm .. | .tStrSp ..
  | .tLdrSp .. | .tAddPc .. | .tAddSp .. | .tSpPlus .. | .tSpMinus .. | .tPush .. | .tPushLr .. | .tPop ..
  | .tPopPc .. | .tStmia .. | .tLdmia .. | .tBeq .. | .tBne .. | .tBcs .. | .tBcc .. | .tBmi .. | .tBpl .. | .tBvs ..
  | .tBvc .. | .tBhi .. | .tBls .. | .tBge .. | .tBlt .. | .tBgt .. | .tBle .. | .tCond1110 .. | .tSwi .. | .tB ..
  | .tBlFirst .. | .tBlSecond .. | .tFreeB1 .. | .tFreeB2 .. | .tFreeB6 .. | .tFreeB8 .. | .tFreeBE .. | .tFreeE8 .. => true

end Sys2Proof
end

