-- ==== Sys2Proof/Decode.lean ====
section
/-!
DEFINITION. The decoder, total on any bytes, and after it the encoder. The rows follow spec/30_encoding.md R113 (ARM), R136 (THUMB)
and the reserved rows of R132 and R140; the field positions are those of R112 to R124 and R135.
-/

namespace Sys2Proof

/-! ## Concatenation -/

/-- `x :: y` with `x` in the high bits (R9), at the width `k` of the two together. -/
def cat {n m : Nat} (k : Nat) (x : BitVec n) (y : BitVec m) : BitVec k :=
  (x ++ y).setWidth k

/-! ## Byte order of an instruction -/

/-- The halfword that two bytes in memory order stand for (R72, R73). -/
def joinHalf (bigend : Bool) (b0 b1 : Byte) : Half :=
  if bigend then cat 16 b0 b1 else cat 16 b1 b0

/-- The word that four bytes in memory order stand for (R72, R73). -/
def joinWord (bigend : Bool) (b0 b1 b2 b3 : Byte) : Word :=
  if bigend then cat 32 b0 (cat 24 b1 (cat 16 b2 b3)) else cat 32 b3 (cat 24 b2 (cat 16 b1 b0))

/-- The two bytes of a halfword in memory order (R72, R73). -/
def splitHalf (bigend : Bool) (h : Half) : List Byte :=
  let low := h.extractLsb' 0 8
  let high := h.extractLsb' 8 8
  if bigend then [high, low] else [low, high]

/-- The four bytes of a word in memory order (R72, R73). -/
def splitWord (bigend : Bool) (w : Word) : List Byte :=
  let b0 := w.extractLsb' 0 8
  let b1 := w.extractLsb' 8 8
  let b2 := w.extractLsb' 16 8
  let b3 := w.extractLsb' 24 8
  if bigend then [b3, b2, b1, b0] else [b0, b1, b2, b3]

/-! ## Fields -/

/-- The condition of a condition field; none for the reserved code 1111 (R160). -/
def condOf (k : BitVec 4) : Option Cond :=
  match k[3], k[2], k[1], k[0] with
  | false, false, false, false => some .eq
  | false, false, false, true => some .ne
  | false, false, true, false => some .cs
  | false, false, true, true => some .cc
  | false, true, false, false => some .mi
  | false, true, false, true => some .pl
  | false, true, true, false => some .vs
  | false, true, true, true => some .vc
  | true, false, false, false => some .hi
  | true, false, false, true => some .ls
  | true, false, true, false => some .ge
  | true, false, true, true => some .lt
  | true, true, false, false => some .gt
  | true, true, false, true => some .le
  | true, true, true, false => some .al
  | true, true, true, true => none

/-- The shift type of bits 6:5 (R115). -/
def shiftTypeOf (b6 b5 : Bool) : ShiftType :=
  match b6, b5 with
  | false, false => .lsl
  | false, true => .lsr
  | true, false => .asr
  | true, true => .ror

/-- Operand 2 of a data processing word (R114 to R116). -/
def operand2Of (w : BitVec 32) : Operand2 :=
  if w[25] then .imm (w.extractLsb' 8 4) (w.extractLsb' 0 8)
  else if w[4] then .shiftReg (shiftTypeOf w[6] w[5]) (w.extractLsb' 8 4) (w.extractLsb' 0 4)
  else .shiftImm (shiftTypeOf w[6] w[5]) (w.extractLsb' 7 5) (w.extractLsb' 0 4)

/-- The offset of a single data transfer word (R120). -/
def offsetOf (w : BitVec 32) : Offset :=
  if w[25] then .reg (shiftTypeOf w[6] w[5]) (w.extractLsb' 7 5) (w.extractLsb' 0 4)
  else .imm (w.extractLsb' 0 12)

/-- The 8-bit offset of a halfword transfer, in two nibbles (R119). -/
def halfwordImmOf (w : BitVec 32) : BitVec 8 :=
  cat 8 (w.extractLsb' 8 4) (w.extractLsb' 0 4)

/-! ## ARM words -/

/-- Rows 2, 3, 4 and their remainder in row 7: bits 27:25 = 000 and bits 7:4 = 1001. -/
def decodeMultiply (c : Cond) (w : BitVec 32) : Instr :=
  let r19 := w.extractLsb' 16 4
  let r15 := w.extractLsb' 12 4
  let r11 := w.extractLsb' 8 4
  let r3 := w.extractLsb' 0 4
  match w[24], w[23], w[22], w[21] with
  | false, false, false, false => .mul c w[20] r19 r15 r11 r3
  | false, false, false, true => .mla c w[20] r19 r15 r11 r3
  | false, true, false, false => .umull c w[20] r19 r15 r11 r3
  | false, true, false, true => .umlal c w[20] r19 r15 r11 r3
  | false, true, true, false => .smull c w[20] r19 r15 r11 r3
  | false, true, true, true => .smlal c w[20] r19 r15 r11 r3
  | true, false, b, false =>
    if !w[20] && r11 == 0#4 then
      if b then .swpb c r19 r15 r3 else .swp c r19 r15 r3
    else .notDefinedExtension c (w.extractLsb' 0 28)
  | _, _, _, _ => .notDefinedExtension c (w.extractLsb' 0 28)

/-- Row 6: a halfword transfer with an immediate offset. -/
def decodeHalfwordImm (c : Cond) (w : BitVec 32) : Instr :=
  let rn := w.extractLsb' 16 4
  let rd := w.extractLsb' 12 4
  let off := halfwordImmOf w
  if w[20] then
    if w[6] then
      if w[5] then .ldrshImm c w[24] w[23] w[21] rn rd off
      else .ldrsbImm c w[24] w[23] w[21] rn rd off
    else .ldrhImm c w[24] w[23] w[21] rn rd off
  else if w[6] then
    if w[5] then .signedStoreHalfImm c w[24] w[23] w[21] rn rd off
    else .signedStoreByteImm c w[24] w[23] w[21] rn rd off
  else .strhImm c w[24] w[23] w[21] rn rd off

/-- Row 5: a halfword transfer with a register offset. -/
def decodeHalfwordReg (c : Cond) (w : BitVec 32) : Instr :=
  let rn := w.extractLsb' 16 4
  let rd := w.extractLsb' 12 4
  let rm := w.extractLsb' 0 4
  if w[20] then
    if w[6] then
      if w[5] then .ldrshReg c w[24] w[23] w[21] rn rd rm
      else .ldrsbReg c w[24] w[23] w[21] rn rd rm
    else .ldrhReg c w[24] w[23] w[21] rn rd rm
  else if w[6] then
    if w[5] then .signedStoreHalfReg c w[24] w[23] w[21] rn rd rm
    else .signedStoreByteReg c w[24] w[23] w[21] rn rd rm
  else .strhReg c w[24] w[23] w[21] rn rd rm

/-- Rows 2 to 7: bits 27:25 = 000, bit 7 = 1 and bit 4 = 1. -/
def decodeExtension (c : Cond) (w : BitVec 32) : Instr :=
  if w[6] || w[5] then
    if w[22] then decodeHalfwordImm c w
    else if w.extractLsb' 8 4 == 0#4 then decodeHalfwordReg c w
    else .notDefinedExtension c (w.extractLsb' 0 28)
  else decodeMultiply c w

/-- Rows 1, 8 to 12: opcode 1000 to 1011 with S = 0. -/
def decodeTestWithoutS (c : Cond) (w : BitVec 32) : Instr :=
  let n4 := w.extractLsb' 16 4
  let n3 := w.extractLsb' 12 4
  let n2 := w.extractLsb' 8 4
  let n1 := w.extractLsb' 4 4
  let n0 := w.extractLsb' 0 4
  if w[25] then
    if w[21] && n4 == 8#4 && n3 == 15#4 then .msrFlgImm c w[22] n2 (w.extractLsb' 0 8)
    else .notDefinedTest c (w.extractLsb' 0 28)
  else if w[21] then
    if n3 == 15#4 && n2 == 0#4 && n1 == 0#4 && n4 == 9#4 then .msr c w[22] n0
    else if n3 == 15#4 && n2 == 0#4 && n1 == 0#4 && n4 == 8#4 then .msrFlg c w[22] n0
    else if !w[22] && n4 == 15#4 && n3 == 15#4 && n2 == 15#4 && n1 == 1#4 then .bx c n0
    else .notDefinedTest c (w.extractLsb' 0 28)
  else if n4 == 15#4 && n2 == 0#4 && n1 == 0#4 && n0 == 0#4 then .mrs c w[22] n3
  else .notDefinedTest c (w.extractLsb' 0 28)

/-- Row 13: the sixteen data processing opcodes (R180). -/
def decodeDataProcessing (c : Cond) (w : BitVec 32) : Instr :=
  let rn := w.extractLsb' 16 4
  let rd := w.extractLsb' 12 4
  let op2 := operand2Of w
  match w[24], w[23], w[22], w[21] with
  | false, false, false, false => .and c w[20] rn rd op2
  | false, false, false, true => .eor c w[20] rn rd op2
  | false, false, true, false => .sub c w[20] rn rd op2
  | false, false, true, true => .rsb c w[20] rn rd op2
  | false, true, false, false => .add c w[20] rn rd op2
  | false, true, false, true => .adc c w[20] rn rd op2
  | false, true, true, false => .sbc c w[20] rn rd op2
  | false, true, true, true => .rsc c w[20] rn rd op2
  | true, false, false, false => .tst c rn rd op2
  | true, false, false, true => .teq c rn rd op2
  | true, false, true, false => .cmp c rn rd op2
  | true, false, true, true => .cmn c rn rd op2
  | true, true, false, false => .orr c w[20] rn rd op2
  | true, true, false, true => .mov c w[20] rn rd op2
  | true, true, true, false => .bic c w[20] rn rd op2
  | true, true, true, true => .mvn c w[20] rn rd op2

/-- Row 15: the single data transfers (R120). -/
def decodeSingleTransfer (c : Cond) (w : BitVec 32) : Instr :=
  let rn := w.extractLsb' 16 4
  let rd := w.extractLsb' 12 4
  let off := offsetOf w
  let u := w[23]
  if !w[24] && w[21] then
    match w[22], w[20] with
    | false, false => .strt c u rn rd off
    | false, true => .ldrt c u rn rd off
    | true, false => .strbt c u rn rd off
    | true, true => .ldrbt c u rn rd off
  else
    let ix : Index := if w[24] then .pre w[21] else .post
    match w[22], w[20] with
    | false, false => .str c u ix rn rd off
    | false, true => .ldr c u ix rn rd off
    | true, false => .strb c u ix rn rd off
    | true, true => .ldrb c u ix rn rd off

/-- Row 16: the block data transfers, by L, P and U (R311). -/
def decodeBlockTransfer (c : Cond) (w : BitVec 32) : Instr :=
  let rn := w.extractLsb' 16 4
  let list := w.extractLsb' 0 16
  match w[20], w[24], w[23] with
  | true, false, true => .ldmia c w[22] w[21] rn list
  | true, true, true => .ldmib c w[22] w[21] rn list
  | true, false, false => .ldmda c w[22] w[21] rn list
  | true, true, false => .ldmdb c w[22] w[21] rn list
  | false, false, true => .stmia c w[22] w[21] rn list
  | false, true, true => .stmib c w[22] w[21] rn list
  | false, false, false => .stmda c w[22] w[21] rn list
  | false, true, false => .stmdb c w[22] w[21] rn list

/-- Row 18: LDC, STC (R124). -/
def decodeCoprocTransfer (c : Cond) (w : BitVec 32) : Instr :=
  let rn := w.extractLsb' 16 4
  let crd := w.extractLsb' 12 4
  let cp := w.extractLsb' 8 4
  let off := w.extractLsb' 0 8
  if w[20] then .ldc c w[24] w[23] w[22] w[21] rn crd cp off
  else .stc c w[24] w[23] w[22] w[21] rn crd cp off

/-- Rows 19 to 21: CDP, MRC, MCR, SWI (R123, R124). -/
def decodeCoprocOrSwi (c : Cond) (w : BitVec 32) : Instr :=
  let n4 := w.extractLsb' 16 4
  let n3 := w.extractLsb' 12 4
  let n2 := w.extractLsb' 8 4
  let info := w.extractLsb' 5 3
  let n0 := w.extractLsb' 0 4
  if w[24] then .swi c (w.extractLsb' 0 24)
  else if w[4] then
    if w[20] then .mrc c (w.extractLsb' 21 3) n4 n3 n2 info n0
    else .mcr c (w.extractLsb' 21 3) n4 n3 n2 info n0
  else .cdp c (w.extractLsb' 20 4) n4 n3 n2 info n0

/-- Bits 27:0 of a word whose condition field is not 1111 (R113). -/
def decodeConditional (c : Cond) (w : BitVec 32) : Instr :=
  match w[27], w[26], w[25] with
  | false, false, false =>
    if w[7] && w[4] then decodeExtension c w
    else if w[24] && !w[23] && !w[20] then decodeTestWithoutS c w
    else decodeDataProcessing c w
  | false, false, true =>
    if w[24] && !w[23] && !w[20] then decodeTestWithoutS c w
    else decodeDataProcessing c w
  | false, true, false => decodeSingleTransfer c w
  | false, true, true =>
    if w[4] then .undefined c (w.extractLsb' 5 20) (w.extractLsb' 0 4)
    else decodeSingleTransfer c w
  | true, false, false => decodeBlockTransfer c w
  | true, false, true =>
    if w[24] then .bl c (w.extractLsb' 0 24) else .b c (w.extractLsb' 0 24)
  | true, true, false => decodeCoprocTransfer c w
  | true, true, true => decodeCoprocOrSwi c w

/-- The instruction of a 32-bit word in ARM state (R113). -/
def decodeArm (w : BitVec 32) : Instr :=
  match condOf (w.extractLsb' 28 4) with
  | none => .reservedCondition (w.extractLsb' 0 28)
  | some c => decodeConditional c w

/-! ## THUMB halfwords -/

/-- Formats 1 and 2: bits 15:13 = 000 (R135). -/
def decodeShiftAdd (h : Half) : Instr :=
  let rs := h.extractLsb' 3 3
  let rd := h.extractLsb' 0 3
  let off5 := h.extractLsb' 6 5
  let r8 := h.extractLsb' 6 3
  match h[12], h[11] with
  | false, false => .tLslImm off5 rs rd
  | false, true => .tLsrImm off5 rs rd
  | true, false => .tAsrImm off5 rs rd
  | true, true =>
    match h[10], h[9] with
    | false, false => .tAddReg r8 rs rd
    | false, true => .tSubReg r8 rs rd
    | true, false => .tAddImm3 r8 rs rd
    | true, true => .tSubImm3 r8 rs rd

/-- Format 3: bits 15:13 = 001. -/
def decodeImmediate (h : Half) : Instr :=
  let rd := h.extractLsb' 8 3
  let off8 := h.extractLsb' 0 8
  match h[12], h[11] with
  | false, false => .tMovImm rd off8
  | false, true => .tCmpImm rd off8
  | true, false => .tAddImm rd off8
  | true, true => .tSubImm rd off8

/-- Format 4: bits 15:10 = 010000. -/
def decodeAlu (h : Half) : Instr :=
  let rs := h.extractLsb' 3 3
  let rd := h.extractLsb' 0 3
  match h[9], h[8], h[7], h[6] with
  | false, false, false, false => .tAnd rs rd
  | false, false, false, true => .tEor rs rd
  | false, false, true, false => .tLsl rs rd
  | false, false, true, true => .tLsr rs rd
  | false, true, false, false => .tAsr rs rd
  | false, true, false, true => .tAdc rs rd
  | false, true, true, false => .tSbc rs rd
  | false, true, true, true => .tRor rs rd
  | true, false, false, false => .tTst rs rd
  | true, false, false, true => .tNeg rs rd
  | true, false, true, false => .tCmp rs rd
  | true, false, true, true => .tCmn rs rd
  | true, true, false, false => .tOrr rs rd
  | true, true, false, true => .tMul rs rd
  | true, true, true, false => .tBic rs rd
  | true, true, true, true => .tMvn rs rd

/-- Format 5: bits 15:10 = 010001; the H bits extend the register fields (R402). -/
def decodeHiRegister (h : Half) : Instr :=
  let hs := h.extractLsb' 3 4
  let hd := cat 4 (BitVec.ofBool h[7]) (h.extractLsb' 0 3)
  match h[9], h[8] with
  | false, false => .tAddHi hs hd
  | false, true => .tCmpHi hs hd
  | true, false => .tMovHi hs hd
  | true, true => .tBx h[7] hs (h.extractLsb' 0 3)

/-- Formats 7 and 8: bits 15:12 = 0101. -/
def decodeRegisterOffset (h : Half) : Instr :=
  let ro := h.extractLsb' 6 3
  let rb := h.extractLsb' 3 3
  let rd := h.extractLsb' 0 3
  match h[11], h[10], h[9] with
  | false, false, false => .tStrReg ro rb rd
  | false, true, false => .tStrbReg ro rb rd
  | true, false, false => .tLdrReg ro rb rd
  | true, true, false => .tLdrbReg ro rb rd
  | false, false, true => .tStrhReg ro rb rd
  | false, true, true => .tLdsbReg ro rb rd
  | true, false, true => .tLdrhReg ro rb rd
  | true, true, true => .tLdshReg ro rb rd

/-- Format 9: bits 15:13 = 011. -/
def decodeImmediateOffset (h : Half) : Instr :=
  let off5 := h.extractLsb' 6 5
  let rb := h.extractLsb' 3 3
  let rd := h.extractLsb' 0 3
  match h[12], h[11] with
  | false, false => .tStrImm off5 rb rd
  | false, true => .tLdrImm off5 rb rd
  | true, false => .tStrbImm off5 rb rd
  | true, true => .tLdrbImm off5 rb rd

/-- Formats 13, 14 and the unallocated halfwords around them: bits 15:12 = 1011. -/
def decodeMiscellaneous (h : Half) : Instr :=
  match h[11], h[10], h[9] with
  | false, false, false =>
    if h[8] then .tFreeB1 (h.extractLsb' 0 8)
    else if h[7] then .tSpMinus (h.extractLsb' 0 7) else .tSpPlus (h.extractLsb' 0 7)
  | false, false, true => .tFreeB2 (h.extractLsb' 0 9)
  | false, true, false => if h[8] then .tPushLr (h.extractLsb' 0 8) else .tPush (h.extractLsb' 0 8)
  | false, true, true => .tFreeB6 (h.extractLsb' 0 9)
  | true, false, _ => .tFreeB8 (h.extractLsb' 0 10)
  | true, true, false => if h[8] then .tPopPc (h.extractLsb' 0 8) else .tPop (h.extractLsb' 0 8)
  | true, true, true => .tFreeBE (h.extractLsb' 0 9)

/-- Formats 16 and 17: bits 15:12 = 1101. -/
def decodeConditionalBranch (h : Half) : Instr :=
  let off := h.extractLsb' 0 8
  match h[11], h[10], h[9], h[8] with
  | false, false, false, false => .tBeq off
  | false, false, false, true => .tBne off
  | false, false, true, false => .tBcs off
  | false, false, true, true => .tBcc off
  | false, true, false, false => .tBmi off
  | false, true, false, true => .tBpl off
  | false, true, true, false => .tBvs off
  | false, true, true, true => .tBvc off
  | true, false, false, false => .tBhi off
  | true, false, false, true => .tBls off
  | true, false, true, false => .tBge off
  | true, false, true, true => .tBlt off
  | true, true, false, false => .tBgt off
  | true, true, false, true => .tBle off
  | true, true, true, false => .tCond1110 off
  | true, true, true, true => .tSwi off

/-- The instruction of a halfword in THUMB state (R136, R140). -/
def decodeThumb (h : Half) : Instr :=
  let r10 := h.extractLsb' 8 3
  let low8 := h.extractLsb' 0 8
  match h[15], h[14], h[13], h[12] with
  | false, false, false, _ => decodeShiftAdd h
  | false, false, true, _ => decodeImmediate h
  | false, true, false, false =>
    if h[11] then .tLdrPc r10 low8
    else if h[10] then decodeHiRegister h else decodeAlu h
  | false, true, false, true => decodeRegisterOffset h
  | false, true, true, _ => decodeImmediateOffset h
  | true, false, false, false =>
    if h[11] then .tLdrhImm (h.extractLsb' 6 5) (h.extractLsb' 3 3) (h.extractLsb' 0 3)
    else .tStrhImm (h.extractLsb' 6 5) (h.extractLsb' 3 3) (h.extractLsb' 0 3)
  | true, false, false, true => if h[11] then .tLdrSp r10 low8 else .tStrSp r10 low8
  | true, false, true, false => if h[11] then .tAddSp r10 low8 else .tAddPc r10 low8
  | true, false, true, true => decodeMiscellaneous h
  | true, true, false, false => if h[11] then .tLdmia r10 low8 else .tStmia r10 low8
  | true, true, false, true => decodeConditionalBranch h
  | true, true, true, false =>
    if h[11] then .tFreeE8 (h.extractLsb' 0 11) else .tB (h.extractLsb' 0 11)
  | true, true, true, true =>
    if h[11] then .tBlSecond (h.extractLsb' 0 11) else .tBlFirst (h.extractLsb' 0 11)

/-! ## Bytes -/

/-- Why bytes are no instruction. Every full word and halfword falls in a row, a reserved one at least, so this is the only reason. -/
inductive DecodeError where
  /-- Fewer bytes than the instruction set's unit: four in ARM state, two in THUMB state (R110). -/
  | tooFewBytes
  deriving DecidableEq, Repr

/-- The instruction at the head of a list of bytes in memory order, with the bytes that follow it; `thumb` is the T bit (R110). -/
def decode (thumb bigend : Bool) (bytes : List Byte) : Except DecodeError (Instr × List Byte) :=
  match thumb, bytes with
  | false, b0 :: b1 :: b2 :: b3 :: rest => .ok (decodeArm (joinWord bigend b0 b1 b2 b3), rest)
  | true, b0 :: b1 :: rest => .ok (decodeThumb (joinHalf bigend b0 b1), rest)
  | _, _ => .error .tooFewBytes

/-- The instruction of `nbits` bits `w`, numbered as spec/opcode_table.json numbers them: 32 bits are an ARM word, 16 bits a THUMB
halfword, laid out little-endian. -/
def decodeTableWord (nbits w : Nat) : Option Instr :=
  let bytes : Option (Bool × List Byte) :=
    if nbits = 32 then some (false, splitWord false (BitVec.ofNat 32 w))
    else if nbits = 16 then some (true, splitHalf false (BitVec.ofNat 16 w))
    else none
  match bytes with
  | none => none
  | some (thumb, bs) =>
    match decode thumb false bs with
    | .ok (i, _) => some i
    | .error _ => none

/-! ## The encoder -/

/-- An encoded instruction: a word for ARM state or a halfword for THUMB state (R110). -/
inductive Code where
  | arm (w : BitVec 32)
  | thumb (h : Half)
  deriving DecidableEq, Repr

/-- The instruction of a code. -/
def decodeCode : Code → Instr
  | .arm w => decodeArm w
  | .thumb h => decodeThumb h

/-- The condition field of a condition (R160). -/
def condBits : Cond → BitVec 4
  | .eq => 0#4 | .ne => 1#4 | .cs => 2#4 | .cc => 3#4 | .mi => 4#4 | .pl => 5#4 | .vs => 6#4 | .vc => 7#4
  | .hi => 8#4 | .ls => 9#4 | .ge => 10#4 | .lt => 11#4 | .gt => 12#4 | .le => 13#4 | .al => 14#4

/-- Four bits, the most significant first. -/
def nibble (b3 b2 b1 b0 : Bool) : BitVec 4 :=
  cat 4 (BitVec.ofBool b3) (cat 3 (BitVec.ofBool b2) (cat 2 (BitVec.ofBool b1) (BitVec.ofBool b0)))

/-- Bit 6 of a shift type (R115). -/
def ShiftType.bit6 : ShiftType → Bool
  | .lsl => false | .lsr => false | .asr => true | .ror => true

/-- Bit 5 of a shift type (R115). -/
def ShiftType.bit5 : ShiftType → Bool
  | .lsl => false | .lsr => true | .asr => false | .ror => true

/-- Bits 11:0 of a shift by an amount in the instruction, `Rm` the shifted register (R115). -/
def shiftField (ty : ShiftType) (amount : BitVec 5) (rm : RegNo) : BitVec 12 :=
  cat 12 amount (cat 7 (BitVec.ofBool ty.bit6) (cat 6 (BitVec.ofBool ty.bit5) (cat 5 0#1 rm)))

/-- The I bit of operand 2 (R114). -/
def Operand2.bit25 : Operand2 → Bool
  | .imm .. => true
  | .shiftImm .. => false
  | .shiftReg .. => false

/-- Bits 11:0 of operand 2 (R115, R116). -/
def Operand2.field : Operand2 → BitVec 12
  | .imm rotate imm8 => cat 12 rotate imm8
  | .shiftImm ty amount rm => shiftField ty amount rm
  | .shiftReg ty rs rm => cat 12 rs (cat 8 (nibble false ty.bit6 ty.bit5 true) rm)

/-- The I bit of a single data transfer, reversed against data processing (R120). -/
def Offset.bit25 : Offset → Bool
  | .imm _ => false
  | .reg .. => true

/-- Bits 11:0 of a single data transfer (R120). -/
def Offset.field : Offset → BitVec 12
  | .imm imm12 => imm12
  | .reg ty amount rm => shiftField ty amount rm

/-- The P bit of an index mode (R272). -/
def Index.p : Index → Bool
  | .pre _ => true
  | .post => false

/-- The W bit of an index mode (R272). -/
def Index.w : Index → Bool
  | .pre w => w
  | .post => false

/-- A data processing word (R112). -/
def encodeDp (c : Cond) (o3 o2 o1 o0 s : Bool) (rn rd : RegNo) (op2 : Operand2) : Code :=
  .arm (cat 32 (condBits c) (cat 28 (nibble false false op2.bit25 o3) (cat 24 (nibble o2 o1 o0 s) (cat 20 rn
      (cat 16 rd op2.field)))))

/-- A multiply or multiply long word (R112). -/
def encodeMul (c : Cond) (b23 b22 b21 s : Bool) (r19 r15 r11 r3 : RegNo) : Code :=
  .arm (cat 32 (condBits c) (cat 28 0#4 (cat 24 (nibble b23 b22 b21 s) (cat 20 r19 (cat 16 r15 (cat 12 r11
      (cat 8 9#4 r3)))))))

/-- A halfword transfer word with a register offset (R119). -/
def encodeHalfReg (c : Cond) (p u w l s h : Bool) (rn rd rm : RegNo) : Code :=
  .arm (cat 32 (condBits c) (cat 28 (nibble false false false p) (cat 24 (nibble u false w l) (cat 20 rn
      (cat 16 rd (cat 12 0#4 (cat 8 (nibble true s h true) rm)))))))

/-- A halfword transfer word with an immediate offset (R119). -/
def encodeHalfImm (c : Cond) (p u w l s h : Bool) (rn rd : RegNo) (off : BitVec 8) : Code :=
  .arm (cat 32 (condBits c) (cat 28 (nibble false false false p) (cat 24 (nibble u true w l) (cat 20 rn
      (cat 16 rd (cat 12 (off.extractLsb' 4 4) (cat 8 (nibble true s h true) (off.extractLsb' 0 4))))))))

/-- A single data transfer word (R120). -/
def encodeSingle (c : Cond) (p u b w l : Bool) (rn rd : RegNo) (off : Offset) : Code :=
  .arm (cat 32 (condBits c) (cat 28 (nibble false true off.bit25 p) (cat 24 (nibble u b w l) (cat 20 rn
      (cat 16 rd off.field)))))

/-- A block data transfer word (R121). -/
def encodeBlock (c : Cond) (p u s w l : Bool) (rn : RegNo) (list : BitVec 16) : Code :=
  .arm (cat 32 (condBits c) (cat 28 (nibble true false false p) (cat 24 (nibble u s w l) (cat 20 rn list))))

/-- A format 4 halfword (R135). -/
def encodeAlu (op : BitVec 4) (rs rd : LoReg) : Code :=
  .thumb (cat 16 16#6 (cat 10 op (cat 6 rs rd)))

/-- A format 5 halfword; the registers are `hs` = H2 :: Rs and H1 :: `rd` (R402). -/
def encodeHi (op : BitVec 2) (h1 : Bool) (hs : RegNo) (rd : BitVec 3) : Code :=
  .thumb (cat 16 17#6 (cat 10 op (cat 8 (BitVec.ofBool h1) (cat 7 hs rd))))

/-- A halfword of five fixed bits, a 5-bit field and two Lo registers (formats 1, 9, 10). -/
def encodeT5 (op : BitVec 5) (off5 : BitVec 5) (rs rd : LoReg) : Code :=
  .thumb (cat 16 op (cat 11 off5 (cat 6 rs rd)))

/-- A halfword of seven fixed bits and three 3-bit fields (formats 2, 7, 8). -/
def encodeT7 (op : BitVec 7) (r8 rs rd : BitVec 3) : Code :=
  .thumb (cat 16 op (cat 9 r8 (cat 6 rs rd)))

/-- A halfword of five fixed bits, a Lo register and an 8-bit field (formats 3, 6, 11, 12, 15). -/
def encodeT58 (op : BitVec 5) (rd : LoReg) (low8 : BitVec 8) : Code :=
  .thumb (cat 16 op (cat 11 rd low8))

/-- A halfword of eight fixed bits and an 8-bit field (formats 14, 16, 17). -/
def encodeT8 (op low8 : BitVec 8) : Code :=
  .thumb (cat 16 op low8)

/-- The word or halfword of an instruction. -/
def encode : Instr → Code
  | .reservedCondition bits => .arm (cat 32 15#4 bits)
  | .bx c rn => .arm (cat 32 (condBits c) (cat 28 0x12FFF1#24 rn))
  | .mul c s rd rn rs rm => encodeMul c false false false s rd rn rs rm
  | .mla c s rd rn rs rm => encodeMul c false false true s rd rn rs rm
  | .umull c s rdHi rdLo rs rm => encodeMul c true false false s rdHi rdLo rs rm
  | .umlal c s rdHi rdLo rs rm => encodeMul c true false true s rdHi rdLo rs rm
  | .smull c s rdHi rdLo rs rm => encodeMul c true true false s rdHi rdLo rs rm
  | .smlal c s rdHi rdLo rs rm => encodeMul c true true true s rdHi rdLo rs rm
  | .swp c rn rd rm => .arm (cat 32 (condBits c) (cat 28 0x10#8 (cat 20 rn (cat 16 rd (cat 12 9#8 rm)))))
  | .swpb c rn rd rm => .arm (cat 32 (condBits c) (cat 28 0x14#8 (cat 20 rn (cat 16 rd (cat 12 9#8 rm)))))
  | .strhReg c p u w rn rd rm => encodeHalfReg c p u w false false true rn rd rm
  | .strhImm c p u w rn rd off => encodeHalfImm c p u w false false true rn rd off
  | .ldrhReg c p u w rn rd rm => encodeHalfReg c p u w true false true rn rd rm
  | .ldrhImm c p u w rn rd off => encodeHalfImm c p u w true false true rn rd off
  | .ldrsbReg c p u w rn rd rm => encodeHalfReg c p u w true true false rn rd rm
  | .ldrsbImm c p u w rn rd off => encodeHalfImm c p u w true true false rn rd off
  | .ldrshReg c p u w rn rd rm => encodeHalfReg c p u w true true true rn rd rm
  | .ldrshImm c p u w rn rd off => encodeHalfImm c p u w true true true rn rd off
  | .signedStoreByteReg c p u w rn rd rm => encodeHalfReg c p u w false true false rn rd rm
  | .signedStoreByteImm c p u w rn rd off => encodeHalfImm c p u w false true false rn rd off
  | .signedStoreHalfReg c p u w rn rd rm => encodeHalfReg c p u w false true true rn rd rm
  | .signedStoreHalfImm c p u w rn rd off => encodeHalfImm c p u w false true true rn rd off
  | .notDefinedExtension c bits => .arm (cat 32 (condBits c) bits)
  | .mrs c spsr rd =>
    .arm (cat 32 (condBits c) (cat 28 1#4 (cat 24 (nibble false spsr false false) (cat 20 15#4 (cat 16 rd 0#12)))))
  | .msr c spsr rm =>
    .arm (cat 32 (condBits c) (cat 28 1#4 (cat 24 (nibble false spsr true false) (cat 20 9#4 (cat 16 15#4
      (cat 12 0#8 rm))))))
  | .msrFlg c spsr rm =>
    .arm (cat 32 (condBits c) (cat 28 1#4 (cat 24 (nibble false spsr true false) (cat 20 8#4 (cat 16 15#4
      (cat 12 0#8 rm))))))
  | .msrFlgImm c spsr rotate imm8 =>
    .arm (cat 32 (condBits c) (cat 28 3#4 (cat 24 (nibble false spsr true false) (cat 20 8#4 (cat 16 15#4
      (cat 12 rotate imm8))))))
  | .notDefinedTest c bits => .arm (cat 32 (condBits c) bits)
  | .and c s rn rd op2 => encodeDp c false false false false s rn rd op2
  | .eor c s rn rd op2 => encodeDp c false false false true s rn rd op2
  | .sub c s rn rd op2 => encodeDp c false false true false s rn rd op2
  | .rsb c s rn rd op2 => encodeDp c false false true true s rn rd op2
  | .add c s rn rd op2 => encodeDp c false true false false s rn rd op2
  | .adc c s rn rd op2 => encodeDp c false true false true s rn rd op2
  | .sbc c s rn rd op2 => encodeDp c false true true false s rn rd op2
  | .rsc c s rn rd op2 => encodeDp c false true true true s rn rd op2
  | .tst c rn rd op2 => encodeDp c true false false false true rn rd op2
  | .teq c rn rd op2 => encodeDp c true false false true true rn rd op2
  | .cmp c rn rd op2 => encodeDp c true false true false true rn rd op2
  | .cmn c rn rd op2 => encodeDp c true false true true true rn rd op2
  | .orr c s rn rd op2 => encodeDp c true true false false s rn rd op2
  | .mov c s rn rd op2 => encodeDp c true true false true s rn rd op2
  | .bic c s rn rd op2 => encodeDp c true true true false s rn rd op2
  | .mvn c s rn rd op2 => encodeDp c true true true true s rn rd op2
  | .undefined c high low => .arm (cat 32 (condBits c) (cat 28 3#3 (cat 25 high (cat 5 1#1 low))))
  | .ldrt c u rn rd off => encodeSingle c false u false true true rn rd off
  | .ldrbt c u rn rd off => encodeSingle c false u true true true rn rd off
  | .strt c u rn rd off => encodeSingle c false u false true false rn rd off
  | .strbt c u rn rd off => encodeSingle c false u true true false rn rd off
  | .ldr c u ix rn rd off => encodeSingle c ix.p u false ix.w true rn rd off
  | .ldrb c u ix rn rd off => encodeSingle c ix.p u true ix.w true rn rd off
  | .str c u ix rn rd off => encodeSingle c ix.p u false ix.w false rn rd off
  | .strb c u ix rn rd off => encodeSingle c ix.p u true ix.w false rn rd off
  | .ldmia c s w rn list => encodeBlock c false true s w true rn list
  | .ldmib c s w rn list => encodeBlock c true true s w true rn list
  | .ldmda c s w rn list => encodeBlock c false false s w true rn list
  | .ldmdb c s w rn list => encodeBlock c true false s w true rn list
  | .stmia c s w rn list => encodeBlock c false true s w false rn list
  | .stmib c s w rn list => encodeBlock c true true s w false rn list
  | .stmda c s w rn list => encodeBlock c false false s w false rn list
  | .stmdb c s w rn list => encodeBlock c true false s w false rn list
  | .b c offset => .arm (cat 32 (condBits c) (cat 28 10#4 offset))
  | .bl c offset => .arm (cat 32 (condBits c) (cat 28 11#4 offset))
  | .stc c p u n w rn crd cp off =>
    .arm (cat 32 (condBits c) (cat 28 (nibble true true false p) (cat 24 (nibble u n w false) (cat 20 rn
      (cat 16 crd (cat 12 cp off))))))
  | .ldc c p u n w rn crd cp off =>
    .arm (cat 32 (condBits c) (cat 28 (nibble true true false p) (cat 24 (nibble u n w true) (cat 20 rn
      (cat 16 crd (cat 12 cp off))))))
  | .cdp c opc crn crd cp info crm =>
    .arm (cat 32 (condBits c) (cat 28 14#4 (cat 24 opc (cat 20 crn (cat 16 crd (cat 12 cp (cat 8 info
      (cat 5 0#1 crm))))))))
  | .mcr c opc crn rd cp info crm =>
    .arm (cat 32 (condBits c) (cat 28 14#4 (cat 24 opc (cat 21 0#1 (cat 20 crn (cat 16 rd (cat 12 cp
      (cat 8 info (cat 5 1#1 crm)))))))))
  | .mrc c opc crn rd cp info crm =>
    .arm (cat 32 (condBits c) (cat 28 14#4 (cat 24 opc (cat 21 1#1 (cat 20 crn (cat 16 rd (cat 12 cp
      (cat 8 info (cat 5 1#1 crm)))))))))
  | .swi c comment => .arm (cat 32 (condBits c) (cat 28 15#4 comment))
  | .tLslImm off rs rd => encodeT5 0#5 off rs rd
  | .tLsrImm off rs rd => encodeT5 1#5 off rs rd
  | .tAsrImm off rs rd => encodeT5 2#5 off rs rd
  | .tAddReg rn rs rd => encodeT7 0x0C#7 rn rs rd
  | .tSubReg rn rs rd => encodeT7 0x0D#7 rn rs rd
  | .tAddImm3 off rs rd => encodeT7 0x0E#7 off rs rd
  | .tSubImm3 off rs rd => encodeT7 0x0F#7 off rs rd
  | .tMovImm rd off => encodeT58 4#5 rd off
  | .tCmpImm rd off => encodeT58 5#5 rd off
  | .tAddImm rd off => encodeT58 6#5 rd off
  | .tSubImm rd off => encodeT58 7#5 rd off
  | .tAnd rs rd => encodeAlu 0#4 rs rd
  | .tEor rs rd => encodeAlu 1#4 rs rd
  | .tLsl rs rd => encodeAlu 2#4 rs rd
  | .tLsr rs rd => encodeAlu 3#4 rs rd
  | .tAsr rs rd => encodeAlu 4#4 rs rd
  | .tAdc rs rd => encodeAlu 5#4 rs rd
  | .tSbc rs rd => encodeAlu 6#4 rs rd
  | .tRor rs rd => encodeAlu 7#4 rs rd
  | .tTst rs rd => encodeAlu 8#4 rs rd
  | .tNeg rs rd => encodeAlu 9#4 rs rd
  | .tCmp rs rd => encodeAlu 10#4 rs rd
  | .tCmn rs rd => encodeAlu 11#4 rs rd
  | .tOrr rs rd => encodeAlu 12#4 rs rd
  | .tMul rs rd => encodeAlu 13#4 rs rd
  | .tBic rs rd => encodeAlu 14#4 rs rd
  | .tMvn rs rd => encodeAlu 15#4 rs rd
  | .tAddHi hs hd => encodeHi 0#2 hd[3] hs (hd.extractLsb' 0 3)
  | .tCmpHi hs hd => encodeHi 1#2 hd[3] hs (hd.extractLsb' 0 3)
  | .tMovHi hs hd => encodeHi 2#2 hd[3] hs (hd.extractLsb' 0 3)
  | .tBx h1 hs low => encodeHi 3#2 h1 hs low
  | .tLdrPc rd word8 => encodeT58 9#5 rd word8
  | .tStrReg ro rb rd => encodeT7 0x28#7 ro rb rd
  | .tStrbReg ro rb rd => encodeT7 0x2A#7 ro rb rd
  | .tLdrReg ro rb rd => encodeT7 0x2C#7 ro rb rd
  | .tLdrbReg ro rb rd => encodeT7 0x2E#7 ro rb rd
  | .tStrhReg ro rb rd => encodeT7 0x29#7 ro rb rd
  | .tLdsbReg ro rb rd => encodeT7 0x2B#7 ro rb rd
  | .tLdrhReg ro rb rd => encodeT7 0x2D#7 ro rb rd
  | .tLdshReg ro rb rd => encodeT7 0x2F#7 ro rb rd
  | .tStrImm off rb rd => encodeT5 12#5 off rb rd
  | .tLdrImm off rb rd => encodeT5 13#5 off rb rd
  | .tStrbImm off rb rd => encodeT5 14#5 off rb rd
  | .tLdrbImm off rb rd => encodeT5 15#5 off rb rd
  | .tStrhImm off rb rd => encodeT5 16#5 off rb rd
  | .tLdrhImm off rb rd => encodeT5 17#5 off rb rd
  | .tStrSp rd word8 => encodeT58 18#5 rd word8
  | .tLdrSp rd word8 => encodeT58 19#5 rd word8
  | .tAddPc rd word8 => encodeT58 20#5 rd word8
  | .tAddSp rd word8 => encodeT58 21#5 rd word8
  | .tSpPlus off => .thumb (cat 16 0x160#9 off)
  | .tSpMinus off => .thumb (cat 16 0x161#9 off)
  | .tPush list => encodeT8 0xB4#8 list
  | .tPushLr list => encodeT8 0xB5#8 list
  | .tPop list => encodeT8 0xBC#8 list
  | .tPopPc list => encodeT8 0xBD#8 list
  | .tStmia rb list => encodeT58 24#5 rb list
  | .tLdmia rb list => encodeT58 25#5 rb list
  | .tBeq off => encodeT8 0xD0#8 off
  | .tBne off => encodeT8 0xD1#8 off
  | .tBcs off => encodeT8 0xD2#8 off
  | .tBcc off => encodeT8 0xD3#8 off
  | .tBmi off => encodeT8 0xD4#8 off
  | .tBpl off => encodeT8 0xD5#8 off
  | .tBvs off => encodeT8 0xD6#8 off
  | .tBvc off => encodeT8 0xD7#8 off
  | .tBhi off => encodeT8 0xD8#8 off
  | .tBls off => encodeT8 0xD9#8 off
  | .tBge off => encodeT8 0xDA#8 off
  | .tBlt off => encodeT8 0xDB#8 off
  | .tBgt off => encodeT8 0xDC#8 off
  | .tBle off => encodeT8 0xDD#8 off
  | .tCond1110 low => encodeT8 0xDE#8 low
  | .tSwi value => encodeT8 0xDF#8 value
  | .tB offset => .thumb (cat 16 28#5 offset)
  | .tBlFirst offset => .thumb (cat 16 30#5 offset)
  | .tBlSecond offset => .thumb (cat 16 31#5 offset)
  | .tFreeB1 low => .thumb (cat 16 0xB1#8 low)
  | .tFreeB2 low => .thumb (cat 16 0x59#7 low)
  | .tFreeB6 low => .thumb (cat 16 0x5B#7 low)
  | .tFreeB8 low => .thumb (cat 16 0x2E#6 low)
  | .tFreeBE low => .thumb (cat 16 0x5F#7 low)
  | .tFreeE8 low => .thumb (cat 16 29#5 low)

/-- The bytes of an instruction in memory order, for a byte order (R72, R73, R85). -/
def encodeBytes (bigend : Bool) (i : Instr) : List Byte :=
  match encode i with
  | .arm w => splitWord bigend w
  | .thumb h => splitHalf bigend h

end Sys2Proof
end

