-- ==== Sys2Proof/Machine/State.lean ====
section
/-!
DEFINITION. The state of the machine, as plain data: every piece of state spec/ gives it (INVENTORY.md, State), the reasons a step can
stop, and the state after reset.
-/

namespace Sys2Proof.Machine

/-! ## Processor modes and registers -/

/-- The seven processor modes (R41; from the family, log entry 20). -/
inductive Mode where
  | usr | fiq | irq | svc | abt | und | sys
  deriving DecidableEq, Repr

/-- The thirty physical registers behind the names R0 to R14 (R23; log entry 20). -/
inductive PhysReg where
  | r0 | r1 | r2 | r3 | r4 | r5 | r6 | r7
  | r8 | r9 | r10 | r11 | r12 | r13 | r14
  | r8Fiq | r9Fiq | r10Fiq | r11Fiq | r12Fiq | r13Fiq | r14Fiq
  | r13Svc | r14Svc | r13Abt | r14Abt | r13Und | r14Und | r13Irq | r14Irq
  deriving DecidableEq, Repr

/-- The contents of the physical registers (R20, R23). Fields without a mode suffix are the User bank. -/
structure Regs where
  r0 : Word
  r1 : Word
  r2 : Word
  r3 : Word
  r4 : Word
  r5 : Word
  r6 : Word
  r7 : Word
  r8 : Word
  r9 : Word
  r10 : Word
  r11 : Word
  r12 : Word
  r13 : Word
  r14 : Word
  r8Fiq : Word
  r9Fiq : Word
  r10Fiq : Word
  r11Fiq : Word
  r12Fiq : Word
  r13Fiq : Word
  r14Fiq : Word
  r13Svc : Word
  r14Svc : Word
  r13Abt : Word
  r14Abt : Word
  r13Und : Word
  r14Und : Word
  r13Irq : Word
  r14Irq : Word
  deriving DecidableEq, Repr

/-- The current program status register: its twelve defined bits (R35, R38). The mode field holds a legal mode (R41). -/
structure Cpsr where
  n : Bool
  z : Bool
  c : Bool
  v : Bool
  i : Bool
  f : Bool
  t : Bool
  mode : Mode
  deriving DecidableEq, Repr

/-- A saved program status register: the twelve defined bits, the mode field as software wrote it, legal or not (R42, R239). -/
structure Psr where
  n : Bool
  z : Bool
  c : Bool
  v : Bool
  i : Bool
  f : Bool
  t : Bool
  m : BitVec 5
  deriving DecidableEq, Repr

/-- The modes that have an SPSR (R42). -/
inductive SpsrMode where
  | fiq | svc | abt | irq | und
  deriving DecidableEq, Repr

/-- The five saved program status registers (R42). -/
structure Spsrs where
  fiq : Psr
  svc : Psr
  abt : Psr
  irq : Psr
  und : Psr
  deriving DecidableEq, Repr

/-! ## What the outside of the core supplies -/

/-- Addresses `first` to `last` for which the memory manager refuses the marked kinds of access: a finite description of
`AbortOracle(addr, size, kind)` (R8, R90; log entry 9). -/
structure AbortRegion where
  first : Word
  last : Word
  fetch : Bool
  read : Bool
  write : Bool
  privileged : Bool
  nonPrivileged : Bool
  byteAccess : Bool
  halfAccess : Bool
  wordAccess : Bool
  deriving DecidableEq, Repr

/-- What a part of the address space holds that is no memory (R8, R86; log entry 5). -/
inductive MapKind where
  /-- Nothing answers there (U30). -/
  | nothing
  /-- A device: a read returns what it answers (R74), and what it does is outside the model (R7 (a)). -/
  | device
  deriving DecidableEq, Repr

/-- Addresses `first` to `last` that hold no memory: one row of `MemMap` (R8, R86; log entry 5). -/
structure MapRegion where
  first : Word
  last : Word
  kind : MapKind
  deriving DecidableEq, Repr

/-- The inputs of the core at one instruction boundary (R500, R540; log entry 8): the reset, FIQ and IRQ lines, and a new list of
abort regions where the memory manager changes them. -/
structure Sample where
  reset : Bool
  fiq : Bool
  irq : Bool
  aborts : Option (List AbortRegion)
  deriving DecidableEq, Repr

/-- Which of the already fetched instructions a store has overwritten since their fetch (R98, R552; log entry 18): the one at the
program counter, the one after it, and the one after that. -/
structure Prefetch where
  current : Bool
  following : Bool
  afterNext : Bool
  deriving DecidableEq, Repr

/-! ## The state -/

/-- The whole state of the machine. -/
structure State where
  /-- The physical registers (R20, R23). -/
  regs : Regs
  /-- R15, held as the address `ia` of the instruction to execute (R29). -/
  pc : Word
  /-- The CPSR (R35). -/
  cpsr : Cpsr
  /-- The SPSRs (R42). -/
  spsrs : Spsrs
  /-- Memory, in the canonical form of `Memory.wf` (R47, R70). -/
  mem : List Host.Cell
  /-- The BIGEND input: true is big-endian (R71). -/
  bigend : Bool
  /-- `MemMap`: the addresses that hold no memory; every other address is RAM (R8, R86). -/
  memMap : List MapRegion
  /-- The accesses the memory manager refuses (R90). -/
  aborts : List AbortRegion
  /-- The samples of the input lines at the coming boundaries; none left is quiet lines (R500). -/
  inputs : List Sample
  /-- The overwritten-prefetch marks (R98). -/
  prefetch : Prefetch
  /-- Set for one instruction after a user-bank LDM (R50, R551). -/
  bankHazard : Bool
  /-- The model's own counter of free values drawn (log entry 37). -/
  draws : Nat
  deriving DecidableEq, Repr

/-! ## Why a step stops -/

/-- Hazards that software must avoid and accesses where nothing answers: the spec gives them no effect. Safe: the model stops where the
hardware goes on in one of the ways the spec leaves open. -/
inductive Fault where
  /-- Execution reached an instruction that a store overwrote after its fetch (R98, R552; log entry 18). Raised by `step`. Safe. -/
  | overwrittenPrefetch
  /-- The instruction after a user-bank LDM touches a banked register (R551; log entry 19). Raised by `step`. Safe. -/
  | bankedRegisterAfterUserLdm
  /-- An access the memory manager did not refuse, to an address where `MemMap` has nothing (R74, U30; log entry 5). Raised by `step` for
  a fetch, by every load and store. Safe. -/
  | unmappedAddress
  deriving DecidableEq, Repr

/-- Encodings and operands that the spec calls UNPREDICTABLE and refuses (93_implementation_defined.md; log entry 14). Each is
raised by the meaning of the instruction it names, after its condition passed. Safe: the model stops where the hardware does
something the spec does not say. -/
inductive Refusal where
  /-- Not modelled: raised by an arm of `exec` only. Safe. -/
  | notModelled (mnemonic : String)
  /-- Condition field 1111 (R132 (a), U1). Raised by the row of that name whatever the flags. Safe. -/
  | reservedCondition
  /-- A decode row 7 or 12 encoding (R132 (b), (c), U2). Raised by the two not-defined rows. Safe. -/
  | notDefinedEncoding
  /-- BX R15 in ARM state (R163, U4). Raised by ARM BX. Safe. -/
  | bxPcOperand
  /-- BX to ARM state with bits 1:0 = 10 (R164, U5). Raised by ARM and THUMB BX. Safe. -/
  | bxTargetMisaligned
  /-- R15 as the shift amount register (R188, U6). Raised by data processing. Safe. -/
  | shiftAmountR15
  /-- An SPSR named or copied in User or System mode (R197, R198, R235, R319, U7, U8, U10). Raised by data processing, MRS, MSR,
  LDM. Safe. -/
  | noSpsr
  /-- R15 as operand of a PSR transfer (R236, U9). Raised by MRS, MSR. Safe. -/
  | psrTransferR15
  /-- MSR that changes T (R237, U11). Raised by MSR to the whole CPSR. Safe. -/
  | msrChangesT
  /-- An illegal mode value reaching the CPSR (R41, R239, U12). Raised by MSR and by every SPSR-to-CPSR copy. Safe. -/
  | illegalMode
  /-- MUL or MLA with Rd = Rm or R15 (R256, U14). Raised by MUL, MLA. Safe. -/
  | multiplyOperands
  /-- Long multiply with R15 or registers not distinct (R263, U15). Raised by the long multiplies. Safe. -/
  | multiplyLongOperands
  /-- Write-back to R15 as base (R281, R300, U17, U22). Raised by single and halfword transfers. Safe. -/
  | writebackR15
  /-- R15 as register offset (R281, R300, U17, U22). Raised by single and halfword transfers. Safe. -/
  | offsetR15
  /-- Rd = Rn with write-back (R282, U18). Raised by single, halfword and signed transfers. Safe. -/
  | transferredBase
  /-- Post-indexed LDR or STR with Rm = Rn (R283, U19). Raised by single transfers. Safe. -/
  | postIndexOffsetIsBase
  /-- Halfword transfer with P = 0 and W = 1 (R296, U20). Raised by halfword transfers. Safe. -/
  | postIndexWriteBit
  /-- Signed store (R297, U21). Raised by the four signed store rows. Safe. -/
  | signedStore
  /-- Halfword load or store at an odd address (R79, R298, U23). Raised by LDRH, LDRSH, STRH, ARM and THUMB. Safe. -/
  | oddHalfword
  /-- LDM or STM with the S bit in User mode (R322, U24). Raised by LDM, STM. Safe. -/
  | sBitInUserMode
  /-- User-bank transfer with write-back (R320, R321, U24). Raised by LDM, STM. Safe. -/
  | userBankWriteback
  /-- Empty register list (R323, R453, U25). Raised by LDM, STM, PUSH, POP, STMIA, LDMIA. Safe. -/
  | emptyRegisterList
  /-- R15 as base of a block transfer (R324, U26). Raised by LDM, STM. Safe. -/
  | blockBaseR15
  /-- R15 as operand of a swap (R342, U27). Raised by SWP, SWPB. Safe. -/
  | swapR15
  /-- Format 5 ADD, CMP, MOV with H1 = H2 = 0 (R140 (a), R402, U28). Raised by those. Safe. -/
  | hiRegisterBothLow
  /-- Format 5 BX with H1 = 1 (R140 (b), R413, U28). Raised by THUMB BX. Safe. -/
  | thumbBxH1
  /-- THUMB BX PC at an address that is not word aligned (R412, U28). Raised by THUMB BX. Safe. -/
  | thumbBxPcUnaligned
  /-- THUMB MUL with Rd = Rs (R398, U28). Raised by THUMB MUL. Safe. -/
  | thumbMultiplySame
  /-- Format 16 with Cond = 1110 (R140 (c), R462, U28). Raised by that row. Safe. -/
  | thumbCond1110
  /-- A halfword that matches no THUMB format (R140 (d), U28). Raised by the six not-allocated rows. Safe. -/
  | thumbNotAllocated
  deriving DecidableEq, Repr

/-! ## Reset -/

/-- Every register 0: the spec gives them no reset value (R51; DESIGN CHOICE, unsafe, log entry 1). -/
def Regs.zero : Regs :=
  { r0 := 0, r1 := 0, r2 := 0, r3 := 0, r4 := 0, r5 := 0, r6 := 0, r7 := 0, r8 := 0, r9 := 0, r10 := 0, r11 := 0, r12 := 0,
    r13 := 0, r14 := 0, r8Fiq := 0, r9Fiq := 0, r10Fiq := 0, r11Fiq := 0, r12Fiq := 0, r13Fiq := 0, r14Fiq := 0,
    r13Svc := 0, r14Svc := 0, r13Abt := 0, r14Abt := 0, r13Und := 0, r14Und := 0, r13Irq := 0, r14Irq := 0 }

/-- Every bit 0: the spec gives the SPSRs no reset value (R51; DESIGN CHOICE, unsafe, log entry 3). -/
def Psr.zero : Psr :=
  { n := false, z := false, c := false, v := false, i := false, f := false, t := false, m := 0 }

/-- No fetched instruction is overwritten. -/
def Prefetch.fresh : Prefetch :=
  { current := false, following := false, afterNext := false }

/-- The machine after reset (R51, R540): pc 0, Supervisor mode, I = F = 1, T = 0. What the spec leaves unspecified holds the
values of log entries 1 to 6, 8, 9, 18, 19 and 37. -/
def State.reset : State :=
  { regs := Regs.zero
    pc := 0
    cpsr := { n := false, z := false, c := false, v := false, i := true, f := true, t := false, mode := .svc }
    spsrs := { fiq := Psr.zero, svc := Psr.zero, abt := Psr.zero, irq := Psr.zero, und := Psr.zero }
    mem := []
    bigend := false
    memMap := []
    aborts := []
    inputs := []
    prefetch := Prefetch.fresh
    bankHazard := false
    draws := 0 }

end Sys2Proof.Machine
end

