-- ==== Sys2Proof/Machine/Ops.lean ====
section
/-!
DEFINITION. The named operations over registers, status registers and memory, taking an exception and returning from one, and the
fetch of an instruction. Every meaning is written over these.
-/

namespace Sys2Proof.Machine

/-- What a meaning answers. -/
abbrev Result := Host.Outcome State Fault Refusal

/-! ## Modes -/

/-- The M[4:0] code of a mode (R41; log entry 20). -/
def Mode.code : Mode → BitVec 5
  | .usr => 0b10000#5
  | .fiq => 0b10001#5
  | .irq => 0b10010#5
  | .svc => 0b10011#5
  | .abt => 0b10111#5
  | .und => 0b11011#5
  | .sys => 0b11111#5

/-- The mode of an M[4:0] value; none for an illegal one (R41). -/
def Mode.ofCode (m : BitVec 5) : Option Mode :=
  if m = Mode.usr.code then some .usr
  else if m = Mode.fiq.code then some .fiq
  else if m = Mode.irq.code then some .irq
  else if m = Mode.svc.code then some .svc
  else if m = Mode.abt.code then some .abt
  else if m = Mode.und.code then some .und
  else if m = Mode.sys.code then some .sys
  else none

/-- Every mode but User is privileged (R41). -/
def Mode.privileged : Mode → Bool
  | .usr => false
  | .fiq => true
  | .irq => true
  | .svc => true
  | .abt => true
  | .und => true
  | .sys => true

/-- The SPSR of a mode; User and System have none (R42). -/
def Mode.spsr : Mode → Option SpsrMode
  | .usr => none
  | .fiq => some .fiq
  | .irq => some .irq
  | .svc => some .svc
  | .abt => some .abt
  | .und => some .und
  | .sys => none

/-! ## General registers -/

/-- The content of a physical register. -/
def Regs.get (g : Regs) : PhysReg → Word
  | .r0 => g.r0 | .r1 => g.r1 | .r2 => g.r2 | .r3 => g.r3
  | .r4 => g.r4 | .r5 => g.r5 | .r6 => g.r6 | .r7 => g.r7
  | .r8 => g.r8 | .r9 => g.r9 | .r10 => g.r10 | .r11 => g.r11
  | .r12 => g.r12 | .r13 => g.r13 | .r14 => g.r14
  | .r8Fiq => g.r8Fiq | .r9Fiq => g.r9Fiq | .r10Fiq => g.r10Fiq | .r11Fiq => g.r11Fiq
  | .r12Fiq => g.r12Fiq | .r13Fiq => g.r13Fiq | .r14Fiq => g.r14Fiq
  | .r13Svc => g.r13Svc | .r14Svc => g.r14Svc
  | .r13Abt => g.r13Abt | .r14Abt => g.r14Abt
  | .r13Und => g.r13Und | .r14Und => g.r14Und
  | .r13Irq => g.r13Irq | .r14Irq => g.r14Irq

/-- The registers with one physical register replaced. -/
def Regs.set (g : Regs) (r : PhysReg) (v : Word) : Regs :=
  match r with
  | .r0 => { g with r0 := v }
  | .r1 => { g with r1 := v }
  | .r2 => { g with r2 := v }
  | .r3 => { g with r3 := v }
  | .r4 => { g with r4 := v }
  | .r5 => { g with r5 := v }
  | .r6 => { g with r6 := v }
  | .r7 => { g with r7 := v }
  | .r8 => { g with r8 := v }
  | .r9 => { g with r9 := v }
  | .r10 => { g with r10 := v }
  | .r11 => { g with r11 := v }
  | .r12 => { g with r12 := v }
  | .r13 => { g with r13 := v }
  | .r14 => { g with r14 := v }
  | .r8Fiq => { g with r8Fiq := v }
  | .r9Fiq => { g with r9Fiq := v }
  | .r10Fiq => { g with r10Fiq := v }
  | .r11Fiq => { g with r11Fiq := v }
  | .r12Fiq => { g with r12Fiq := v }
  | .r13Fiq => { g with r13Fiq := v }
  | .r14Fiq => { g with r14Fiq := v }
  | .r13Svc => { g with r13Svc := v }
  | .r14Svc => { g with r14Svc := v }
  | .r13Abt => { g with r13Abt := v }
  | .r14Abt => { g with r14Abt := v }
  | .r13Und => { g with r13Und := v }
  | .r14Und => { g with r14Und := v }
  | .r13Irq => { g with r13Irq := v }
  | .r14Irq => { g with r14Irq := v }

/-- R13 of a mode (R23). -/
def stackReg : Mode → PhysReg
  | .usr => .r13
  | .sys => .r13
  | .fiq => .r13Fiq
  | .irq => .r13Irq
  | .svc => .r13Svc
  | .abt => .r13Abt
  | .und => .r13Und

/-- R14 of a mode (R23). -/
def linkReg : Mode → PhysReg
  | .usr => .r14
  | .sys => .r14
  | .fiq => .r14Fiq
  | .irq => .r14Irq
  | .svc => .r14Svc
  | .abt => .r14Abt
  | .und => .r14Und

/-- The physical register a register number names in a mode; none for R15 (R23). -/
def physReg (m : Mode) (i : RegNo) : Option PhysReg :=
  match i.toNat with
  | 0 => some .r0
  | 1 => some .r1
  | 2 => some .r2
  | 3 => some .r3
  | 4 => some .r4
  | 5 => some .r5
  | 6 => some .r6
  | 7 => some .r7
  | 8 => some (if m = .fiq then .r8Fiq else .r8)
  | 9 => some (if m = .fiq then .r9Fiq else .r9)
  | 10 => some (if m = .fiq then .r10Fiq else .r10)
  | 11 => some (if m = .fiq then .r11Fiq else .r11)
  | 12 => some (if m = .fiq then .r12Fiq else .r12)
  | 13 => some (stackReg m)
  | 14 => some (linkReg m)
  | _ => none

/-- The state with one physical register replaced. -/
def State.setPhys (s : State) (r : PhysReg) (v : Word) : State :=
  { s with regs := s.regs.set r v }

/-- `Ri` as the bank `m` names it, R15 reading as `ia + ahead` (R23, R24, R30). -/
def State.bankReg (s : State) (m : Mode) (ahead : Word) (i : RegNo) : Word :=
  match physReg m i with
  | some r => s.regs.get r
  | none => s.pc + ahead

/-- `x[i]` of the current mode, R15 reading as `ia + ahead` (R11, R30). -/
def State.reg (s : State) (ahead : Word) (i : RegNo) : Word :=
  s.bankReg s.cpsr.mode ahead i

/-- `x[i] <- v` for R0 to R14 of the current mode (R11). R15 is written by `branch`, never here. -/
def State.setReg (s : State) (i : RegNo) (v : Word) : State :=
  match physReg s.cpsr.mode i with
  | some r => s.setPhys r v
  | none => s

/-! ## The program counter -/

/-- The length of an instruction in bytes (R29, R110). -/
def State.width (s : State) : Word :=
  if s.cpsr.t then 2 else 4

/-- The address bits the fetch keeps (R31; decision D7; log entry 16). -/
def alignPc (thumb : Bool) (a : Word) : Word :=
  if thumb then a &&& 0xFFFFFFFE#32 else a &&& 0xFFFFFFFC#32

/-- One instruction further along the fetched ones (R98). -/
def Prefetch.shift (p : Prefetch) : Prefetch :=
  { current := p.following, following := p.afterNext, afterNext := false }

/-- Sequential execution: the next instruction is at `ia + 4` or `ia + 2` (R29). -/
def State.advance (s : State) : State :=
  { s with pc := s.pc + s.width, prefetch := s.prefetch.shift }

/-- `pc <- t`, which refetches (R31, R98). -/
def State.branch (s : State) (t : Word) : State :=
  { s with pc := alignPc s.cpsr.t t, prefetch := Prefetch.fresh }

/-- The end of an instruction whose result goes to `rd`: a branch for R15 (R196), a register write otherwise (R182). -/
def State.finish (s : State) (rd : RegNo) (v : Word) : State :=
  if rd = PC then s.branch v else (s.setReg rd v).advance

/-- The branch of BX: bit 0 is the new T, and an ARM target has bit 1 clear (R162, R164, R411). -/
def State.exchange (s : State) (t : Word) : Result :=
  if t[0] then .next ({ s with cpsr := { s.cpsr with t := true } }.branch t)
  else if t[1] then .refused .bxTargetMisaligned
  else .next ({ s with cpsr := { s.cpsr with t := false } }.branch t)

/-! ## Status registers -/

/-- The CPSR as a PSR (R35). -/
def Cpsr.toPsr (p : Cpsr) : Psr :=
  { n := p.n, z := p.z, c := p.c, v := p.v, i := p.i, f := p.f, t := p.t, m := p.mode.code }

/-- A PSR as a CPSR; none when its mode field is illegal (R41, R239). -/
def Psr.toCpsr (p : Psr) : Option Cpsr :=
  match Mode.ofCode p.m with
  | none => none
  | some mode => some { n := p.n, z := p.z, c := p.c, v := p.v, i := p.i, f := p.f, t := p.t, mode := mode }

/-- The 32-bit PSR word, with what its reserved bits 27:8 read as (R35, R38). -/
def Psr.toWord (p : Psr) (reserved : BitVec 20) : Word :=
  cat 32 (BitVec.ofBool p.n) (cat 31 (BitVec.ofBool p.z) (cat 30 (BitVec.ofBool p.c) (cat 29 (BitVec.ofBool p.v)
    (cat 28 reserved (cat 8 (BitVec.ofBool p.i) (cat 7 (BitVec.ofBool p.f) (cat 6 (BitVec.ofBool p.t) p.m)))))))

/-- The PSR that a word stands for; bits 27:8 are discarded (R35, R38). -/
def Psr.ofWord (w : Word) : Psr :=
  { n := w[31], z := w[30], c := w[29], v := w[28], i := w[7], f := w[6], t := w[5], m := w.extractLsb' 0 5 }

/-- The flags of a PSR from bits 31:28 of a word (R233, R234). -/
def Psr.withFlagsOf (p : Psr) (w : Word) : Psr :=
  { p with n := w[31], z := w[30], c := w[29], v := w[28] }

/-- The flags of the CPSR from bits 31:28 of a word (R232 to R234). -/
def Cpsr.withFlagsOf (p : Cpsr) (w : Word) : Cpsr :=
  { p with n := w[31], z := w[30], c := w[29], v := w[28] }

/-- The SPSR of an exception mode (R42). -/
def Spsrs.get (g : Spsrs) : SpsrMode → Psr
  | .fiq => g.fiq
  | .svc => g.svc
  | .abt => g.abt
  | .irq => g.irq
  | .und => g.und

/-- The SPSRs with one replaced. -/
def Spsrs.set (g : Spsrs) (k : SpsrMode) (p : Psr) : Spsrs :=
  match k with
  | .fiq => { g with fiq := p }
  | .svc => { g with svc := p }
  | .abt => { g with abt := p }
  | .irq => { g with irq := p }
  | .und => { g with und := p }

/-- The SPSR of the current mode (R11, R42). -/
def State.spsr (s : State) : Option Psr :=
  s.cpsr.mode.spsr.map s.spsrs.get

/-- A state after one more free value was drawn (log entry 37). -/
def State.drawn (s : State) : State :=
  { s with draws := s.draws + 1 }

/-! ## Taking an exception and returning from one -/

/-- The exceptions other than Reset (R480, R481). -/
inductive Exc where
  | undefined | swi | prefetchAbort | dataAbort | irq | fiq
  deriving DecidableEq, Repr

/-- The vector address (R481; log entry 21). -/
def Exc.vector : Exc → Word
  | .undefined => 0x04#32
  | .swi => 0x08#32
  | .prefetchAbort => 0x0C#32
  | .dataAbort => 0x10#32
  | .irq => 0x18#32
  | .fiq => 0x1C#32

/-- The exception mode entered, by its SPSR (R481). -/
def Exc.spsrMode : Exc → SpsrMode
  | .undefined => .und
  | .swi => .svc
  | .prefetchAbort => .abt
  | .dataAbort => .abt
  | .irq => .irq
  | .fiq => .fiq

/-- The mode that an SPSR belongs to (R42). -/
def SpsrMode.mode : SpsrMode → Mode
  | .fiq => .fiq
  | .svc => .svc
  | .abt => .abt
  | .irq => .irq
  | .und => .und

/-- The link value (R482): `a` is the address of the causing instruction, for IRQ and FIQ of the instruction not executed. -/
def Exc.link (e : Exc) (thumb : Bool) (a : Word) : Word :=
  match e with
  | .undefined => a + (if thumb then 2 else 4)
  | .swi => a + (if thumb then 2 else 4)
  | .prefetchAbort => a + 4
  | .dataAbort => a + 8
  | .irq => a + 4
  | .fiq => a + 4

/-- F is set by FIQ entry and kept by the others (R482). -/
def Exc.setsF : Exc → Bool
  | .undefined => false
  | .swi => false
  | .prefetchAbort => false
  | .dataAbort => false
  | .irq => false
  | .fiq => true

/-- Exception entry (R490) at a state whose `pc` is the instruction's address, for IRQ and FIQ the next instruction's. It refetches
(R98) and ends the user-bank hazard (R551; log entry 19). -/
def State.takeException (s : State) (e : Exc) : State :=
  let mode := e.spsrMode.mode
  { s with
    regs := s.regs.set (linkReg mode) (e.link s.cpsr.t s.pc)
    spsrs := s.spsrs.set e.spsrMode s.cpsr.toPsr
    cpsr := { s.cpsr with mode := mode, t := false, i := true, f := s.cpsr.f || e.setsF }
    pc := e.vector
    prefetch := Prefetch.fresh
    bankHazard := false }

/-- Exception return (R197, R319, R510): the SPSR of the current mode becomes the CPSR and the program counter is written, masked
for the new T. -/
def State.exceptionReturn (s : State) (t : Word) : Result :=
  match s.spsr with
  | none => .refused .noSpsr
  | some p =>
    match p.toCpsr with
    | none => .refused .illegalMode
    | some c => .next ({ s with cpsr := c }.branch t)

/-- Every register unspecified after a reset during the run (R491, R540; log entry 22). -/
def resetRegs (d : Nat) : Regs :=
  { r0 := Config.resetWord d 0, r1 := Config.resetWord d 1, r2 := Config.resetWord d 2, r3 := Config.resetWord d 3
    r4 := Config.resetWord d 4, r5 := Config.resetWord d 5, r6 := Config.resetWord d 6, r7 := Config.resetWord d 7
    r8 := Config.resetWord d 8, r9 := Config.resetWord d 9, r10 := Config.resetWord d 10, r11 := Config.resetWord d 11
    r12 := Config.resetWord d 12, r13 := Config.resetWord d 13, r14 := Config.resetWord d 14
    r8Fiq := Config.resetWord d 15, r9Fiq := Config.resetWord d 16, r10Fiq := Config.resetWord d 17
    r11Fiq := Config.resetWord d 18, r12Fiq := Config.resetWord d 19, r13Fiq := Config.resetWord d 20
    r14Fiq := Config.resetWord d 21, r13Svc := Config.resetWord d 22, r14Svc := Config.resetWord d 23
    r13Abt := Config.resetWord d 24, r14Abt := Config.resetWord d 25, r13Und := Config.resetWord d 26
    r14Und := Config.resetWord d 27, r13Irq := Config.resetWord d 28, r14Irq := Config.resetWord d 29 }

/-- Reset during the run (R491, R540): the same transition from any state. Memory and the inputs are not touched. -/
def State.takeReset (s : State) : State :=
  let flags := Config.resetWord s.draws 30
  { s.drawn with
    regs := resetRegs s.draws
    spsrs := { fiq := Psr.ofWord (Config.resetWord s.draws 31), svc := Psr.ofWord (Config.resetWord s.draws 32)
               abt := Psr.ofWord (Config.resetWord s.draws 33), irq := Psr.ofWord (Config.resetWord s.draws 34)
               und := Psr.ofWord (Config.resetWord s.draws 35) }
    cpsr := { n := flags[31], z := flags[30], c := flags[29], v := flags[28], i := true, f := true, t := false, mode := .svc }
    pc := 0
    prefetch := Prefetch.fresh
    bankHazard := false }

/-! ## Memory -/

/-- What an unlisted address reads as (DESIGN CHOICE, unsafe, log entry 4). -/
def Memory.unlisted : Byte := 0

/-- The byte at an address. -/
def Memory.read : List Host.Cell → Nat → Byte
  | [], _ => Memory.unlisted
  | (k, v) :: rest, a => if k = a then v else Memory.read rest a

/-- A cell put before the first cell of a higher address. -/
def Memory.insert (a : Nat) (b : Byte) : List Host.Cell → List Host.Cell
  | [] => [(a, b)]
  | (k, v) :: rest => if a < k then (a, b) :: (k, v) :: rest else (k, v) :: Memory.insert a b rest

/-- The memory without the cells of an address. -/
def Memory.erase (a : Nat) : List Host.Cell → List Host.Cell
  | [] => []
  | (k, v) :: rest => if k = a then Memory.erase a rest else (k, v) :: Memory.erase a rest

/-- The memory with one byte replaced; writing what an unlisted address reads as removes the cell. -/
def Memory.write (m : List Host.Cell) (a : Nat) (b : Byte) : List Host.Cell :=
  if b = Memory.unlisted then Memory.erase a m else Memory.insert a b (Memory.erase a m)

/-- Every cell of the memory is at an address above `a`. -/
def Memory.above (a : Nat) : List Host.Cell → Bool
  | [] => true
  | (k, _) :: rest => decide (a < k) && Memory.above a rest

/-- The canonical form: addresses inside the 32-bit space and strictly rising, no cell equal to what an unlisted address reads as. -/
def Memory.wf : List Host.Cell → Bool
  | [] => true
  | (k, v) :: rest => decide (k < 2 ^ 32) && v != Memory.unlisted && Memory.above k rest && Memory.wf rest

/-- The byte at an address (R70). -/
def State.byteAt (s : State) (a : Word) : Byte :=
  Memory.read s.mem a.toNat

/-- The halfword at an address, under the byte order (R72, R73, R74). -/
def State.halfAt (s : State) (a : Word) : Half :=
  joinHalf s.bigend (s.byteAt a) (s.byteAt (a + 1))

/-- The word at an address, under the byte order (R72, R73, R74). -/
def State.wordAt (s : State) (a : Word) : Word :=
  joinWord s.bigend (s.byteAt a) (s.byteAt (a + 1)) (s.byteAt (a + 2)) (s.byteAt (a + 3))

/-- The marks after a store to a byte `d` bytes past the executing instruction, instructions being `w` bytes long: the window is the
two instructions after it (R98; decision D10). -/
def Prefetch.overwrite (p : Prefetch) (w d : Nat) : Prefetch :=
  if w ≤ d ∧ d < 2 * w then { p with following := true }
  else if 2 * w ≤ d ∧ d < 3 * w then { p with afterNext := true }
  else p

/-- A byte stored, with the prefetch marks it sets (R75, R98). -/
def State.putByte (s : State) (a : Word) (b : Byte) : State :=
  { s with
    mem := Memory.write s.mem a.toNat b
    prefetch := s.prefetch.overwrite s.width.toNat (a - s.pc).toNat }

/-- Bytes stored at ascending addresses. -/
def State.putBytes (s : State) (a : Word) : List Byte → State
  | [] => s
  | b :: bs => State.putBytes (s.putByte a b) (a + 1) bs

/-- `addr AND 0xFFFFFFFC` (R76, R77, R80). -/
def wordAligned (a : Word) : Word :=
  a &&& 0xFFFFFFFC#32

/-- `addr AND 0xFFFFFFFE`. -/
def halfAligned (a : Word) : Word :=
  a &&& 0xFFFFFFFE#32

/-! ## The memory manager -/

/-- The kinds of access (R90). -/
inductive AccessKind where
  | fetch | read | write
  deriving DecidableEq, Repr

/-- The sizes of an access (R84). -/
inductive AccessSize where
  | byte | half | word
  deriving DecidableEq, Repr

/-- The size in bytes. -/
def AccessSize.bytes : AccessSize → Nat
  | .byte => 1
  | .half => 2
  | .word => 4

/-- The address an access of a size is made at: the low bits select nothing for wider accesses (R76, R77, R80; log entry 17). -/
def AccessSize.align (k : AccessSize) (a : Word) : Word :=
  match k with
  | .byte => a
  | .half => halfAligned a
  | .word => wordAligned a

/-- A region refuses a kind of access. -/
def AbortRegion.hasKind (r : AbortRegion) : AccessKind → Bool
  | .fetch => r.fetch
  | .read => r.read
  | .write => r.write

/-- A region refuses a size of access. -/
def AbortRegion.hasSize (r : AbortRegion) : AccessSize → Bool
  | .byte => r.byteAccess
  | .half => r.halfAccess
  | .word => r.wordAccess

/-- A region refuses an access that shares a byte with it (R90). -/
def AbortRegion.refuses (r : AbortRegion) (kind : AccessKind) (size : AccessSize) (privileged : Bool) (a : Word) : Bool :=
  r.hasKind kind && r.hasSize size && (if privileged then r.privileged else r.nonPrivileged)
    && decide (r.first.toNat < a.toNat + size.bytes) && decide (a.toNat ≤ r.last.toNat)

/-- `AbortOracle(addr, size, kind)` (R8, R90). -/
def State.aborted (s : State) (kind : AccessKind) (size : AccessSize) (privileged : Bool) (a : Word) : Bool :=
  s.aborts.any fun r => r.refuses kind size privileged a

/-- The privilege an access of the current mode carries (R88). -/
def State.privileged (s : State) : Bool :=
  s.cpsr.mode.privileged

/-! ## The memory map -/

/-- A region shares a byte with an access (R86). -/
def MapRegion.covers (r : MapRegion) (size : AccessSize) (a : Word) : Bool :=
  decide (r.first.toNat < a.toNat + size.bytes) && decide (a.toNat ≤ r.last.toNat)

/-- What an access is made to: the first region that shares a byte with it, none where all its bytes are memory (R86; DESIGN CHOICE
that a transfer goes to one place as a whole, log entry 5). -/
def State.mapKind (s : State) (size : AccessSize) (a : Word) : Option MapKind :=
  (s.memMap.find? fun r => r.covers size a).map fun r => r.kind

/-- How an access ends that the memory manager did not refuse and to which nothing answers (R74, U30; log entry 5). -/
def State.mapFault (s : State) (size : AccessSize) (a : Word) : Option Fault :=
  if s.mapKind size a = some .nothing then some .unmappedAddress else none

/-- The access is made to a device (R74). -/
def State.onDevice (s : State) (size : AccessSize) (a : Word) : Bool :=
  s.mapKind size a == some .device

/-- `MemRead(a, 1)`: the byte of memory, or what the device answers (R74). -/
def State.readByte (s : State) (a : Word) : Byte :=
  if s.onDevice .byte a then (Config.deviceRead s.draws a).setWidth 8 else s.byteAt a

/-- `MemRead(a, 2)` (R74). -/
def State.readHalf (s : State) (a : Word) : Half :=
  if s.onDevice .half a then (Config.deviceRead s.draws a).setWidth 16 else s.halfAt a

/-- `MemRead(a, 4)` (R74). -/
def State.readWord (s : State) (a : Word) : Word :=
  if s.onDevice .word a then Config.deviceRead s.draws a else s.wordAt a

/-- The state after a read: the answer of a device uses up a free value (log entries 5, 37). -/
def State.afterRead (s : State) (size : AccessSize) (a : Word) : State :=
  if s.onDevice size a then s.drawn else s

/-! ## Loads and stores -/

/-- The loads (R273, R274, R292, R294, R295). -/
inductive LoadKind where
  | word | byte | half | signedByte | signedHalf
  deriving DecidableEq, Repr

/-- The size of a load. -/
def LoadKind.size : LoadKind → AccessSize
  | .word => .word
  | .byte => .byte
  | .half => .half
  | .signedByte => .byte
  | .signedHalf => .half

/-- A halfword access at an odd address, which is refused (R79, R298, U23). -/
def AccessSize.odd (size : AccessSize) (a : Word) : Bool :=
  match size with
  | .byte => false
  | .half => a[0]
  | .word => false

/-- `LoadWord` (R76): the aligned word rotated right by eight times the low address bits. -/
def State.rotatedWordAt (s : State) (a : Word) : Word :=
  (s.readWord (wordAligned a)).rotateRight (8 * (a.extractLsb' 0 2).toNat)

/-- The value a load reads, extended to a word (R273, R274, R292, R294, R295). -/
def State.loadValue (s : State) (k : LoadKind) (a : Word) : Word :=
  match k with
  | .word => s.rotatedWordAt a
  | .byte => (s.readByte a).setWidth 32
  | .half => (s.readHalf a).setWidth 32
  | .signedByte => (s.readByte a).signExtend 32
  | .signedHalf => (s.readHalf a).signExtend 32

/-- A load is refused by the memory manager (R74). -/
def State.loadAborts (s : State) (k : LoadKind) (privileged : Bool) (a : Word) : Bool :=
  s.aborted .read k.size privileged (k.size.align a)

/-- A store is refused by the memory manager (R75). -/
def State.storeAborts (s : State) (size : AccessSize) (privileged : Bool) (a : Word) : Bool :=
  s.aborted .write size privileged (size.align a)

/-- The bytes a store of a size puts at the aligned address, in memory order (R75, R77). -/
def storedBytes (bigend : Bool) (size : AccessSize) (v : Word) : List Byte :=
  match size with
  | .byte => [v.extractLsb' 0 8]
  | .half => splitHalf bigend (v.extractLsb' 0 16)
  | .word => splitWord bigend v

/-- The store itself, at the aligned address and not rotated (R75, R77). DESIGN CHOICE (log entry 5): a store to a device changes no
memory; what the device makes of it shows in its later answers alone. -/
def State.storeValue (s : State) (size : AccessSize) (a v : Word) : State :=
  let t := s.putBytes (size.align a) (storedBytes s.bigend size v)
  { t with mem := if s.onDevice size (size.align a) then s.mem else t.mem }

/-- A base to write back and its modified value (R272). -/
abbrev Writeback := Option (RegNo × Word)

/-- The base written back, where there is one (R272). -/
def State.writeBack (s : State) (wb : Writeback) : State :=
  match wb with
  | none => s
  | some (rn, modified) => s.setReg rn modified

/-- A single load (R273, R285): on an abort the base is written back and Rd is not loaded. -/
def State.loadSingle (s : State) (k : LoadKind) (privileged : Bool) (a : Word) (wb : Writeback) (rd : RegNo) : Result :=
  if s.loadAborts k privileged a then .next ((s.writeBack wb).takeException .dataAbort)
  else
    match s.mapFault k.size (k.size.align a) with
    | some f => .fault f
    | none => .next (((s.afterRead k.size (k.size.align a)).writeBack wb).finish rd (s.loadValue k a))

/-- A single store of `x[Rd]`, or of `ia + ahead` for R15, read before the write-back (R275, R277, R285): on an abort memory is
unchanged and the base is written back. -/
def State.storeSingle (s : State) (size : AccessSize) (privileged : Bool) (ahead a : Word) (wb : Writeback) (rd : RegNo) :
    Result :=
  if s.storeAborts size privileged a then .next ((s.writeBack wb).takeException .dataAbort)
  else
    match s.mapFault size (size.align a) with
    | some f => .fault f
    | none => .next (((s.storeValue size a (s.reg ahead rd)).writeBack wb).advance)

/-! ## Block transfers -/

/-- The registers of a list, ascending (R310, R312). -/
def regList (list : BitVec 16) : List RegNo :=
  [0#4, 1#4, 2#4, 3#4, 4#4, 5#4, 6#4, 7#4, 8#4, 9#4, 10#4, 11#4, 12#4, 13#4, 14#4, 15#4].filter
    fun i => list.getLsbD i.toNat

/-- What the loads of a block transfer leave: the registers, the word loaded for R15, and whether a transfer was aborted. -/
structure BlockLoad where
  regs : Regs
  target : Option Word
  aborted : Bool
  deriving DecidableEq, Repr

/-- The loads of a block transfer from ascending words (R317): they stop at the first abort (R327), are not rotated (R80), and R15
is the last. `bank` names the registers. -/
def State.loadWords (s : State) (bank : Mode) : List RegNo → Word → Regs → BlockLoad
  | [], _, g => { regs := g, target := none, aborted := false }
  | i :: rest, a, g =>
    if s.aborted .read .word s.privileged (wordAligned a) then { regs := g, target := none, aborted := true }
    else
      match physReg bank i with
      | some r => State.loadWords s bank rest (a + 4) (g.set r (s.readWord (wordAligned a)))
      | none => { regs := g, target := some (s.readWord (wordAligned a)), aborted := false }

/-- The stores of a block transfer to ascending words (R314): every one is tried, an aborted one leaves memory unchanged (R326).
The second component says that one was aborted. -/
def State.storeWords (s : State) : List Word → Word → State × Bool
  | [], _ => (s, false)
  | v :: rest, a =>
    if s.aborted .write .word s.privileged (wordAligned a) then ((State.storeWords s rest (a + 4)).1, true)
    else State.storeWords (s.storeValue .word a v) rest (a + 4)

/-- The word a block store stores for a register (R314, R315, R318): with write-back, the base holds its final value unless it is
the lowest register of the list. -/
def State.blockOperand (s : State) (bank : Mode) (rn : RegNo) (w : Bool) (final : Word) (list : BitVec 16) (i : RegNo) : Word :=
  if w && i == rn && (regList list).head? != some i then final else s.bankReg bank 12 i

/-- A block store (R314, R326): all transfers, then the base, then the abort. -/
def State.blockStore (s : State) (bank : Mode) (rn : RegNo) (w : Bool) (start final : Word) (list : BitVec 16) : State :=
  let r := s.storeWords ((regList list).map (s.blockOperand bank rn w final list)) start
  let s1 := if w then r.1.setReg rn final else r.1
  if r.2 then s1.takeException .dataAbort else s1.advance

/-- How a block of `n` words from `a` on ends where nothing answers to a word that is not refused. A load makes no access after its first
refused word (R327), a store makes them all (R326). DESIGN CHOICE (log entry 5): a store ends so even where another of its words is
refused, a load where such a word comes before its first refused one. -/
def State.blockFault (s : State) (kind : AccessKind) : Nat → Word → Option Fault
  | 0, _ => none
  | n + 1, a =>
    if s.aborted kind .word s.privileged (wordAligned a) then
      if kind = .read then none else State.blockFault s kind n (a + 4)
    else
      match s.mapFault .word (wordAligned a) with
      | some f => some f
      | none => State.blockFault s kind n (a + 4)

/-- The state after the reads of a block of `n` words from `a` on: one free value where any of them is of a device (log entries 5,
37). -/
def State.afterBlock (s : State) : Nat → Word → State
  | 0, _ => s
  | n + 1, a => if s.onDevice .word (wordAligned a) then s.drawn else State.afterBlock s n (a + 4)

/-- A block store, where something answers to every word it makes (R86, R314). -/
def State.storeBlock (s : State) (bank : Mode) (rn : RegNo) (w : Bool) (start final : Word) (list : BitVec 16) : Result :=
  match s.blockFault .write (regList list).length start with
  | some f => .fault f
  | none => .next (s.blockStore bank rn w start final list)

/-- The loads of a block load, the base written back before they land (R317). -/
def State.blockLoads (s : State) (bank : Mode) (rn : RegNo) (w : Bool) (start final : Word) (list : BitVec 16) : BlockLoad :=
  s.loadWords bank (regList list) start (if w then s.setReg rn final else s).regs

/-- The state in which an aborted block load leaves the machine (R327): the registers loaded so far, the base restored to its
written-back or original value, and the data abort taken. -/
def State.blockLoadAbort (s : State) (rn : RegNo) (w : Bool) (final : Word) (g : Regs) : State :=
  (State.setReg { s with regs := g } rn (if w then final else s.reg 0 rn)).takeException .dataAbort

/-! ## Fetch and boundaries -/

/-- The instruction at the program counter, read from memory under the byte order, in the instruction set of T (R85, R110). -/
def State.fetch (s : State) : Instr :=
  if s.cpsr.t then decodeThumb (s.readHalf s.pc) else decodeArm (s.readWord s.pc)

/-- The size of a fetch (R85). -/
def State.fetchSize (s : State) : AccessSize :=
  if s.cpsr.t then .half else .word

/-- The fetch of the next instruction is refused (R497; decision D23). -/
def State.fetchAborts (s : State) : Bool :=
  s.aborted .fetch s.fetchSize s.privileged s.pc

/-- How the fetch of the next instruction ends where nothing answers (R86, U30; log entry 5). -/
def State.fetchFault (s : State) : Option Fault :=
  s.mapFault s.fetchSize s.pc

/-- Quiet lines (R500). -/
def Sample.quiet : Sample :=
  { reset := false, fiq := false, irq := false, aborts := none }

/-- The sample of the coming boundary (R500; log entry 8). -/
def State.sample (s : State) : Sample :=
  s.inputs.head?.getD Sample.quiet

/-- The state at the boundary: the sample taken, and the abort regions it brings in force (log entries 8, 9). -/
def State.atBoundary (s : State) : State :=
  { s with inputs := s.inputs.tail, aborts := s.sample.aborts.getD s.aborts }

/-- The exception taken at a boundary before an instruction executes, by priority (R501, R505): reset, FIQ, IRQ, prefetch abort. -/
def State.boundaryException (s : State) (lines : Sample) : Option State :=
  if lines.reset then some s.takeReset
  else if lines.fiq && !s.cpsr.f then some (s.takeException .fiq)
  else if lines.irq && !s.cpsr.i then some (s.takeException .irq)
  else if s.fetchAborts then some (s.takeException .prefetchAbort)
  else none

end Sys2Proof.Machine
end

