-- ==== Sys2Proof/Machine/Flags.lean ====
section
/-!
DEFINITION. The condition test and every flag computation (spec/40_condition_bx_branch.md R160, spec/41_data_processing.md R181, R199,
R200).
-/

namespace Sys2Proof.Machine

/-- `CondPassed(cond)` (R160). -/
def condPassed (c : Cond) (p : Cpsr) : Bool :=
  match c with
  | .eq => p.z
  | .ne => !p.z
  | .cs => p.c
  | .cc => !p.c
  | .mi => p.n
  | .pl => !p.n
  | .vs => p.v
  | .vc => !p.v
  | .hi => p.c && !p.z
  | .ls => !p.c || p.z
  | .ge => p.n == p.v
  | .lt => p.n != p.v
  | .gt => !p.z && p.n == p.v
  | .le => p.z || p.n != p.v
  | .al => true

/-- An ARM instruction: its effect when the condition passes, otherwise nothing but the advance of the pc (R161). -/
def whenPassed (c : Cond) (s : State) (effect : Result) : Result :=
  if condPassed c s.cpsr then effect else .next s.advance

/-- What an ALU operation yields: the result, the C and the V it would set (R182). -/
structure AluOut where
  result : Word
  carry : Bool
  overflow : Bool
  deriving DecidableEq, Repr

/-- `AddWithCarry(a, b, cin)` (R181), by exact sums narrowed at the end. -/
def addWithCarry (a b : Word) (cin : Bool) : AluOut :=
  let usum : Nat := a.toNat + b.toNat + cin.toNat
  let ssum : Int := a.toInt + b.toInt + cin.toNat
  let result : Word := BitVec.ofNat 32 usum
  { result := result, carry := decide (2 ^ 32 ≤ usum), overflow := decide (ssum ≠ result.toInt) }

/-- The outcome of a logical operation: C from the shifter, V kept (R199). -/
def logical (p : Cpsr) (result : Word) (shc : Bool) : AluOut :=
  { result := result, carry := shc, overflow := p.v }

/-- N, Z, C, V set from an ALU outcome (R199, R200). -/
def Cpsr.setFlags (p : Cpsr) (o : AluOut) : Cpsr :=
  { p with n := o.result[31], z := decide (o.result = 0), c := o.carry, v := o.overflow }

/-- N and Z set from a 32-bit multiply result and C set to a meaningless value; V kept (R254). -/
def Cpsr.setMulFlags (p : Cpsr) (result : Word) (c : Bool) : Cpsr :=
  { p with n := result[31], z := decide (result = 0), c := c }

/-- N and Z set from a 64-bit product, C and V set to meaningless values (R262). -/
def Cpsr.setLongFlags (p : Cpsr) (product : BitVec 64) (c v : Bool) : Cpsr :=
  { p with n := product[63], z := decide (product = 0), c := c, v := v }

end Sys2Proof.Machine
end

