-- ==== Sys2Proof/Machine/Operands.lean ====
section
/-!
DEFINITION. The operand forms: the barrel shifter and operand 2 (spec/41_data_processing.md R183 to R195), the offset and addressing of
single transfers (spec/44_single_and_halfword_transfer.md R271, R272, R291), the addresses of block transfers
(spec/45_block_data_transfer.md R312) and the THUMB operand values (spec/30_encoding.md R137).
-/

namespace Sys2Proof.Machine

/-! ## The barrel shifter -/

/-- The shifter by an amount `n` taken literally: value and carry out, `c` the old C flag (R184 to R191). -/
def shiftBy (ty : ShiftType) (n : Nat) (v : Word) (c : Bool) : Word × Bool :=
  if n = 0 then (v, c)
  else
    match ty with
    | .lsl =>
      if n < 32 then (v <<< n, v.getLsbD (32 - n)) else if n = 32 then (0, v[0]) else (0, false)
    | .lsr =>
      if n < 32 then (v >>> n, v.getLsbD (n - 1)) else if n = 32 then (0, v[31]) else (0, false)
    | .asr =>
      if n < 32 then (v.sshiftRight n, v.getLsbD (n - 1)) else (if v[31] then 0xFFFFFFFF#32 else 0, v[31])
    | .ror =>
      let m := (n - 1) % 32 + 1
      if m = 32 then (v, v[31]) else (v.rotateRight m, v.getLsbD (m - 1))

/-- RRX: a rotate right by one of the 33-bit quantity C :: Rm (R187). -/
def rotateExtend (v : Word) (c : Bool) : Word × Bool :=
  ((v >>> 1) ||| (if c then 0x80000000#32 else 0), v[0])

/-- The shifter by an amount in the instruction: LSR #0 and ASR #0 mean 32, ROR #0 means RRX (R184 to R187). -/
def shiftByField (ty : ShiftType) (amount : BitVec 5) (v : Word) (c : Bool) : Word × Bool :=
  if amount = 0 then
    match ty with
    | .lsl => (v, c)
    | .lsr => shiftBy .lsr 32 v c
    | .asr => shiftBy .asr 32 v c
    | .ror => rotateExtend v c
  else shiftBy ty amount.toNat v c

/-- The shifter by the bottom byte of a register (R188 to R191). -/
def shiftByReg (ty : ShiftType) (rs : Word) (v : Word) (c : Bool) : Word × Bool :=
  shiftBy ty (rs.extractLsb' 0 8).toNat v c

/-- An 8-bit immediate rotated right by twice the rotate field (R116). -/
def rotatedImm (rotate : BitVec 4) (imm8 : BitVec 8) : Word :=
  (imm8.setWidth 32).rotateRight (2 * rotate.toNat)

/-- The shifter output of an immediate operand: an unrotated one keeps C (R192). -/
def shiftedImm (rotate : BitVec 4) (imm8 : BitVec 8) (c : Bool) : Word × Bool :=
  (rotatedImm rotate imm8, if rotate = 0 then c else (rotatedImm rotate imm8)[31])

/-! ## Operand 2 -/

/-- How far ahead R15 reads as Rn or Rm: 12 with a register-specified shift, 8 otherwise (R195). -/
def pcAhead (op2 : Operand2) : Word :=
  match op2 with
  | .imm .. => 8
  | .shiftImm .. => 8
  | .shiftReg .. => 12

/-- The shift amount register is R15 (R188). -/
def amountIsR15 (op2 : Operand2) : Bool :=
  match op2 with
  | .imm .. => false
  | .shiftImm .. => false
  | .shiftReg _ rs _ => rs == PC

/-- `ShifterOperand` (R193): operand 2 and the shifter carry out. -/
def State.shifterOperand (s : State) (op2 : Operand2) : Word × Bool :=
  match op2 with
  | .imm rotate imm8 => shiftedImm rotate imm8 s.cpsr.c
  | .shiftImm ty amount rm => shiftByField ty amount (s.reg 8 rm) s.cpsr.c
  | .shiftReg ty rs rm => shiftByReg ty (s.reg 12 rs) (s.reg 12 rm) s.cpsr.c

/-! ## Single and halfword transfers -/

/-- The offset of a single transfer (R271); the shifter carry is discarded. -/
def State.offsetValue (s : State) (off : Offset) : Word :=
  match off with
  | .imm imm12 => imm12.setWidth 32
  | .reg ty amount rm => (shiftByField ty amount (s.reg 8 rm) s.cpsr.c).1

/-- The register offset, where there is one (R271). -/
def offsetReg (off : Offset) : Option RegNo :=
  match off with
  | .imm _ => none
  | .reg _ _ rm => some rm

/-- The base with the offset added or subtracted (R272). -/
def modifiedBase (u : Bool) (base offset : Word) : Word :=
  if u then base + offset else base - offset

/-- The transfer address: the modified base when pre-indexed (R272). -/
def transferAddress (p u : Bool) (base offset : Word) : Word :=
  if p then modifiedBase u base offset else base

/-- The write-back of a transfer: post-indexed always, pre-indexed with W (R272). -/
def transferWriteback (p u w : Bool) (rn : RegNo) (base offset : Word) : Writeback :=
  if !p || w then some (rn, modifiedBase u base offset) else none

/-! ## Block transfers -/

/-- The size in bytes of the block of a register list, `4n` (R312). -/
def blockBytes (list : BitVec 16) : Word :=
  BitVec.ofNat 32 (4 * (regList list).length)

/-- The lowest address of a block transfer (R312). -/
def blockStart (p u : Bool) (base : Word) (list : BitVec 16) : Word :=
  match p, u with
  | false, true => base
  | true, true => base + 4
  | false, false => base - blockBytes list + 4
  | true, false => base - blockBytes list

/-- The value written back (R312). -/
def blockFinal (u : Bool) (base : Word) (list : BitVec 16) : Word :=
  if u then base + blockBytes list else base - blockBytes list

/-! ## THUMB operands -/

/-- A Lo register (R370). -/
def State.loReg (s : State) (r : LoReg) : Word :=
  s.reg 4 (lo r)

/-- A field scaled to words: `zext(field) << 2` (R137). -/
def scaled4 {n : Nat} (field : BitVec n) : Word :=
  field.setWidth 32 <<< 2

/-- A field scaled to halfwords: `zext(field) << 1` (R137). -/
def scaled2 {n : Nat} (field : BitVec n) : Word :=
  field.setWidth 32 <<< 1

/-- The PC as the base of formats 6 and 12: `ia + 4` with bit 1 forced to 0 (R421, R440). -/
def State.thumbPcBase (s : State) : Word :=
  wordAligned (s.pc + 4)

/-- A Lo register list as a 16-bit list (R446, R451). -/
def loList (list : BitVec 8) : BitVec 16 :=
  list.setWidth 16

end Sys2Proof.Machine
end

