-- ==== Sys2Proof/Machine/BlockTransfer.lean ====
section
/-!
DEFINITION. Block data transfers (spec/45_block_data_transfer.md).
-/

namespace Sys2Proof.Machine

/-- The list is transferred from the User bank: S without R15 for a load, S for a store (R320, R321). -/
def userBank (load sb : Bool) (list : BitVec 16) : Bool :=
  sb && !(load && list[15])

/-- What a block transfer refuses (R319 to R324). `mode` is the current mode. -/
def blockRefusal (load sb w : Bool) (rn : RegNo) (list : BitVec 16) (mode : Mode) : Option Refusal :=
  if list = 0 then some .emptyRegisterList
  else if rn = PC then some .blockBaseR15
  else if sb && !mode.privileged then some .sBitInUserMode
  else if userBank load sb list && w then some .userBankWriteback
  else if sb && load && list[15] && mode.spsr == none then some .noSpsr
  else none

/-- The bank whose registers the list names (R320, R321). -/
def State.transferBank (s : State) (load sb : Bool) (list : BitVec 16) : Mode :=
  if userBank load sb list then .usr else s.cpsr.mode

/-- An STM (R314). -/
def State.blockStm (s : State) (p u sb w : Bool) (rn : RegNo) (list : BitVec 16) : Result :=
  match blockRefusal false sb w rn list s.cpsr.mode with
  | some r => .refused r
  | none =>
    s.storeBlock (s.transferBank false sb list) rn w (blockStart p u (s.reg 0 rn) list) (blockFinal u (s.reg 0 rn) list) list

/-- An LDM (R317): the loads, then the R15 word to the pc (R316), with S also the SPSR to the CPSR (R319). A user-bank load leaves
the hazard mark of R551. -/
def State.blockLdm (s : State) (p u sb w : Bool) (rn : RegNo) (list : BitVec 16) : Result :=
  match blockRefusal true sb w rn list s.cpsr.mode with
  | some r => .refused r
  | none =>
    match s.blockFault .read (regList list).length (blockStart p u (s.reg 0 rn) list) with
    | some f => .fault f
    | none =>
      let final := blockFinal u (s.reg 0 rn) list
      let b := s.blockLoads (s.transferBank true sb list) rn w (blockStart p u (s.reg 0 rn) list) final list
      let after := s.afterBlock (regList list).length (blockStart p u (s.reg 0 rn) list)
      if b.aborted then .next (after.blockLoadAbort rn w final b.regs)
      else
        match b.target with
        | some t =>
          if sb then State.exceptionReturn { after with regs := b.regs } t
          else .next (State.branch { after with regs := b.regs } t)
        | none => .next (State.advance { after with regs := b.regs, bankHazard := sb || s.bankHazard })

/-- LDMIA / LDMFD (R330). -/
def execLdmia (c : Cond) (sb w : Bool) (rn : RegNo) (list : BitVec 16) (s : State) : Result :=
  whenPassed c s (s.blockLdm false true sb w rn list)

/-- LDMIB / LDMED (R331). -/
def execLdmib (c : Cond) (sb w : Bool) (rn : RegNo) (list : BitVec 16) (s : State) : Result :=
  whenPassed c s (s.blockLdm true true sb w rn list)

/-- LDMDA / LDMFA (R332). -/
def execLdmda (c : Cond) (sb w : Bool) (rn : RegNo) (list : BitVec 16) (s : State) : Result :=
  whenPassed c s (s.blockLdm false false sb w rn list)

/-- LDMDB / LDMEA (R333). -/
def execLdmdb (c : Cond) (sb w : Bool) (rn : RegNo) (list : BitVec 16) (s : State) : Result :=
  whenPassed c s (s.blockLdm true false sb w rn list)

/-- STMIA / STMEA (R334). -/
def execStmia (c : Cond) (sb w : Bool) (rn : RegNo) (list : BitVec 16) (s : State) : Result :=
  whenPassed c s (s.blockStm false true sb w rn list)

/-- STMIB / STMFA (R335). -/
def execStmib (c : Cond) (sb w : Bool) (rn : RegNo) (list : BitVec 16) (s : State) : Result :=
  whenPassed c s (s.blockStm true true sb w rn list)

/-- STMDA / STMED (R336). -/
def execStmda (c : Cond) (sb w : Bool) (rn : RegNo) (list : BitVec 16) (s : State) : Result :=
  whenPassed c s (s.blockStm false false sb w rn list)

/-- STMDB / STMFD (R337). -/
def execStmdb (c : Cond) (sb w : Bool) (rn : RegNo) (list : BitVec 16) (s : State) : Result :=
  whenPassed c s (s.blockStm true false sb w rn list)

end Sys2Proof.Machine
end

