-- ==== Sys2Proof/Machine/Branch.lean ====
section
/-!
DEFINITION. ARM branches (spec/40_condition_bx_branch.md).
-/

namespace Sys2Proof.Machine

/-- The target of an ARM branch: `ia + 8 + sext_32(offset24 :: 00)` (R165). -/
def State.branchTarget (s : State) (offset : BitVec 24) : Word :=
  s.pc + 8 + (cat 26 offset 0#2).signExtend 32

/-- BX (R162 to R164). -/
def execBx (c : Cond) (rn : RegNo) (s : State) : Result :=
  whenPassed c s (if rn = PC then .refused .bxPcOperand else s.exchange (s.reg 8 rn))

/-- B (R165). -/
def execB (c : Cond) (offset : BitVec 24) (s : State) : Result :=
  whenPassed c s (.next (s.branch (s.branchTarget offset)))

/-- BL (R166). -/
def execBl (c : Cond) (offset : BitVec 24) (s : State) : Result :=
  whenPassed c s (.next ((s.setReg LR (s.pc + 4)).branch (s.branchTarget offset)))

end Sys2Proof.Machine
end

