-- ==== Sys2Proof/Machine/DataProcessing.lean ====
section
/-!
DEFINITION. ARM data processing (spec/41_data_processing.md): the sixteen operations over the skeleton of R182.
-/

namespace Sys2Proof.Machine

/-- An ALU operation: operand 1, operand 2, the shifter carry out and the CPSR before the instruction (R182). -/
abbrev AluOp := Word → Word → Bool → Cpsr → AluOut

/-- AND (R201). -/
def aluAnd (a b : Word) (shc : Bool) (p : Cpsr) : AluOut := logical p (a &&& b) shc
/-- EOR (R202). -/
def aluEor (a b : Word) (shc : Bool) (p : Cpsr) : AluOut := logical p (a ^^^ b) shc
/-- SUB (R203). -/
def aluSub (a b : Word) (_shc : Bool) (_p : Cpsr) : AluOut := addWithCarry a (~~~b) true
/-- RSB (R204). -/
def aluRsb (a b : Word) (_shc : Bool) (_p : Cpsr) : AluOut := addWithCarry b (~~~a) true
/-- ADD (R205). -/
def aluAdd (a b : Word) (_shc : Bool) (_p : Cpsr) : AluOut := addWithCarry a b false
/-- ADC (R206). -/
def aluAdc (a b : Word) (_shc : Bool) (p : Cpsr) : AluOut := addWithCarry a b p.c
/-- SBC (R207). -/
def aluSbc (a b : Word) (_shc : Bool) (p : Cpsr) : AluOut := addWithCarry a (~~~b) p.c
/-- RSC (R208). -/
def aluRsc (a b : Word) (_shc : Bool) (p : Cpsr) : AluOut := addWithCarry b (~~~a) p.c
/-- ORR (R213). -/
def aluOrr (a b : Word) (shc : Bool) (p : Cpsr) : AluOut := logical p (a ||| b) shc
/-- MOV; operand 1 is ignored (R214). -/
def aluMov (_a b : Word) (shc : Bool) (p : Cpsr) : AluOut := logical p b shc
/-- BIC (R215). -/
def aluBic (a b : Word) (shc : Bool) (p : Cpsr) : AluOut := logical p (a &&& ~~~b) shc
/-- MVN; operand 1 is ignored (R216). -/
def aluMvn (_a b : Word) (shc : Bool) (p : Cpsr) : AluOut := logical p (~~~b) shc

/-- The ALU outcome of an instruction: its operands read, R15 ahead as R195 says. -/
def State.aluOut (s : State) (op : AluOp) (rn : RegNo) (op2 : Operand2) : AluOut :=
  op (s.reg (pcAhead op2) rn) (s.shifterOperand op2).1 (s.shifterOperand op2).2 s.cpsr

/-- An opcode that writes Rd (R182, R196, R197). -/
def State.dataProcess (s : State) (op : AluOp) (sets : Bool) (rn rd : RegNo) (op2 : Operand2) : Result :=
  if amountIsR15 op2 then .refused .shiftAmountR15
  else
    let o := s.aluOut op rn op2
    if sets then
      if rd = PC then s.exceptionReturn o.result
      else .next (State.finish { s with cpsr := s.cpsr.setFlags o } rd o.result)
    else .next (s.finish rd o.result)

/-- TSTP, TEQP, CMPP, CMNP (R198): the SPSR becomes the CPSR in a privileged mode, nothing happens in User mode; the pc only
advances. DESIGN CHOICE (log entry 18): R98 does not say how the marks of overwritten ARM words carry over where this sets T. The mark
of the word at the new pc stands for the THUMB halfword there, whichever half was overwritten, and that of the word after it for the
next halfword. -/
def State.testRestore (s : State) : Result :=
  if s.privileged then
    match s.spsr with
    | none => .refused .noSpsr
    | some p =>
      match p.toCpsr with
      | none => .refused .illegalMode
      | some c => .next { s.advance with cpsr := c }
  else .next s.advance

/-- An opcode that only sets the flags (R182, R198). -/
def State.dataTest (s : State) (op : AluOp) (rn rd : RegNo) (op2 : Operand2) : Result :=
  if amountIsR15 op2 then .refused .shiftAmountR15
  else if rd = PC then s.testRestore
  else .next (State.advance { s with cpsr := s.cpsr.setFlags (s.aluOut op rn op2) })

/-- AND (R201). -/
def execAnd (c : Cond) (sb : Bool) (rn rd : RegNo) (op2 : Operand2) (s : State) : Result :=
  whenPassed c s (s.dataProcess aluAnd sb rn rd op2)

/-- EOR (R202). -/
def execEor (c : Cond) (sb : Bool) (rn rd : RegNo) (op2 : Operand2) (s : State) : Result :=
  whenPassed c s (s.dataProcess aluEor sb rn rd op2)

/-- SUB (R203). -/
def execSub (c : Cond) (sb : Bool) (rn rd : RegNo) (op2 : Operand2) (s : State) : Result :=
  whenPassed c s (s.dataProcess aluSub sb rn rd op2)

/-- RSB (R204). -/
def execRsb (c : Cond) (sb : Bool) (rn rd : RegNo) (op2 : Operand2) (s : State) : Result :=
  whenPassed c s (s.dataProcess aluRsb sb rn rd op2)

/-- ADD (R205). -/
def execAdd (c : Cond) (sb : Bool) (rn rd : RegNo) (op2 : Operand2) (s : State) : Result :=
  whenPassed c s (s.dataProcess aluAdd sb rn rd op2)

/-- ADC (R206). -/
def execAdc (c : Cond) (sb : Bool) (rn rd : RegNo) (op2 : Operand2) (s : State) : Result :=
  whenPassed c s (s.dataProcess aluAdc sb rn rd op2)

/-- SBC (R207). -/
def execSbc (c : Cond) (sb : Bool) (rn rd : RegNo) (op2 : Operand2) (s : State) : Result :=
  whenPassed c s (s.dataProcess aluSbc sb rn rd op2)

/-- RSC (R208). -/
def execRsc (c : Cond) (sb : Bool) (rn rd : RegNo) (op2 : Operand2) (s : State) : Result :=
  whenPassed c s (s.dataProcess aluRsc sb rn rd op2)

/-- TST (R209). -/
def execTst (c : Cond) (rn rd : RegNo) (op2 : Operand2) (s : State) : Result :=
  whenPassed c s (s.dataTest aluAnd rn rd op2)

/-- TEQ (R210). -/
def execTeq (c : Cond) (rn rd : RegNo) (op2 : Operand2) (s : State) : Result :=
  whenPassed c s (s.dataTest aluEor rn rd op2)

/-- CMP (R211). -/
def execCmp (c : Cond) (rn rd : RegNo) (op2 : Operand2) (s : State) : Result :=
  whenPassed c s (s.dataTest aluSub rn rd op2)

/-- CMN (R212). -/
def execCmn (c : Cond) (rn rd : RegNo) (op2 : Operand2) (s : State) : Result :=
  whenPassed c s (s.dataTest aluAdd rn rd op2)

/-- ORR (R213). -/
def execOrr (c : Cond) (sb : Bool) (rn rd : RegNo) (op2 : Operand2) (s : State) : Result :=
  whenPassed c s (s.dataProcess aluOrr sb rn rd op2)

/-- MOV (R214). -/
def execMov (c : Cond) (sb : Bool) (rn rd : RegNo) (op2 : Operand2) (s : State) : Result :=
  whenPassed c s (s.dataProcess aluMov sb rn rd op2)

/-- BIC (R215). -/
def execBic (c : Cond) (sb : Bool) (rn rd : RegNo) (op2 : Operand2) (s : State) : Result :=
  whenPassed c s (s.dataProcess aluBic sb rn rd op2)

/-- MVN (R216). -/
def execMvn (c : Cond) (sb : Bool) (rn rd : RegNo) (op2 : Operand2) (s : State) : Result :=
  whenPassed c s (s.dataProcess aluMvn sb rn rd op2)

end Sys2Proof.Machine
end

