-- ==== Sys2Proof/Machine/HalfwordTransfer.lean ====
section
/-!
DEFINITION. Halfword and signed transfers (spec/44_single_and_halfword_transfer.md, section 2).
-/

namespace Sys2Proof.Machine

/-- What a halfword or signed transfer refuses: P = 0 with W = 1 (R296), write-back to R15, R15 as offset (R300), Rd = Rn with
write-back (R282). `rm` is the offset register, where there is one. -/
def halfwordRefusal (p w : Bool) (rn rd : RegNo) (rm : Option RegNo) : Option Refusal :=
  if !p && w then some .postIndexWriteBit
  else if rn = PC ∧ (!p || w) then some .writebackR15
  else if rm = some PC then some .offsetR15
  else if rd = rn ∧ (!p || w) then some .transferredBase
  else none

/-- A halfword or signed load with a given offset value; a halfword at an odd address is refused (R272, R291 to R295, R298). -/
def State.halfwordLoad (s : State) (k : LoadKind) (p u w : Bool) (rn rd : RegNo) (rm : Option RegNo) (offset : Word) : Result :=
  match halfwordRefusal p w rn rd rm with
  | some r => .refused r
  | none =>
    if k.size.odd (transferAddress p u (s.reg 8 rn) offset) then .refused .oddHalfword
    else
      s.loadSingle k s.privileged (transferAddress p u (s.reg 8 rn) offset)
        (transferWriteback p u w rn (s.reg 8 rn) offset) rd

/-- A halfword store with a given offset value; an odd address is refused (R272, R293, R298). -/
def State.halfwordStore (s : State) (p u w : Bool) (rn rd : RegNo) (rm : Option RegNo) (offset : Word) : Result :=
  match halfwordRefusal p w rn rd rm with
  | some r => .refused r
  | none =>
    if AccessSize.odd .half (transferAddress p u (s.reg 8 rn) offset) then .refused .oddHalfword
    else
      s.storeSingle .half s.privileged 12 (transferAddress p u (s.reg 8 rn) offset)
        (transferWriteback p u w rn (s.reg 8 rn) offset) rd

/-- STRH, register offset (R293). -/
def execStrhReg (c : Cond) (p u w : Bool) (rn rd rm : RegNo) (s : State) : Result :=
  whenPassed c s (s.halfwordStore p u w rn rd (some rm) (s.reg 8 rm))

/-- STRH, immediate offset (R293). -/
def execStrhImm (c : Cond) (p u w : Bool) (rn rd : RegNo) (imm8 : BitVec 8) (s : State) : Result :=
  whenPassed c s (s.halfwordStore p u w rn rd none (imm8.setWidth 32))

/-- LDRH, register offset (R292). -/
def execLdrhReg (c : Cond) (p u w : Bool) (rn rd rm : RegNo) (s : State) : Result :=
  whenPassed c s (s.halfwordLoad .half p u w rn rd (some rm) (s.reg 8 rm))

/-- LDRH, immediate offset (R292). -/
def execLdrhImm (c : Cond) (p u w : Bool) (rn rd : RegNo) (imm8 : BitVec 8) (s : State) : Result :=
  whenPassed c s (s.halfwordLoad .half p u w rn rd none (imm8.setWidth 32))

/-- LDRSB, register offset (R294). -/
def execLdrsbReg (c : Cond) (p u w : Bool) (rn rd rm : RegNo) (s : State) : Result :=
  whenPassed c s (s.halfwordLoad .signedByte p u w rn rd (some rm) (s.reg 8 rm))

/-- LDRSB, immediate offset (R294). -/
def execLdrsbImm (c : Cond) (p u w : Bool) (rn rd : RegNo) (imm8 : BitVec 8) (s : State) : Result :=
  whenPassed c s (s.halfwordLoad .signedByte p u w rn rd none (imm8.setWidth 32))

/-- LDRSH, register offset (R295). -/
def execLdrshReg (c : Cond) (p u w : Bool) (rn rd rm : RegNo) (s : State) : Result :=
  whenPassed c s (s.halfwordLoad .signedHalf p u w rn rd (some rm) (s.reg 8 rm))

/-- LDRSH, immediate offset (R295). -/
def execLdrshImm (c : Cond) (p u w : Bool) (rn rd : RegNo) (imm8 : BitVec 8) (s : State) : Result :=
  whenPassed c s (s.halfwordLoad .signedHalf p u w rn rd none (imm8.setWidth 32))

/-- Signed byte store, register offset: refused when its condition passes (R297). -/
def execSignedStoreByteReg (c : Cond) (_p _u _w : Bool) (_rn _rd _rm : RegNo) (s : State) : Result :=
  whenPassed c s (.refused .signedStore)

/-- Signed byte store, immediate offset (R297). -/
def execSignedStoreByteImm (c : Cond) (_p _u _w : Bool) (_rn _rd : RegNo) (_imm8 : BitVec 8) (s : State) : Result :=
  whenPassed c s (.refused .signedStore)

/-- Signed halfword store, register offset (R297). -/
def execSignedStoreHalfReg (c : Cond) (_p _u _w : Bool) (_rn _rd _rm : RegNo) (s : State) : Result :=
  whenPassed c s (.refused .signedStore)

/-- Signed halfword store, immediate offset (R297). -/
def execSignedStoreHalfImm (c : Cond) (_p _u _w : Bool) (_rn _rd : RegNo) (_imm8 : BitVec 8) (s : State) : Result :=
  whenPassed c s (.refused .signedStore)

end Sys2Proof.Machine
end

