-- ==== Sys2Proof/Machine/Multiply.lean ====
section
/-!
DEFINITION. Multiplies (spec/43_multiply.md).
-/

namespace Sys2Proof.Machine

/-- The end of a 32-bit multiply: Rd written, the flags where asked, C a free value (R252 to R254). -/
def State.finishMul (s : State) (sets : Bool) (rd : RegNo) (result : Word) : State :=
  if sets then
    State.finish { s.drawn with cpsr := s.cpsr.setMulFlags result (Config.mulC s.draws) } rd result
  else s.finish rd result

/-- The end of a long multiply: RdLo and RdHi written, the flags where asked, C and V free values (R259, R262). -/
def State.finishLong (s : State) (sets : Bool) (rdHi rdLo : RegNo) (p : BitVec 64) : State :=
  let s1 : State :=
    if sets then
      { s.drawn with cpsr := s.cpsr.setLongFlags p (Config.mullC s.draws) (Config.mullV s.draws) }
    else s
  ((s1.setReg rdLo (p.extractLsb' 0 32)).setReg rdHi (p.extractLsb' 32 32)).advance

/-- The operands MUL and MLA forbid; `rn` is an operand of MLA only (R256). -/
def mulForbidden (rd rs rm : RegNo) : Bool :=
  rd == rm || rd == PC || rm == PC || rs == PC

/-- The operands the long multiplies forbid (R263). -/
def longForbidden (rdHi rdLo rs rm : RegNo) : Bool :=
  rdHi == PC || rdLo == PC || rm == PC || rs == PC || rdHi == rdLo || rdHi == rm || rdLo == rm

/-- MUL (R252). -/
def execMul (c : Cond) (sb : Bool) (rd _rn rs rm : RegNo) (s : State) : Result :=
  whenPassed c s
    (if mulForbidden rd rs rm then .refused .multiplyOperands
     else .next (s.finishMul sb rd (s.reg 8 rm * s.reg 8 rs)))

/-- MLA (R253). -/
def execMla (c : Cond) (sb : Bool) (rd rn rs rm : RegNo) (s : State) : Result :=
  whenPassed c s
    (if mulForbidden rd rs rm || rn == PC then .refused .multiplyOperands
     else .next (s.finishMul sb rd (s.reg 8 rm * s.reg 8 rs + s.reg 8 rn)))

/-- A long multiply by an exact product narrowed to 64 bits (R259 to R267). -/
def State.multiplyLong (s : State) (sets : Bool) (rdHi rdLo rs rm : RegNo) (p : BitVec 64) : Result :=
  if longForbidden rdHi rdLo rs rm then .refused .multiplyLongOperands
  else .next (s.finishLong sets rdHi rdLo p)

/-- The unsigned product (R259). -/
def unsignedProduct (a b : Word) : BitVec 64 :=
  BitVec.ofNat 64 (a.toNat * b.toNat)

/-- The signed product (R261). -/
def signedProduct (a b : Word) : BitVec 64 :=
  BitVec.ofInt 64 (a.toInt * b.toInt)

/-- The accumulator RdHi :: RdLo (R260). -/
def State.accumulator (s : State) (rdHi rdLo : RegNo) : BitVec 64 :=
  cat 64 (s.reg 8 rdHi) (s.reg 8 rdLo)

/-- UMULL (R259). -/
def execUmull (c : Cond) (sb : Bool) (rdHi rdLo rs rm : RegNo) (s : State) : Result :=
  whenPassed c s (s.multiplyLong sb rdHi rdLo rs rm (unsignedProduct (s.reg 8 rm) (s.reg 8 rs)))

/-- UMLAL (R260). -/
def execUmlal (c : Cond) (sb : Bool) (rdHi rdLo rs rm : RegNo) (s : State) : Result :=
  whenPassed c s
    (s.multiplyLong sb rdHi rdLo rs rm (unsignedProduct (s.reg 8 rm) (s.reg 8 rs) + s.accumulator rdHi rdLo))

/-- SMULL (R261). -/
def execSmull (c : Cond) (sb : Bool) (rdHi rdLo rs rm : RegNo) (s : State) : Result :=
  whenPassed c s (s.multiplyLong sb rdHi rdLo rs rm (signedProduct (s.reg 8 rm) (s.reg 8 rs)))

/-- SMLAL (R267). -/
def execSmlal (c : Cond) (sb : Bool) (rdHi rdLo rs rm : RegNo) (s : State) : Result :=
  whenPassed c s
    (s.multiplyLong sb rdHi rdLo rs rm (signedProduct (s.reg 8 rm) (s.reg 8 rs) + s.accumulator rdHi rdLo))

end Sys2Proof.Machine
end

