-- ==== Sys2Proof/Machine/PsrTransfer.lean ====
section
/-!
DEFINITION. PSR transfers (spec/42_psr_transfer.md).
-/

namespace Sys2Proof.Machine

/-- The value of a PSR goes to Rd; bits 27:8 are a free value (R231). -/
def State.readPsr (s : State) (p : Psr) (rd : RegNo) : Result :=
  .next (s.drawn.finish rd (p.toWord (Config.psrReservedRead s.draws)))

/-- The whole SPSR of the current mode replaced by `f` of it; refused in the modes that have none (R235). -/
def State.updateSpsr (s : State) (f : Psr → Psr) : Result :=
  match s.cpsr.mode.spsr with
  | none => .refused .noSpsr
  | some k => .next (State.advance { s with spsrs := s.spsrs.set k (f (s.spsrs.get k)) })

/-- The whole CPSR written from a word (R232): the flags alone in User mode; elsewhere T must not change (R237) and the mode must be
legal (R239). -/
def State.writeCpsr (s : State) (w : Word) : Result :=
  if s.privileged then
    if w[5] != s.cpsr.t then .refused .msrChangesT
    else
      match Mode.ofCode (w.extractLsb' 0 5) with
      | none => .refused .illegalMode
      | some mode =>
        .next (State.advance { s with cpsr := { s.cpsr.withFlagsOf w with i := w[7], f := w[6], mode := mode } })
  else .next (State.advance { s with cpsr := s.cpsr.withFlagsOf w })

/-- The flags of the CPSR or of the SPSR written from a word (R233, R234). -/
def State.writeFlags (s : State) (spsr : Bool) (w : Word) : Result :=
  if spsr then s.updateSpsr fun p => p.withFlagsOf w
  else .next (State.advance { s with cpsr := s.cpsr.withFlagsOf w })

/-- MRS (R231). -/
def execMrs (c : Cond) (spsr : Bool) (rd : RegNo) (s : State) : Result :=
  whenPassed c s
    (if rd = PC then .refused .psrTransferR15
     else if spsr then
       match s.spsr with
       | none => .refused .noSpsr
       | some p => s.readPsr p rd
     else s.readPsr s.cpsr.toPsr rd)

/-- MSR of a register to the whole PSR (R232). -/
def execMsr (c : Cond) (spsr : Bool) (rm : RegNo) (s : State) : Result :=
  whenPassed c s
    (if rm = PC then .refused .psrTransferR15
     else if spsr then s.updateSpsr fun _ => Psr.ofWord (s.reg 8 rm)
     else s.writeCpsr (s.reg 8 rm))

/-- MSR of a register to the flags (R233). -/
def execMsrFlg (c : Cond) (spsr : Bool) (rm : RegNo) (s : State) : Result :=
  whenPassed c s (if rm = PC then .refused .psrTransferR15 else s.writeFlags spsr (s.reg 8 rm))

/-- MSR of an immediate to the flags (R234). -/
def execMsrFlgImm (c : Cond) (spsr : Bool) (rotate : BitVec 4) (imm8 : BitVec 8) (s : State) : Result :=
  whenPassed c s (s.writeFlags spsr (rotatedImm rotate imm8))

end Sys2Proof.Machine
end

