-- ==== Sys2Proof/Machine/SingleTransfer.lean ====
section
/-!
DEFINITION. Single data transfers (spec/44_single_and_halfword_transfer.md, section 1).
-/

namespace Sys2Proof.Machine

/-- What a single transfer refuses: write-back to R15, R15 as offset (R281), Rd = Rn with write-back (R282), post-indexed with Rm = Rn
(R283). -/
def singleRefusal (p w : Bool) (rn rd : RegNo) (off : Offset) : Option Refusal :=
  if rn = PC ∧ (!p || w) then some .writebackR15
  else if offsetReg off = some PC then some .offsetR15
  else if rd = rn ∧ (!p || w) then some .transferredBase
  else if !p && offsetReg off == some rn then some .postIndexOffsetIsBase
  else none

/-- A word or byte load (R272 to R274). -/
def State.singleLoad (s : State) (k : LoadKind) (privileged p u w : Bool) (rn rd : RegNo) (off : Offset) : Result :=
  match singleRefusal p w rn rd off with
  | some r => .refused r
  | none =>
    s.loadSingle k privileged (transferAddress p u (s.reg 8 rn) (s.offsetValue off))
      (transferWriteback p u w rn (s.reg 8 rn) (s.offsetValue off)) rd

/-- A word or byte store (R272, R275, R278). -/
def State.singleStore (s : State) (size : AccessSize) (privileged p u w : Bool) (rn rd : RegNo) (off : Offset) : Result :=
  match singleRefusal p w rn rd off with
  | some r => .refused r
  | none =>
    s.storeSingle size privileged 12 (transferAddress p u (s.reg 8 rn) (s.offsetValue off))
      (transferWriteback p u w rn (s.reg 8 rn) (s.offsetValue off)) rd

/-- LDRT: post-indexed, marked non-privileged (R279). -/
def execLdrt (c : Cond) (u : Bool) (rn rd : RegNo) (off : Offset) (s : State) : Result :=
  whenPassed c s (s.singleLoad .word false false u false rn rd off)

/-- LDRBT (R279). -/
def execLdrbt (c : Cond) (u : Bool) (rn rd : RegNo) (off : Offset) (s : State) : Result :=
  whenPassed c s (s.singleLoad .byte false false u false rn rd off)

/-- STRT (R279). -/
def execStrt (c : Cond) (u : Bool) (rn rd : RegNo) (off : Offset) (s : State) : Result :=
  whenPassed c s (s.singleStore .word false false u false rn rd off)

/-- STRBT (R279). -/
def execStrbt (c : Cond) (u : Bool) (rn rd : RegNo) (off : Offset) (s : State) : Result :=
  whenPassed c s (s.singleStore .byte false false u false rn rd off)

/-- LDR (R273, R276). -/
def execLdr (c : Cond) (u : Bool) (ix : Index) (rn rd : RegNo) (off : Offset) (s : State) : Result :=
  whenPassed c s (s.singleLoad .word s.privileged ix.p u ix.w rn rd off)

/-- LDRB (R274, R276). -/
def execLdrb (c : Cond) (u : Bool) (ix : Index) (rn rd : RegNo) (off : Offset) (s : State) : Result :=
  whenPassed c s (s.singleLoad .byte s.privileged ix.p u ix.w rn rd off)

/-- STR (R275, R277). -/
def execStr (c : Cond) (u : Bool) (ix : Index) (rn rd : RegNo) (off : Offset) (s : State) : Result :=
  whenPassed c s (s.singleStore .word s.privileged ix.p u ix.w rn rd off)

/-- STRB (R278, R277). -/
def execStrb (c : Cond) (u : Bool) (ix : Index) (rn rd : RegNo) (off : Offset) (s : State) : Result :=
  whenPassed c s (s.singleStore .byte s.privileged ix.p u ix.w rn rd off)

end Sys2Proof.Machine
end

