-- ==== Sys2Proof/Machine/ThumbAlu.lean ====
section
/-!
DEFINITION. THUMB formats 1 to 5 (spec/47_thumb_formats_1_to_5.md).
-/

namespace Sys2Proof.Machine

/-- The flags set and a Lo register written from an ALU outcome (R370). -/
def State.thumbWrite (s : State) (rd : LoReg) (o : AluOut) : Result :=
  .next (State.finish { s with cpsr := s.cpsr.setFlags o } (lo rd) o.result)

/-- Only the flags set from an ALU outcome (R370). -/
def State.thumbTest (s : State) (o : AluOut) : Result :=
  .next (State.advance { s with cpsr := s.cpsr.setFlags o })

/-- The logical outcome of a shifter output (R199). -/
def State.shifted (s : State) (r : Word × Bool) : AluOut :=
  logical s.cpsr r.1 r.2

/-- LSL Rd,Rs,#Offset5 (R371; a zero field as in ARM, R138, log entry 33). -/
def execTLslImm (offset5 : BitVec 5) (rs rd : LoReg) (s : State) : Result :=
  s.thumbWrite rd (s.shifted (shiftByField .lsl offset5 (s.loReg rs) s.cpsr.c))

/-- LSR Rd,Rs,#Offset5 (R372; a zero field as in ARM, R138, log entry 33). -/
def execTLsrImm (offset5 : BitVec 5) (rs rd : LoReg) (s : State) : Result :=
  s.thumbWrite rd (s.shifted (shiftByField .lsr offset5 (s.loReg rs) s.cpsr.c))

/-- ASR Rd,Rs,#Offset5 (R373; a zero field as in ARM, R138, log entry 33). -/
def execTAsrImm (offset5 : BitVec 5) (rs rd : LoReg) (s : State) : Result :=
  s.thumbWrite rd (s.shifted (shiftByField .asr offset5 (s.loReg rs) s.cpsr.c))

/-- ADD Rd,Rs,Rn (R375). -/
def execTAddReg (rn rs rd : LoReg) (s : State) : Result :=
  s.thumbWrite rd (aluAdd (s.loReg rs) (s.loReg rn) false s.cpsr)

/-- SUB Rd,Rs,Rn (R377). -/
def execTSubReg (rn rs rd : LoReg) (s : State) : Result :=
  s.thumbWrite rd (aluSub (s.loReg rs) (s.loReg rn) false s.cpsr)

/-- ADD Rd,Rs,#Offset3 (R376). -/
def execTAddImm3 (offset3 : BitVec 3) (rs rd : LoReg) (s : State) : Result :=
  s.thumbWrite rd (aluAdd (s.loReg rs) (offset3.setWidth 32) false s.cpsr)

/-- SUB Rd,Rs,#Offset3 (R378). -/
def execTSubImm3 (offset3 : BitVec 3) (rs rd : LoReg) (s : State) : Result :=
  s.thumbWrite rd (aluSub (s.loReg rs) (offset3.setWidth 32) false s.cpsr)

/-- MOV Rd,#Offset8 (R380): C and V are kept. -/
def execTMovImm (rd : LoReg) (offset8 : BitVec 8) (s : State) : Result :=
  s.thumbWrite rd (logical s.cpsr (offset8.setWidth 32) s.cpsr.c)

/-- CMP Rd,#Offset8 (R381). -/
def execTCmpImm (rd : LoReg) (offset8 : BitVec 8) (s : State) : Result :=
  s.thumbTest (aluSub (s.loReg rd) (offset8.setWidth 32) false s.cpsr)

/-- ADD Rd,#Offset8 (R382). -/
def execTAddImm (rd : LoReg) (offset8 : BitVec 8) (s : State) : Result :=
  s.thumbWrite rd (aluAdd (s.loReg rd) (offset8.setWidth 32) false s.cpsr)

/-- SUB Rd,#Offset8 (R383). -/
def execTSubImm (rd : LoReg) (offset8 : BitVec 8) (s : State) : Result :=
  s.thumbWrite rd (aluSub (s.loReg rd) (offset8.setWidth 32) false s.cpsr)

/-- AND Rd,Rs (R385). -/
def execTAnd (rs rd : LoReg) (s : State) : Result :=
  s.thumbWrite rd (aluAnd (s.loReg rd) (s.loReg rs) s.cpsr.c s.cpsr)

/-- EOR Rd,Rs (R386). -/
def execTEor (rs rd : LoReg) (s : State) : Result :=
  s.thumbWrite rd (aluEor (s.loReg rd) (s.loReg rs) s.cpsr.c s.cpsr)

/-- LSL Rd,Rs (R387). -/
def execTLsl (rs rd : LoReg) (s : State) : Result :=
  s.thumbWrite rd (s.shifted (shiftByReg .lsl (s.loReg rs) (s.loReg rd) s.cpsr.c))

/-- LSR Rd,Rs (R388). -/
def execTLsr (rs rd : LoReg) (s : State) : Result :=
  s.thumbWrite rd (s.shifted (shiftByReg .lsr (s.loReg rs) (s.loReg rd) s.cpsr.c))

/-- ASR Rd,Rs (R389). -/
def execTAsr (rs rd : LoReg) (s : State) : Result :=
  s.thumbWrite rd (s.shifted (shiftByReg .asr (s.loReg rs) (s.loReg rd) s.cpsr.c))

/-- ADC Rd,Rs (R390). -/
def execTAdc (rs rd : LoReg) (s : State) : Result :=
  s.thumbWrite rd (aluAdc (s.loReg rd) (s.loReg rs) s.cpsr.c s.cpsr)

/-- SBC Rd,Rs (R391). -/
def execTSbc (rs rd : LoReg) (s : State) : Result :=
  s.thumbWrite rd (aluSbc (s.loReg rd) (s.loReg rs) s.cpsr.c s.cpsr)

/-- ROR Rd,Rs (R392). -/
def execTRor (rs rd : LoReg) (s : State) : Result :=
  s.thumbWrite rd (s.shifted (shiftByReg .ror (s.loReg rs) (s.loReg rd) s.cpsr.c))

/-- TST Rd,Rs (R393). -/
def execTTst (rs rd : LoReg) (s : State) : Result :=
  s.thumbTest (aluAnd (s.loReg rd) (s.loReg rs) s.cpsr.c s.cpsr)

/-- NEG Rd,Rs (R394). -/
def execTNeg (rs rd : LoReg) (s : State) : Result :=
  s.thumbWrite rd (aluSub 0 (s.loReg rs) false s.cpsr)

/-- CMP Rd,Rs (R395). -/
def execTCmp (rs rd : LoReg) (s : State) : Result :=
  s.thumbTest (aluSub (s.loReg rd) (s.loReg rs) s.cpsr.c s.cpsr)

/-- CMN Rd,Rs (R396). -/
def execTCmn (rs rd : LoReg) (s : State) : Result :=
  s.thumbTest (aluAdd (s.loReg rd) (s.loReg rs) s.cpsr.c s.cpsr)

/-- ORR Rd,Rs (R397). -/
def execTOrr (rs rd : LoReg) (s : State) : Result :=
  s.thumbWrite rd (aluOrr (s.loReg rd) (s.loReg rs) s.cpsr.c s.cpsr)

/-- MUL Rd,Rs (R398): Rd = Rs is refused. -/
def execTMul (rs rd : LoReg) (s : State) : Result :=
  if rs = rd then .refused .thumbMultiplySame
  else .next (s.finishMul true (lo rd) (s.loReg rs * s.loReg rd))

/-- BIC Rd,Rs (R399). -/
def execTBic (rs rd : LoReg) (s : State) : Result :=
  s.thumbWrite rd (aluBic (s.loReg rd) (s.loReg rs) s.cpsr.c s.cpsr)

/-- MVN Rd,Rs (R400). -/
def execTMvn (rs rd : LoReg) (s : State) : Result :=
  s.thumbWrite rd (aluMvn (s.loReg rd) (s.loReg rs) s.cpsr.c s.cpsr)

/-- Format 5 ADD, CMP and MOV with both H bits clear (R402). -/
def bothLow (hs hd : RegNo) : Bool :=
  !hs[3] && !hd[3]

/-- ADD Rd/Hd,Rs/Hs (R403): no flags. -/
def execTAddHi (hs hd : RegNo) (s : State) : Result :=
  if bothLow hs hd then .refused .hiRegisterBothLow
  else .next (s.finish hd (s.reg 4 hd + s.reg 4 hs))

/-- CMP Rd/Hd,Rs/Hs (R404). -/
def execTCmpHi (hs hd : RegNo) (s : State) : Result :=
  if bothLow hs hd then .refused .hiRegisterBothLow
  else s.thumbTest (aluSub (s.reg 4 hd) (s.reg 4 hs) false s.cpsr)

/-- MOV Rd/Hd,Rs/Hs (R405): no flags. -/
def execTMovHi (hs hd : RegNo) (s : State) : Result :=
  if bothLow hs hd then .refused .hiRegisterBothLow
  else .next (s.finish hd (s.reg 4 hs))

/-- BX Rs/Hs (R411 to R413). -/
def execTBx (h1 : Bool) (hs : RegNo) (_low : BitVec 3) (s : State) : Result :=
  if h1 then .refused .thumbBxH1
  else if hs = PC ∧ s.pc[1] then .refused .thumbBxPcUnaligned
  else s.exchange (s.reg 4 hs)

end Sys2Proof.Machine
end

