-- ==== Sys2Proof/Machine/ThumbBranch.lean ====
section
/-!
DEFINITION. THUMB formats 16 to 19 and the halfwords that are no instruction (spec/49_thumb_formats_16_to_19.md,
spec/30_encoding.md R140).
-/

namespace Sys2Proof.Machine

/-- The target of a THUMB branch: `ia + 4` plus a signed halfword count (R461, R468). -/
def State.thumbTarget {n : Nat} (s : State) (offset : BitVec n) : Word :=
  s.pc + 4 + offset.signExtend 32 <<< 1

/-- A conditional branch (R461). -/
def State.branchIf (s : State) (c : Cond) (soffset8 : BitVec 8) : Result :=
  if condPassed c s.cpsr then .next (s.branch (s.thumbTarget soffset8)) else .next s.advance

/-- BEQ label (R600). -/
def execTBeq (soffset8 : BitVec 8) (s : State) : Result :=
  s.branchIf .eq soffset8

/-- BNE label (R601). -/
def execTBne (soffset8 : BitVec 8) (s : State) : Result :=
  s.branchIf .ne soffset8

/-- BCS label (R602). -/
def execTBcs (soffset8 : BitVec 8) (s : State) : Result :=
  s.branchIf .cs soffset8

/-- BCC label (R603). -/
def execTBcc (soffset8 : BitVec 8) (s : State) : Result :=
  s.branchIf .cc soffset8

/-- BMI label (R604). -/
def execTBmi (soffset8 : BitVec 8) (s : State) : Result :=
  s.branchIf .mi soffset8

/-- BPL label (R605). -/
def execTBpl (soffset8 : BitVec 8) (s : State) : Result :=
  s.branchIf .pl soffset8

/-- BVS label (R606). -/
def execTBvs (soffset8 : BitVec 8) (s : State) : Result :=
  s.branchIf .vs soffset8

/-- BVC label (R607). -/
def execTBvc (soffset8 : BitVec 8) (s : State) : Result :=
  s.branchIf .vc soffset8

/-- BHI label (R608). -/
def execTBhi (soffset8 : BitVec 8) (s : State) : Result :=
  s.branchIf .hi soffset8

/-- BLS label (R609). -/
def execTBls (soffset8 : BitVec 8) (s : State) : Result :=
  s.branchIf .ls soffset8

/-- BGE label (R610). -/
def execTBge (soffset8 : BitVec 8) (s : State) : Result :=
  s.branchIf .ge soffset8

/-- BLT label (R611). -/
def execTBlt (soffset8 : BitVec 8) (s : State) : Result :=
  s.branchIf .lt soffset8

/-- BGT label (R612). -/
def execTBgt (soffset8 : BitVec 8) (s : State) : Result :=
  s.branchIf .gt soffset8

/-- BLE label (R613). -/
def execTBle (soffset8 : BitVec 8) (s : State) : Result :=
  s.branchIf .le soffset8

/-- Format 16 with Cond = 1110: refused (R140 (c), R462). -/
def execTCond1110 (_low : BitVec 8) (_s : State) : Result :=
  .refused .thumbCond1110

/-- SWI Value8 (R465). -/
def execTSwi (_value8 : BitVec 8) (s : State) : Result :=
  .next (s.takeException .swi)

/-- B label (R468). -/
def execTB (offset11 : BitVec 11) (s : State) : Result :=
  .next (s.branch (s.thumbTarget offset11))

/-- BL, first half (R473). -/
def execTBlFirst (offset : BitVec 11) (s : State) : Result :=
  .next (s.finish LR (s.pc + 4 + offset.signExtend 32 <<< 12))

/-- BL, second half (R474). -/
def execTBlSecond (offset : BitVec 11) (s : State) : Result :=
  .next ((s.setReg LR ((s.pc + 2) ||| 1)).branch (s.reg 4 LR + scaled2 offset))

/-- 0xB100 to 0xB1FF: refused (R140 (d)). -/
def execTFreeB1 (_low : BitVec 8) (_s : State) : Result :=
  .refused .thumbNotAllocated

/-- 0xB200 to 0xB3FF: refused (R140 (d)). -/
def execTFreeB2 (_low : BitVec 9) (_s : State) : Result :=
  .refused .thumbNotAllocated

/-- 0xB600 to 0xB7FF: refused (R140 (d)). -/
def execTFreeB6 (_low : BitVec 9) (_s : State) : Result :=
  .refused .thumbNotAllocated

/-- 0xB800 to 0xBBFF: refused (R140 (d)). -/
def execTFreeB8 (_low : BitVec 10) (_s : State) : Result :=
  .refused .thumbNotAllocated

/-- 0xBE00 to 0xBFFF: refused (R140 (d)). -/
def execTFreeBE (_low : BitVec 9) (_s : State) : Result :=
  .refused .thumbNotAllocated

/-- 0xE800 to 0xEFFF: refused (R140 (d)). -/
def execTFreeE8 (_low : BitVec 11) (_s : State) : Result :=
  .refused .thumbNotAllocated

end Sys2Proof.Machine
end

