-- ==== Sys2Proof/Machine/ThumbMemory.lean ====
section
/-!
DEFINITION. THUMB formats 6 to 15 (spec/48_thumb_formats_6_to_15.md).
-/

namespace Sys2Proof.Machine

/-- A THUMB load into a Lo register: no write-back; an odd halfword address is refused (R420, R79, R455). -/
def State.thumbLoad (s : State) (k : LoadKind) (a : Word) (rd : LoReg) : Result :=
  if k.size.odd a then .refused .oddHalfword
  else s.loadSingle k s.privileged a none (lo rd)

/-- A THUMB store of a Lo register: no write-back; an odd halfword address is refused (R420, R79). -/
def State.thumbStore (s : State) (size : AccessSize) (a : Word) (rd : LoReg) : Result :=
  if size.odd a then .refused .oddHalfword
  else s.storeSingle size s.privileged 4 a none (lo rd)

/-- LDR Rd,[PC,#Imm] (R421). -/
def execTLdrPc (rd : LoReg) (word8 : BitVec 8) (s : State) : Result :=
  s.thumbLoad .word (s.thumbPcBase + scaled4 word8) rd

/-- STR Rd,[Rb,Ro] (R422). -/
def execTStrReg (ro rb rd : LoReg) (s : State) : Result :=
  s.thumbStore .word (s.loReg rb + s.loReg ro) rd

/-- STRB Rd,[Rb,Ro] (R423). -/
def execTStrbReg (ro rb rd : LoReg) (s : State) : Result :=
  s.thumbStore .byte (s.loReg rb + s.loReg ro) rd

/-- LDR Rd,[Rb,Ro] (R424). -/
def execTLdrReg (ro rb rd : LoReg) (s : State) : Result :=
  s.thumbLoad .word (s.loReg rb + s.loReg ro) rd

/-- LDRB Rd,[Rb,Ro] (R425). -/
def execTLdrbReg (ro rb rd : LoReg) (s : State) : Result :=
  s.thumbLoad .byte (s.loReg rb + s.loReg ro) rd

/-- STRH Rd,[Rb,Ro] (R427). -/
def execTStrhReg (ro rb rd : LoReg) (s : State) : Result :=
  s.thumbStore .half (s.loReg rb + s.loReg ro) rd

/-- LDSB Rd,[Rb,Ro] (R429). -/
def execTLdsbReg (ro rb rd : LoReg) (s : State) : Result :=
  s.thumbLoad .signedByte (s.loReg rb + s.loReg ro) rd

/-- LDRH Rd,[Rb,Ro] (R428). -/
def execTLdrhReg (ro rb rd : LoReg) (s : State) : Result :=
  s.thumbLoad .half (s.loReg rb + s.loReg ro) rd

/-- LDSH Rd,[Rb,Ro] (R430). -/
def execTLdshReg (ro rb rd : LoReg) (s : State) : Result :=
  s.thumbLoad .signedHalf (s.loReg rb + s.loReg ro) rd

/-- STR Rd,[Rb,#Imm] (R432). -/
def execTStrImm (offset5 : BitVec 5) (rb rd : LoReg) (s : State) : Result :=
  s.thumbStore .word (s.loReg rb + scaled4 offset5) rd

/-- LDR Rd,[Rb,#Imm] (R433). -/
def execTLdrImm (offset5 : BitVec 5) (rb rd : LoReg) (s : State) : Result :=
  s.thumbLoad .word (s.loReg rb + scaled4 offset5) rd

/-- STRB Rd,[Rb,#Imm] (R434). -/
def execTStrbImm (offset5 : BitVec 5) (rb rd : LoReg) (s : State) : Result :=
  s.thumbStore .byte (s.loReg rb + offset5.setWidth 32) rd

/-- LDRB Rd,[Rb,#Imm] (R435). -/
def execTLdrbImm (offset5 : BitVec 5) (rb rd : LoReg) (s : State) : Result :=
  s.thumbLoad .byte (s.loReg rb + offset5.setWidth 32) rd

/-- STRH Rd,[Rb,#Imm] (R436). -/
def execTStrhImm (offset5 : BitVec 5) (rb rd : LoReg) (s : State) : Result :=
  s.thumbStore .half (s.loReg rb + scaled2 offset5) rd

/-- LDRH Rd,[Rb,#Imm] (R437). -/
def execTLdrhImm (offset5 : BitVec 5) (rb rd : LoReg) (s : State) : Result :=
  s.thumbLoad .half (s.loReg rb + scaled2 offset5) rd

/-- STR Rd,[SP,#Imm] (R438). -/
def execTStrSp (rd : LoReg) (word8 : BitVec 8) (s : State) : Result :=
  s.thumbStore .word (s.reg 4 SP + scaled4 word8) rd

/-- LDR Rd,[SP,#Imm] (R439). -/
def execTLdrSp (rd : LoReg) (word8 : BitVec 8) (s : State) : Result :=
  s.thumbLoad .word (s.reg 4 SP + scaled4 word8) rd

/-- ADD Rd,PC,#Imm (R440). -/
def execTAddPc (rd : LoReg) (word8 : BitVec 8) (s : State) : Result :=
  .next (s.finish (lo rd) (s.thumbPcBase + scaled4 word8))

/-- ADD Rd,SP,#Imm (R441). -/
def execTAddSp (rd : LoReg) (word8 : BitVec 8) (s : State) : Result :=
  .next (s.finish (lo rd) (s.reg 4 SP + scaled4 word8))

/-- ADD SP,#Imm (R443). -/
def execTSpPlus (sword7 : BitVec 7) (s : State) : Result :=
  .next (s.finish SP (s.reg 4 SP + scaled4 sword7))

/-- ADD SP,#-Imm (R444). -/
def execTSpMinus (sword7 : BitVec 7) (s : State) : Result :=
  .next (s.finish SP (s.reg 4 SP - scaled4 sword7))

/-- The STMDB R13! of a PUSH (R446, R447). -/
def State.thumbPush (s : State) (list : BitVec 16) : Result :=
  if list = 0 then .refused .emptyRegisterList
  else
    s.storeBlock s.cpsr.mode SP true (blockStart true false (s.reg 4 SP) list) (blockFinal false (s.reg 4 SP) list) list

/-- The LDMIA Rb! of POP and LDMIA (R448, R449, R452): a word for R15 is a branch that stays in THUMB state. -/
def State.thumbLoadMultiple (s : State) (rb : RegNo) (list : BitVec 16) : Result :=
  if list = 0 then .refused .emptyRegisterList
  else
    match s.blockFault .read (regList list).length (blockStart false true (s.reg 4 rb) list) with
    | some f => .fault f
    | none =>
      let final := blockFinal true (s.reg 4 rb) list
      let b := s.blockLoads s.cpsr.mode rb true (blockStart false true (s.reg 4 rb) list) final list
      let after := s.afterBlock (regList list).length (blockStart false true (s.reg 4 rb) list)
      if b.aborted then .next (after.blockLoadAbort rb true final b.regs)
      else
        match b.target with
        | some t => .next (State.branch { after with regs := b.regs } t)
        | none => .next (State.advance { after with regs := b.regs })

/-- PUSH Rlist (R446). -/
def execTPush (list : BitVec 8) (s : State) : Result :=
  s.thumbPush (loList list)

/-- PUSH Rlist,LR (R447). -/
def execTPushLr (list : BitVec 8) (s : State) : Result :=
  s.thumbPush (loList list ||| 0x4000#16)

/-- POP Rlist (R448). -/
def execTPop (list : BitVec 8) (s : State) : Result :=
  s.thumbLoadMultiple SP (loList list)

/-- POP Rlist,PC (R449). -/
def execTPopPc (list : BitVec 8) (s : State) : Result :=
  s.thumbLoadMultiple SP (loList list ||| 0x8000#16)

/-- STMIA Rb!,Rlist (R451). -/
def execTStmia (rb : LoReg) (list : BitVec 8) (s : State) : Result :=
  if loList list = 0 then .refused .emptyRegisterList
  else
    s.storeBlock s.cpsr.mode (lo rb) true (blockStart false true (s.loReg rb) (loList list))
      (blockFinal true (s.loReg rb) (loList list)) (loList list)

/-- LDMIA Rb!,Rlist (R452). -/
def execTLdmia (rb : LoReg) (list : BitVec 8) (s : State) : Result :=
  s.thumbLoadMultiple (lo rb) (loList list)

end Sys2Proof.Machine
end

