-- ==== Sys2Proof/Machine/Trap.lean ====
section
/-!
DEFINITION. Swap, software interrupt, coprocessor instructions, the undefined instruction and the reserved ARM encodings
(spec/46_swap_swi_coprocessor_undefined.md, spec/30_encoding.md R132).
-/

namespace Sys2Proof.Machine

/-- The operands a swap forbids (R342). -/
def swapForbidden (rn rd rm : RegNo) : Bool :=
  rn == PC || rd == PC || rm == PC

/-- A swap as one step: the read, the write, then Rd; an abort of either changes nothing (R341, R343, R344). DESIGN CHOICE (log entry 5):
where nothing answers to the read, which is not refused, but the write is refused, the swap takes the data abort and does not fault. -/
def State.swap (s : State) (k : LoadKind) (rn rd rm : RegNo) : Result :=
  if swapForbidden rn rd rm then .refused .swapR15
  else
    let a := s.reg 8 rn
    if s.loadAborts k s.privileged a || s.storeAborts k.size s.privileged a then .next (s.takeException .dataAbort)
    else
      match s.mapFault k.size (k.size.align a) with
      | some f => .fault f
      | none => .next ((((s.storeValue k.size a (s.reg 8 rm)).afterRead k.size (k.size.align a)).setReg rd (s.loadValue k a)).advance)

/-- SWP (R341). -/
def execSwp (c : Cond) (rn rd rm : RegNo) (s : State) : Result :=
  whenPassed c s (s.swap .word rn rd rm)

/-- SWPB (R343). -/
def execSwpb (c : Cond) (rn rd rm : RegNo) (s : State) : Result :=
  whenPassed c s (s.swap .byte rn rd rm)

/-- SWI (R348); the comment field is ignored (R349). -/
def execSwi (c : Cond) (_comment : BitVec 24) (s : State) : Result :=
  whenPassed c s (.next (s.takeException .swi))

/-- The undefined instruction (R350). -/
def execUndefined (c : Cond) (_high : BitVec 20) (_low : BitVec 4) (s : State) : Result :=
  whenPassed c s (.next (s.takeException .undefined))

/-- STC: no coprocessor is present, the undefined instruction trap is taken (R352, R354). -/
def execStc (c : Cond) (_p _u _n _w : Bool) (_rn _crd _cp : BitVec 4) (_offset : BitVec 8) (s : State) : Result :=
  whenPassed c s (.next (s.takeException .undefined))

/-- LDC (R352, R354). -/
def execLdc (c : Cond) (_p _u _n _w : Bool) (_rn _crd _cp : BitVec 4) (_offset : BitVec 8) (s : State) : Result :=
  whenPassed c s (.next (s.takeException .undefined))

/-- CDP (R352, R353). -/
def execCdp (c : Cond) (_opc _crn _crd _cp : BitVec 4) (_info : BitVec 3) (_crm : BitVec 4) (s : State) : Result :=
  whenPassed c s (.next (s.takeException .undefined))

/-- MCR (R352, R356). -/
def execMcr (c : Cond) (_opc : BitVec 3) (_crn _rd _cp : BitVec 4) (_info : BitVec 3) (_crm : BitVec 4) (s : State) : Result :=
  whenPassed c s (.next (s.takeException .undefined))

/-- MRC (R352, R356). -/
def execMrc (c : Cond) (_opc : BitVec 3) (_crn _rd _cp : BitVec 4) (_info : BitVec 3) (_crm : BitVec 4) (s : State) : Result :=
  whenPassed c s (.next (s.takeException .undefined))

/-- Condition field 1111: refused whatever the flags (R132 (a), R161). -/
def execReservedCondition (_bits : BitVec 28) (_s : State) : Result :=
  .refused .reservedCondition

/-- Decode row 7: refused when its condition passes (R132 (b), R161). -/
def execNotDefinedExtension (c : Cond) (_bits : BitVec 28) (s : State) : Result :=
  whenPassed c s (.refused .notDefinedEncoding)

/-- Decode row 12: refused when its condition passes (R132 (c), R161). -/
def execNotDefinedTest (c : Cond) (_bits : BitVec 28) (s : State) : Result :=
  whenPassed c s (.refused .notDefinedEncoding)

end Sys2Proof.Machine
end

