-- ==== Sys2Proof/Machine/Dispatch.lean ====
section
/-! DEFINITION. The meaning of each instruction: one arm per constructor. -/

namespace Sys2Proof.Machine

def exec (i : Instr) (s : State) : Host.Outcome State Fault Refusal :=
  match i with
  | .reservedCondition bits => Sys2Proof.Machine.execReservedCondition bits s
  | .bx cond rn => Sys2Proof.Machine.execBx cond rn s
  | .mul cond sb rd rn rs rm => Sys2Proof.Machine.execMul cond sb rd rn rs rm s
  | .mla cond sb rd rn rs rm => Sys2Proof.Machine.execMla cond sb rd rn rs rm s
  | .umull cond sb rdHi rdLo rs rm => Sys2Proof.Machine.execUmull cond sb rdHi rdLo rs rm s
  | .umlal cond sb rdHi rdLo rs rm => Sys2Proof.Machine.execUmlal cond sb rdHi rdLo rs rm s
  | .smull cond sb rdHi rdLo rs rm => Sys2Proof.Machine.execSmull cond sb rdHi rdLo rs rm s
  | .smlal cond sb rdHi rdLo rs rm => Sys2Proof.Machine.execSmlal cond sb rdHi rdLo rs rm s
  | .swp cond rn rd rm => Sys2Proof.Machine.execSwp cond rn rd rm s
  | .swpb cond rn rd rm => Sys2Proof.Machine.execSwpb cond rn rd rm s
  | .strhReg cond p u w rn rd rm => Sys2Proof.Machine.execStrhReg cond p u w rn rd rm s
  | .strhImm cond p u w rn rd imm8 => Sys2Proof.Machine.execStrhImm cond p u w rn rd imm8 s
  | .ldrhReg cond p u w rn rd rm => Sys2Proof.Machine.execLdrhReg cond p u w rn rd rm s
  | .ldrhImm cond p u w rn rd imm8 => Sys2Proof.Machine.execLdrhImm cond p u w rn rd imm8 s
  | .ldrsbReg cond p u w rn rd rm => Sys2Proof.Machine.execLdrsbReg cond p u w rn rd rm s
  | .ldrsbImm cond p u w rn rd imm8 => Sys2Proof.Machine.execLdrsbImm cond p u w rn rd imm8 s
  | .ldrshReg cond p u w rn rd rm => Sys2Proof.Machine.execLdrshReg cond p u w rn rd rm s
  | .ldrshImm cond p u w rn rd imm8 => Sys2Proof.Machine.execLdrshImm cond p u w rn rd imm8 s
  | .signedStoreByteReg cond p u w rn rd rm => Sys2Proof.Machine.execSignedStoreByteReg cond p u w rn rd rm s
  | .signedStoreByteImm cond p u w rn rd imm8 => Sys2Proof.Machine.execSignedStoreByteImm cond p u w rn rd imm8 s
  | .signedStoreHalfReg cond p u w rn rd rm => Sys2Proof.Machine.execSignedStoreHalfReg cond p u w rn rd rm s
  | .signedStoreHalfImm cond p u w rn rd imm8 => Sys2Proof.Machine.execSignedStoreHalfImm cond p u w rn rd imm8 s
  | .notDefinedExtension cond bits => Sys2Proof.Machine.execNotDefinedExtension cond bits s
  | .mrs cond spsr rd => Sys2Proof.Machine.execMrs cond spsr rd s
  | .msr cond spsr rm => Sys2Proof.Machine.execMsr cond spsr rm s
  | .msrFlg cond spsr rm => Sys2Proof.Machine.execMsrFlg cond spsr rm s
  | .msrFlgImm cond spsr rotate imm8 => Sys2Proof.Machine.execMsrFlgImm cond spsr rotate imm8 s
  | .notDefinedTest cond bits => Sys2Proof.Machine.execNotDefinedTest cond bits s
  | .and cond sb rn rd op2 => Sys2Proof.Machine.execAnd cond sb rn rd op2 s
  | .eor cond sb rn rd op2 => Sys2Proof.Machine.execEor cond sb rn rd op2 s
  | .sub cond sb rn rd op2 => Sys2Proof.Machine.execSub cond sb rn rd op2 s
  | .rsb cond sb rn rd op2 => Sys2Proof.Machine.execRsb cond sb rn rd op2 s
  | .add cond sb rn rd op2 => Sys2Proof.Machine.execAdd cond sb rn rd op2 s
  | .adc cond sb rn rd op2 => Sys2Proof.Machine.execAdc cond sb rn rd op2 s
  | .sbc cond sb rn rd op2 => Sys2Proof.Machine.execSbc cond sb rn rd op2 s
  | .rsc cond sb rn rd op2 => Sys2Proof.Machine.execRsc cond sb rn rd op2 s
  | .tst cond rn rd op2 => Sys2Proof.Machine.execTst cond rn rd op2 s
  | .teq cond rn rd op2 => Sys2Proof.Machine.execTeq cond rn rd op2 s
  | .cmp cond rn rd op2 => Sys2Proof.Machine.execCmp cond rn rd op2 s
  | .cmn cond rn rd op2 => Sys2Proof.Machine.execCmn cond rn rd op2 s
  | .orr cond sb rn rd op2 => Sys2Proof.Machine.execOrr cond sb rn rd op2 s
  | .mov cond sb rn rd op2 => Sys2Proof.Machine.execMov cond sb rn rd op2 s
  | .bic cond sb rn rd op2 => Sys2Proof.Machine.execBic cond sb rn rd op2 s
  | .mvn cond sb rn rd op2 => Sys2Proof.Machine.execMvn cond sb rn rd op2 s
  | .undefined cond high low => Sys2Proof.Machine.execUndefined cond high low s
  | .ldrt cond u rn rd off => Sys2Proof.Machine.execLdrt cond u rn rd off s
  | .ldrbt cond u rn rd off => Sys2Proof.Machine.execLdrbt cond u rn rd off s
  | .strt cond u rn rd off => Sys2Proof.Machine.execStrt cond u rn rd off s
  | .strbt cond u rn rd off => Sys2Proof.Machine.execStrbt cond u rn rd off s
  | .ldr cond u ix rn rd off => Sys2Proof.Machine.execLdr cond u ix rn rd off s
  | .ldrb cond u ix rn rd off => Sys2Proof.Machine.execLdrb cond u ix rn rd off s
  | .str cond u ix rn rd off => Sys2Proof.Machine.execStr cond u ix rn rd off s
  | .strb cond u ix rn rd off => Sys2Proof.Machine.execStrb cond u ix rn rd off s
  | .ldmia cond sb w rn list => Sys2Proof.Machine.execLdmia cond sb w rn list s
  | .ldmib cond sb w rn list => Sys2Proof.Machine.execLdmib cond sb w rn list s
  | .ldmda cond sb w rn list => Sys2Proof.Machine.execLdmda cond sb w rn list s
  | .ldmdb cond sb w rn list => Sys2Proof.Machine.execLdmdb cond sb w rn list s
  | .stmia cond sb w rn list => Sys2Proof.Machine.execStmia cond sb w rn list s
  | .stmib cond sb w rn list => Sys2Proof.Machine.execStmib cond sb w rn list s
  | .stmda cond sb w rn list => Sys2Proof.Machine.execStmda cond sb w rn list s
  | .stmdb cond sb w rn list => Sys2Proof.Machine.execStmdb cond sb w rn list s
  | .b cond offset => Sys2Proof.Machine.execB cond offset s
  | .bl cond offset => Sys2Proof.Machine.execBl cond offset s
  | .stc cond p u n w rn crd cp offset => Sys2Proof.Machine.execStc cond p u n w rn crd cp offset s
  | .ldc cond p u n w rn crd cp offset => Sys2Proof.Machine.execLdc cond p u n w rn crd cp offset s
  | .cdp cond opc crn crd cp info crm => Sys2Proof.Machine.execCdp cond opc crn crd cp info crm s
  | .mcr cond opc crn rd cp info crm => Sys2Proof.Machine.execMcr cond opc crn rd cp info crm s
  | .mrc cond opc crn rd cp info crm => Sys2Proof.Machine.execMrc cond opc crn rd cp info crm s
  | .swi cond comment => Sys2Proof.Machine.execSwi cond comment s
  | .tLslImm offset5 rs rd => Sys2Proof.Machine.execTLslImm offset5 rs rd s
  | .tLsrImm offset5 rs rd => Sys2Proof.Machine.execTLsrImm offset5 rs rd s
  | .tAsrImm offset5 rs rd => Sys2Proof.Machine.execTAsrImm offset5 rs rd s
  | .tAddReg rn rs rd => Sys2Proof.Machine.execTAddReg rn rs rd s
  | .tSubReg rn rs rd => Sys2Proof.Machine.execTSubReg rn rs rd s
  | .tAddImm3 offset3 rs rd => Sys2Proof.Machine.execTAddImm3 offset3 rs rd s
  | .tSubImm3 offset3 rs rd => Sys2Proof.Machine.execTSubImm3 offset3 rs rd s
  | .tMovImm rd offset8 => Sys2Proof.Machine.execTMovImm rd offset8 s
  | .tCmpImm rd offset8 => Sys2Proof.Machine.execTCmpImm rd offset8 s
  | .tAddImm rd offset8 => Sys2Proof.Machine.execTAddImm rd offset8 s
  | .tSubImm rd offset8 => Sys2Proof.Machine.execTSubImm rd offset8 s
  | .tAnd rs rd => Sys2Proof.Machine.execTAnd rs rd s
  | .tEor rs rd => Sys2Proof.Machine.execTEor rs rd s
  | .tLsl rs rd => Sys2Proof.Machine.execTLsl rs rd s
  | .tLsr rs rd => Sys2Proof.Machine.execTLsr rs rd s
  | .tAsr rs rd => Sys2Proof.Machine.execTAsr rs rd s
  | .tAdc rs rd => Sys2Proof.Machine.execTAdc rs rd s
  | .tSbc rs rd => Sys2Proof.Machine.execTSbc rs rd s
  | .tRor rs rd => Sys2Proof.Machine.execTRor rs rd s
  | .tTst rs rd => Sys2Proof.Machine.execTTst rs rd s
  | .tNeg rs rd => Sys2Proof.Machine.execTNeg rs rd s
  | .tCmp rs rd => Sys2Proof.Machine.execTCmp rs rd s
  | .tCmn rs rd => Sys2Proof.Machine.execTCmn rs rd s
  | .tOrr rs rd => Sys2Proof.Machine.execTOrr rs rd s
  | .tMul rs rd => Sys2Proof.Machine.execTMul rs rd s
  | .tBic rs rd => Sys2Proof.Machine.execTBic rs rd s
  | .tMvn rs rd => Sys2Proof.Machine.execTMvn rs rd s
  | .tAddHi hs hd => Sys2Proof.Machine.execTAddHi hs hd s
  | .tCmpHi hs hd => Sys2Proof.Machine.execTCmpHi hs hd s
  | .tMovHi hs hd => Sys2Proof.Machine.execTMovHi hs hd s
  | .tBx h1 hs low => Sys2Proof.Machine.execTBx h1 hs low s
  | .tLdrPc rd word8 => Sys2Proof.Machine.execTLdrPc rd word8 s
  | .tStrReg ro rb rd => Sys2Proof.Machine.execTStrReg ro rb rd s
  | .tStrbReg ro rb rd => Sys2Proof.Machine.execTStrbReg ro rb rd s
  | .tLdrReg ro rb rd => Sys2Proof.Machine.execTLdrReg ro rb rd s
  | .tLdrbReg ro rb rd => Sys2Proof.Machine.execTLdrbReg ro rb rd s
  | .tStrhReg ro rb rd => Sys2Proof.Machine.execTStrhReg ro rb rd s
  | .tLdsbReg ro rb rd => Sys2Proof.Machine.execTLdsbReg ro rb rd s
  | .tLdrhReg ro rb rd => Sys2Proof.Machine.execTLdrhReg ro rb rd s
  | .tLdshReg ro rb rd => Sys2Proof.Machine.execTLdshReg ro rb rd s
  | .tStrImm offset5 rb rd => Sys2Proof.Machine.execTStrImm offset5 rb rd s
  | .tLdrImm offset5 rb rd => Sys2Proof.Machine.execTLdrImm offset5 rb rd s
  | .tStrbImm offset5 rb rd => Sys2Proof.Machine.execTStrbImm offset5 rb rd s
  | .tLdrbImm offset5 rb rd => Sys2Proof.Machine.execTLdrbImm offset5 rb rd s
  | .tStrhImm offset5 rb rd => Sys2Proof.Machine.execTStrhImm offset5 rb rd s
  | .tLdrhImm offset5 rb rd => Sys2Proof.Machine.execTLdrhImm offset5 rb rd s
  | .tStrSp rd word8 => Sys2Proof.Machine.execTStrSp rd word8 s
  | .tLdrSp rd word8 => Sys2Proof.Machine.execTLdrSp rd word8 s
  | .tAddPc rd word8 => Sys2Proof.Machine.execTAddPc rd word8 s
  | .tAddSp rd word8 => Sys2Proof.Machine.execTAddSp rd word8 s
  | .tSpPlus sword7 => Sys2Proof.Machine.execTSpPlus sword7 s
  | .tSpMinus sword7 => Sys2Proof.Machine.execTSpMinus sword7 s
  | .tPush list => Sys2Proof.Machine.execTPush list s
  | .tPushLr list => Sys2Proof.Machine.execTPushLr list s
  | .tPop list => Sys2Proof.Machine.execTPop list s
  | .tPopPc list => Sys2Proof.Machine.execTPopPc list s
  | .tStmia rb list => Sys2Proof.Machine.execTStmia rb list s
  | .tLdmia rb list => Sys2Proof.Machine.execTLdmia rb list s
  | .tBeq soffset8 => Sys2Proof.Machine.execTBeq soffset8 s
  | .tBne soffset8 => Sys2Proof.Machine.execTBne soffset8 s
  | .tBcs soffset8 => Sys2Proof.Machine.execTBcs soffset8 s
  | .tBcc soffset8 => Sys2Proof.Machine.execTBcc soffset8 s
  | .tBmi soffset8 => Sys2Proof.Machine.execTBmi soffset8 s
  | .tBpl soffset8 => Sys2Proof.Machine.execTBpl soffset8 s
  | .tBvs soffset8 => Sys2Proof.Machine.execTBvs soffset8 s
  | .tBvc soffset8 => Sys2Proof.Machine.execTBvc soffset8 s
  | .tBhi soffset8 => Sys2Proof.Machine.execTBhi soffset8 s
  | .tBls soffset8 => Sys2Proof.Machine.execTBls soffset8 s
  | .tBge soffset8 => Sys2Proof.Machine.execTBge soffset8 s
  | .tBlt soffset8 => Sys2Proof.Machine.execTBlt soffset8 s
  | .tBgt soffset8 => Sys2Proof.Machine.execTBgt soffset8 s
  | .tBle soffset8 => Sys2Proof.Machine.execTBle soffset8 s
  | .tCond1110 low => Sys2Proof.Machine.execTCond1110 low s
  | .tSwi value8 => Sys2Proof.Machine.execTSwi value8 s
  | .tB offset11 => Sys2Proof.Machine.execTB offset11 s
  | .tBlFirst offset => Sys2Proof.Machine.execTBlFirst offset s
  | .tBlSecond offset => Sys2Proof.Machine.execTBlSecond offset s
  | .tFreeB1 low => Sys2Proof.Machine.execTFreeB1 low s
  | .tFreeB2 low => Sys2Proof.Machine.execTFreeB2 low s
  | .tFreeB6 low => Sys2Proof.Machine.execTFreeB6 low s
  | .tFreeB8 low => Sys2Proof.Machine.execTFreeB8 low s
  | .tFreeBE low => Sys2Proof.Machine.execTFreeBE low s
  | .tFreeE8 low => Sys2Proof.Machine.execTFreeE8 low s

end Sys2Proof.Machine
end

