-- ==== Sys2Proof/Machine/Hazard.lean ====
section
/-!
DEFINITION. The registers an ARM instruction reads or writes, for the hazard after a user-bank LDM (spec/70_reset_and_hazards.md R551).
-/

namespace Sys2Proof.Machine

/-- The registers operand 2 reads. -/
def operand2Regs : Operand2 → List RegNo
  | .imm .. => []
  | .shiftImm _ _ rm => [rm]
  | .shiftReg _ rs rm => [rs, rm]

/-- The registers an offset reads. -/
def offsetRegs : Offset → List RegNo
  | .imm _ => []
  | .reg _ _ rm => [rm]

/-- The link register, where an exception entry to `target` from the mode `m` writes the register that `m` calls R14. -/
def entryRegs (m target : Mode) : List RegNo :=
  if m = target then [LR] else []

/-- The registers an instruction reads or writes, by the names of the mode `m` it executes in. DESIGN CHOICE (log entry 19): the R14 that
the entry of SWI, of the undefined instruction and of a coprocessor instruction writes counts, where `m` is the mode entered; the
R14_abt that a data abort of a load or store executed in Abort mode writes does not count, because the abort is the memory manager's
answer and no operand of the instruction; the list of a second user-bank LDM or STM counts by its register numbers, although it transfers
the User bank and not the bank of `m`. A user-bank LDM leaves T = 0, so the THUMB instructions, which cannot follow it, name none. -/
def touchedRegs (m : Mode) : Instr → List RegNo
  | .reservedCondition _ => []
  | .bx _ rn => [rn]
  | .mul _ _ rd _ rs rm => [rd, rs, rm]
  | .mla _ _ rd rn rs rm => [rd, rn, rs, rm]
  | .umull _ _ rdHi rdLo rs rm => [rdHi, rdLo, rs, rm]
  | .umlal _ _ rdHi rdLo rs rm => [rdHi, rdLo, rs, rm]
  | .smull _ _ rdHi rdLo rs rm => [rdHi, rdLo, rs, rm]
  | .smlal _ _ rdHi rdLo rs rm => [rdHi, rdLo, rs, rm]
  | .swp _ rn rd rm => [rn, rd, rm]
  | .swpb _ rn rd rm => [rn, rd, rm]
  | .strhReg _ _ _ _ rn rd rm => [rn, rd, rm]
  | .strhImm _ _ _ _ rn rd _ => [rn, rd]
  | .ldrhReg _ _ _ _ rn rd rm => [rn, rd, rm]
  | .ldrhImm _ _ _ _ rn rd _ => [rn, rd]
  | .ldrsbReg _ _ _ _ rn rd rm => [rn, rd, rm]
  | .ldrsbImm _ _ _ _ rn rd _ => [rn, rd]
  | .ldrshReg _ _ _ _ rn rd rm => [rn, rd, rm]
  | .ldrshImm _ _ _ _ rn rd _ => [rn, rd]
  | .signedStoreByteReg _ _ _ _ _ _ _ => []
  | .signedStoreByteImm _ _ _ _ _ _ _ => []
  | .signedStoreHalfReg _ _ _ _ _ _ _ => []
  | .signedStoreHalfImm _ _ _ _ _ _ _ => []
  | .notDefinedExtension _ _ => []
  | .mrs _ _ rd => [rd]
  | .msr _ _ rm => [rm]
  | .msrFlg _ _ rm => [rm]
  | .msrFlgImm _ _ _ _ => []
  | .notDefinedTest _ _ => []
  | .and _ _ rn rd op2 => rn :: rd :: operand2Regs op2
  | .eor _ _ rn rd op2 => rn :: rd :: operand2Regs op2
  | .sub _ _ rn rd op2 => rn :: rd :: operand2Regs op2
  | .rsb _ _ rn rd op2 => rn :: rd :: operand2Regs op2
  | .add _ _ rn rd op2 => rn :: rd :: operand2Regs op2
  | .adc _ _ rn rd op2 => rn :: rd :: operand2Regs op2
  | .sbc _ _ rn rd op2 => rn :: rd :: operand2Regs op2
  | .rsc _ _ rn rd op2 => rn :: rd :: operand2Regs op2
  | .tst _ rn _ op2 => rn :: operand2Regs op2
  | .teq _ rn _ op2 => rn :: operand2Regs op2
  | .cmp _ rn _ op2 => rn :: operand2Regs op2
  | .cmn _ rn _ op2 => rn :: operand2Regs op2
  | .orr _ _ rn rd op2 => rn :: rd :: operand2Regs op2
  | .mov _ _ _ rd op2 => rd :: operand2Regs op2
  | .bic _ _ rn rd op2 => rn :: rd :: operand2Regs op2
  | .mvn _ _ _ rd op2 => rd :: operand2Regs op2
  | .undefined _ _ _ => entryRegs m .und
  | .ldrt _ _ rn rd off => rn :: rd :: offsetRegs off
  | .ldrbt _ _ rn rd off => rn :: rd :: offsetRegs off
  | .strt _ _ rn rd off => rn :: rd :: offsetRegs off
  | .strbt _ _ rn rd off => rn :: rd :: offsetRegs off
  | .ldr _ _ _ rn rd off => rn :: rd :: offsetRegs off
  | .ldrb _ _ _ rn rd off => rn :: rd :: offsetRegs off
  | .str _ _ _ rn rd off => rn :: rd :: offsetRegs off
  | .strb _ _ _ rn rd off => rn :: rd :: offsetRegs off
  | .ldmia _ _ _ rn list => rn :: regList list
  | .ldmib _ _ _ rn list => rn :: regList list
  | .ldmda _ _ _ rn list => rn :: regList list
  | .ldmdb _ _ _ rn list => rn :: regList list
  | .stmia _ _ _ rn list => rn :: regList list
  | .stmib _ _ _ rn list => rn :: regList list
  | .stmda _ _ _ rn list => rn :: regList list
  | .stmdb _ _ _ rn list => rn :: regList list
  | .b _ _ => []
  | .bl _ _ => [LR]
  | .stc _ _ _ _ _ _ _ _ _ => entryRegs m .und
  | .ldc _ _ _ _ _ _ _ _ _ => entryRegs m .und
  | .cdp _ _ _ _ _ _ _ => entryRegs m .und
  | .mcr _ _ _ _ _ _ _ => entryRegs m .und
  | .mrc _ _ _ _ _ _ _ => entryRegs m .und
  | .swi _ _ => entryRegs m .svc
  | .tLslImm .. | .tLsrImm .. | .tAsrImm .. | .tAddReg .. | .tSubReg .. | .tAddImm3 .. | .tSubImm3 .. | .tMovImm ..
  | .tCmpImm .. | .tAddImm .. | .tSubImm .. | .tAnd .. | .tEor .. | .tLsl .. | .tLsr .. | .tAsr .. | .tAdc ..
  | .tSbc .. | .tRor .. | .tTst .. | .tNeg .. | .tCmp .. | .tCmn .. | .tOrr .. | .tMul .. | .tBic .. | .tMvn ..
  | .tAddHi .. | .tCmpHi .. | .tMovHi .. | .tBx .. | .tLdrPc .. | .tStrReg .. | .tStrbReg .. | .tLdrReg ..
  | .tLdrbReg .. | .tStrhReg .. | .tLdsbReg .. | .tLdrhReg .. | .tLdshReg .. | .tStrImm .. | .tLdrImm ..
  | .tStrbImm .. | .tLdrbImm .. | .tStrhImm .. | .tLdrhImm .. | .tStrSp .. | .tLdrSp .. | .tAddPc .. | .tAddSp ..
  | .tSpPlus .. | .tSpMinus .. | .tPush .. | .tPushLr .. | .tPop .. | .tPopPc .. | .tStmia .. | .tLdmia ..
  | .tBeq .. | .tBne .. | .tBcs .. | .tBcc .. | .tBmi .. | .tBpl .. | .tBvs .. | .tBvc .. | .tBhi .. | .tBls ..
  | .tBge .. | .tBlt .. | .tBgt .. | .tBle .. | .tCond1110 .. | .tSwi .. | .tB .. | .tBlFirst .. | .tBlSecond ..
  | .tFreeB1 .. | .tFreeB2 .. | .tFreeB6 .. | .tFreeB8 .. | .tFreeBE .. | .tFreeE8 .. => []

/-- A register number names different registers in the mode `m` and in User mode (R23, R551). -/
def bankedIn (m : Mode) (i : RegNo) : Bool :=
  physReg m i != physReg .usr i

/-- The condition field of an ARM instruction; none for the reserved one and for the THUMB instructions (R160). -/
def conditionOf : Instr → Option Cond
  | .reservedCondition .. => none
  | .bx cond .. => some cond
  | .mul cond .. => some cond
  | .mla cond .. => some cond
  | .umull cond .. => some cond
  | .umlal cond .. => some cond
  | .smull cond .. => some cond
  | .smlal cond .. => some cond
  | .swp cond .. => some cond
  | .swpb cond .. => some cond
  | .strhReg cond .. => some cond
  | .strhImm cond .. => some cond
  | .ldrhReg cond .. => some cond
  | .ldrhImm cond .. => some cond
  | .ldrsbReg cond .. => some cond
  | .ldrsbImm cond .. => some cond
  | .ldrshReg cond .. => some cond
  | .ldrshImm cond .. => some cond
  | .signedStoreByteReg cond .. => some cond
  | .signedStoreByteImm cond .. => some cond
  | .signedStoreHalfReg cond .. => some cond
  | .signedStoreHalfImm cond .. => some cond
  | .notDefinedExtension cond .. => some cond
  | .mrs cond .. => some cond
  | .msr cond .. => some cond
  | .msrFlg cond .. => some cond
  | .msrFlgImm cond .. => some cond
  | .notDefinedTest cond .. => some cond
  | .and cond .. => some cond
  | .eor cond .. => some cond
  | .sub cond .. => some cond
  | .rsb cond .. => some cond
  | .add cond .. => some cond
  | .adc cond .. => some cond
  | .sbc cond .. => some cond
  | .rsc cond .. => some cond
  | .tst cond .. => some cond
  | .teq cond .. => some cond
  | .cmp cond .. => some cond
  | .cmn cond .. => some cond
  | .orr cond .. => some cond
  | .mov cond .. => some cond
  | .bic cond .. => some cond
  | .mvn cond .. => some cond
  | .undefined cond .. => some cond
  | .ldrt cond .. => some cond
  | .ldrbt cond .. => some cond
  | .strt cond .. => some cond
  | .strbt cond .. => some cond
  | .ldr cond .. => some cond
  | .ldrb cond .. => some cond
  | .str cond .. => some cond
  | .strb cond .. => some cond
  | .ldmia cond .. => some cond
  | .ldmib cond .. => some cond
  | .ldmda cond .. => some cond
  | .ldmdb cond .. => some cond
  | .stmia cond .. => some cond
  | .stmib cond .. => some cond
  | .stmda cond .. => some cond
  | .stmdb cond .. => some cond
  | .b cond .. => some cond
  | .bl cond .. => some cond
  | .stc cond .. => some cond
  | .ldc cond .. => some cond
  | .cdp cond .. => some cond
  | .mcr cond .. => some cond
  | .mrc cond .. => some cond
  | .swi cond .. => some cond
  | .tLslImm .. | .tLsrImm .. | .tAsrImm .. | .tAddReg .. | .tSubReg .. | .tAddImm3 .. | .tSubImm3 .. | .tMovImm ..
  | .tCmpImm .. | .tAddImm .. | .tSubImm .. | .tAnd .. | .tEor .. | .tLsl .. | .tLsr .. | .tAsr .. | .tAdc ..
  | .tSbc .. | .tRor .. | .tTst .. | .tNeg .. | .tCmp .. | .tCmn .. | .tOrr .. | .tMul .. | .tBic .. | .tMvn ..
  | .tAddHi .. | .tCmpHi .. | .tMovHi .. | .tBx .. | .tLdrPc .. | .tStrReg .. | .tStrbReg .. | .tLdrReg ..
  | .tLdrbReg .. | .tStrhReg .. | .tLdsbReg .. | .tLdrhReg .. | .tLdshReg .. | .tStrImm .. | .tLdrImm ..
  | .tStrbImm .. | .tLdrbImm .. | .tStrhImm .. | .tLdrhImm .. | .tStrSp .. | .tLdrSp .. | .tAddPc .. | .tAddSp ..
  | .tSpPlus .. | .tSpMinus .. | .tPush .. | .tPushLr .. | .tPop .. | .tPopPc .. | .tStmia .. | .tLdmia ..
  | .tBeq .. | .tBne .. | .tBcs .. | .tBcc .. | .tBmi .. | .tBpl .. | .tBvs .. | .tBvc .. | .tBhi .. | .tBls ..
  | .tBge .. | .tBlt .. | .tBgt .. | .tBle .. | .tCond1110 .. | .tSwi .. | .tB .. | .tBlFirst .. | .tBlSecond ..
  | .tFreeB1 .. | .tFreeB2 .. | .tFreeB6 .. | .tFreeB8 .. | .tFreeBE .. | .tFreeE8 .. => none

/-- The instruction is not ignored: its condition holds, or it has none (R161). -/
def isExecuted (p : Cpsr) (i : Instr) : Bool :=
  match conditionOf i with
  | none => true
  | some c => condPassed c p

/-- The instruction after a user-bank LDM touches a register banked for the current mode (R551). -/
def State.hitsBankHazard (s : State) (i : Instr) : Bool :=
  s.bankHazard && isExecuted s.cpsr i && (touchedRegs s.cpsr.mode i).any (bankedIn s.cpsr.mode)

end Sys2Proof.Machine
end

