-- ==== Sys2Proof/Machine/Step.lean ====
section
/-! DEFINITION. One step of the machine, and the placing of an instruction where the next step fetches. -/

namespace Sys2Proof.Machine

/-- One step (R501, R505): the boundary's inputs are sampled; an exception of the boundary is taken, or the instruction at the pc is
fetched and executed. The two program hazards (R98, R551) and a fetch to which nothing answers (U30) stop it. -/
def step (s : State) : Host.Outcome State Fault Refusal :=
  let s1 := s.atBoundary
  match s1.boundaryException s.sample with
  | some s2 => .next s2
  | none =>
    if s1.prefetch.current then .fault .overwrittenPrefetch
    else
      match s1.fetchFault with
      | some f => .fault f
      | none =>
        if s1.hitsBankHazard s1.fetch then .fault .bankedRegisterAfterUserLdm
        else exec s1.fetch { s1.afterRead s1.fetchSize s1.pc with bankHazard := false }

/-- The state with an instruction of `nbits` bits placed where the next step fetches it (log entry 7): an ARM word for 32 bits, a
THUMB halfword for 16, stored at the pc in the byte order of the state, T set to match. The hazard marks are cleared, a quiet
sample is put before the inputs where a sample waits, and the regions of the abort oracle and of the memory map that would keep the
fetch from the instruction are taken out, so that the very next step fetches. -/
def State.withFetchWord (s : State) (nbits w : Nat) : State :=
  let thumb := nbits == 16
  let code := if thumb then splitHalf s.bigend (BitVec.ofNat 16 w) else splitWord s.bigend (BitVec.ofNat 32 w)
  let size : AccessSize := if thumb then .half else .word
  let placed := State.putBytes { s with cpsr := { s.cpsr with t := thumb } } s.pc code
  { placed with
    prefetch := Prefetch.fresh
    bankHazard := false
    memMap := s.memMap.filter fun r => !r.covers size s.pc
    aborts := s.aborts.filter fun r => !r.refuses .fetch size s.privileged s.pc
    inputs := if s.inputs.isEmpty then [] else Sample.quiet :: s.inputs }

end Sys2Proof.Machine
end

