-- ==== Sys2Proof/Safety.lean ====
section
/-!
DEFINITION. The terms the statements use: the invariant that every step keeps, what a next state keeps of the state before, and the
shapes of a result, a transfer and an exception entry.
-/

namespace Sys2Proof.Machine

/-! ## The invariant -/

/-- The pc lies on an instruction boundary of the instruction set of T (R31, R82). -/
def State.pcAligned (s : State) : Bool :=
  alignPc s.cpsr.t s.pc == s.pc

/-- The invariant of the machine: memory in canonical form (R70), the pc aligned for its instruction set (R31, R82), and no mark past
the two prefetched instructions (R98). -/
def State.Inv (s : State) : Prop :=
  Memory.wf s.mem = true ∧ s.pcAligned = true ∧ s.prefetch.afterNext = false

/-- A step that neither faults nor is refused. -/
def State.Runs (s : State) : Prop :=
  ∃ t, step s = .next t

/-! ## What a next state keeps -/

/-- Every physical register that the numbers `ws` do not name in the bank of `m` holds what it held (R23). -/
def State.KeepsBank (s t : State) (m : Mode) (ws : List RegNo) : Prop :=
  ∀ r : PhysReg, (∀ i ∈ ws, physReg m i ≠ some r) → t.regs.get r = s.regs.get r

/-- Every physical register that the numbers `ws` do not name in the mode of `s` holds what it held. -/
def State.KeepsRegs (s t : State) (ws : List RegNo) : Prop :=
  s.KeepsBank t s.cpsr.mode ws

/-- Every byte of memory reads as before. -/
def State.KeepsMemory (s t : State) : Prop :=
  ∀ b : Word, t.byteAt b = s.byteAt b

/-- Every byte of memory outside the `n` bytes from `a` on reads as before. -/
def State.KeepsMemoryOutside (s t : State) (a : Word) (n : Nat) : Prop :=
  ∀ b : Word, n ≤ (b - a).toNat → t.byteAt b = s.byteAt b

/-- The inputs of the core are as before. -/
def State.KeepsInputs (s t : State) : Prop :=
  t.bigend = s.bigend ∧ t.aborts = s.aborts ∧ t.inputs = s.inputs ∧ t.memMap = s.memMap

/-- The SPSRs, the inputs and the user-bank hazard mark are as before. -/
def State.KeepsSystem (s t : State) : Prop :=
  t.spsrs = s.spsrs ∧ s.KeepsInputs t ∧ t.bankHazard = s.bankHazard

/-- Only the pc moved on to the next instruction (R29). -/
def State.OnlyAdvances (s t : State) : Prop :=
  t.pc = s.pc + s.width ∧ t.cpsr = s.cpsr ∧ s.KeepsRegs t [] ∧ s.KeepsMemory t ∧ s.KeepsSystem t

/-! ## Results -/

/-- N and Z from a value, C given (R199). -/
def Cpsr.withNzc (p : Cpsr) (v : Word) (c : Bool) : Cpsr :=
  { p with n := v[31], z := decide (v = 0), c := c }

/-- N and Z from a value, C and V given (R200). -/
def Cpsr.withNzcv (p : Cpsr) (v : Word) (c o : Bool) : Cpsr :=
  { p with n := v[31], z := decide (v = 0), c := c, v := o }

/-- The value `v` arrived in `rd`: a register, the pc moving on, or for R15 a branch that keeps T (R31). -/
def State.Arrives (s t : State) (rd : RegNo) (v : Word) : Prop :=
  (rd ≠ PC → t.pc = s.pc + s.width ∧ t.reg 0 rd = v) ∧ (rd = PC → t.pc = alignPc s.cpsr.t v)

/-- The value `v` arrived in `rd`, the CPSR is `p`, nothing else changed. -/
def State.ResultIn (s t : State) (rd : RegNo) (v : Word) (p : Cpsr) : Prop :=
  s.Arrives t rd v ∧ t.cpsr = p ∧ s.KeepsRegs t [rd] ∧ s.KeepsMemory t ∧ s.KeepsSystem t

/-- The CPSR is `p`, the pc moved on, nothing else changed. -/
def State.FlagsOnly (s t : State) (p : Cpsr) : Prop :=
  t.pc = s.pc + s.width ∧ t.cpsr = p ∧ s.KeepsRegs t [] ∧ s.KeepsMemory t ∧ s.KeepsSystem t

/-! ## Transfers -/

/-- The base holds the modified base where it is written back (R272). -/
def State.BaseWritten (t : State) (wb : Bool) (rn : RegNo) (m : Word) : Prop :=
  wb = true → t.reg 0 rn = m

/-- The memory manager does not refuse the access, and memory or a device answers (R74, R86, R90). -/
def State.accepts (s : State) (kind : AccessKind) (size : AccessSize) (privileged : Bool) (a : Word) : Prop :=
  s.aborted kind size privileged a = false ∧ s.mapFault size a = none

/-- The memory manager does not refuse the access, and nothing answers, which ends it in `f` (R86, U30; log entry 5). -/
def State.misses (s : State) (kind : AccessKind) (size : AccessSize) (privileged : Bool) (a : Word) (f : Fault) : Prop :=
  s.aborted kind size privileged a = false ∧ s.mapFault size a = some f

/-- `v` is what a read gives: `memory`, the contents of memory, or anything where a device answers (R74). -/
def State.Reads {n : Nat} (s : State) (size : AccessSize) (a : Word) (memory v : BitVec n) : Prop :=
  s.onDevice size a = false → v = memory

/-- A load: `v` arrived in `rd`, the base was written back where asked, nothing else changed. -/
def State.Loaded (s t : State) (rd : RegNo) (v : Word) (wb : Bool) (rn : RegNo) (m : Word) : Prop :=
  s.Arrives t rd v ∧ t.BaseWritten wb rn m ∧ t.cpsr = s.cpsr ∧ s.KeepsRegs t (if wb then [rd, rn] else [rd])
    ∧ s.KeepsMemory t ∧ s.KeepsSystem t

/-- A store to the `n` bytes from `a` on: the base was written back where asked, nothing else changed. -/
def State.Stored (s t : State) (a : Word) (n : Nat) (wb : Bool) (rn : RegNo) (m : Word) : Prop :=
  t.pc = s.pc + s.width ∧ t.BaseWritten wb rn m ∧ t.cpsr = s.cpsr ∧ s.KeepsRegs t (if wb then [rn] else [])
    ∧ s.KeepsMemoryOutside t a n ∧ s.KeepsSystem t

/-- The operands a word or byte transfer allows: with write-back neither R15 nor Rd as base, no R15 as offset, and post-indexed no
Rm = Rn (R281 to R283). -/
def singleAllowed (p wb : Bool) (rn rd : RegNo) (off : Offset) : Prop :=
  (wb = true → rn ≠ PC ∧ rd ≠ rn) ∧ offsetReg off ≠ some PC ∧ (p = false → offsetReg off ≠ some rn)

/-- The operands a halfword or signed transfer allows (R282, R296, R300). -/
def halfwordAllowed (p w : Bool) (rn rd : RegNo) (rm : Option RegNo) : Prop :=
  (p = false → w = false) ∧ ((!p || w) = true → rn ≠ PC ∧ rd ≠ rn) ∧ rm ≠ some PC

/-- The address of the k-th word of a block transfer, bits 1:0 cleared (R80, R312). -/
def slot (start : Word) (k : Nat) : Word :=
  wordAligned (start + BitVec.ofNat 32 (4 * k))

/-- No word of the block is refused to this kind of access, and to each memory or a device answers. -/
def State.blockAccepted (s : State) (kind : AccessKind) (start : Word) (n : Nat) : Prop :=
  ∀ k, k < n → s.accepts kind .word s.privileged (slot start k)

/-- To every word of the block that is not refused to a store memory or a device answers. -/
def State.blockAnswered (s : State) (start : Word) (n : Nat) : Prop :=
  ∀ k, k < n → s.aborted .write .word s.privileged (slot start k) = false → s.mapFault .word (slot start k) = none

/-- Every register of the list but R15, in the bank of `m`, holds its word, or what a device answered (R74, R312, R317). -/
def State.BlockLoaded (s t : State) (m : Mode) (start : Word) (list : BitVec 16) : Prop :=
  ∀ k i, (regList list)[k]? = some i → i ≠ PC → s.Reads .word (slot start k) (s.wordAt (slot start k)) (t.bankReg m 0 i)

/-- A store of words to `start` on: the k-th holds `v k`, or its old value where a device answers (log entry 5), the base was written back
where asked, nothing else changed. -/
def State.BlockStored (s t : State) (start : Word) (vs : List Word) (wb : Bool) (rn : RegNo) (m : Word) : Prop :=
  (∀ k v, vs[k]? = some v → t.wordAt (slot start k) = if s.onDevice .word (slot start k) then s.wordAt (slot start k) else v)
    ∧ s.Stored t (wordAligned start) (4 * vs.length) wb rn m

/-! ## Exception entry -/

/-- Entry to the exception mode `mode` at `vector` from `s` (R490): the link register, the SPSR, the CPSR and the pc; every other
register and SPSR is kept. Memory is spoken of apart. -/
def State.Enters (s t : State) (mode : Mode) (vector link : Word) (f : Bool) : Prop :=
  t.cpsr = { s.cpsr with mode := mode, t := false, i := true, f := f }
    ∧ t.pc = vector
    ∧ t.regs.get (linkReg mode) = link
    ∧ (∀ r : PhysReg, r ≠ linkReg mode → t.regs.get r = s.regs.get r)
    ∧ (∃ k, mode.spsr = some k ∧ t.spsrs.get k = s.cpsr.toPsr ∧ ∀ j, j ≠ k → t.spsrs.get j = s.spsrs.get j)
    ∧ s.KeepsInputs t

/-- A block store to `start` on, some of whose words are refused (R326): each other word of memory holds the value of its register, the
refused ones, those of a device and every byte outside the block are kept, and the data abort is entered from `base`. -/
def State.BlockStoreAborted (s t base : State) (start : Word) (list : BitVec 16) (value : RegNo → Word) : Prop :=
  base.Enters t .abt 0x10 (s.pc + 8) s.cpsr.f
    ∧ (∀ k i, (regList list)[k]? = some i →
        t.wordAt (slot start k) =
          if s.aborted .write .word s.privileged (slot start k) || s.onDevice .word (slot start k) then s.wordAt (slot start k)
          else value i)
    ∧ s.KeepsMemoryOutside t (wordAligned start) (4 * (regList list).length)

/-! ## Groups of instructions of one shape -/

/-- The data processing opcodes that write Rd, each with its operation (R180). -/
def writingOpcodes : List ((Cond → Bool → RegNo → RegNo → Operand2 → Instr) × AluOp) :=
  [(.and, aluAnd), (.eor, aluEor), (.sub, aluSub), (.rsb, aluRsb), (.add, aluAdd), (.adc, aluAdc), (.sbc, aluSbc),
   (.rsc, aluRsc), (.orr, aluOrr), (.mov, aluMov), (.bic, aluBic), (.mvn, aluMvn)]

/-- The data processing opcodes that write no register (R180). -/
def testOpcodes : List (Cond → RegNo → RegNo → Operand2 → Instr) :=
  [.tst, .teq, .cmp, .cmn]

/-- The ARM multiple loads, with the lowest address and the value written back, of the base and the size of the block (R312). -/
def multipleLoads : List ((Cond → Bool → Bool → RegNo → BitVec 16 → Instr) × (Word → Word → Word) × (Word → Word → Word)) :=
  [(.ldmia, fun base _ => base, fun base size => base + size),
   (.ldmib, fun base _ => base + 4, fun base size => base + size),
   (.ldmda, fun base size => base - size + 4, fun base size => base - size),
   (.ldmdb, fun base size => base - size, fun base size => base - size)]

/-- The ARM multiple stores, likewise (R312). -/
def multipleStores : List ((Cond → Bool → Bool → RegNo → BitVec 16 → Instr) × (Word → Word → Word) × (Word → Word → Word)) :=
  [(.stmia, fun base _ => base, fun base size => base + size),
   (.stmib, fun base _ => base + 4, fun base size => base + size),
   (.stmda, fun base size => base - size + 4, fun base size => base - size),
   (.stmdb, fun base size => base - size, fun base size => base - size)]

/-- The word and byte transfers with an addressing form (R270). -/
def singleForms (c : Cond) (u : Bool) (ix : Index) (rn rd : RegNo) (off : Offset) : List Instr :=
  [.ldr c u ix rn rd off, .ldrb c u ix rn rd off, .str c u ix rn rd off, .strb c u ix rn rd off]

/-- The T forms (R279). -/
def unprivilegedForms (c : Cond) (u : Bool) (rn rd : RegNo) (off : Offset) : List Instr :=
  [.ldrt c u rn rd off, .ldrbt c u rn rd off, .strt c u rn rd off, .strbt c u rn rd off]

/-- The halfword and signed transfers with a register offset (R291). -/
def halfwordRegForms (c : Cond) (p u w : Bool) (rn rd rm : RegNo) : List Instr :=
  [.ldrhReg c p u w rn rd rm, .ldrsbReg c p u w rn rd rm, .ldrshReg c p u w rn rd rm, .strhReg c p u w rn rd rm]

/-- The halfword and signed transfers with an immediate offset (R291). -/
def halfwordImmForms (c : Cond) (p u w : Bool) (rn rd : RegNo) (imm8 : BitVec 8) : List Instr :=
  [.ldrhImm c p u w rn rd imm8, .ldrsbImm c p u w rn rd imm8, .ldrshImm c p u w rn rd imm8, .strhImm c p u w rn rd imm8]

/-- The THUMB conditional branches with their conditions (R600 to R613). -/
def thumbBranches : List ((BitVec 8 → Instr) × Cond) :=
  [(.tBeq, .eq), (.tBne, .ne), (.tBcs, .cs), (.tBcc, .cc), (.tBmi, .mi), (.tBpl, .pl), (.tBvs, .vs), (.tBvc, .vc),
   (.tBhi, .hi), (.tBls, .ls), (.tBge, .ge), (.tBlt, .lt), (.tBgt, .gt), (.tBle, .le)]

/-- The instructions that can store to memory. -/
def storesMemory : Instr → Bool
  | .swp .. | .swpb .. | .strhReg .. | .strhImm .. | .strt .. | .strbt .. | .str .. | .strb .. | .stmia .. | .stmib ..
  | .stmda .. | .stmdb .. | .tStrReg .. | .tStrbReg .. | .tStrhReg .. | .tStrImm .. | .tStrbImm .. | .tStrhImm ..
  | .tStrSp .. | .tPush .. | .tPushLr .. | .tStmia .. => true
  | .reservedCondition .. | .bx .. | .mul .. | .mla .. | .umull .. | .umlal .. | .smull .. | .smlal .. | .ldrhReg ..
  | .ldrhImm .. | .ldrsbReg .. | .ldrsbImm .. | .ldrshReg .. | .ldrshImm .. | .signedStoreByteReg ..
  | .signedStoreByteImm .. | .signedStoreHalfReg .. | .signedStoreHalfImm .. | .notDefinedExtension .. | .mrs ..
  | .msr .. | .msrFlg .. | .msrFlgImm .. | .notDefinedTest .. | .and .. | .eor .. | .sub .. | .rsb .. | .add ..
  | .adc .. | .sbc .. | .rsc .. | .tst .. | .teq .. | .cmp .. | .cmn .. | .orr .. | .mov .. | .bic .. | .mvn ..
  | .undefined .. | .ldrt .. | .ldrbt .. | .ldr .. | .ldrb .. | .ldmia .. | .ldmib .. | .ldmda .. | .ldmdb .. | .b ..
  | .bl .. | .stc .. | .ldc .. | .cdp .. | .mcr .. | .mrc .. | .swi .. | .tLslImm .. | .tLsrImm .. | .tAsrImm ..
  | .tAddReg .. | .tSubReg .. | .tAddImm3 .. | .tSubImm3 .. | .tMovImm .. | .tCmpImm .. | .tAddImm .. | .tSubImm ..
  | .tAnd .. | .tEor .. | .tLsl .. | .tLsr .. | .tAsr .. | .tAdc .. | .tSbc .. | .tRor .. | .tTst .. | .tNeg ..
  | .tCmp .. | .tCmn .. | .tOrr .. | .tMul .. | .tBic .. | .tMvn .. | .tAddHi .. | .tCmpHi .. | .tMovHi .. | .tBx ..
  | .tLdrPc .. | .tLdrReg .. | .tLdrbReg .. | .tLdsbReg .. | .tLdrhReg .. | .tLdshReg .. | .tLdrImm .. | .tLdrbImm ..
  | .tLdrhImm .. | .tLdrSp .. | .tAddPc .. | .tAddSp .. | .tSpPlus .. | .tSpMinus .. | .tPop .. | .tPopPc ..
  | .tLdmia .. | .tBeq .. | .tBne .. | .tBcs .. | .tBcc .. | .tBmi .. | .tBpl .. | .tBvs .. | .tBvc .. | .tBhi ..
  | .tBls .. | .tBge .. | .tBlt .. | .tBgt .. | .tBle .. | .tCond1110 .. | .tSwi .. | .tB .. | .tBlFirst ..
  | .tBlSecond .. | .tFreeB1 .. | .tFreeB2 .. | .tFreeB6 .. | .tFreeB8 .. | .tFreeBE .. | .tFreeE8 .. => false

end Sys2Proof.Machine
end

