-- ==== Sys2Proof/Certificates/Slice0/Obligations.lean ====
section
/-!
DEFINITION. The statements for the provers. `R<n>` is a rule of spec/; a clause that is the model's own choice names its log entry.
-/

section

open Sys2Proof Sys2Proof.Machine

/-! ## Encoding and the step -/

/-- R540: reset, as the state after it and as a transition from any state: address 0, Supervisor mode, both interrupts disabled, ARM
state; memory is not touched. -/
def Obligations.ResetTransition : Prop :=
  (State.reset.pc = 0 ∧ State.reset.cpsr.mode = .svc ∧ State.reset.cpsr.i = true ∧ State.reset.cpsr.f = true
    ∧ State.reset.cpsr.t = false)
  ∧ ∀ s : State, s.sample.reset = true →
      ∃ t, step s = .next t ∧ t.pc = 0 ∧ t.cpsr.mode = .svc ∧ t.cpsr.i = true ∧ t.cpsr.f = true ∧ t.cpsr.t = false
        ∧ s.KeepsMemory t ∧ t.bigend = s.bigend ∧ t.inputs = s.inputs.tail

/-- Words written out from the encodings of spec/30_encoding.md decode to their instructions. -/
def Obligations.DecodedWords : Prop :=
  decodeArm 0xE12FFF10#32 = .bx .al 0
  ∧ decodeArm 0xE0010392#32 = .mul .al false 1 0 3 2
  ∧ decodeArm 0xE0B51392#32 = .umlal .al true 5 1 3 2
  ∧ decodeArm 0xE1442093#32 = .swpb .al 4 2 3
  ∧ decodeArm 0xE1C430BE#32 = .strhImm .al true true false 4 3 14
  ∧ decodeArm 0xE13210B3#32 = .ldrhReg .al true false true 2 1 3
  ∧ decodeArm 0xE14F0000#32 = .mrs .al true 0
  ∧ decodeArm 0xE328F205#32 = .msrFlgImm .al false 2 5
  ∧ decodeArm 0xE0454237#32 = .sub .al false 5 4 (.shiftReg .lsr 2 7)
  ∧ decodeArm 0xE7921103#32 = .ldr .al true (.pre false) 2 1 (.reg .lsl 2 3)
  ∧ decodeArm 0xE4B10004#32 = .ldrt .al true 1 0 (.imm 4)
  ∧ decodeArm 0xE8FD8000#32 = .ldmia .al true true 13 0x8000
  ∧ decodeArm 0xE92D4007#32 = .stmdb .al false true 13 0x4007
  ∧ decodeArm 0x1B00003E#32 = .bl .ne 0x3E
  ∧ decodeArm 0xEEA21103#32 = .cdp .al 10 2 1 1 0 3
  ∧ decodeArm 0xEF000100#32 = .swi .al 0x100
  ∧ decodeThumb 0x0EEA#16 = .tLsrImm 27 5 2
  ∧ decodeThumb 0x1F96#16 = .tSubImm3 6 2 6
  ∧ decodeThumb 0x425D#16 = .tNeg 3 5
  ∧ decodeThumb 0x4564#16 = .tCmpHi 12 4
  ∧ decodeThumb 0x4BD3#16 = .tLdrPc 3 211
  ∧ decodeThumb 0x567A#16 = .tLdsbReg 1 7 2
  ∧ decodeThumb 0xB09A#16 = .tSpMinus 26
  ∧ decodeThumb 0xBD44#16 = .tPopPc 0x44
  ∧ decodeThumb 0xDC01#16 = .tBgt 1
  ∧ decodeThumb 0xF802#16 = .tBlSecond 2

/-- Decoding the encoding of a well-formed instruction gives it back, for every instruction of both sets. -/
def Obligations.DecodeOfEncode : Prop :=
  ∀ i : Instr, i.wf = true → decodeCode (encode i) = i

/-- Every ARM word and every THUMB halfword decodes to a well-formed instruction whose encoding is that very word (R113, R136: the rows
leave no word out, and no bit is dropped). -/
def Obligations.EncodeOfDecode : Prop :=
  (∀ w : Word, (decodeArm w).wf = true ∧ encode (decodeArm w) = .arm w)
  ∧ ∀ h : Half, (decodeThumb h).wf = true ∧ encode (decodeThumb h) = .thumb h

/-- A step runs the instruction that the bytes at the pc decode to, under the byte order and in the instruction set of T, where no
exception is taken at the boundary, the fetch is from memory (log entry 5) and no hazard stops it. Around it: one sample of the inputs is
consumed and the mark of a user-bank LDM cleared (log entries 8, 9, 19). A fetch from a device is the matter of MemoryMapAccesses. -/
def Obligations.StepRunsDecoded : Prop :=
  ∀ (s : State) (i : Instr),
    s.sample.reset = false → (s.sample.fiq = true → s.cpsr.f = true) → (s.sample.irq = true → s.cpsr.i = true) →
    s.atBoundary.fetchAborts = false → s.prefetch.current = false →
    s.mapKind (if s.cpsr.t then .half else .word) s.pc = none →
    (s.cpsr.t = false →
      decodeArm (joinWord s.bigend (s.byteAt s.pc) (s.byteAt (s.pc + 1)) (s.byteAt (s.pc + 2)) (s.byteAt (s.pc + 3))) = i) →
    (s.cpsr.t = true → decodeThumb (joinHalf s.bigend (s.byteAt s.pc) (s.byteAt (s.pc + 1))) = i) →
    s.hitsBankHazard i = false →
    step s = exec i { s with inputs := s.inputs.tail, aborts := s.sample.aborts.getD s.aborts, bankHazard := false }

/-- The invariant holds after reset. -/
def Obligations.InvariantAtReset : Prop :=
  State.reset.Inv

/-- Every step from a state that meets the invariant leads to a state that meets it: memory stays in canonical form, the pc stays
aligned for its instruction set (R31, R82), no mark lies past the two prefetched instructions (R98). -/
def Obligations.InvariantKept : Prop :=
  ∀ s t : State, s.Inv → step s = .next t → t.Inv

/-! ## Conditions -/

/-- R160: the condition table: the codes, what each tests, and the reserved one. That the model refuses a word with condition field 1111
in every state is decision D5 (log entry 14): R160 calls the code unpredictable. -/
def Obligations.ConditionTable : Prop :=
  (∀ x ∈ [(0#4, Cond.eq), (1, .ne), (2, .cs), (3, .cc), (4, .mi), (5, .pl), (6, .vs), (7, .vc), (8, .hi), (9, .ls), (10, .ge),
          (11, .lt), (12, .gt), (13, .le), (14, .al)], condOf x.1 = some x.2)
  ∧ condOf 15 = none
  ∧ (∀ (w : Word) (s : State), w.extractLsb' 28 4 = 15 → exec (decodeArm w) s = .refused .reservedCondition)
  ∧ ∀ p : Cpsr,
    (condPassed .eq p = true ↔ p.z = true) ∧ (condPassed .ne p = true ↔ p.z = false)
    ∧ (condPassed .cs p = true ↔ p.c = true) ∧ (condPassed .cc p = true ↔ p.c = false)
    ∧ (condPassed .mi p = true ↔ p.n = true) ∧ (condPassed .pl p = true ↔ p.n = false)
    ∧ (condPassed .vs p = true ↔ p.v = true) ∧ (condPassed .vc p = true ↔ p.v = false)
    ∧ (condPassed .hi p = true ↔ p.c = true ∧ p.z = false) ∧ (condPassed .ls p = true ↔ p.c = false ∨ p.z = true)
    ∧ (condPassed .ge p = true ↔ p.n = p.v) ∧ (condPassed .lt p = true ↔ p.n ≠ p.v)
    ∧ (condPassed .gt p = true ↔ p.z = false ∧ p.n = p.v) ∧ (condPassed .le p = true ↔ p.z = true ∨ p.n ≠ p.v)
    ∧ condPassed .al p = true

/-- R161: an ARM instruction whose condition fails changes nothing but the pc, whatever the instruction. That condition field 1111 is
refused whatever the flags is the model's choice, decision D5 (log entry 14): R160 calls the code unpredictable. -/
def Obligations.FailedCondition : Prop :=
  (∀ (s : State) (i : Instr) (c : Cond), conditionOf i = some c → condPassed c s.cpsr = false → s.cpsr.t = false →
    ∃ t, exec i s = .next t ∧ t.pc = s.pc + 4 ∧ s.OnlyAdvances t)
  ∧ ∀ (s : State) (bits : BitVec 28), exec (.reservedCondition bits) s = .refused .reservedCondition

/-! ## Data processing -/

/-- R181: the sum, the carry out of bit 31 and the signed overflow; subtraction as the addition of the complement, its carry being
"no borrow". -/
def Obligations.AdditionAndSubtraction : Prop :=
  ∀ a b : Word,
    (∀ cin : Bool,
      (addWithCarry a b cin).result.toNat = (a.toNat + b.toNat + cin.toNat) % 2 ^ 32
      ∧ ((addWithCarry a b cin).carry = true ↔ 2 ^ 32 ≤ a.toNat + b.toNat + cin.toNat)
      ∧ ((addWithCarry a b cin).overflow = true ↔
          a.toInt + b.toInt + cin.toNat < -2 ^ 31 ∨ 2 ^ 31 ≤ a.toInt + b.toInt + cin.toNat))
    ∧ (addWithCarry a (~~~b) true).result = a - b
    ∧ ((addWithCarry a (~~~b) true).carry = true ↔ b.toNat ≤ a.toNat)
    ∧ ((addWithCarry a (~~~b) true).overflow = true ↔ a.toInt - b.toInt < -2 ^ 31 ∨ 2 ^ 31 ≤ a.toInt - b.toInt)
    ∧ (addWithCarry a (~~~b) false).result = a - b - 1

/-- R184 to R187: the shifter with an amount in the instruction, value and carry out. -/
def Obligations.ShiftByInstruction : Prop :=
  ∀ (amount : BitVec 5) (v : Word) (c : Bool),
    shiftByField .lsl amount v c =
      (if amount = 0 then (v, c) else (BitVec.ofNat 32 (v.toNat * 2 ^ amount.toNat), v.getLsbD (32 - amount.toNat)))
    ∧ shiftByField .lsr amount v c =
      (if amount = 0 then (0#32, v[31]) else (BitVec.ofNat 32 (v.toNat / 2 ^ amount.toNat), v.getLsbD (amount.toNat - 1)))
    ∧ shiftByField .asr amount v c =
      (if amount = 0 then (if v[31] then 0xFFFFFFFF#32 else 0#32, v[31])
       else (BitVec.ofInt 32 (v.toInt / 2 ^ amount.toNat), v.getLsbD (amount.toNat - 1)))
    ∧ shiftByField .ror amount v c =
      (if amount = 0 then (BitVec.ofNat 32 (v.toNat / 2 + (if c then 2 ^ 31 else 0)), v[0])
       else (BitVec.ofNat 32 (v.toNat / 2 ^ amount.toNat + v.toNat * 2 ^ (32 - amount.toNat)), v.getLsbD (amount.toNat - 1)))

/-- R189 to R191: the shifter with an amount in a register, of which the bottom byte counts. -/
def Obligations.ShiftByRegister : Prop :=
  ∀ (rs v : Word) (c : Bool),
    (rs.toNat % 256 = 0 → ∀ ty, shiftByReg ty rs v c = (v, c))
    ∧ (∀ amount : BitVec 5, amount ≠ 0 → rs.toNat % 256 = amount.toNat → ∀ ty, shiftByReg ty rs v c = shiftByField ty amount v c)
    ∧ (rs.toNat % 256 = 32 →
        shiftByReg .lsl rs v c = (0#32, v[0]) ∧ shiftByReg .lsr rs v c = (0#32, v[31]) ∧ shiftByReg .ror rs v c = (v, v[31]))
    ∧ (32 < rs.toNat % 256 →
        shiftByReg .lsl rs v c = (0#32, false) ∧ shiftByReg .lsr rs v c = (0#32, false)
        ∧ shiftByReg .ror rs v c = shiftByReg .ror (BitVec.ofNat 32 (rs.toNat % 256 - 32)) v c)
    ∧ (32 ≤ rs.toNat % 256 → shiftByReg .asr rs v c = (if v[31] then 0xFFFFFFFF#32 else 0#32, v[31]))

/-- R192, R195, R271 and the immediate of R116: the forms of operand 2 and of a transfer's offset, with what R15 reads as. -/
def Obligations.OperandForms : Prop :=
  ∀ s : State,
    (∀ (rotate : BitVec 4) (imm8 : BitVec 8),
      (s.shifterOperand (.imm rotate imm8)).1 =
        BitVec.ofNat 32 (imm8.toNat / 2 ^ (2 * rotate.toNat) + imm8.toNat * 2 ^ (32 - 2 * rotate.toNat))
      ∧ (s.shifterOperand (.imm rotate imm8)).2 =
        (if rotate = 0 then s.cpsr.c else (s.shifterOperand (.imm rotate imm8)).1[31]))
    ∧ (∀ ty amount rm,
        s.shifterOperand (.shiftImm ty amount rm) =
          shiftByField ty amount (if rm = PC then s.pc + 8 else s.reg 0 rm) s.cpsr.c
        ∧ s.offsetValue (.reg ty amount rm) =
          (shiftByField ty amount (if rm = PC then s.pc + 8 else s.reg 0 rm) s.cpsr.c).1)
    ∧ (∀ ty rs rm, rs ≠ PC →
        s.shifterOperand (.shiftReg ty rs rm) = shiftByReg ty (s.reg 0 rs) (if rm = PC then s.pc + 12 else s.reg 0 rm) s.cpsr.c)
    ∧ (∀ imm12 : BitVec 12, (s.offsetValue (.imm imm12)).toNat = imm12.toNat)
    ∧ (∀ rotate imm8, s.reg (pcAhead (.imm rotate imm8)) PC = s.pc + 8)
    ∧ (∀ ty amount rm, s.reg (pcAhead (.shiftImm ty amount rm)) PC = s.pc + 8)
    ∧ ∀ ty rs rm, s.reg (pcAhead (.shiftReg ty rs rm)) PC = s.pc + 12

/-- R199, R201, R202, R209, R210, R213 to R216: the logical class with Rd not R15, result, flags and frame. -/
def Obligations.LogicalClass : Prop :=
  ∀ (s : State) (c : Cond) (sb : Bool) (rn rd : RegNo) (op2 : Operand2),
    condPassed c s.cpsr = true → amountIsR15 op2 = false → rd ≠ PC →
    let a := s.reg (pcAhead op2) rn
    let b := (s.shifterOperand op2).1
    let flags := fun v : Word => s.cpsr.withNzc v (s.shifterOperand op2).2
    let after := fun v : Word => if sb then flags v else s.cpsr
    (∃ t, exec (.and c sb rn rd op2) s = .next t ∧ s.ResultIn t rd (a &&& b) (after (a &&& b)))
    ∧ (∃ t, exec (.eor c sb rn rd op2) s = .next t ∧ s.ResultIn t rd (a ^^^ b) (after (a ^^^ b)))
    ∧ (∃ t, exec (.orr c sb rn rd op2) s = .next t ∧ s.ResultIn t rd (a ||| b) (after (a ||| b)))
    ∧ (∃ t, exec (.mov c sb rn rd op2) s = .next t ∧ s.ResultIn t rd b (after b))
    ∧ (∃ t, exec (.bic c sb rn rd op2) s = .next t ∧ s.ResultIn t rd (a &&& ~~~b) (after (a &&& ~~~b)))
    ∧ (∃ t, exec (.mvn c sb rn rd op2) s = .next t ∧ s.ResultIn t rd (~~~b) (after (~~~b)))
    ∧ (∃ t, exec (.tst c rn rd op2) s = .next t ∧ s.FlagsOnly t (flags (a &&& b)))
    ∧ ∃ t, exec (.teq c rn rd op2) s = .next t ∧ s.FlagsOnly t (flags (a ^^^ b))

/-- R200, R203 to R208, R211, R212: the arithmetic class with Rd not R15, result, flags and frame. -/
def Obligations.ArithmeticClass : Prop :=
  ∀ (s : State) (c : Cond) (sb : Bool) (rn rd : RegNo) (op2 : Operand2),
    condPassed c s.cpsr = true → amountIsR15 op2 = false → rd ≠ PC →
    let a := s.reg (pcAhead op2) rn
    let b := (s.shifterOperand op2).1
    let flags := fun o : AluOut => s.cpsr.withNzcv o.result o.carry o.overflow
    let after := fun o : AluOut => if sb then flags o else s.cpsr
    let difference := addWithCarry a (~~~b) true
    let sum := addWithCarry a b false
    (∃ t, exec (.sub c sb rn rd op2) s = .next t ∧ s.ResultIn t rd difference.result (after difference))
    ∧ (∃ t, exec (.rsb c sb rn rd op2) s = .next t
        ∧ s.ResultIn t rd (addWithCarry b (~~~a) true).result (after (addWithCarry b (~~~a) true)))
    ∧ (∃ t, exec (.add c sb rn rd op2) s = .next t ∧ s.ResultIn t rd sum.result (after sum))
    ∧ (∃ t, exec (.adc c sb rn rd op2) s = .next t
        ∧ s.ResultIn t rd (addWithCarry a b s.cpsr.c).result (after (addWithCarry a b s.cpsr.c)))
    ∧ (∃ t, exec (.sbc c sb rn rd op2) s = .next t
        ∧ s.ResultIn t rd (addWithCarry a (~~~b) s.cpsr.c).result (after (addWithCarry a (~~~b) s.cpsr.c)))
    ∧ (∃ t, exec (.rsc c sb rn rd op2) s = .next t
        ∧ s.ResultIn t rd (addWithCarry b (~~~a) s.cpsr.c).result (after (addWithCarry b (~~~a) s.cpsr.c)))
    ∧ (∃ t, exec (.cmp c rn rd op2) s = .next t ∧ s.FlagsOnly t (flags difference))
    ∧ ∃ t, exec (.cmn c rn rd op2) s = .next t ∧ s.FlagsOnly t (flags sum)

/-- R196, R197: the twelve opcodes that write Rd with Rd = R15. Without S the result is branched to and the CPSR kept; with S the SPSR
of the mode becomes the CPSR with it, and the new T masks the target; User and System mode have no SPSR and are refused (D15), an SPSR
without a legal mode too (R239, decision D28; both log entry 14). -/
def Obligations.ResultToPc : Prop :=
  ∀ x ∈ writingOpcodes, ∀ (s : State) (c : Cond) (rn : RegNo) (op2 : Operand2),
    condPassed c s.cpsr = true → amountIsR15 op2 = false →
    let v := (x.2 (s.reg (pcAhead op2) rn) (s.shifterOperand op2).1 (s.shifterOperand op2).2 s.cpsr).result
    (∃ t, exec (x.1 c false rn PC op2) s = .next t ∧ s.ResultIn t PC v s.cpsr)
    ∧ (∀ p k, s.spsr = some p → p.toCpsr = some k →
        ∃ t, exec (x.1 c true rn PC op2) s = .next t ∧ t.pc = alignPc k.t v ∧ t.cpsr = k
          ∧ s.KeepsRegs t [] ∧ s.KeepsMemory t ∧ s.KeepsSystem t)
    ∧ (s.cpsr.mode = .usr ∨ s.cpsr.mode = .sys → exec (x.1 c true rn PC op2) s = .refused .noSpsr)
    ∧ ∀ p, s.spsr = some p → p.toCpsr = none → exec (x.1 c true rn PC op2) s = .refused .illegalMode

/-- R198: TSTP, TEQP, CMPP and CMNP (Rd field R15; log entry 28 for the three beside TEQP). -/
def Obligations.TestWithPcField : Prop :=
  ∀ i ∈ testOpcodes, ∀ (s : State) (c : Cond) (rn : RegNo) (op2 : Operand2),
    condPassed c s.cpsr = true → amountIsR15 op2 = false →
    (∀ p k, s.spsr = some p → p.toCpsr = some k →
      ∃ t, exec (i c rn PC op2) s = .next t ∧ s.FlagsOnly t k)
    ∧ (s.cpsr.mode = .usr → ∃ t, exec (i c rn PC op2) s = .next t ∧ s.OnlyAdvances t)
    ∧ (s.cpsr.mode = .sys → exec (i c rn PC op2) s = .refused .noSpsr)
    ∧ ∀ p, s.spsr = some p → p.toCpsr = none → exec (i c rn PC op2) s = .refused .illegalMode

/-! ## Status registers and multiplies -/

/-- R231: MRS of the CPSR in any mode and of the SPSR where the mode has one. Bits 27:8 are free (log entry 10). -/
def Obligations.StatusRead : Prop :=
  ∀ (s : State) (c : Cond) (spsr : Bool) (rd : RegNo) (p : Psr),
    condPassed c s.cpsr = true → rd ≠ PC → (if spsr then s.spsr = some p else s.cpsr.toPsr = p) →
    ∃ t, exec (.mrs c spsr rd) s = .next t
      ∧ (t.reg 0 rd)[31] = p.n ∧ (t.reg 0 rd)[30] = p.z ∧ (t.reg 0 rd)[29] = p.c ∧ (t.reg 0 rd)[28] = p.v
      ∧ (t.reg 0 rd)[7] = p.i ∧ (t.reg 0 rd)[6] = p.f ∧ (t.reg 0 rd)[5] = p.t ∧ (t.reg 0 rd).extractLsb' 0 5 = p.m
      ∧ s.ResultIn t rd (t.reg 0 rd) s.cpsr

/-- R41: the seven mode codes, no other value naming a mode (log entry 20); and R232: MSR of a register to the whole PSR. In User mode only the flags change; elsewhere I, F and the mode too, T must be as it is
and the mode legal (R237, R239); the SPSR takes all twelve bits. -/
def Obligations.StatusWrite : Prop :=
  (∀ x ∈ [(0b10000#5, Mode.usr), (0b10001, .fiq), (0b10010, .irq), (0b10011, .svc), (0b10111, .abt), (0b11011, .und), (0b11111, .sys)],
    Mode.ofCode x.1 = some x.2 ∧ x.2.code = x.1)
  ∧ (∀ m ∉ [0b10000#5, 0b10001, 0b10010, 0b10011, 0b10111, 0b11011, 0b11111], Mode.ofCode m = none)
  ∧ ∀ (s : State) (c : Cond) (rm : RegNo), condPassed c s.cpsr = true → rm ≠ PC →
    let w := s.reg 8 rm
    let flags := { s.cpsr with n := w[31], z := w[30], c := w[29], v := w[28] }
    (s.cpsr.mode = .usr → ∃ t, exec (.msr c false rm) s = .next t ∧ s.FlagsOnly t flags)
    ∧ (∀ m, s.cpsr.mode ≠ .usr → w[5] = s.cpsr.t → Mode.ofCode (w.extractLsb' 0 5) = some m →
        ∃ t, exec (.msr c false rm) s = .next t ∧ s.FlagsOnly t { flags with i := w[7], f := w[6], mode := m })
    ∧ (s.cpsr.mode ≠ .usr → w[5] ≠ s.cpsr.t → exec (.msr c false rm) s = .refused .msrChangesT)
    ∧ (s.cpsr.mode ≠ .usr → w[5] = s.cpsr.t → Mode.ofCode (w.extractLsb' 0 5) = none →
        exec (.msr c false rm) s = .refused .illegalMode)
    ∧ (∀ k, s.cpsr.mode.spsr = some k →
        ∃ t, exec (.msr c true rm) s = .next t ∧ t.pc = s.pc + s.width ∧ t.cpsr = s.cpsr ∧ s.KeepsRegs t [] ∧ s.KeepsMemory t
          ∧ t.spsrs.get k = { n := w[31], z := w[30], c := w[29], v := w[28], i := w[7], f := w[6], t := w[5],
                              m := w.extractLsb' 0 5 }
          ∧ (∀ j, j ≠ k → t.spsrs.get j = s.spsrs.get j) ∧ s.KeepsInputs t ∧ t.bankHazard = s.bankHazard)

/-- R233, R234: MSR of a register or of an immediate to the flags of the CPSR, in any mode, or of the SPSR; no control bit changes.
With the condition failed nothing does. -/
def Obligations.StatusFlagsWrite : Prop :=
  ∀ (s : State) (c : Cond) (rm : RegNo) (rotate : BitVec 4) (imm8 : BitVec 8),
    (condPassed c s.cpsr = false →
      ∀ b, ∀ i ∈ [Instr.msrFlg c b rm, .msrFlgImm c b rotate imm8], ∃ t, exec i s = .next t ∧ s.OnlyAdvances t)
    ∧ (condPassed c s.cpsr = true → rm ≠ PC →
      ∀ x ∈ [(fun b => Instr.msrFlg c b rm, s.reg 8 rm),
             (fun b => Instr.msrFlgImm c b rotate imm8, (imm8.setWidth 32 : Word).rotateRight (2 * rotate.toNat))],
        (∃ t, exec (x.1 false) s = .next t
          ∧ s.FlagsOnly t { s.cpsr with n := x.2[31], z := x.2[30], c := x.2[29], v := x.2[28] })
        ∧ ∀ k, s.cpsr.mode.spsr = some k →
            ∃ t, exec (x.1 true) s = .next t ∧ t.pc = s.pc + s.width ∧ t.cpsr = s.cpsr ∧ s.KeepsRegs t [] ∧ s.KeepsMemory t
              ∧ t.spsrs.get k = { s.spsrs.get k with n := x.2[31], z := x.2[30], c := x.2[29], v := x.2[28] }
              ∧ (∀ j, j ≠ k → t.spsrs.get j = s.spsrs.get j) ∧ s.KeepsInputs t ∧ t.bankHazard = s.bankHazard)

/-- R252 to R254: MUL and MLA. With S the C flag is free (log entry 11), V is kept. -/
def Obligations.MultiplyResult : Prop :=
  ∀ (s : State) (c : Cond) (sb : Bool) (rd rn rs rm : RegNo), condPassed c s.cpsr = true →
    rd ≠ rm → rd ≠ PC → rm ≠ PC → rs ≠ PC →
    let product := BitVec.ofNat 32 ((s.reg 0 rm).toNat * (s.reg 0 rs).toNat)
    (∃ t k, exec (.mul c sb rd rn rs rm) s = .next t
      ∧ s.ResultIn t rd product (if sb then s.cpsr.withNzc product k else s.cpsr))
    ∧ (rn ≠ PC → ∃ t k, exec (.mla c sb rd rn rs rm) s = .next t
        ∧ s.ResultIn t rd (product + s.reg 0 rn) (if sb then s.cpsr.withNzc (product + s.reg 0 rn) k else s.cpsr))

/-- R259 to R262, R267: the long multiplies. With S the C and V flags are free (log entry 11). -/
def Obligations.LongMultiplyResult : Prop :=
  ∀ (s : State) (c : Cond) (sb : Bool) (rdHi rdLo rs rm : RegNo), condPassed c s.cpsr = true →
    rdHi ≠ PC → rdLo ≠ PC → rs ≠ PC → rm ≠ PC → rdHi ≠ rdLo → rdHi ≠ rm → rdLo ≠ rm →
    let unsigned := (s.reg 0 rm).toNat * (s.reg 0 rs).toNat
    let signed := (s.reg 0 rm).toInt * (s.reg 0 rs).toInt
    let accumulator := (s.reg 0 rdHi).toNat * 2 ^ 32 + (s.reg 0 rdLo).toNat
    ∀ x ∈ [(Instr.umull c sb rdHi rdLo rs rm, BitVec.ofNat 64 unsigned),
           (Instr.umlal c sb rdHi rdLo rs rm, BitVec.ofNat 64 (unsigned + accumulator)),
           (Instr.smull c sb rdHi rdLo rs rm, BitVec.ofInt 64 signed),
           (Instr.smlal c sb rdHi rdLo rs rm, BitVec.ofInt 64 (signed + accumulator))],
      ∃ t k o, exec x.1 s = .next t
        ∧ t.reg 0 rdLo = x.2.extractLsb' 0 32 ∧ t.reg 0 rdHi = x.2.extractLsb' 32 32
        ∧ t.cpsr = (if sb then { s.cpsr with n := x.2[63], z := decide (x.2 = 0), c := k, v := o } else s.cpsr)
        ∧ t.pc = s.pc + s.width ∧ s.KeepsRegs t [rdHi, rdLo] ∧ s.KeepsMemory t ∧ s.KeepsSystem t

/-! ## Branches -/

/-- R165, R166: B and BL, from an aligned pc, with the condition passed and failed. -/
def Obligations.BranchAndLink : Prop :=
  ∀ (s : State) (c : Cond) (offset : BitVec 24), s.cpsr.t = false → s.pcAligned = true →
    let target := s.pc + 8 + BitVec.ofInt 32 (4 * offset.toInt)
    (condPassed c s.cpsr = true →
      (∃ t, exec (.b c offset) s = .next t ∧ t.pc = target ∧ t.cpsr = s.cpsr ∧ s.KeepsRegs t [] ∧ s.KeepsMemory t
        ∧ s.KeepsSystem t)
      ∧ ∃ t, exec (.bl c offset) s = .next t ∧ t.pc = target ∧ t.reg 0 LR = s.pc + 4 ∧ t.cpsr = s.cpsr
          ∧ s.KeepsRegs t [LR] ∧ s.KeepsMemory t ∧ s.KeepsSystem t)
    ∧ (condPassed c s.cpsr = false →
        ∀ i ∈ [Instr.b c offset, .bl c offset], ∃ t, exec i s = .next t ∧ t.pc = s.pc + 4 ∧ s.OnlyAdvances t)

/-- R162 to R164, R411 to R413: BX of both instruction sets. Bit 0 of the operand becomes T and is no part of the address. -/
def Obligations.BranchAndExchange : Prop :=
  ∀ (s : State) (c : Cond) (rn : RegNo) (low : BitVec 3), condPassed c s.cpsr = true →
    (∀ x ∈ [(Instr.bx c rn, s.reg 8 rn, decide (rn ≠ PC)), (Instr.tBx false rn low, s.reg 4 rn, !(decide (rn = PC) && s.pc[1]))],
      x.2.2 = true →
      (x.2.1[0] = true → ∃ t, exec x.1 s = .next t ∧ t.pc = x.2.1 &&& 0xFFFFFFFE#32 ∧ t.cpsr = { s.cpsr with t := true }
        ∧ s.KeepsRegs t [] ∧ s.KeepsMemory t ∧ s.KeepsSystem t)
      ∧ (x.2.1[0] = false → x.2.1[1] = false →
          ∃ t, exec x.1 s = .next t ∧ t.pc = x.2.1 ∧ t.cpsr = { s.cpsr with t := false }
            ∧ s.KeepsRegs t [] ∧ s.KeepsMemory t ∧ s.KeepsSystem t)
      ∧ (x.2.1[0] = false → x.2.1[1] = true → exec x.1 s = .refused .bxTargetMisaligned))
    ∧ exec (.bx c PC) s = .refused .bxPcOperand
    ∧ exec (.tBx true rn low) s = .refused .thumbBxH1
    ∧ (s.pc[1] = true → exec (.tBx false PC low) s = .refused .thumbBxPcUnaligned)

/-! ## Single and halfword transfers -/

/-- R272 to R274, R276, R279: word and byte loads and their T forms, value, write-back and frame. A word from a misaligned address is
rotated (R76). The value is that of memory, or what a device answers (R74, log entry 5). What `accepts` and the operand checks leave out
is the matter of TransferAborts, MemoryMapAccesses and ForbiddenOperands. -/
def Obligations.WordAndByteLoads : Prop :=
  ∀ (s : State) (c : Cond) (u : Bool) (rn rd : RegNo) (off : Offset), condPassed c s.cpsr = true →
    let base := s.reg 8 rn
    let m := if u then base + s.offsetValue off else base - s.offsetValue off
    let word := fun (r : Result) (a : Word) (wb : Bool) =>
      ∃ t v, r = .next t ∧ s.Reads .word (wordAligned a) (s.wordAt (a &&& 0xFFFFFFFC#32)) v
        ∧ s.Loaded t rd (v.rotateRight (8 * (a.toNat % 4))) wb rn m
    let byte := fun (r : Result) (a : Word) (wb : Bool) =>
      ∃ t v, r = .next t ∧ s.Reads .byte a (s.byteAt a) v ∧ s.Loaded t rd (v.setWidth 32) wb rn m
    (∀ ix : Index,
      let a := if ix.p then m else base
      let wb := !ix.p || ix.w
      singleAllowed ix.p wb rn rd off →
      (s.accepts .read .word s.privileged (wordAligned a) → word (exec (.ldr c u ix rn rd off) s) a wb)
      ∧ (s.accepts .read .byte s.privileged a → byte (exec (.ldrb c u ix rn rd off) s) a wb))
    ∧ (singleAllowed false true rn rd off →
      (s.accepts .read .word false (wordAligned base) → word (exec (.ldrt c u rn rd off) s) base true)
      ∧ (s.accepts .read .byte false base → byte (exec (.ldrbt c u rn rd off) s) base true))

/-- R272, R275, R277 to R279: word and byte stores and their T forms. R15 stores `ia + 12`; address bits 1:0 of a word store are
ignored (R77). Where a device answers no byte of memory changes (log entry 5). -/
def Obligations.WordAndByteStores : Prop :=
  ∀ (s : State) (c : Cond) (u : Bool) (rn rd : RegNo) (off : Offset), condPassed c s.cpsr = true →
    let base := s.reg 8 rn
    let m := if u then base + s.offsetValue off else base - s.offsetValue off
    let v := if rd = PC then s.pc + 12 else s.reg 0 rd
    let word := fun (r : Result) (a : Word) (wb : Bool) =>
      ∃ t, r = .next t ∧ t.wordAt a = (if s.onDevice .word a then s.wordAt a else v) ∧ s.Stored t a 4 wb rn m
    let byte := fun (r : Result) (a : Word) (wb : Bool) =>
      ∃ t, r = .next t ∧ t.byteAt a = (if s.onDevice .byte a then s.byteAt a else v.setWidth 8) ∧ s.Stored t a 1 wb rn m
    (∀ ix : Index,
      let a := if ix.p then m else base
      let wb := !ix.p || ix.w
      singleAllowed ix.p wb rn rd off →
      (s.accepts .write .word s.privileged (wordAligned a) → word (exec (.str c u ix rn rd off) s) (wordAligned a) wb)
      ∧ (s.accepts .write .byte s.privileged a → byte (exec (.strb c u ix rn rd off) s) a wb))
    ∧ (singleAllowed false true rn rd off →
      (s.accepts .write .word false (wordAligned base) → word (exec (.strt c u rn rd off) s) (wordAligned base) true)
      ∧ (s.accepts .write .byte false base → byte (exec (.strbt c u rn rd off) s) base true))

/-- R291, R292, R294, R295, R298, R300: halfword and signed loads, register and immediate offset; a halfword load from an odd address is
refused. -/
def Obligations.HalfwordAndSignedLoads : Prop :=
  ∀ (s : State) (c : Cond) (p u w : Bool) (rn rd rm : RegNo) (imm8 : BitVec 8), condPassed c s.cpsr = true →
    let base := s.reg 8 rn
    let wb := !p || w
    ∀ x ∈ [(Instr.ldrhReg c p u w rn rd rm, Instr.ldrsbReg c p u w rn rd rm, Instr.ldrshReg c p u w rn rd rm, some rm, s.reg 8 rm),
           (Instr.ldrhImm c p u w rn rd imm8, Instr.ldrsbImm c p u w rn rd imm8, Instr.ldrshImm c p u w rn rd imm8, none,
             imm8.setWidth 32)],
      let m := if u then base + x.2.2.2.2 else base - x.2.2.2.2
      let a := if p then m else base
      halfwordAllowed p w rn rd x.2.2.2.1 →
      (a[0] = false → s.accepts .read .half s.privileged a →
        ∃ t v, exec x.1 s = .next t ∧ s.Reads .half a (s.halfAt a) v ∧ s.Loaded t rd (v.setWidth 32) wb rn m)
      ∧ (s.accepts .read .byte s.privileged a →
        ∃ t v, exec x.2.1 s = .next t ∧ s.Reads .byte a (s.byteAt a) v ∧ s.Loaded t rd (v.signExtend 32) wb rn m)
      ∧ (a[0] = false → s.accepts .read .half s.privileged a →
        ∃ t v, exec x.2.2.1 s = .next t ∧ s.Reads .half a (s.halfAt a) v ∧ s.Loaded t rd (v.signExtend 32) wb rn m)
      ∧ (a[0] = true → exec x.1 s = .refused .oddHalfword ∧ exec x.2.2.1 s = .refused .oddHalfword)

/-- R293, R298, R300: halfword stores, register and immediate offset; an odd address is refused. -/
def Obligations.HalfwordStores : Prop :=
  ∀ (s : State) (c : Cond) (p u w : Bool) (rn rd rm : RegNo) (imm8 : BitVec 8), condPassed c s.cpsr = true →
    let base := s.reg 8 rn
    let wb := !p || w
    let v := if rd = PC then s.pc + 12 else s.reg 0 rd
    ∀ x ∈ [(Instr.strhReg c p u w rn rd rm, some rm, s.reg 8 rm), (Instr.strhImm c p u w rn rd imm8, none, imm8.setWidth 32)],
      let m := if u then base + x.2.2 else base - x.2.2
      let a := if p then m else base
      halfwordAllowed p w rn rd x.2.1 →
      (a[0] = false → s.accepts .write .half s.privileged a →
        ∃ t, exec x.1 s = .next t ∧ t.halfAt a = (if s.onDevice .half a then s.halfAt a else v.setWidth 16) ∧ s.Stored t a 2 wb rn m)
      ∧ (a[0] = true → exec x.1 s = .refused .oddHalfword)

/-- The model's choice for the addresses that hold no memory (R8, R74, R86, U30; log entry 5): what the memory map says of an access; that
an instruction fetched from a device is whatever the device answers; and that every access form which the memory manager does not
refuse and to which nothing answers ends in the fault. What a load or a store does where a device answers is in the statements of the
loads and stores. -/
def Obligations.MemoryMapAccesses : Prop :=
  ∀ (s : State) (f : Fault),
    let meets := fun (r : MapRegion) (size : AccessSize) (a : Word) => r.first.toNat < a.toNat + size.bytes ∧ a.toNat ≤ r.last.toNat
    let size : AccessSize := if s.cpsr.t then .half else .word
    (∀ size a, s.mapKind size a = none ↔ ∀ r ∈ s.memMap, ¬ meets r size a)
    ∧ (∀ size a kind, s.mapKind size a = some kind → ∃ r ∈ s.memMap, meets r size a ∧ r.kind = kind)
    ∧ (∀ size a, (s.mapFault size a = some f ↔ s.mapKind size a = some .nothing ∧ f = .unmappedAddress)
        ∧ (s.onDevice size a = true ↔ s.mapKind size a = some .device))
    ∧ (s.sample.reset = false → (s.sample.fiq = true → s.cpsr.f = true) → (s.sample.irq = true → s.cpsr.i = true) →
        s.atBoundary.fetchAborts = false → s.prefetch.current = false →
        (s.mapFault size s.pc = some f → step s = .fault f)
        ∧ (s.onDevice size s.pc = true → ∃ w : Word,
            let i := if s.cpsr.t then decodeThumb (w.setWidth 16) else decodeArm w
            s.hitsBankHazard i = false →
            step s = exec i { s with
              inputs := s.inputs.tail, aborts := s.sample.aborts.getD s.aborts, bankHazard := false, draws := s.draws + 1 }))
    ∧ (∀ (c : Cond) (u : Bool) (rn rd rm : RegNo) (off : Offset) (imm8 : BitVec 8), condPassed c s.cpsr = true →
        let base := s.reg 8 rn
        let m := fun o : Word => if u then base + o else base - o
        (∀ ix : Index, singleAllowed ix.p (!ix.p || ix.w) rn rd off →
          ∀ x ∈ [(Instr.ldr c u ix rn rd off, AccessKind.read, AccessSize.word), (.ldrb c u ix rn rd off, .read, .byte),
                 (.str c u ix rn rd off, .write, .word), (.strb c u ix rn rd off, .write, .byte)],
            s.misses x.2.1 x.2.2 s.privileged (x.2.2.align (if ix.p then m (s.offsetValue off) else base)) f →
            exec x.1 s = .fault f)
        ∧ (singleAllowed false true rn rd off →
            ∀ x ∈ [(Instr.ldrt c u rn rd off, AccessKind.read, AccessSize.word), (.ldrbt c u rn rd off, .read, .byte),
                   (.strt c u rn rd off, .write, .word), (.strbt c u rn rd off, .write, .byte)],
              s.misses x.2.1 x.2.2 false (x.2.2.align base) f → exec x.1 s = .fault f)
        ∧ (∀ p w : Bool,
            ∀ x ∈ [(some rm, s.reg 8 rm, Instr.ldrhReg c p u w rn rd rm, AccessKind.read, AccessSize.half),
                   (some rm, s.reg 8 rm, .ldrsbReg c p u w rn rd rm, .read, .byte),
                   (some rm, s.reg 8 rm, .ldrshReg c p u w rn rd rm, .read, .half),
                   (some rm, s.reg 8 rm, .strhReg c p u w rn rd rm, .write, .half),
                   (none, imm8.setWidth 32, .ldrhImm c p u w rn rd imm8, .read, .half),
                   (none, imm8.setWidth 32, .ldrsbImm c p u w rn rd imm8, .read, .byte),
                   (none, imm8.setWidth 32, .ldrshImm c p u w rn rd imm8, .read, .half),
                   (none, imm8.setWidth 32, .strhImm c p u w rn rd imm8, .write, .half)],
              let a := if p then m x.2.1 else base
              halfwordAllowed p w rn rd x.1 → (x.2.2.2.2 = .half → a[0] = false) →
              s.misses x.2.2.2.1 x.2.2.2.2 s.privileged a f → exec x.2.2.1 s = .fault f)
        ∧ (rn ≠ PC → rd ≠ PC → rm ≠ PC →
            ∀ x ∈ [(Instr.swp c rn rd rm, AccessSize.word), (.swpb c rn rd rm, .byte)],
              s.aborted .read x.2 s.privileged (x.2.align base) = false →
              s.misses .write x.2 s.privileged (x.2.align base) f → exec x.1 s = .fault f)
        ∧ ∀ (sb w : Bool) (list : BitVec 16) (j : Nat),
            let n := (regList list).length
            let size := BitVec.ofNat 32 (4 * n)
            j < n →
            (blockRefusal true sb w rn list s.cpsr.mode = none →
              ∀ x ∈ multipleLoads, s.blockAccepted .read (x.2.1 (s.reg 0 rn) size) j →
                s.misses .read .word s.privileged (slot (x.2.1 (s.reg 0 rn) size) j) f → exec (x.1 c sb w rn list) s = .fault f)
            ∧ (blockRefusal false sb w rn list s.cpsr.mode = none →
              ∀ x ∈ multipleStores, s.blockAnswered (x.2.1 (s.reg 0 rn) size) j →
                s.misses .write .word s.privileged (slot (x.2.1 (s.reg 0 rn) size) j) f → exec (x.1 c sb w rn list) s = .fault f))
    ∧ ∀ (ro rb rd : LoReg) (o5 : BitVec 5) (word8 list : BitVec 8),
        let base := s.reg 0 (lo rb)
        let indexed := base + s.reg 0 (lo ro)
        let k8 : Word := BitVec.ofNat 32 (4 * word8.toNat)
        (∀ x ∈ [(Instr.tLdrPc rd word8, AccessKind.read, AccessSize.word, ((s.pc + 4) &&& 0xFFFFFFFC#32) + k8),
                (.tLdrReg ro rb rd, .read, .word, indexed), (.tLdrbReg ro rb rd, .read, .byte, indexed),
                (.tLdsbReg ro rb rd, .read, .byte, indexed), (.tLdrhReg ro rb rd, .read, .half, indexed),
                (.tLdshReg ro rb rd, .read, .half, indexed),
                (.tLdrImm o5 rb rd, .read, .word, base + BitVec.ofNat 32 (4 * o5.toNat)),
                (.tLdrbImm o5 rb rd, .read, .byte, base + BitVec.ofNat 32 o5.toNat),
                (.tLdrhImm o5 rb rd, .read, .half, base + BitVec.ofNat 32 (2 * o5.toNat)),
                (.tLdrSp rd word8, .read, .word, s.reg 0 SP + k8),
                (.tStrReg ro rb rd, .write, .word, indexed), (.tStrbReg ro rb rd, .write, .byte, indexed),
                (.tStrhReg ro rb rd, .write, .half, indexed),
                (.tStrImm o5 rb rd, .write, .word, base + BitVec.ofNat 32 (4 * o5.toNat)),
                (.tStrbImm o5 rb rd, .write, .byte, base + BitVec.ofNat 32 o5.toNat),
                (.tStrhImm o5 rb rd, .write, .half, base + BitVec.ofNat 32 (2 * o5.toNat)),
                (.tStrSp rd word8, .write, .word, s.reg 0 SP + k8)],
          (x.2.2.1 = .half → x.2.2.2[0] = false) →
          s.misses x.2.1 x.2.2.1 s.privileged (x.2.2.1.align x.2.2.2) f → exec x.1 s = .fault f)
        ∧ (∀ x ∈ [(Instr.tPush list, (list.setWidth 16 : BitVec 16)), (.tPushLr list, list.setWidth 16 ||| 0x4000)],
            ∀ j, j < (regList x.2).length →
              let start := s.reg 0 SP - BitVec.ofNat 32 (4 * (regList x.2).length)
              s.blockAnswered start j → s.misses .write .word s.privileged (slot start j) f → exec x.1 s = .fault f)
        ∧ (∀ j, j < (regList (list.setWidth 16)).length → s.blockAnswered base j →
            s.misses .write .word s.privileged (slot base j) f → exec (.tStmia rb list) s = .fault f)
        ∧ ∀ x ∈ [(Instr.tPop list, SP, (list.setWidth 16 : BitVec 16)), (.tPopPc list, SP, list.setWidth 16 ||| 0x8000),
                 (.tLdmia rb list, lo rb, list.setWidth 16)],
            ∀ j, j < (regList x.2.2).length → s.blockAccepted .read (s.reg 0 x.2.1) j →
              s.misses .read .word s.privileged (slot (s.reg 0 x.2.1) j) f → exec x.1 s = .fault f

/-- R285, R301: a refused single or halfword transfer. The base is written back as without the abort, nothing is loaded or stored, and
the data abort is taken. The T forms ask as non-privileged. -/
def Obligations.TransferAborts : Prop :=
  ∀ (s : State) (c : Cond) (u : Bool) (rn rd rm : RegNo) (off : Offset) (imm8 : BitVec 8), condPassed c s.cpsr = true →
    let base := s.reg 8 rn
    let m := fun o : Word => if u then base + o else base - o
    let taken := fun (r : Result) (b : State) =>
      ∃ t, r = .next t ∧ b.Enters t .abt 0x10 (s.pc + 8) s.cpsr.f ∧ s.KeepsMemory t
    (∀ ix : Index, singleAllowed ix.p (!ix.p || ix.w) rn rd off →
      ∀ x ∈ [(Instr.ldr c u ix rn rd off, AccessKind.read, AccessSize.word), (.ldrb c u ix rn rd off, .read, .byte),
             (.str c u ix rn rd off, .write, .word), (.strb c u ix rn rd off, .write, .byte)],
        s.aborted x.2.1 x.2.2 s.privileged (x.2.2.align (if ix.p then m (s.offsetValue off) else base)) = true →
        taken (exec x.1 s) (if !ix.p || ix.w then s.setReg rn (m (s.offsetValue off)) else s))
    ∧ (singleAllowed false true rn rd off →
      ∀ x ∈ [(Instr.ldrt c u rn rd off, AccessKind.read, AccessSize.word), (.ldrbt c u rn rd off, .read, .byte),
             (.strt c u rn rd off, .write, .word), (.strbt c u rn rd off, .write, .byte)],
        s.aborted x.2.1 x.2.2 false (x.2.2.align base) = true →
        taken (exec x.1 s) (s.setReg rn (m (s.offsetValue off))))
    ∧ ∀ p w : Bool,
      (halfwordAllowed p w rn rd (some rm) →
        ∀ x ∈ [(Instr.ldrhReg c p u w rn rd rm, AccessKind.read, AccessSize.half), (.ldrsbReg c p u w rn rd rm, .read, .byte),
               (.ldrshReg c p u w rn rd rm, .read, .half), (.strhReg c p u w rn rd rm, .write, .half)],
          let a := if p then m (s.reg 8 rm) else base
          (x.2.2 = .half → a[0] = false) → s.aborted x.2.1 x.2.2 s.privileged (x.2.2.align a) = true →
          taken (exec x.1 s) (if !p || w then s.setReg rn (m (s.reg 8 rm)) else s))
      ∧ (halfwordAllowed p w rn rd none →
        ∀ x ∈ [(Instr.ldrhImm c p u w rn rd imm8, AccessKind.read, AccessSize.half), (.ldrsbImm c p u w rn rd imm8, .read, .byte),
               (.ldrshImm c p u w rn rd imm8, .read, .half), (.strhImm c p u w rn rd imm8, .write, .half)],
          let a := if p then m (imm8.setWidth 32) else base
          (x.2.2 = .half → a[0] = false) → s.aborted x.2.1 x.2.2 s.privileged (x.2.2.align a) = true →
          taken (exec x.1 s) (if !p || w then s.setReg rn (m (imm8.setWidth 32)) else s))

/-! ## Block transfers and swap -/

/-- R310: bit `i` of the list transfers `Ri`; the list is taken in ascending order, each register once. -/
def Obligations.ListOrder : Prop :=
  ∀ list : BitVec 16,
    (∀ i : RegNo, i ∈ regList list ↔ list.getLsbD i.toNat = true) ∧ (regList list).Pairwise (fun i j => i.toNat < j.toNat)
    ∧ (list.getLsbD 15 = true → (regList list).getLast? = some PC)

/-- R316, R317, R330 to R333: the four multiple loads without S. The k-th register of the list reads the k-th word, unrotated; R15
branches; the base is written back with W unless it was loaded (R318). A word may be a device's answer (R74, log entry 5). The order of registers and words is the spec's inference (R312);
the masking of the R15 word is decision D7 (log entry 16), the clearing of address bits 1:0 decision D2 (log entry 17). -/
def Obligations.MultipleLoads : Prop :=
  ∀ x ∈ multipleLoads, ∀ (s : State) (c : Cond) (w : Bool) (rn : RegNo) (list : BitVec 16),
    condPassed c s.cpsr = true → list ≠ 0 → rn ≠ PC →
    let n := (regList list).length
    let start := x.2.1 (s.reg 0 rn) (BitVec.ofNat 32 (4 * n))
    s.blockAccepted .read start n →
    ∃ t v, exec (x.1 c false w rn list) s = .next t
      ∧ s.BlockLoaded t s.cpsr.mode start list
      ∧ s.Reads .word (slot start (n - 1)) (s.wordAt (slot start (n - 1))) v
      ∧ t.pc = (if list.getLsbD 15 then alignPc s.cpsr.t v else s.pc + s.width)
      ∧ (w = true → list.getLsbD rn.toNat = false → t.reg 0 rn = x.2.2 (s.reg 0 rn) (BitVec.ofNat 32 (4 * n)))
      ∧ t.cpsr = s.cpsr ∧ s.KeepsRegs t (if w then rn :: regList list else regList list) ∧ s.KeepsMemory t ∧ s.KeepsSystem t

/-- R319: the multiple loads with S and R15. The registers of the mode before are loaded, and with the pc the SPSR becomes the CPSR,
whose T masks the target. User and System mode are refused (R322). -/
def Obligations.MultipleLoadReturn : Prop :=
  ∀ x ∈ multipleLoads, ∀ (s : State) (c : Cond) (w : Bool) (rn : RegNo) (list : BitVec 16),
    condPassed c s.cpsr = true → list.getLsbD 15 = true → rn ≠ PC →
    let n := (regList list).length
    let start := x.2.1 (s.reg 0 rn) (BitVec.ofNat 32 (4 * n))
    (∀ p k, s.spsr = some p → p.toCpsr = some k → s.blockAccepted .read start n →
      ∃ t v, exec (x.1 c true w rn list) s = .next t
        ∧ s.BlockLoaded t s.cpsr.mode start list
        ∧ s.Reads .word (slot start (n - 1)) (s.wordAt (slot start (n - 1))) v
        ∧ t.pc = alignPc k.t v ∧ t.cpsr = k
        ∧ (w = true → list.getLsbD rn.toNat = false →
            t.bankReg s.cpsr.mode 0 rn = x.2.2 (s.reg 0 rn) (BitVec.ofNat 32 (4 * n)))
        ∧ s.KeepsRegs t (if w then rn :: regList list else regList list) ∧ s.KeepsMemory t ∧ s.KeepsSystem t)
    ∧ (∀ p, s.spsr = some p → p.toCpsr = none → s.blockAccepted .read start n →
        exec (x.1 c true w rn list) s = .refused .illegalMode)
    ∧ (s.cpsr.mode = .usr → exec (x.1 c true w rn list) s = .refused .sBitInUserMode)
    ∧ (s.cpsr.mode = .sys → exec (x.1 c true w rn list) s = .refused .noSpsr)

/-- R23: the bank table, the physical registers that R0 to R15 name in each mode (log entry 20); and R321: the multiple loads with S and
without R15 load the User bank, addressed by the base of the current mode, and leave the hazard mark of R551. -/
def Obligations.MultipleLoadUserBank : Prop :=
  (∀ x ∈ [(Mode.usr, [PhysReg.r8, .r9, .r10, .r11, .r12, .r13, .r14]), (.sys, [.r8, .r9, .r10, .r11, .r12, .r13, .r14]),
          (.svc, [.r8, .r9, .r10, .r11, .r12, .r13Svc, .r14Svc]), (.abt, [.r8, .r9, .r10, .r11, .r12, .r13Abt, .r14Abt]),
          (.und, [.r8, .r9, .r10, .r11, .r12, .r13Und, .r14Und]), (.irq, [.r8, .r9, .r10, .r11, .r12, .r13Irq, .r14Irq]),
          (.fiq, [.r8Fiq, .r9Fiq, .r10Fiq, .r11Fiq, .r12Fiq, .r13Fiq, .r14Fiq])],
    ∀ i : RegNo, physReg x.1 i = ([PhysReg.r0, .r1, .r2, .r3, .r4, .r5, .r6, .r7] ++ x.2)[i.toNat]?)
  ∧ ∀ x ∈ multipleLoads, ∀ (s : State) (c : Cond) (rn : RegNo) (list : BitVec 16),
    condPassed c s.cpsr = true → list ≠ 0 → list.getLsbD 15 = false → rn ≠ PC → s.cpsr.mode ≠ .usr →
    let n := (regList list).length
    let start := x.2.1 (s.reg 0 rn) (BitVec.ofNat 32 (4 * n))
    exec (x.1 c true true rn list) s = .refused .userBankWriteback
    ∧ (s.blockAccepted .read start n →
      ∃ t, exec (x.1 c true false rn list) s = .next t
        ∧ s.BlockLoaded t .usr start list ∧ t.bankHazard = true
        ∧ t.pc = s.pc + s.width ∧ t.cpsr = s.cpsr ∧ s.KeepsBank t .usr (regList list) ∧ s.KeepsMemory t
        ∧ t.spsrs = s.spsrs ∧ s.KeepsInputs t)

/-- R314, R315, R318, R320, R334 to R337: the four multiple stores. The k-th register of the list goes to the k-th word; with
write-back a base that is not the first stores its final value; R15 stores `ia + 12`; with S the User bank is stored. The order of
registers and words is the spec's inference (R312); the clearing of address bits 1:0 is decision D2 (log entry 17). -/
def Obligations.MultipleStores : Prop :=
  ∀ x ∈ multipleStores, ∀ (s : State) (c : Cond) (w : Bool) (rn : RegNo) (list : BitVec 16),
    condPassed c s.cpsr = true → list ≠ 0 → rn ≠ PC →
    let n := (regList list).length
    let start := x.2.1 (s.reg 0 rn) (BitVec.ofNat 32 (4 * n))
    let final := x.2.2 (s.reg 0 rn) (BitVec.ofNat 32 (4 * n))
    s.blockAccepted .write start n →
    (∃ t, exec (x.1 c false w rn list) s = .next t
      ∧ s.BlockStored t start
          ((regList list).map fun i =>
            if i = PC then s.pc + 12 else if w = true ∧ i = rn ∧ (regList list).head? ≠ some rn then final else s.reg 0 i)
          w rn final)
    ∧ (s.cpsr.mode ≠ .usr → ∃ t, exec (x.1 c true false rn list) s = .next t
      ∧ s.BlockStored t start ((regList list).map fun i => if i = PC then s.pc + 12 else s.bankReg .usr 0 i) false rn final)

/-- R327: an aborted multiple load. The registers before the first aborted word are loaded, the later ones and the pc are not, the base
ends at its written-back or its original value, and the data abort is taken. -/
def Obligations.MultipleLoadAborts : Prop :=
  ∀ x ∈ multipleLoads, ∀ (s : State) (c : Cond) (sb w : Bool) (rn : RegNo) (list : BitVec 16) (base : PhysReg) (j : Nat),
    condPassed c s.cpsr = true → blockRefusal true sb w rn list s.cpsr.mode = none → physReg s.cpsr.mode rn = some base →
    let n := (regList list).length
    let start := x.2.1 (s.reg 0 rn) (BitVec.ofNat 32 (4 * n))
    let bank := if sb = true ∧ list.getLsbD 15 = false then Mode.usr else s.cpsr.mode
    j < n → s.blockAccepted .read start j → s.aborted .read .word s.privileged (slot start j) = true →
    ∃ t g, exec (x.1 c sb w rn list) s = .next t
      ∧ State.Enters { s with regs := g } t .abt 0x10 (s.pc + 8) s.cpsr.f ∧ s.KeepsMemory t
      ∧ g.get base = (if w then x.2.2 (s.reg 0 rn) (BitVec.ofNat 32 (4 * n)) else s.reg 0 rn)
      ∧ (∀ k i r, k < j → (regList list)[k]? = some i → physReg bank i = some r → r ≠ base →
          s.Reads .word (slot start k) (s.wordAt (slot start k)) (g.get r))
      ∧ ∀ r, r ≠ base → (∀ k i, k < j → (regList list)[k]? = some i → physReg bank i ≠ some r) → g.get r = s.regs.get r

/-- R320, R326: a multiple store some of whose words are refused, the others being answered. Every other word of memory is stored, the base is
written back as without the abort, and the data abort is taken. With S the User bank is stored, without write-back. -/
def Obligations.MultipleStoreAborts : Prop :=
  ∀ x ∈ multipleStores, ∀ (s : State) (c : Cond) (w : Bool) (rn : RegNo) (list : BitVec 16) (j : Nat),
    condPassed c s.cpsr = true → rn ≠ PC →
    let n := (regList list).length
    let start := x.2.1 (s.reg 0 rn) (BitVec.ofNat 32 (4 * n))
    let final := x.2.2 (s.reg 0 rn) (BitVec.ofNat 32 (4 * n))
    let v := fun i : RegNo =>
      if i = PC then s.pc + 12 else if w = true ∧ i = rn ∧ (regList list).head? ≠ some rn then final else s.reg 0 i
    let user := fun i : RegNo => if i = PC then s.pc + 12 else s.bankReg .usr 0 i
    j < n → s.aborted .write .word s.privileged (slot start j) = true → s.blockAnswered start n →
    (∃ t, exec (x.1 c false w rn list) s = .next t ∧ s.BlockStoreAborted t (if w then s.setReg rn final else s) start list v)
    ∧ (s.cpsr.mode ≠ .usr → ∃ t, exec (x.1 c true false rn list) s = .next t ∧ s.BlockStoreAborted t s start list user)

/-- R341, R343, R344: SWP and SWPB, one step of a read and a write; a refusal of either leaves everything as it was and takes the data
abort. That it does so too where only the write is refused and nothing answers to the read, and that a swap with a device changes no
memory, is the model's choice (log entry 5). -/
def Obligations.SwapInOneStep : Prop :=
  ∀ (s : State) (c : Cond) (rn rd rm : RegNo), condPassed c s.cpsr = true → rn ≠ PC → rd ≠ PC → rm ≠ PC →
    let a := s.reg 0 rn
    let frame := fun t : State => t.pc = s.pc + s.width ∧ t.cpsr = s.cpsr ∧ s.KeepsRegs t [rd] ∧ s.KeepsSystem t
    (s.accepts .read .word s.privileged (wordAligned a) → s.accepts .write .word s.privileged (wordAligned a) →
      ∃ t v, exec (.swp c rn rd rm) s = .next t
        ∧ s.Reads .word (wordAligned a) (s.wordAt (wordAligned a)) v ∧ t.reg 0 rd = v.rotateRight (8 * (a.toNat % 4))
        ∧ t.wordAt (wordAligned a) = (if s.onDevice .word (wordAligned a) then s.wordAt (wordAligned a) else s.reg 0 rm)
        ∧ s.KeepsMemoryOutside t (wordAligned a) 4 ∧ frame t)
    ∧ (s.accepts .read .byte s.privileged a → s.accepts .write .byte s.privileged a →
      ∃ t v, exec (.swpb c rn rd rm) s = .next t
        ∧ s.Reads .byte a (s.byteAt a) v ∧ t.reg 0 rd = v.setWidth 32
        ∧ t.byteAt a = (if s.onDevice .byte a then s.byteAt a else (s.reg 0 rm).setWidth 8)
        ∧ s.KeepsMemoryOutside t a 1 ∧ frame t)
    ∧ ∀ x ∈ [(Instr.swp c rn rd rm, AccessSize.word), (.swpb c rn rd rm, .byte)], ∀ k ∈ [AccessKind.read, .write],
        s.aborted k x.2 s.privileged (x.2.align a) = true →
        ∃ t, exec x.1 s = .next t ∧ s.Enters t .abt 0x10 (s.pc + 8) s.cpsr.f ∧ s.KeepsMemory t

/-! ## Exceptions -/

/-- R348, R465: the software interrupt of both instruction sets, from any mode. -/
def Obligations.SoftwareInterruptEntry : Prop :=
  ∀ (s : State) (c : Cond) (comment : BitVec 24) (value8 : BitVec 8),
    (s.cpsr.t = false → condPassed c s.cpsr = true →
      ∃ t, exec (.swi c comment) s = .next t ∧ s.Enters t .svc 0x08 (s.pc + 4) s.cpsr.f ∧ s.KeepsMemory t)
    ∧ (s.cpsr.t = true →
      ∃ t, exec (.tSwi value8) s = .next t ∧ s.Enters t .svc 0x08 (s.pc + 2) s.cpsr.f ∧ s.KeepsMemory t)

/-- R350, R352: the undefined instruction and every coprocessor instruction take the undefined instruction trap, whatever their
fields. -/
def Obligations.UndefinedEntry : Prop :=
  ∀ (s : State) (c : Cond) (high : BitVec 20) (low a1 a2 a3 a4 : BitVec 4) (o3 info : BitVec 3) (o8 : BitVec 8) (p u n w : Bool),
    s.cpsr.t = false → condPassed c s.cpsr = true →
    ∀ i ∈ [Instr.undefined c high low, .stc c p u n w a1 a2 a3 o8, .ldc c p u n w a1 a2 a3 o8, .cdp c a1 a2 a3 a4 info low,
           .mcr c o3 a1 a2 a3 info a4, .mrc c o3 a1 a2 a3 info a4],
      ∃ t, exec i s = .next t ∧ s.Enters t .und 0x04 (s.pc + 4) s.cpsr.f ∧ s.KeepsMemory t

/-- R497, R501, R505: what a boundary takes before the instruction, FIQ before IRQ before prefetch abort. Reset, which comes first, is
the statement of R540. -/
def Obligations.BoundaryExceptions : Prop :=
  ∀ s : State, s.sample.reset = false →
    let fiq := s.sample.fiq && !s.cpsr.f
    let irq := s.sample.irq && !s.cpsr.i
    let fetchRefused := s.atBoundary.aborted .fetch (if s.cpsr.t then .half else .word) s.privileged s.pc
    (fiq = true →
      ∃ t, step s = .next t ∧ s.atBoundary.Enters t .fiq 0x1C (s.pc + 4) true ∧ s.KeepsMemory t)
    ∧ (fiq = false → irq = true →
      ∃ t, step s = .next t ∧ s.atBoundary.Enters t .irq 0x18 (s.pc + 4) s.cpsr.f ∧ s.KeepsMemory t)
    ∧ (fiq = false → irq = false → fetchRefused = true →
      ∃ t, step s = .next t ∧ s.atBoundary.Enters t .abt 0x0C (s.pc + 4) s.cpsr.f ∧ s.KeepsMemory t)

/-- R482, R510: the return instruction of each exception, executed in the state its entry leaves, restores the whole CPSR and goes back:
after SWI and undefined instruction to the next instruction, after the others to the instruction itself. -/
def Obligations.ReturnFromException : Prop :=
  ∀ (s : State) (e : Exc), s.pcAligned = true →
    let movs := Instr.mov .al true 0 PC (.shiftImm .lsl 0 LR)
    let subs := fun k : BitVec 8 => Instr.sub .al true LR PC (.imm 0 k)
    let back := fun (i : Instr) (target : Word) =>
      ∃ t, exec i (s.takeException e) = .next t ∧ t.pc = target ∧ t.cpsr = s.cpsr
        ∧ (s.takeException e).KeepsRegs t [] ∧ s.KeepsMemory t ∧ s.KeepsInputs t
    match e with
    | .undefined => back movs (s.pc + s.width)
    | .swi => back movs (s.pc + s.width)
    | .prefetchAbort => back (subs 4) s.pc
    | .dataAbort => back (subs 8) s.pc
    | .irq => back (subs 4) s.pc
    | .fiq => back (subs 4) s.pc

/-! ## THUMB -/

/-- R371 to R373, R387 to R389, R392: the shifts of formats 1 and 4, over the shifter of ARM state. -/
def Obligations.ThumbShifts : Prop :=
  ∀ (s : State) (n : BitVec 5) (rs rd : LoReg),
    let a := s.reg 0 (lo rs)
    let d := s.reg 0 (lo rd)
    ∀ x ∈ [(Instr.tLslImm n rs rd, shiftByField .lsl n a s.cpsr.c), (.tLsrImm n rs rd, shiftByField .lsr n a s.cpsr.c),
           (.tAsrImm n rs rd, shiftByField .asr n a s.cpsr.c), (.tLsl rs rd, shiftByReg .lsl a d s.cpsr.c),
           (.tLsr rs rd, shiftByReg .lsr a d s.cpsr.c), (.tAsr rs rd, shiftByReg .asr a d s.cpsr.c),
           (.tRor rs rd, shiftByReg .ror a d s.cpsr.c)],
      ∃ t, exec x.1 s = .next t ∧ s.ResultIn t (lo rd) x.2.1 (s.cpsr.withNzc x.2.1 x.2.2)

/-- R375 to R378, R380 to R383: formats 2 and 3. -/
def Obligations.ThumbAddSubtractImmediate : Prop :=
  ∀ (s : State) (rn rs rd : LoReg) (o3 : BitVec 3) (o8 : BitVec 8),
    let a := s.reg 0 (lo rs)
    let b := s.reg 0 (lo rn)
    let d := s.reg 0 (lo rd)
    let k3 : Word := BitVec.ofNat 32 o3.toNat
    let k8 : Word := BitVec.ofNat 32 o8.toNat
    (∀ x ∈ [(Instr.tAddReg rn rs rd, addWithCarry a b false), (.tSubReg rn rs rd, addWithCarry a (~~~b) true),
            (.tAddImm3 o3 rs rd, addWithCarry a k3 false), (.tSubImm3 o3 rs rd, addWithCarry a (~~~k3) true),
            (.tAddImm rd o8, addWithCarry d k8 false), (.tSubImm rd o8, addWithCarry d (~~~k8) true)],
      ∃ t, exec x.1 s = .next t ∧ s.ResultIn t (lo rd) x.2.result (s.cpsr.withNzcv x.2.result x.2.carry x.2.overflow))
    ∧ (∃ t, exec (.tMovImm rd o8) s = .next t ∧ s.ResultIn t (lo rd) k8 { s.cpsr with n := false, z := decide (o8 = 0) })
    ∧ ∃ t, exec (.tCmpImm rd o8) s = .next t
        ∧ s.FlagsOnly t (s.cpsr.withNzcv (d - k8) (addWithCarry d (~~~k8) true).carry (addWithCarry d (~~~k8) true).overflow)

/-- R385, R386, R390, R391, R393 to R400: format 4 beside the shifts. The C flag after MUL is free (log entry 11); MUL Rd,Rd is
refused (log entry 34). -/
def Obligations.ThumbAluOperations : Prop :=
  ∀ (s : State) (rs rd : LoReg),
    let a := s.reg 0 (lo rs)
    let d := s.reg 0 (lo rd)
    let flags := fun o : AluOut => s.cpsr.withNzcv o.result o.carry o.overflow
    (∀ x ∈ [(Instr.tAnd rs rd, d &&& a), (.tEor rs rd, d ^^^ a), (.tOrr rs rd, d ||| a), (.tBic rs rd, d &&& ~~~a),
            (.tMvn rs rd, ~~~a)],
      ∃ t, exec x.1 s = .next t ∧ s.ResultIn t (lo rd) x.2 (s.cpsr.withNzc x.2 s.cpsr.c))
    ∧ (∀ x ∈ [(Instr.tAdc rs rd, addWithCarry d a s.cpsr.c), (.tSbc rs rd, addWithCarry d (~~~a) s.cpsr.c),
              (.tNeg rs rd, addWithCarry 0 (~~~a) true)],
        ∃ t, exec x.1 s = .next t ∧ s.ResultIn t (lo rd) x.2.result (flags x.2))
    ∧ (∃ t, exec (.tTst rs rd) s = .next t ∧ s.FlagsOnly t (s.cpsr.withNzc (d &&& a) s.cpsr.c))
    ∧ (∃ t, exec (.tCmp rs rd) s = .next t ∧ s.FlagsOnly t (flags (addWithCarry d (~~~a) true)))
    ∧ (∃ t, exec (.tCmn rs rd) s = .next t ∧ s.FlagsOnly t (flags (addWithCarry d a false)))
    ∧ (rs ≠ rd → ∃ t k, exec (.tMul rs rd) s = .next t
        ∧ s.ResultIn t (lo rd) (BitVec.ofNat 32 (a.toNat * d.toNat))
            (s.cpsr.withNzc (BitVec.ofNat 32 (a.toNat * d.toNat)) k))
    ∧ (rs = rd → exec (.tMul rs rd) s = .refused .thumbMultiplySame)

/-- R402 to R405: format 5 with at least one Hi register. R15 reads `ia + 4` and is branched to in THUMB state. That two Lo
registers are refused is decision D18 (log entry 14). -/
def Obligations.ThumbHiRegisters : Prop :=
  ∀ (s : State) (hs hd : RegNo), s.cpsr.t = true →
    let a := if hs = PC then s.pc + 4 else s.reg 0 hs
    let d := if hd = PC then s.pc + 4 else s.reg 0 hd
    (8 ≤ hs.toNat ∨ 8 ≤ hd.toNat →
      (∃ t, exec (.tAddHi hs hd) s = .next t ∧ s.ResultIn t hd (d + a) s.cpsr)
      ∧ (∃ t, exec (.tMovHi hs hd) s = .next t ∧ s.ResultIn t hd a s.cpsr)
      ∧ ∃ t, exec (.tCmpHi hs hd) s = .next t
          ∧ s.FlagsOnly t (s.cpsr.withNzcv (d - a) (addWithCarry d (~~~a) true).carry (addWithCarry d (~~~a) true).overflow))
    ∧ (hs.toNat < 8 → hd.toNat < 8 →
        ∀ i ∈ [Instr.tAddHi hs hd, .tMovHi hs hd, .tCmpHi hs hd], exec i s = .refused .hiRegisterBothLow)

/-- R440, R441, R443, R444: formats 12 and 13. -/
def Obligations.ThumbAddresses : Prop :=
  ∀ (s : State) (rd : LoReg) (word8 : BitVec 8) (sword7 : BitVec 7),
    let k8 : Word := BitVec.ofNat 32 (4 * word8.toNat)
    let k7 : Word := BitVec.ofNat 32 (4 * sword7.toNat)
    ∀ x ∈ [(Instr.tAddPc rd word8, lo rd, ((s.pc + 4) &&& 0xFFFFFFFC#32) + k8), (.tAddSp rd word8, lo rd, s.reg 0 SP + k8),
           (.tSpPlus sword7, SP, s.reg 0 SP + k7), (.tSpMinus sword7, SP, s.reg 0 SP - k7)],
      ∃ t, exec x.1 s = .next t ∧ s.ResultIn t x.2.1 x.2.2 s.cpsr

/-- R421, R424, R425, R428 to R430, R433, R435, R437, R439: the loads of formats 6 to 11; a halfword at an odd address is refused
(R79, D17); R455 where the transfer is refused by the memory manager. -/
def Obligations.ThumbLoads : Prop :=
  ∀ (s : State) (ro rb rd : LoReg) (o5 : BitVec 5) (word8 : BitVec 8),
    let base := s.reg 0 (lo rb)
    let indexed := base + s.reg 0 (lo ro)
    let k8 : Word := BitVec.ofNat 32 (4 * word8.toNat)
    let word := fun a v : Word =>
      ∃ m, s.Reads .word (wordAligned a) (s.wordAt (a &&& 0xFFFFFFFC#32)) m ∧ v = m.rotateRight (8 * (a.toNat % 4))
    let byte := fun (ext : BitVec 8 → Word) (a v : Word) => ∃ m, s.Reads .byte a (s.byteAt a) m ∧ v = ext m
    let half := fun (ext : BitVec 16 → Word) (a v : Word) => ∃ m, s.Reads .half a (s.halfAt a) m ∧ v = ext m
    ∀ x ∈ [(Instr.tLdrPc rd word8, AccessSize.word, ((s.pc + 4) &&& 0xFFFFFFFC#32) + k8, word),
           (.tLdrReg ro rb rd, .word, indexed, word), (.tLdrbReg ro rb rd, .byte, indexed, byte fun m => m.setWidth 32),
           (.tLdsbReg ro rb rd, .byte, indexed, byte fun m => m.signExtend 32),
           (.tLdrhReg ro rb rd, .half, indexed, half fun m => m.setWidth 32),
           (.tLdshReg ro rb rd, .half, indexed, half fun m => m.signExtend 32),
           (.tLdrImm o5 rb rd, .word, base + BitVec.ofNat 32 (4 * o5.toNat), word),
           (.tLdrbImm o5 rb rd, .byte, base + BitVec.ofNat 32 o5.toNat, byte fun m => m.setWidth 32),
           (.tLdrhImm o5 rb rd, .half, base + BitVec.ofNat 32 (2 * o5.toNat), half fun m => m.setWidth 32),
           (.tLdrSp rd word8, .word, s.reg 0 SP + k8, word)],
      (x.2.1 = .half → x.2.2.1[0] = true → exec x.1 s = .refused .oddHalfword)
      ∧ ((x.2.1 = .half → x.2.2.1[0] = false) →
        (s.accepts .read x.2.1 s.privileged (x.2.1.align x.2.2.1) →
          ∃ t v, exec x.1 s = .next t ∧ x.2.2.2 x.2.2.1 v ∧ s.ResultIn t (lo rd) v s.cpsr)
        ∧ (s.aborted .read x.2.1 s.privileged (x.2.1.align x.2.2.1) = true →
          ∃ t, exec x.1 s = .next t ∧ s.Enters t .abt 0x10 (s.pc + 8) s.cpsr.f ∧ s.KeepsMemory t))

/-- R422, R423, R427, R432, R434, R436, R438: the stores of formats 7 to 11; an odd halfword address is refused; R455 where the
transfer is refused by the memory manager. -/
def Obligations.ThumbStores : Prop :=
  ∀ (s : State) (ro rb rd : LoReg) (o5 : BitVec 5) (word8 : BitVec 8),
    let base := s.reg 0 (lo rb)
    let indexed := base + s.reg 0 (lo ro)
    let v := s.reg 0 (lo rd)
    let aborted := fun (i : Instr) (size : AccessSize) (a : Word) =>
      s.aborted .write size s.privileged (size.align a) = true →
        ∃ t, exec i s = .next t ∧ s.Enters t .abt 0x10 (s.pc + 8) s.cpsr.f ∧ s.KeepsMemory t
    (∀ x ∈ [(Instr.tStrReg ro rb rd, indexed), (.tStrImm o5 rb rd, base + BitVec.ofNat 32 (4 * o5.toNat)),
            (.tStrSp rd word8, s.reg 0 SP + BitVec.ofNat 32 (4 * word8.toNat))],
      (s.accepts .write .word s.privileged (wordAligned x.2) →
        ∃ t, exec x.1 s = .next t
          ∧ t.wordAt (wordAligned x.2) = (if s.onDevice .word (wordAligned x.2) then s.wordAt (wordAligned x.2) else v)
          ∧ s.Stored t (wordAligned x.2) 4 false 0 0)
      ∧ aborted x.1 .word x.2)
    ∧ (∀ x ∈ [(Instr.tStrbReg ro rb rd, indexed), (.tStrbImm o5 rb rd, base + BitVec.ofNat 32 o5.toNat)],
        (s.accepts .write .byte s.privileged x.2 →
          ∃ t, exec x.1 s = .next t ∧ t.byteAt x.2 = (if s.onDevice .byte x.2 then s.byteAt x.2 else v.setWidth 8)
            ∧ s.Stored t x.2 1 false 0 0)
        ∧ aborted x.1 .byte x.2)
    ∧ ∀ x ∈ [(Instr.tStrhReg ro rb rd, indexed), (.tStrhImm o5 rb rd, base + BitVec.ofNat 32 (2 * o5.toNat))],
        (x.2[0] = true → exec x.1 s = .refused .oddHalfword)
        ∧ (x.2[0] = false →
          (s.accepts .write .half s.privileged x.2 →
            ∃ t, exec x.1 s = .next t ∧ t.halfAt x.2 = (if s.onDevice .half x.2 then s.halfAt x.2 else v.setWidth 16)
              ∧ s.Stored t x.2 2 false 0 0)
          ∧ aborted x.1 .half x.2)

/-- R446, R447, R451: PUSH and STMIA; R455 where a word is refused: every other word is stored, the base is written back and the data
abort taken. -/
def Obligations.ThumbMultipleStores : Prop :=
  ∀ (s : State) (rb : LoReg) (list : BitVec 8),
    let bytes := fun l : BitVec 16 => BitVec.ofNat 32 (4 * (regList l).length)
    let base := s.reg 0 (lo rb)
    let l : BitVec 16 := list.setWidth 16
    let final := base + bytes l
    ∀ x ∈ [(Instr.tPush list, SP, l, s.reg 0 SP - bytes l, s.reg 0 SP - bytes l, fun r => s.reg 0 r),
           (.tPushLr list, SP, l ||| 0x4000, s.reg 0 SP - bytes (l ||| 0x4000), s.reg 0 SP - bytes (l ||| 0x4000), fun r => s.reg 0 r),
           (.tStmia rb list, lo rb, l, base, final,
             fun r => if r = lo rb ∧ (regList l).head? ≠ some (lo rb) then final else s.reg 0 r)],
      let n := (regList x.2.2.1).length
      let start := x.2.2.2.1
      x.2.2.1 ≠ 0 →
      (s.blockAccepted .write start n →
        ∃ t, exec x.1 s = .next t ∧ s.BlockStored t start ((regList x.2.2.1).map x.2.2.2.2.2) true x.2.1 x.2.2.2.2.1)
      ∧ (s.blockAnswered start n → ∀ j, j < n → s.aborted .write .word s.privileged (slot start j) = true →
        ∃ t, exec x.1 s = .next t
          ∧ s.BlockStoreAborted t (s.setReg x.2.1 x.2.2.2.2.1) start x.2.2.1 x.2.2.2.2.2)

/-- R448, R449, R452: POP and LDMIA, a word popped to the pc keeping THUMB state; R455 where the j-th word is the first refused one: the
registers before it are loaded, the base holds its written-back value, the rest is kept and the data abort taken. -/
def Obligations.ThumbMultipleLoads : Prop :=
  ∀ (s : State) (rb : LoReg) (list : BitVec 8), s.cpsr.t = true →
    ∀ x ∈ [(Instr.tPop list, SP, (list.setWidth 16 : BitVec 16)), (.tPopPc list, SP, list.setWidth 16 ||| 0x8000),
           (.tLdmia rb list, lo rb, list.setWidth 16)],
      let n := (regList x.2.2).length
      let base := s.reg 0 x.2.1
      x.2.2 ≠ 0 →
      (s.blockAccepted .read base n →
        ∃ t v, exec x.1 s = .next t ∧ s.BlockLoaded t s.cpsr.mode base x.2.2
          ∧ s.Reads .word (slot base (n - 1)) (s.wordAt (slot base (n - 1))) v
          ∧ t.pc = (if x.2.2.getLsbD 15 then v &&& 0xFFFFFFFE#32 else s.pc + 2)
          ∧ (x.2.2.getLsbD x.2.1.toNat = false → t.reg 0 x.2.1 = base + BitVec.ofNat 32 (4 * n))
          ∧ t.cpsr = s.cpsr ∧ s.KeepsRegs t (x.2.1 :: regList x.2.2) ∧ s.KeepsMemory t ∧ s.KeepsSystem t)
      ∧ ∀ j b, j < n → s.blockAccepted .read base j → s.aborted .read .word s.privileged (slot base j) = true →
        physReg s.cpsr.mode x.2.1 = some b →
        ∃ t g, exec x.1 s = .next t ∧ State.Enters { s with regs := g } t .abt 0x10 (s.pc + 8) s.cpsr.f ∧ s.KeepsMemory t
          ∧ g.get b = base + BitVec.ofNat 32 (4 * n)
          ∧ (∀ k i r, k < j → (regList x.2.2)[k]? = some i → physReg s.cpsr.mode i = some r → r ≠ b →
              s.Reads .word (slot base k) (s.wordAt (slot base k)) (g.get r))
          ∧ ∀ r, r ≠ b → (∀ k i, k < j → (regList x.2.2)[k]? = some i → physReg s.cpsr.mode i ≠ some r) → g.get r = s.regs.get r

/-- R461, R468, R600 to R613: the conditional branches of format 16 and the branch of format 18, from an aligned pc. -/
def Obligations.ThumbBranchTargets : Prop :=
  ∀ (s : State) (o8 : BitVec 8) (o11 : BitVec 11), s.cpsr.t = true → s.pcAligned = true →
    let frame := fun t : State => t.cpsr = s.cpsr ∧ s.KeepsRegs t [] ∧ s.KeepsMemory t ∧ s.KeepsSystem t
    (∀ x ∈ thumbBranches, ∃ t, exec (x.1 o8) s = .next t
      ∧ t.pc = (if condPassed x.2 s.cpsr then s.pc + 4 + BitVec.ofInt 32 (2 * o8.toInt) else s.pc + 2) ∧ frame t)
    ∧ ∃ t, exec (.tB o11) s = .next t ∧ t.pc = s.pc + 4 + BitVec.ofInt 32 (2 * o11.toInt) ∧ frame t

/-- R472 to R474: each half of the long branch with link, and the two in a row: the target is the sum of both offsets, the link the
address after the pair with bit 0 set. That the high half is sign extended is the spec's inference (R473, log entry 29). -/
def Obligations.ThumbLongBranch : Prop :=
  ∀ (s : State) (high low : BitVec 11), s.cpsr.t = true →
    (∃ t, exec (.tBlFirst high) s = .next t ∧ s.ResultIn t LR (s.pc + 4 + BitVec.ofInt 32 (4096 * high.toInt)) s.cpsr)
    ∧ (∃ t, exec (.tBlSecond low) s = .next t
        ∧ t.pc = (s.reg 0 LR + BitVec.ofNat 32 (2 * low.toNat)) &&& 0xFFFFFFFE#32
        ∧ t.reg 0 LR = (s.pc + 2) ||| 1 ∧ t.cpsr = s.cpsr ∧ s.KeepsRegs t [LR] ∧ s.KeepsMemory t ∧ s.KeepsSystem t)
    ∧ (s.pcAligned = true →
        ∃ t u, exec (.tBlFirst high) s = .next t ∧ exec (.tBlSecond low) t = .next u
          ∧ u.pc = s.pc + 4 + BitVec.ofInt 32 (4096 * high.toInt + 2 * low.toNat) ∧ u.reg 0 LR = (s.pc + 4) ||| 1)

/-! ## Stops -/

/-- R132 (a) to (c), R140 (c) and (d), R297, R462: the reserved and not defined encodings, refused, the ARM ones of the last group when
their condition passes; the first eight are refused in every state. -/
def Obligations.ReservedEncodings : Prop :=
  ∀ (s : State) (c : Cond) (bits : BitVec 28) (b8 : BitVec 8) (b9 : BitVec 9) (b10 : BitVec 10) (b11 : BitVec 11)
    (p u w : Bool) (rn rd rm : RegNo),
    exec (.reservedCondition bits) s = .refused .reservedCondition
    ∧ exec (.tCond1110 b8) s = .refused .thumbCond1110
    ∧ (∀ i ∈ [Instr.tFreeB1 b8, .tFreeB2 b9, .tFreeB6 b9, .tFreeB8 b10, .tFreeBE b9, .tFreeE8 b11],
        exec i s = .refused .thumbNotAllocated)
    ∧ (condPassed c s.cpsr = true →
        (∀ i ∈ [Instr.notDefinedExtension c bits, .notDefinedTest c bits], exec i s = .refused .notDefinedEncoding)
        ∧ ∀ i ∈ [Instr.signedStoreByteReg c p u w rn rd rm, .signedStoreByteImm c p u w rn rd b8,
                 .signedStoreHalfReg c p u w rn rd rm, .signedStoreHalfImm c p u w rn rd b8],
            exec i s = .refused .signedStore)

/-- R188, R235, R236, R256, R263, R281, R282, R283, R296, R300, R322 to R324, R342, R453: the operands the rules forbid, each refused by its
name when the condition passes. -/
def Obligations.ForbiddenOperands : Prop :=
  ∀ (s : State) (c : Cond) (sb w p u : Bool) (rn rd rs rm : RegNo) (ty : ShiftType) (amount : BitVec 5) (rotate : BitVec 4)
    (imm8 : BitVec 8) (off : Offset) (list : BitVec 16),
    condPassed c s.cpsr = true →
    (∀ x ∈ writingOpcodes, exec (x.1 c sb rn rd (.shiftReg ty PC rm)) s = .refused .shiftAmountR15)
    ∧ (∀ i ∈ testOpcodes, exec (i c rn rd (.shiftReg ty PC rm)) s = .refused .shiftAmountR15)
    ∧ (∀ i ∈ [Instr.mrs c sb PC, .msr c sb PC, .msrFlg c sb PC], exec i s = .refused .psrTransferR15)
    ∧ (s.cpsr.mode = .usr ∨ s.cpsr.mode = .sys → rd ≠ PC →
        ∀ i ∈ [Instr.mrs c true rd, .msr c true rd, .msrFlg c true rd, .msrFlgImm c true rotate imm8], exec i s = .refused .noSpsr)
    ∧ (rd = rm ∨ rd = PC ∨ rm = PC ∨ rs = PC →
        exec (.mul c sb rd rn rs rm) s = .refused .multiplyOperands ∧ exec (.mla c sb rd rn rs rm) s = .refused .multiplyOperands)
    ∧ exec (.mla c sb rd PC rs rm) s = .refused .multiplyOperands
    ∧ (rd = PC ∨ rn = PC ∨ rm = PC ∨ rs = PC ∨ rd = rn ∨ rd = rm ∨ rn = rm →
        ∀ i ∈ [Instr.umull c sb rd rn rs rm, .umlal c sb rd rn rs rm, .smull c sb rd rn rs rm, .smlal c sb rd rn rs rm],
          exec i s = .refused .multiplyLongOperands)
    ∧ (∀ ix : Index, (!ix.p || ix.w) = true →
        ∀ i ∈ singleForms c u ix PC rd off ++ unprivilegedForms c u PC rd off, exec i s = .refused .writebackR15)
    ∧ (∀ ix : Index, ((!ix.p || ix.w) = true → rn ≠ PC) →
        ∀ i ∈ singleForms c u ix rn rd (.reg ty amount PC), exec i s = .refused .offsetR15)
    ∧ (rn ≠ PC → ∀ i ∈ unprivilegedForms c u rn rd (.reg ty amount PC), exec i s = .refused .offsetR15)
    ∧ (rn ≠ PC → offsetReg off ≠ some PC →
        (∀ ix : Index, (!ix.p || ix.w) = true → ∀ i ∈ singleForms c u ix rn rn off, exec i s = .refused .transferredBase)
        ∧ ∀ i ∈ unprivilegedForms c u rn rn off, exec i s = .refused .transferredBase)
    ∧ (rn ≠ PC → rd ≠ rn → ∀ i ∈ singleForms c u .post rn rd (.reg ty amount rn) ++ unprivilegedForms c u rn rd (.reg ty amount rn),
        exec i s = .refused .postIndexOffsetIsBase)
    ∧ (∀ i ∈ halfwordRegForms c false u true rn rd rm ++ halfwordImmForms c false u true rn rd imm8,
        exec i s = .refused .postIndexWriteBit)
    ∧ ((!p || w) = true → (p = false → w = false) →
        ∀ i ∈ halfwordRegForms c p u w PC rd rm ++ halfwordImmForms c p u w PC rd imm8, exec i s = .refused .writebackR15)
    ∧ ((p = false → w = false) → ((!p || w) = true → rn ≠ PC) →
        ∀ i ∈ halfwordRegForms c p u w rn rd PC, exec i s = .refused .offsetR15)
    ∧ ((p = false → w = false) → (!p || w) = true → rn ≠ PC →
        (rm ≠ PC → ∀ i ∈ halfwordRegForms c p u w rn rn rm, exec i s = .refused .transferredBase)
        ∧ ∀ i ∈ halfwordImmForms c p u w rn rn imm8, exec i s = .refused .transferredBase)
    ∧ (∀ x ∈ multipleLoads ++ multipleStores,
        exec (x.1 c sb w rn 0) s = .refused .emptyRegisterList
        ∧ (list ≠ 0 → exec (x.1 c sb w PC list) s = .refused .blockBaseR15)
        ∧ (list ≠ 0 → rn ≠ PC → s.cpsr.mode = .usr → exec (x.1 c true w rn list) s = .refused .sBitInUserMode))
    ∧ (∀ x ∈ multipleStores, list ≠ 0 → rn ≠ PC → s.cpsr.mode ≠ .usr →
        exec (x.1 c true true rn list) s = .refused .userBankWriteback)
    ∧ (rn = PC ∨ rd = PC ∨ rm = PC → ∀ i ∈ [Instr.swp c rn rd rm, .swpb c rn rd rm], exec i s = .refused .swapR15)
    ∧ ∀ rb : LoReg, ∀ i ∈ [Instr.tPush 0, .tPop 0, .tStmia rb 0, .tLdmia rb 0], exec i s = .refused .emptyRegisterList

/-- R98, R551: the two hazards stop the step; their form is the model's (log entries 18, 19). An instruction that changes a byte of one
of the two instructions fetched after it, or stores to one by STR or STRB whatever the value, stops the step that reaches that
instruction in sequence, in ARM and in THUMB state. The ARM instruction after a user-bank LDM, its condition passed, stops where a
register it names is banked, and runs where none is; the list of a user-bank transfer counts by its numbers (log entry 19). -/
def Obligations.HazardsStop : Prop :=
  (∀ (i : Instr) (s t : State) (b : Word), exec i s = .next t → s.aborts = [] → s.inputs = [] →
    s.byteAt b ≠ t.byteAt b
      ∨ (∃ rn rd, i = .str .al true (.pre false) rn rd (.imm 0) ∧ (b - wordAligned (s.reg 8 rn)).toNat < 4)
      ∨ (∃ rn rd, i = .strb .al true (.pre false) rn rd (.imm 0) ∧ b = s.reg 8 rn)
      ∨ (∃ ro rb rd, i = .tStrReg ro rb rd ∧ (b - wordAligned (s.reg 0 (lo rb) + s.reg 0 (lo ro))).toNat < 4)
      ∨ (∃ ro rb rd, i = .tStrbReg ro rb rd ∧ b = s.reg 0 (lo rb) + s.reg 0 (lo ro)) →
    let w := s.width.toNat
    let d := (b - s.pc).toNat
    (w ≤ d → d < 2 * w → step t = .fault .overwrittenPrefetch)
    ∧ (2 * w ≤ d → d < 3 * w → ∀ u, step t = .next u →
        (∃ x ∈ writingOpcodes, ∃ c sb rn rd op2, rd ≠ PC ∧ t.fetch = x.1 c sb rn rd op2)
          ∨ (∃ hs hd, hd ≠ PC ∧ t.fetch = .tMovHi hs hd) →
        step u = .fault .overwrittenPrefetch))
  ∧ ∀ s : State, s.inputs = [] → s.aborts = [] → s.prefetch.current = false → s.mapKind .word s.pc = none →
      s.bankHazard = true → s.cpsr.t = false →
      ∀ (c : Cond) (sb w p u : Bool) (ix : Index) (rn rd rs rm : RegNo) (imm8 : BitVec 8) (list : BitVec 16) (offset : BitVec 24)
        (rotate : BitVec 4) (imm12 : BitVec 12) (ty : ShiftType) (amount : BitVec 5),
        condPassed c s.cpsr = true →
        let operands := [(Operand2.imm rotate imm8, []), (.shiftImm ty amount rm, [rm]), (.shiftReg ty rs rm, [rs, rm])]
        let offsets := [(Offset.imm imm12, []), (.reg ty amount rm, [rm])]
        let stops := fun (i : Instr) (named : List RegNo) => decodeArm (s.wordAt s.pc) = i →
          ((∃ r ∈ named, physReg s.cpsr.mode r ≠ physReg .usr r) → step s = .fault .bankedRegisterAfterUserLdm)
          ∧ ((∀ r ∈ named, physReg s.cpsr.mode r = physReg .usr r) → step s = exec i { s with bankHazard := false })
        (∀ o ∈ operands,
          (∀ i ∈ [Instr.and c sb rn rd o.1, .eor c sb rn rd o.1, .sub c sb rn rd o.1, .rsb c sb rn rd o.1, .add c sb rn rd o.1,
                  .adc c sb rn rd o.1, .sbc c sb rn rd o.1, .rsc c sb rn rd o.1, .orr c sb rn rd o.1, .bic c sb rn rd o.1],
            stops i (rn :: rd :: o.2))
          ∧ (∀ i ∈ [Instr.mov c sb rn rd o.1, .mvn c sb rn rd o.1], stops i (rd :: o.2))
          ∧ ∀ i ∈ [Instr.tst c rn rd o.1, .teq c rn rd o.1, .cmp c rn rd o.1, .cmn c rn rd o.1], stops i (rn :: o.2))
        ∧ (∀ i ∈ offsets.flatMap (fun o => (singleForms c u ix rn rd o.1 ++ unprivilegedForms c u rn rd o.1).map (·, rn :: rd :: o.2)),
            stops i.1 i.2)
        ∧ (∀ i ∈ halfwordRegForms c p u w rn rd rm, stops i [rn, rd, rm])
        ∧ (∀ i ∈ halfwordImmForms c p u w rn rd imm8, stops i [rn, rd])
        ∧ (∀ x ∈ multipleLoads ++ multipleStores, stops (x.1 c sb w rn list) (rn :: regList list))
        ∧ (∀ i ∈ [Instr.swp c rn rd rm, .swpb c rn rd rm], stops i [rn, rd, rm])
        ∧ stops (.mul c sb rd rn rs rm) [rd, rs, rm]
        ∧ (∀ i ∈ [Instr.mla c sb rd rn rs rm, .umull c sb rd rn rs rm, .umlal c sb rd rn rs rm, .smull c sb rd rn rs rm,
                  .smlal c sb rd rn rs rm], stops i [rd, rn, rs, rm])
        ∧ stops (.mrs c sb rd) [rd]
        ∧ (∀ i ∈ [Instr.msr c sb rm, .msrFlg c sb rm, .bx c rm], stops i [rm])
        ∧ stops (.msrFlgImm c sb rotate imm8) []
        ∧ stops (.b c offset) [] ∧ stops (.bl c offset) [LR]

/-! ## Memory and whole-machine rules -/

/-- R72 to R75: a stored value reads back at its width, the bytes of a word and of a halfword and the halfwords of a word lie as the
byte order says, and no other byte changes. A store to a device changes no memory (log entry 5). -/
def Obligations.StoredThenRead : Prop :=
  ∀ (s : State) (a v : Word),
    (∀ size, s.onDevice size (size.align a) = true → s.KeepsMemory (s.storeValue size a v))
    ∧ ((s.onDevice .word (wordAligned a) = false → (s.storeValue .word a v).wordAt (wordAligned a) = v)
      ∧ s.KeepsMemoryOutside (s.storeValue .word a v) (wordAligned a) 4)
    ∧ ((s.onDevice .half (halfAligned a) = false → (s.storeValue .half a v).halfAt (halfAligned a) = v.setWidth 16)
      ∧ s.KeepsMemoryOutside (s.storeValue .half a v) (halfAligned a) 2)
    ∧ ((s.onDevice .byte a = false → (s.storeValue .byte a v).byteAt a = v.setWidth 8)
      ∧ s.KeepsMemoryOutside (s.storeValue .byte a v) a 1)
    ∧ (∀ k, k < 4 →
        (s.wordAt (wordAligned a)).extractLsb' (if s.bigend then 24 - 8 * k else 8 * k) 8 =
          s.byteAt (wordAligned a + BitVec.ofNat 32 k))
    ∧ (∀ k, k < 2 →
        (s.halfAt (halfAligned a)).extractLsb' (if s.bigend then 8 - 8 * k else 8 * k) 8 =
          s.byteAt (halfAligned a + BitVec.ofNat 32 k))
    ∧ ∀ k, k < 2 →
        (s.wordAt (wordAligned a)).extractLsb' (if s.bigend then 16 - 16 * k else 16 * k) 16 =
          s.halfAt (wordAligned a + BitVec.ofNat 32 (2 * k))

/-- Only the store instructions change memory: every other instruction, whatever it ends in, leaves every byte as it was. -/
def Obligations.OnlyStoresChangeMemory : Prop :=
  ∀ (i : Instr) (s t : State), storesMemory i = false → exec i s = .next t → s.KeepsMemory t

/-- R43, R515, R517: an instruction executed in User mode leaves the mode, I, F, the SPSRs and every register outside the User bank as
they are, or it takes an exception, which enters a privileged mode at its vector with IRQ disabled. -/
def Obligations.UserModeConfined : Prop :=
  ∀ (i : Instr) (s t : State), s.cpsr.mode = .usr → exec i s = .next t →
    (t.cpsr.mode = .usr ∧ t.cpsr.i = s.cpsr.i ∧ t.cpsr.f = s.cpsr.f ∧ t.spsrs = s.spsrs
      ∧ ∀ r, (∀ n, physReg .usr n ≠ some r) → t.regs.get r = s.regs.get r)
    ∨ (t.cpsr.i = true ∧ t.cpsr.t = false ∧ t.cpsr.f = s.cpsr.f
      ∧ ((t.cpsr.mode = .svc ∧ t.pc = 0x08) ∨ (t.cpsr.mode = .und ∧ t.pc = 0x04) ∨ (t.cpsr.mode = .abt ∧ t.pc = 0x10)))

/-- R39: the T bit is changed only by BX, by exception entry, and by a copy of the SPSR to the CPSR. -/
def Obligations.StateBitChanges : Prop :=
  ∀ (i : Instr) (s t : State), exec i s = .next t → t.cpsr.t ≠ s.cpsr.t →
    (∃ c rn, i = .bx c rn) ∨ (∃ h1 hs low, i = .tBx h1 hs low)
    ∨ (t.cpsr.t = false ∧ t.cpsr.i = true
      ∧ ((t.cpsr.mode = .svc ∧ t.pc = 0x08) ∨ (t.cpsr.mode = .und ∧ t.pc = 0x04) ∨ (t.cpsr.mode = .abt ∧ t.pc = 0x10)))
    ∨ ∃ p, s.spsr = some p ∧ p.toCpsr = some t.cpsr

end
end

