-- ==== Sys2Proof/Laws/Encoding.lean ====
section
/-!
SUPPORT. The fields and bits of a concatenation, and the small lemmas of the encoder's pieces.
-/

namespace Sys2Proof

theorem getElem_cat {n m k : Nat} (x : BitVec n) (y : BitVec m) (h : n + m = k) (i : Nat) (hi : i < k) :
    (cat k x y)[i] = if h' : i < m then y[i] else x[i - m]'(by omega) := by
  subst h
  simp only [cat, BitVec.setWidth_eq, BitVec.getElem_append]

theorem getElem_cat_low {n m k : Nat} (x : BitVec n) (y : BitVec m) (h : n + m = k) (i : Nat) (hi : i < k) (hm : i < m) :
    (cat k x y)[i] = y[i] := by
  rw [getElem_cat x y h, dif_pos hm]

theorem getElem_cat_high {n m k : Nat} (x : BitVec n) (y : BitVec m) (h : n + m = k) (i : Nat) (hi : i < k) (hm : m ≤ i) :
    (cat k x y)[i] = x[i - m]'(by omega) := by
  rw [getElem_cat x y h, dif_neg (by omega)]

/-- A field inside the low part of a concatenation. -/
theorem extract_cat_low {n m k : Nat} (x : BitVec n) (y : BitVec m) (start len : Nat) (h : n + m = k)
    (hl : start + len ≤ m) : (cat k x y).extractLsb' start len = y.extractLsb' start len := by
  subst h
  ext i hi
  simp only [cat, BitVec.setWidth_eq, BitVec.getElem_extractLsb', BitVec.getLsbD_append]
  rw [if_pos (by omega)]

/-- A field inside the high part of a concatenation. -/
theorem extract_cat_high {n m k : Nat} (x : BitVec n) (y : BitVec m) (start len : Nat) (h : n + m = k)
    (hl : m ≤ start) : (cat k x y).extractLsb' start len = x.extractLsb' (start - m) len := by
  subst h
  ext i hi
  simp only [cat, BitVec.setWidth_eq, BitVec.getElem_extractLsb', BitVec.getLsbD_append]
  rw [if_neg (by omega)]
  congr 1
  omega

/-- A field that takes the whole low part and the bottom of the high part. -/
theorem extract_cat_both {n m k : Nat} (x : BitVec n) (y : BitVec m) (len : Nat) (h : n + m = k) (hl : m ≤ len)
    (hk : len ≤ k) : (cat k x y).extractLsb' 0 len = cat len (x.extractLsb' 0 (len - m)) y := by
  subst h
  ext i hi
  rw [getElem_cat _ _ (by omega)]
  simp only [cat, BitVec.setWidth_eq, BitVec.getElem_extractLsb', BitVec.getLsbD_append, Nat.zero_add]
  by_cases h' : i < m
  · simp [h', BitVec.getLsbD_eq_getElem]
  · simp [h']

theorem extract_all {n : Nat} (x : BitVec n) : x.extractLsb' 0 n = x := by
  ext i hi
  simp

theorem condOf_condBits (c : Cond) : condOf (condBits c) = some c := by
  cases c <;> rfl

theorem shiftTypeOf_bits (ty : ShiftType) : shiftTypeOf ty.bit6 ty.bit5 = ty := by
  cases ty <;> rfl

theorem nibble_bits (b3 b2 b1 b0 : Bool) :
    (nibble b3 b2 b1 b0)[0] = b0 ∧ (nibble b3 b2 b1 b0)[1] = b1 ∧ (nibble b3 b2 b1 b0)[2] = b2 ∧
      (nibble b3 b2 b1 b0)[3] = b3 := by
  cases b3 <;> cases b2 <;> cases b1 <;> cases b0 <;> decide

/-- A byte is its two nibbles. -/
theorem cat_nibbles (x : BitVec 8) : cat 8 (x.extractLsb' 4 4) (x.extractLsb' 0 4) = x := by
  ext i hi
  rw [getElem_cat _ _ (by omega)]
  by_cases h : i < 4
  · simp [h, BitVec.getElem_extractLsb', BitVec.getLsbD_eq_getElem hi]
  · simp [h, BitVec.getElem_extractLsb', show 4 + (i - 4) = i by omega, BitVec.getLsbD_eq_getElem hi]

/-- A register number of format 5 is its H bit and its three bits. -/
theorem cat_hi (x : BitVec 4) : cat 4 (BitVec.ofBool x[3]) (x.extractLsb' 0 3) = x := by
  revert x; decide

end Sys2Proof
end

