-- ==== Sys2Proof/Laws/State.lean ====
section
/-!
SUPPORT. What every update of the state does to every field, one small lemma each, so that no proof unfolds an update.
-/

namespace Sys2Proof.Machine

/-! ### A physical register replaced -/

@[simp] theorem State.setPhys_regs (s : State) (r : PhysReg) (v : Word) : (s.setPhys r v).regs = s.regs.set r v := rfl
@[simp] theorem State.setPhys_pc (s : State) (r : PhysReg) (v : Word) : (s.setPhys r v).pc = s.pc := rfl
@[simp] theorem State.setPhys_cpsr (s : State) (r : PhysReg) (v : Word) : (s.setPhys r v).cpsr = s.cpsr := rfl
@[simp] theorem State.setPhys_spsrs (s : State) (r : PhysReg) (v : Word) : (s.setPhys r v).spsrs = s.spsrs := rfl
@[simp] theorem State.setPhys_mem (s : State) (r : PhysReg) (v : Word) : (s.setPhys r v).mem = s.mem := rfl
@[simp] theorem State.setPhys_bigend (s : State) (r : PhysReg) (v : Word) : (s.setPhys r v).bigend = s.bigend := rfl
@[simp] theorem State.setPhys_aborts (s : State) (r : PhysReg) (v : Word) : (s.setPhys r v).aborts = s.aborts := rfl
@[simp] theorem State.setPhys_inputs (s : State) (r : PhysReg) (v : Word) : (s.setPhys r v).inputs = s.inputs := rfl
@[simp] theorem State.setPhys_memMap (s : State) (r : PhysReg) (v : Word) : (s.setPhys r v).memMap = s.memMap := rfl
@[simp] theorem State.setPhys_prefetch (s : State) (r : PhysReg) (v : Word) : (s.setPhys r v).prefetch = s.prefetch := rfl
@[simp] theorem State.setPhys_bankHazard (s : State) (r : PhysReg) (v : Word) : (s.setPhys r v).bankHazard = s.bankHazard := rfl
@[simp] theorem State.setPhys_draws (s : State) (r : PhysReg) (v : Word) : (s.setPhys r v).draws = s.draws := rfl

/-! ### A register of the current mode replaced -/

@[simp] theorem State.setReg_pc (s : State) (i : RegNo) (v : Word) : (s.setReg i v).pc = s.pc := by
  unfold State.setReg; split <;> rfl
@[simp] theorem State.setReg_cpsr (s : State) (i : RegNo) (v : Word) : (s.setReg i v).cpsr = s.cpsr := by
  unfold State.setReg; split <;> rfl
@[simp] theorem State.setReg_spsrs (s : State) (i : RegNo) (v : Word) : (s.setReg i v).spsrs = s.spsrs := by
  unfold State.setReg; split <;> rfl
@[simp] theorem State.setReg_mem (s : State) (i : RegNo) (v : Word) : (s.setReg i v).mem = s.mem := by
  unfold State.setReg; split <;> rfl
@[simp] theorem State.setReg_bigend (s : State) (i : RegNo) (v : Word) : (s.setReg i v).bigend = s.bigend := by
  unfold State.setReg; split <;> rfl
@[simp] theorem State.setReg_aborts (s : State) (i : RegNo) (v : Word) : (s.setReg i v).aborts = s.aborts := by
  unfold State.setReg; split <;> rfl
@[simp] theorem State.setReg_inputs (s : State) (i : RegNo) (v : Word) : (s.setReg i v).inputs = s.inputs := by
  unfold State.setReg; split <;> rfl
@[simp] theorem State.setReg_memMap (s : State) (i : RegNo) (v : Word) : (s.setReg i v).memMap = s.memMap := by
  unfold State.setReg; split <;> rfl
@[simp] theorem State.setReg_prefetch (s : State) (i : RegNo) (v : Word) : (s.setReg i v).prefetch = s.prefetch := by
  unfold State.setReg; split <;> rfl
@[simp] theorem State.setReg_bankHazard (s : State) (i : RegNo) (v : Word) : (s.setReg i v).bankHazard = s.bankHazard := by
  unfold State.setReg; split <;> rfl
@[simp] theorem State.setReg_draws (s : State) (i : RegNo) (v : Word) : (s.setReg i v).draws = s.draws := by
  unfold State.setReg; split <;> rfl

/-! ### The pc moved on -/

@[simp] theorem State.advance_regs (s : State) : (s.advance).regs = s.regs := rfl
@[simp] theorem State.advance_pc (s : State) : (s.advance).pc = s.pc + s.width := rfl
@[simp] theorem State.advance_cpsr (s : State) : (s.advance).cpsr = s.cpsr := rfl
@[simp] theorem State.advance_spsrs (s : State) : (s.advance).spsrs = s.spsrs := rfl
@[simp] theorem State.advance_mem (s : State) : (s.advance).mem = s.mem := rfl
@[simp] theorem State.advance_bigend (s : State) : (s.advance).bigend = s.bigend := rfl
@[simp] theorem State.advance_aborts (s : State) : (s.advance).aborts = s.aborts := rfl
@[simp] theorem State.advance_inputs (s : State) : (s.advance).inputs = s.inputs := rfl
@[simp] theorem State.advance_memMap (s : State) : (s.advance).memMap = s.memMap := rfl
@[simp] theorem State.advance_prefetch (s : State) : (s.advance).prefetch = s.prefetch.shift := rfl
@[simp] theorem State.advance_bankHazard (s : State) : (s.advance).bankHazard = s.bankHazard := rfl
@[simp] theorem State.advance_draws (s : State) : (s.advance).draws = s.draws := rfl

/-! ### A branch -/

@[simp] theorem State.branch_regs (s : State) (t : Word) : (s.branch t).regs = s.regs := rfl
@[simp] theorem State.branch_pc (s : State) (t : Word) : (s.branch t).pc = alignPc s.cpsr.t t := rfl
@[simp] theorem State.branch_cpsr (s : State) (t : Word) : (s.branch t).cpsr = s.cpsr := rfl
@[simp] theorem State.branch_spsrs (s : State) (t : Word) : (s.branch t).spsrs = s.spsrs := rfl
@[simp] theorem State.branch_mem (s : State) (t : Word) : (s.branch t).mem = s.mem := rfl
@[simp] theorem State.branch_bigend (s : State) (t : Word) : (s.branch t).bigend = s.bigend := rfl
@[simp] theorem State.branch_aborts (s : State) (t : Word) : (s.branch t).aborts = s.aborts := rfl
@[simp] theorem State.branch_inputs (s : State) (t : Word) : (s.branch t).inputs = s.inputs := rfl
@[simp] theorem State.branch_memMap (s : State) (t : Word) : (s.branch t).memMap = s.memMap := rfl
@[simp] theorem State.branch_prefetch (s : State) (t : Word) : (s.branch t).prefetch = Prefetch.fresh := rfl
@[simp] theorem State.branch_bankHazard (s : State) (t : Word) : (s.branch t).bankHazard = s.bankHazard := rfl
@[simp] theorem State.branch_draws (s : State) (t : Word) : (s.branch t).draws = s.draws := rfl

/-! ### A free value drawn -/

@[simp] theorem State.drawn_regs (s : State) : (s.drawn).regs = s.regs := rfl
@[simp] theorem State.drawn_pc (s : State) : (s.drawn).pc = s.pc := rfl
@[simp] theorem State.drawn_cpsr (s : State) : (s.drawn).cpsr = s.cpsr := rfl
@[simp] theorem State.drawn_spsrs (s : State) : (s.drawn).spsrs = s.spsrs := rfl
@[simp] theorem State.drawn_mem (s : State) : (s.drawn).mem = s.mem := rfl
@[simp] theorem State.drawn_bigend (s : State) : (s.drawn).bigend = s.bigend := rfl
@[simp] theorem State.drawn_aborts (s : State) : (s.drawn).aborts = s.aborts := rfl
@[simp] theorem State.drawn_inputs (s : State) : (s.drawn).inputs = s.inputs := rfl
@[simp] theorem State.drawn_memMap (s : State) : (s.drawn).memMap = s.memMap := rfl
@[simp] theorem State.drawn_prefetch (s : State) : (s.drawn).prefetch = s.prefetch := rfl
@[simp] theorem State.drawn_bankHazard (s : State) : (s.drawn).bankHazard = s.bankHazard := rfl
@[simp] theorem State.drawn_draws (s : State) : (s.drawn).draws = s.draws + 1 := rfl

/-! ### An exception taken -/

@[simp] theorem State.takeException_regs (s : State) (e : Exc) : (s.takeException e).regs = s.regs.set (linkReg e.spsrMode.mode) (e.link s.cpsr.t s.pc) := rfl
@[simp] theorem State.takeException_pc (s : State) (e : Exc) : (s.takeException e).pc = e.vector := rfl
@[simp] theorem State.takeException_cpsr (s : State) (e : Exc) : (s.takeException e).cpsr = { s.cpsr with mode := e.spsrMode.mode, t := false, i := true, f := s.cpsr.f || e.setsF } := rfl
@[simp] theorem State.takeException_spsrs (s : State) (e : Exc) : (s.takeException e).spsrs = s.spsrs.set e.spsrMode s.cpsr.toPsr := rfl
@[simp] theorem State.takeException_mem (s : State) (e : Exc) : (s.takeException e).mem = s.mem := rfl
@[simp] theorem State.takeException_bigend (s : State) (e : Exc) : (s.takeException e).bigend = s.bigend := rfl
@[simp] theorem State.takeException_aborts (s : State) (e : Exc) : (s.takeException e).aborts = s.aborts := rfl
@[simp] theorem State.takeException_inputs (s : State) (e : Exc) : (s.takeException e).inputs = s.inputs := rfl
@[simp] theorem State.takeException_memMap (s : State) (e : Exc) : (s.takeException e).memMap = s.memMap := rfl
@[simp] theorem State.takeException_prefetch (s : State) (e : Exc) : (s.takeException e).prefetch = Prefetch.fresh := rfl
@[simp] theorem State.takeException_bankHazard (s : State) (e : Exc) : (s.takeException e).bankHazard = false := rfl
@[simp] theorem State.takeException_draws (s : State) (e : Exc) : (s.takeException e).draws = s.draws := rfl

/-! ### A reset during the run -/

@[simp] theorem State.takeReset_regs (s : State) : (s.takeReset).regs = resetRegs s.draws := rfl
@[simp] theorem State.takeReset_pc (s : State) : (s.takeReset).pc = 0 := rfl
@[simp] theorem State.takeReset_mem (s : State) : (s.takeReset).mem = s.mem := rfl
@[simp] theorem State.takeReset_bigend (s : State) : (s.takeReset).bigend = s.bigend := rfl
@[simp] theorem State.takeReset_aborts (s : State) : (s.takeReset).aborts = s.aborts := rfl
@[simp] theorem State.takeReset_inputs (s : State) : (s.takeReset).inputs = s.inputs := rfl
@[simp] theorem State.takeReset_memMap (s : State) : (s.takeReset).memMap = s.memMap := rfl
@[simp] theorem State.takeReset_prefetch (s : State) : (s.takeReset).prefetch = Prefetch.fresh := rfl
@[simp] theorem State.takeReset_bankHazard (s : State) : (s.takeReset).bankHazard = false := rfl
@[simp] theorem State.takeReset_draws (s : State) : (s.takeReset).draws = s.draws + 1 := rfl

/-! ### A byte stored -/

@[simp] theorem State.putByte_regs (s : State) (a : Word) (b : Byte) : (s.putByte a b).regs = s.regs := rfl
@[simp] theorem State.putByte_pc (s : State) (a : Word) (b : Byte) : (s.putByte a b).pc = s.pc := rfl
@[simp] theorem State.putByte_cpsr (s : State) (a : Word) (b : Byte) : (s.putByte a b).cpsr = s.cpsr := rfl
@[simp] theorem State.putByte_spsrs (s : State) (a : Word) (b : Byte) : (s.putByte a b).spsrs = s.spsrs := rfl
@[simp] theorem State.putByte_mem (s : State) (a : Word) (b : Byte) : (s.putByte a b).mem = Memory.write s.mem a.toNat b := rfl
@[simp] theorem State.putByte_bigend (s : State) (a : Word) (b : Byte) : (s.putByte a b).bigend = s.bigend := rfl
@[simp] theorem State.putByte_aborts (s : State) (a : Word) (b : Byte) : (s.putByte a b).aborts = s.aborts := rfl
@[simp] theorem State.putByte_inputs (s : State) (a : Word) (b : Byte) : (s.putByte a b).inputs = s.inputs := rfl
@[simp] theorem State.putByte_memMap (s : State) (a : Word) (b : Byte) : (s.putByte a b).memMap = s.memMap := rfl
@[simp] theorem State.putByte_prefetch (s : State) (a : Word) (b : Byte) : (s.putByte a b).prefetch = s.prefetch.overwrite s.width.toNat (a - s.pc).toNat := rfl
@[simp] theorem State.putByte_bankHazard (s : State) (a : Word) (b : Byte) : (s.putByte a b).bankHazard = s.bankHazard := rfl
@[simp] theorem State.putByte_draws (s : State) (a : Word) (b : Byte) : (s.putByte a b).draws = s.draws := rfl

/-! ### The boundary -/

@[simp] theorem State.atBoundary_regs (s : State) : (s.atBoundary).regs = s.regs := rfl
@[simp] theorem State.atBoundary_pc (s : State) : (s.atBoundary).pc = s.pc := rfl
@[simp] theorem State.atBoundary_cpsr (s : State) : (s.atBoundary).cpsr = s.cpsr := rfl
@[simp] theorem State.atBoundary_spsrs (s : State) : (s.atBoundary).spsrs = s.spsrs := rfl
@[simp] theorem State.atBoundary_mem (s : State) : (s.atBoundary).mem = s.mem := rfl
@[simp] theorem State.atBoundary_bigend (s : State) : (s.atBoundary).bigend = s.bigend := rfl
@[simp] theorem State.atBoundary_aborts (s : State) : (s.atBoundary).aborts = s.sample.aborts.getD s.aborts := rfl
@[simp] theorem State.atBoundary_inputs (s : State) : (s.atBoundary).inputs = s.inputs.tail := rfl
@[simp] theorem State.atBoundary_memMap (s : State) : (s.atBoundary).memMap = s.memMap := rfl
@[simp] theorem State.atBoundary_prefetch (s : State) : (s.atBoundary).prefetch = s.prefetch := rfl
@[simp] theorem State.atBoundary_bankHazard (s : State) : (s.atBoundary).bankHazard = s.bankHazard := rfl
@[simp] theorem State.atBoundary_draws (s : State) : (s.atBoundary).draws = s.draws := rfl

/-! ### Several bytes stored -/

@[simp] theorem State.putBytes_regs (s : State) (a : Word) (bs : List Byte) : (s.putBytes a bs).regs = s.regs := by
  induction bs generalizing s a with
  | nil => rfl
  | cons b bs ih => exact ih (s.putByte a b) (a + 1)
@[simp] theorem State.putBytes_pc (s : State) (a : Word) (bs : List Byte) : (s.putBytes a bs).pc = s.pc := by
  induction bs generalizing s a with
  | nil => rfl
  | cons b bs ih => exact ih (s.putByte a b) (a + 1)
@[simp] theorem State.putBytes_cpsr (s : State) (a : Word) (bs : List Byte) : (s.putBytes a bs).cpsr = s.cpsr := by
  induction bs generalizing s a with
  | nil => rfl
  | cons b bs ih => exact ih (s.putByte a b) (a + 1)
@[simp] theorem State.putBytes_spsrs (s : State) (a : Word) (bs : List Byte) : (s.putBytes a bs).spsrs = s.spsrs := by
  induction bs generalizing s a with
  | nil => rfl
  | cons b bs ih => exact ih (s.putByte a b) (a + 1)
@[simp] theorem State.putBytes_bigend (s : State) (a : Word) (bs : List Byte) : (s.putBytes a bs).bigend = s.bigend := by
  induction bs generalizing s a with
  | nil => rfl
  | cons b bs ih => exact ih (s.putByte a b) (a + 1)
@[simp] theorem State.putBytes_aborts (s : State) (a : Word) (bs : List Byte) : (s.putBytes a bs).aborts = s.aborts := by
  induction bs generalizing s a with
  | nil => rfl
  | cons b bs ih => exact ih (s.putByte a b) (a + 1)
@[simp] theorem State.putBytes_inputs (s : State) (a : Word) (bs : List Byte) : (s.putBytes a bs).inputs = s.inputs := by
  induction bs generalizing s a with
  | nil => rfl
  | cons b bs ih => exact ih (s.putByte a b) (a + 1)
@[simp] theorem State.putBytes_memMap (s : State) (a : Word) (bs : List Byte) : (s.putBytes a bs).memMap = s.memMap := by
  induction bs generalizing s a with
  | nil => rfl
  | cons b bs ih => exact ih (s.putByte a b) (a + 1)
@[simp] theorem State.putBytes_bankHazard (s : State) (a : Word) (bs : List Byte) : (s.putBytes a bs).bankHazard = s.bankHazard := by
  induction bs generalizing s a with
  | nil => rfl
  | cons b bs ih => exact ih (s.putByte a b) (a + 1)
@[simp] theorem State.putBytes_draws (s : State) (a : Word) (bs : List Byte) : (s.putBytes a bs).draws = s.draws := by
  induction bs generalizing s a with
  | nil => rfl
  | cons b bs ih => exact ih (s.putByte a b) (a + 1)

/-! ### A value stored -/

@[simp] theorem State.storeValue_regs (s : State) (size : AccessSize) (a v : Word) : (s.storeValue size a v).regs = s.regs := by
  simp [State.storeValue]
@[simp] theorem State.storeValue_pc (s : State) (size : AccessSize) (a v : Word) : (s.storeValue size a v).pc = s.pc := by
  simp [State.storeValue]
@[simp] theorem State.storeValue_cpsr (s : State) (size : AccessSize) (a v : Word) : (s.storeValue size a v).cpsr = s.cpsr := by
  simp [State.storeValue]
@[simp] theorem State.storeValue_spsrs (s : State) (size : AccessSize) (a v : Word) : (s.storeValue size a v).spsrs = s.spsrs := by
  simp [State.storeValue]
@[simp] theorem State.storeValue_bigend (s : State) (size : AccessSize) (a v : Word) : (s.storeValue size a v).bigend = s.bigend := by
  simp [State.storeValue]
@[simp] theorem State.storeValue_aborts (s : State) (size : AccessSize) (a v : Word) : (s.storeValue size a v).aborts = s.aborts := by
  simp [State.storeValue]
@[simp] theorem State.storeValue_inputs (s : State) (size : AccessSize) (a v : Word) : (s.storeValue size a v).inputs = s.inputs := by
  simp [State.storeValue]
@[simp] theorem State.storeValue_memMap (s : State) (size : AccessSize) (a v : Word) : (s.storeValue size a v).memMap = s.memMap := by
  simp [State.storeValue]
@[simp] theorem State.storeValue_bankHazard (s : State) (size : AccessSize) (a v : Word) : (s.storeValue size a v).bankHazard = s.bankHazard := by
  simp [State.storeValue]
@[simp] theorem State.storeValue_draws (s : State) (size : AccessSize) (a v : Word) : (s.storeValue size a v).draws = s.draws := by
  simp [State.storeValue]

/-! ### A read of a device -/

@[simp] theorem State.afterRead_regs (s : State) (size : AccessSize) (a : Word) : (s.afterRead size a).regs = s.regs := by
  unfold State.afterRead; split <;> rfl
@[simp] theorem State.afterRead_pc (s : State) (size : AccessSize) (a : Word) : (s.afterRead size a).pc = s.pc := by
  unfold State.afterRead; split <;> rfl
@[simp] theorem State.afterRead_cpsr (s : State) (size : AccessSize) (a : Word) : (s.afterRead size a).cpsr = s.cpsr := by
  unfold State.afterRead; split <;> rfl
@[simp] theorem State.afterRead_spsrs (s : State) (size : AccessSize) (a : Word) : (s.afterRead size a).spsrs = s.spsrs := by
  unfold State.afterRead; split <;> rfl
@[simp] theorem State.afterRead_mem (s : State) (size : AccessSize) (a : Word) : (s.afterRead size a).mem = s.mem := by
  unfold State.afterRead; split <;> rfl
@[simp] theorem State.afterRead_bigend (s : State) (size : AccessSize) (a : Word) : (s.afterRead size a).bigend = s.bigend := by
  unfold State.afterRead; split <;> rfl
@[simp] theorem State.afterRead_aborts (s : State) (size : AccessSize) (a : Word) : (s.afterRead size a).aborts = s.aborts := by
  unfold State.afterRead; split <;> rfl
@[simp] theorem State.afterRead_inputs (s : State) (size : AccessSize) (a : Word) : (s.afterRead size a).inputs = s.inputs := by
  unfold State.afterRead; split <;> rfl
@[simp] theorem State.afterRead_memMap (s : State) (size : AccessSize) (a : Word) : (s.afterRead size a).memMap = s.memMap := by
  unfold State.afterRead; split <;> rfl
@[simp] theorem State.afterRead_prefetch (s : State) (size : AccessSize) (a : Word) : (s.afterRead size a).prefetch = s.prefetch := by
  unfold State.afterRead; split <;> rfl
@[simp] theorem State.afterRead_bankHazard (s : State) (size : AccessSize) (a : Word) : (s.afterRead size a).bankHazard = s.bankHazard := by
  unfold State.afterRead; split <;> rfl

/-! ### The reads of a block -/

@[simp] theorem State.afterBlock_regs (s : State) (n : Nat) (a : Word) : (s.afterBlock n a).regs = s.regs := by
  induction n generalizing a with
  | zero => rfl
  | succ n ih => unfold State.afterBlock; split <;> simp [ih]
@[simp] theorem State.afterBlock_pc (s : State) (n : Nat) (a : Word) : (s.afterBlock n a).pc = s.pc := by
  induction n generalizing a with
  | zero => rfl
  | succ n ih => unfold State.afterBlock; split <;> simp [ih]
@[simp] theorem State.afterBlock_cpsr (s : State) (n : Nat) (a : Word) : (s.afterBlock n a).cpsr = s.cpsr := by
  induction n generalizing a with
  | zero => rfl
  | succ n ih => unfold State.afterBlock; split <;> simp [ih]
@[simp] theorem State.afterBlock_spsrs (s : State) (n : Nat) (a : Word) : (s.afterBlock n a).spsrs = s.spsrs := by
  induction n generalizing a with
  | zero => rfl
  | succ n ih => unfold State.afterBlock; split <;> simp [ih]
@[simp] theorem State.afterBlock_mem (s : State) (n : Nat) (a : Word) : (s.afterBlock n a).mem = s.mem := by
  induction n generalizing a with
  | zero => rfl
  | succ n ih => unfold State.afterBlock; split <;> simp [ih]
@[simp] theorem State.afterBlock_bigend (s : State) (n : Nat) (a : Word) : (s.afterBlock n a).bigend = s.bigend := by
  induction n generalizing a with
  | zero => rfl
  | succ n ih => unfold State.afterBlock; split <;> simp [ih]
@[simp] theorem State.afterBlock_aborts (s : State) (n : Nat) (a : Word) : (s.afterBlock n a).aborts = s.aborts := by
  induction n generalizing a with
  | zero => rfl
  | succ n ih => unfold State.afterBlock; split <;> simp [ih]
@[simp] theorem State.afterBlock_inputs (s : State) (n : Nat) (a : Word) : (s.afterBlock n a).inputs = s.inputs := by
  induction n generalizing a with
  | zero => rfl
  | succ n ih => unfold State.afterBlock; split <;> simp [ih]
@[simp] theorem State.afterBlock_memMap (s : State) (n : Nat) (a : Word) : (s.afterBlock n a).memMap = s.memMap := by
  induction n generalizing a with
  | zero => rfl
  | succ n ih => unfold State.afterBlock; split <;> simp [ih]
@[simp] theorem State.afterBlock_prefetch (s : State) (n : Nat) (a : Word) : (s.afterBlock n a).prefetch = s.prefetch := by
  induction n generalizing a with
  | zero => rfl
  | succ n ih => unfold State.afterBlock; split <;> simp [ih]
@[simp] theorem State.afterBlock_bankHazard (s : State) (n : Nat) (a : Word) : (s.afterBlock n a).bankHazard = s.bankHazard := by
  induction n generalizing a with
  | zero => rfl
  | succ n ih => unfold State.afterBlock; split <;> simp [ih]

/-- A read changes the counter of free values at most. -/
theorem State.afterRead_eq (s : State) (size : AccessSize) (a : Word) : ∃ d, s.afterRead size a = { s with draws := d } := by
  unfold State.afterRead
  split
  · exact ⟨s.draws + 1, rfl⟩
  · exact ⟨s.draws, rfl⟩

/-- The reads of a block change the counter of free values at most. -/
theorem State.afterBlock_eq (s : State) (n : Nat) (a : Word) : ∃ d, s.afterBlock n a = { s with draws := d } := by
  induction n generalizing a with
  | zero => exact ⟨s.draws, rfl⟩
  | succ n ih =>
    unfold State.afterBlock
    split
    · exact ⟨s.draws + 1, rfl⟩
    · exact ih (a + 4)

/-! ### The base written back -/

@[simp] theorem State.writeBack_pc (s : State) (wb : Writeback) : (s.writeBack wb).pc = s.pc := by
  cases wb <;> simp [State.writeBack]
@[simp] theorem State.writeBack_cpsr (s : State) (wb : Writeback) : (s.writeBack wb).cpsr = s.cpsr := by
  cases wb <;> simp [State.writeBack]
@[simp] theorem State.writeBack_spsrs (s : State) (wb : Writeback) : (s.writeBack wb).spsrs = s.spsrs := by
  cases wb <;> simp [State.writeBack]
@[simp] theorem State.writeBack_mem (s : State) (wb : Writeback) : (s.writeBack wb).mem = s.mem := by
  cases wb <;> simp [State.writeBack]
@[simp] theorem State.writeBack_bigend (s : State) (wb : Writeback) : (s.writeBack wb).bigend = s.bigend := by
  cases wb <;> simp [State.writeBack]
@[simp] theorem State.writeBack_aborts (s : State) (wb : Writeback) : (s.writeBack wb).aborts = s.aborts := by
  cases wb <;> simp [State.writeBack]
@[simp] theorem State.writeBack_inputs (s : State) (wb : Writeback) : (s.writeBack wb).inputs = s.inputs := by
  cases wb <;> simp [State.writeBack]
@[simp] theorem State.writeBack_memMap (s : State) (wb : Writeback) : (s.writeBack wb).memMap = s.memMap := by
  cases wb <;> simp [State.writeBack]
@[simp] theorem State.writeBack_prefetch (s : State) (wb : Writeback) : (s.writeBack wb).prefetch = s.prefetch := by
  cases wb <;> simp [State.writeBack]
@[simp] theorem State.writeBack_bankHazard (s : State) (wb : Writeback) : (s.writeBack wb).bankHazard = s.bankHazard := by
  cases wb <;> simp [State.writeBack]
@[simp] theorem State.writeBack_draws (s : State) (wb : Writeback) : (s.writeBack wb).draws = s.draws := by
  cases wb <;> simp [State.writeBack]

/-! ### A result written or branched to -/

@[simp] theorem State.finish_cpsr (s : State) (rd : RegNo) (v : Word) : (s.finish rd v).cpsr = s.cpsr := by
  unfold State.finish; split <;> simp
@[simp] theorem State.finish_spsrs (s : State) (rd : RegNo) (v : Word) : (s.finish rd v).spsrs = s.spsrs := by
  unfold State.finish; split <;> simp
@[simp] theorem State.finish_mem (s : State) (rd : RegNo) (v : Word) : (s.finish rd v).mem = s.mem := by
  unfold State.finish; split <;> simp
@[simp] theorem State.finish_bigend (s : State) (rd : RegNo) (v : Word) : (s.finish rd v).bigend = s.bigend := by
  unfold State.finish; split <;> simp
@[simp] theorem State.finish_aborts (s : State) (rd : RegNo) (v : Word) : (s.finish rd v).aborts = s.aborts := by
  unfold State.finish; split <;> simp
@[simp] theorem State.finish_inputs (s : State) (rd : RegNo) (v : Word) : (s.finish rd v).inputs = s.inputs := by
  unfold State.finish; split <;> simp
@[simp] theorem State.finish_memMap (s : State) (rd : RegNo) (v : Word) : (s.finish rd v).memMap = s.memMap := by
  unfold State.finish; split <;> simp
@[simp] theorem State.finish_bankHazard (s : State) (rd : RegNo) (v : Word) : (s.finish rd v).bankHazard = s.bankHazard := by
  unfold State.finish; split <;> simp
@[simp] theorem State.finish_draws (s : State) (rd : RegNo) (v : Word) : (s.finish rd v).draws = s.draws := by
  unfold State.finish; split <;> simp

/-! ### Views of the state that an update does not reach -/

theorem State.width_congr {s t : State} (h : t.cpsr.t = s.cpsr.t) : t.width = s.width := by
  simp [State.width, h]

theorem State.byteAt_congr {s t : State} (h : t.mem = s.mem) (a : Word) : t.byteAt a = s.byteAt a := by
  simp [State.byteAt, h]

theorem State.wordAt_congr {s t : State} (h : t.mem = s.mem) (hb : t.bigend = s.bigend) (a : Word) : t.wordAt a = s.wordAt a := by
  simp [State.wordAt, State.byteAt, h, hb]

theorem State.halfAt_congr {s t : State} (h : t.mem = s.mem) (hb : t.bigend = s.bigend) (a : Word) : t.halfAt a = s.halfAt a := by
  simp [State.halfAt, State.byteAt, h, hb]

theorem State.aborted_congr {s t : State} (h : t.aborts = s.aborts) (k : AccessKind) (z : AccessSize) (p : Bool) (a : Word) :
    t.aborted k z p a = s.aborted k z p a := by
  simp [State.aborted, h]

theorem State.mapFault_congr {s t : State} (h : t.memMap = s.memMap) (z : AccessSize) (a : Word) : t.mapFault z a = s.mapFault z a := by
  simp [State.mapFault, State.mapKind, h]

theorem State.onDevice_congr {s t : State} (h : t.memMap = s.memMap) (z : AccessSize) (a : Word) : t.onDevice z a = s.onDevice z a := by
  simp [State.onDevice, State.mapKind, h]

theorem State.bankReg_congr {s t : State} (hr : t.regs = s.regs) (hp : t.pc = s.pc) (m : Mode) (a : Word) (i : RegNo) :
    t.bankReg m a i = s.bankReg m a i := by
  simp [State.bankReg, hr, hp]

end Sys2Proof.Machine
end

