-- ==== Sys2Proof/Laws/Registers.lean ====
section
/-!
SUPPORT. The register file: reads after writes, the banks, the SPSRs and the PSR formats.
-/

namespace Sys2Proof.Machine

/-! ### Physical registers -/

@[simp] theorem Regs.get_set_same (g : Regs) (r : PhysReg) (v : Word) : (g.set r v).get r = v := by
  cases r <;> rfl

theorem Regs.get_set_ne (g : Regs) {r q : PhysReg} (v : Word) (h : q ≠ r) : (g.set r v).get q = g.get q := by
  cases r <;> cases q <;> first | rfl | exact absurd rfl h

theorem Regs.get_set (g : Regs) (r q : PhysReg) (v : Word) : (g.set r v).get q = if q = r then v else g.get q := by
  split
  · next h => subst h; exact Regs.get_set_same ..
  · next h => exact Regs.get_set_ne g v h

theorem Regs.ext_get {g h : Regs} (e : ∀ r, g.get r = h.get r) : g = h := by
  cases g; cases h
  simp only [Regs.mk.injEq]
  exact ⟨e .r0, e .r1, e .r2, e .r3, e .r4, e .r5, e .r6, e .r7, e .r8, e .r9, e .r10, e .r11, e .r12, e .r13, e .r14,
    e .r8Fiq, e .r9Fiq, e .r10Fiq, e .r11Fiq, e .r12Fiq, e .r13Fiq, e .r14Fiq, e .r13Svc, e .r14Svc, e .r13Abt, e .r14Abt,
    e .r13Und, e .r14Und, e .r13Irq, e .r14Irq⟩

/-! ### Register numbers -/

theorem physReg_pc (m : Mode) : physReg m PC = none := by
  cases m <;> rfl

theorem physReg_eq_none (m : Mode) (i : RegNo) : physReg m i = none ↔ i = PC := by
  revert i; cases m <;> decide

theorem physReg_some {m : Mode} {i : RegNo} (h : i ≠ PC) : ∃ r, physReg m i = some r :=
  Option.ne_none_iff_exists'.mp (mt (physReg_eq_none m i).mp h)

theorem physReg_inj {m : Mode} {i j : RegNo} (hi : i ≠ PC) (h : physReg m i = physReg m j) : i = j := by
  revert i j; cases m <;> decide

theorem physReg_lr (m : Mode) : physReg m LR = some (linkReg m) := by
  cases m <;> rfl

theorem physReg_sp (m : Mode) : physReg m SP = some (stackReg m) := by
  cases m <;> rfl

theorem lo_ne_pc (r : LoReg) : lo r ≠ PC := by
  revert r; decide

theorem lo_inj {r q : LoReg} (h : lo r = lo q) : r = q := by
  revert r q; decide

/-! ### Reading and writing by number -/

/-- A register write reaches exactly the physical register the number names (R11, R23). -/
theorem State.get_setReg (s : State) (i : RegNo) (v : Word) (r : PhysReg) :
    (s.setReg i v).regs.get r = if physReg s.cpsr.mode i = some r then v else s.regs.get r := by
  unfold State.setReg
  split
  · next q h => simp [h, Regs.get_set, eq_comm]
  · next h => simp [h]

theorem State.setReg_pc_eq (s : State) (v : Word) : s.setReg PC v = s := by
  simp [State.setReg, physReg_pc]

@[simp] theorem State.bankReg_PC (s : State) (m : Mode) (a : Word) : s.bankReg m a PC = s.pc + a := by
  simp [State.bankReg, physReg_pc]

@[simp] theorem State.reg_PC (s : State) (a : Word) : s.reg a PC = s.pc + a :=
  s.bankReg_PC _ a

theorem State.bankReg_eq {s : State} {m : Mode} {i : RegNo} {r : PhysReg} (h : physReg m i = some r) (a : Word) :
    s.bankReg m a i = s.regs.get r := by
  simp [State.bankReg, h]

/-- How far ahead R15 reads matters for R15 only. -/
theorem State.reg_ahead (s : State) {i : RegNo} (h : i ≠ PC) (a b : Word) : s.reg a i = s.reg b i := by
  obtain ⟨r, hr⟩ := physReg_some (m := s.cpsr.mode) h
  simp [State.reg, State.bankReg, hr]

theorem State.bankReg_ahead (s : State) (m : Mode) {i : RegNo} (h : i ≠ PC) (a b : Word) : s.bankReg m a i = s.bankReg m b i := by
  obtain ⟨r, hr⟩ := physReg_some (m := m) h
  simp [State.bankReg, hr]

theorem State.reg_lo (s : State) (r : LoReg) (a : Word) : s.reg a (lo r) = s.reg 0 (lo r) :=
  s.reg_ahead (lo_ne_pc r) a 0

/-- The value a number reads as, R15 apart (R30). -/
theorem State.reg_ite (s : State) (i : RegNo) (a : Word) : s.reg a i = if i = PC then s.pc + a else s.reg 0 i := by
  split
  · next h => subst h; simp
  · next h => exact s.reg_ahead h a 0

theorem State.reg_setReg_same (s : State) {i : RegNo} (h : i ≠ PC) (a v : Word) : (s.setReg i v).reg a i = v := by
  obtain ⟨r, hr⟩ := physReg_some (m := s.cpsr.mode) h
  simp [State.reg, State.bankReg, State.get_setReg, hr]

theorem State.reg_setReg_ne (s : State) {i j : RegNo} (h : j ≠ i) (a v : Word) : (s.setReg i v).reg a j = s.reg a j := by
  by_cases hj : j = PC
  · subst hj; simp
  · obtain ⟨r, hr⟩ := physReg_some (m := s.cpsr.mode) hj
    have hne : physReg s.cpsr.mode i ≠ some r := fun e => h (physReg_inj hj (hr.trans e.symm))
    simp [State.reg, State.bankReg, State.get_setReg, hr, hne]

/-- Registers are read through the register file, the pc and the mode alone. -/
theorem State.reg_congr {s t : State} (hr : t.regs = s.regs) (hp : t.pc = s.pc) (hm : t.cpsr.mode = s.cpsr.mode) (a : Word)
    (i : RegNo) : t.reg a i = s.reg a i := by
  rw [State.reg, State.reg, hm, State.bankReg_congr hr hp]

/-- Below R15 even the pc does not matter. -/
theorem State.reg_congr_ne {s t : State} (hr : t.regs = s.regs) (hm : t.cpsr.mode = s.cpsr.mode) {i : RegNo} (h : i ≠ PC)
    (a b : Word) : t.reg a i = s.reg b i := by
  obtain ⟨r, h1⟩ := physReg_some (m := s.cpsr.mode) h
  simp [State.reg, State.bankReg, hm, h1, hr]

theorem State.reg_advance (s : State) {i : RegNo} (h : i ≠ PC) (a : Word) : s.advance.reg a i = s.reg a i :=
  State.reg_congr_ne (s := s) (t := s.advance) rfl rfl h a a

theorem State.reg_branch (s : State) (t : Word) {i : RegNo} (h : i ≠ PC) (a : Word) : (s.branch t).reg a i = s.reg a i :=
  State.reg_congr_ne (s := s) (t := s.branch t) rfl rfl h a a

/-! ### Modes and status registers -/

@[simp] theorem Mode.ofCode_code (m : Mode) : Mode.ofCode m.code = some m := by
  cases m <;> rfl

theorem Mode.code_of_ofCode {b : BitVec 5} {m : Mode} (h : Mode.ofCode b = some m) : b = m.code := by
  revert b; cases m <;> decide

@[simp] theorem Cpsr.toPsr_toCpsr (p : Cpsr) : p.toPsr.toCpsr = some p := by
  simp [Cpsr.toPsr, Psr.toCpsr]

@[simp] theorem Spsrs.get_set_same (g : Spsrs) (k : SpsrMode) (p : Psr) : (g.set k p).get k = p := by
  cases k <;> rfl

theorem Spsrs.get_set_ne (g : Spsrs) {k j : SpsrMode} (p : Psr) (h : j ≠ k) : (g.set k p).get j = g.get j := by
  cases k <;> cases j <;> first | rfl | exact absurd rfl h

@[simp] theorem SpsrMode.mode_spsr (k : SpsrMode) : k.mode.spsr = some k := by
  cases k <;> rfl

theorem Mode.spsr_eq_some {m : Mode} {k : SpsrMode} (h : m.spsr = some k) : m = k.mode := by
  revert h; cases m <;> cases k <;> decide

theorem Mode.spsr_eq_none (m : Mode) : m.spsr = none ↔ m = .usr ∨ m = .sys := by
  cases m <;> decide

theorem Mode.privileged_eq_false (m : Mode) : m.privileged = false ↔ m = .usr := by
  cases m <;> decide

/-! ### Frames -/

/-- A register named by its number in the frame keeps its value. -/
theorem State.KeepsRegs.reg {s t : State} {ws : List RegNo} (h : s.KeepsRegs t ws) (hm : t.cpsr.mode = s.cpsr.mode) {i : RegNo}
    (hi : i ≠ PC) (hw : i ∉ ws) (a b : Word) : t.reg a i = s.reg b i := by
  obtain ⟨r, hr⟩ := physReg_some (m := s.cpsr.mode) hi
  have : t.regs.get r = s.regs.get r := h r fun j hj e => hw (physReg_inj hi (hr.trans e.symm) ▸ hj)
  simp [State.reg, State.bankReg, hm, hr, this]

theorem State.KeepsBank.mono {s t : State} {m : Mode} {ws vs : List RegNo} (h : s.KeepsBank t m ws) (hs : ∀ i ∈ ws, i ∈ vs) :
    s.KeepsBank t m vs :=
  fun r hr => h r fun i hi => hr i (hs i hi)

theorem State.keepsRegs_setReg (s : State) (i : RegNo) (v : Word) : s.KeepsRegs (s.setReg i v) [i] := by
  intro r h
  rw [State.get_setReg, if_neg (h i (by simp))]

theorem State.keepsRegs_of_regs {s t : State} (h : t.regs = s.regs) (ws : List RegNo) : s.KeepsRegs t ws := by
  intro r _; rw [h]

theorem State.keepsMemory_of_mem {s t : State} (h : t.mem = s.mem) : s.KeepsMemory t :=
  fun b => State.byteAt_congr h b

end Sys2Proof.Machine
end

