-- ==== Sys2Proof/Laws/Memory.lean ====
section
/-!
SUPPORT. Memory: a read after a write, the canonical form, and the values that stores leave.
-/

namespace Sys2Proof.Machine

/-! ### One cell -/

theorem Memory.read_erase_same (m : List Host.Cell) (a : Nat) : Memory.read (Memory.erase a m) a = Memory.unlisted := by
  induction m with
  | nil => rfl
  | cons x rest ih =>
    obtain ⟨k, v⟩ := x
    by_cases h : k = a <;> simp [Memory.erase, Memory.read, h, ih]

theorem Memory.read_erase_ne (m : List Host.Cell) {a b : Nat} (h : b ≠ a) :
    Memory.read (Memory.erase a m) b = Memory.read m b := by
  induction m with
  | nil => rfl
  | cons x rest ih =>
    obtain ⟨k, v⟩ := x
    by_cases hk : k = a
    · have : k ≠ b := fun e => h (e.symm.trans hk)
      simp [Memory.erase, Memory.read, hk, ih, hk ▸ this]
    · simp [Memory.erase, Memory.read, hk, ih]

theorem Memory.read_insert_ne (m : List Host.Cell) {a b : Nat} (v : Byte) (h : b ≠ a) :
    Memory.read (Memory.insert a v m) b = Memory.read m b := by
  induction m with
  | nil => simp [Memory.insert, Memory.read, Ne.symm h]
  | cons x rest ih =>
    obtain ⟨k, w⟩ := x
    by_cases hk : a < k <;> simp [Memory.insert, Memory.read, hk, ih, Ne.symm h]

/-- A cell inserted where the address has none is read back. -/
theorem Memory.read_insert_same (m : List Host.Cell) (a : Nat) (v : Byte) (h : ∀ x ∈ m, x.1 ≠ a) :
    Memory.read (Memory.insert a v m) a = v := by
  induction m with
  | nil => simp [Memory.insert, Memory.read]
  | cons x rest ih =>
    obtain ⟨k, w⟩ := x
    have hk : k ≠ a := h _ (List.mem_cons_self ..)
    by_cases hlt : a < k <;> simp [Memory.insert, Memory.read, hlt, hk]
    exact ih fun y hy => h y (List.mem_cons_of_mem _ hy)

theorem Memory.erase_no_cell (m : List Host.Cell) (a : Nat) : ∀ x ∈ Memory.erase a m, x.1 ≠ a := by
  induction m with
  | nil => simp [Memory.erase]
  | cons x rest ih =>
    obtain ⟨k, v⟩ := x
    by_cases h : k = a
    · simpa [Memory.erase, h] using ih
    · simpa [Memory.erase, h] using ih

/-- A read after a write: the byte written at its address, the byte before elsewhere. -/
theorem Memory.read_write (m : List Host.Cell) (a b : Nat) (v : Byte) :
    Memory.read (Memory.write m a v) b = if b = a then v else Memory.read m b := by
  unfold Memory.write
  split
  · next hv =>
    split
    · next e => rw [e, Memory.read_erase_same, hv]
    · next e => rw [Memory.read_erase_ne m e]
  · split
    · next e => rw [e, Memory.read_insert_same _ _ _ (Memory.erase_no_cell m a)]
    · next e => rw [Memory.read_insert_ne _ _ e, Memory.read_erase_ne m e]

/-! ### The canonical form -/

theorem Memory.above_erase {m : List Host.Cell} {k : Nat} (h : Memory.above k m = true) (a : Nat) :
    Memory.above k (Memory.erase a m) = true := by
  induction m with
  | nil => rfl
  | cons x rest ih =>
    obtain ⟨j, v⟩ := x
    simp only [Memory.above, Bool.and_eq_true, decide_eq_true_eq] at h
    by_cases hj : j = a
    · simp [Memory.erase, hj, ih h.2]
    · simp [Memory.erase, hj, Memory.above, h.1, ih h.2]

theorem Memory.wf_erase {m : List Host.Cell} (h : Memory.wf m = true) (a : Nat) : Memory.wf (Memory.erase a m) = true := by
  induction m with
  | nil => rfl
  | cons x rest ih =>
    obtain ⟨k, v⟩ := x
    simp only [Memory.wf, Bool.and_eq_true] at h
    by_cases hk : k = a
    · simp [Memory.erase, hk, ih h.2]
    · simp only [Memory.erase, hk, if_false, Memory.wf, Bool.and_eq_true]
      exact ⟨⟨h.1.1, Memory.above_erase h.1.2 a⟩, ih h.2⟩

theorem Memory.above_insert {m : List Host.Cell} {k : Nat} (h : Memory.above k m = true) {a : Nat} (ha : k < a) (v : Byte) :
    Memory.above k (Memory.insert a v m) = true := by
  induction m with
  | nil => simp [Memory.insert, Memory.above, ha]
  | cons x rest ih =>
    obtain ⟨j, w⟩ := x
    simp only [Memory.above, Bool.and_eq_true, decide_eq_true_eq] at h
    by_cases hj : a < j <;> simp [Memory.insert, hj, Memory.above, ha, h.1, h.2, ih h.2]

theorem Memory.above_mono {m : List Host.Cell} {a k : Nat} (h : Memory.above k m = true) (ha : a < k) : Memory.above a m = true := by
  induction m with
  | nil => rfl
  | cons x rest ih =>
    simp only [Memory.above, Bool.and_eq_true, decide_eq_true_eq] at h ⊢
    exact ⟨by omega, ih h.2⟩

theorem Memory.wf_insert {m : List Host.Cell} (h : Memory.wf m = true) {a : Nat} (ha : a < 2 ^ 32) {v : Byte}
    (hv : v ≠ Memory.unlisted) (hm : ∀ x ∈ m, x.1 ≠ a) : Memory.wf (Memory.insert a v m) = true := by
  induction m with
  | nil => simp only [Memory.insert, Memory.wf, Memory.above]; simp [hv]; omega
  | cons x rest ih =>
    obtain ⟨k, w⟩ := x
    have hk : k ≠ a := hm _ (List.mem_cons_self ..)
    have hw := h
    simp only [Memory.wf, Bool.and_eq_true, decide_eq_true_eq, bne_iff_ne, ne_eq] at hw
    by_cases hlt : a < k
    · simp only [Memory.insert, hlt, if_true]
      rw [Memory.wf, Memory.above, Memory.above_mono hw.1.2 hlt, h]
      simp [hv, hlt]; omega
    · simp only [Memory.insert, hlt, if_false, Memory.wf, Bool.and_eq_true, decide_eq_true_eq, bne_iff_ne, ne_eq]
      exact ⟨⟨hw.1.1, Memory.above_insert hw.1.2 (by omega) v⟩, ih hw.2 fun y hy => hm y (List.mem_cons_of_mem _ hy)⟩

/-- A write keeps the canonical form. -/
theorem Memory.wf_write {m : List Host.Cell} (h : Memory.wf m = true) {a : Nat} (ha : a < 2 ^ 32) (v : Byte) :
    Memory.wf (Memory.write m a v) = true := by
  unfold Memory.write
  split
  · exact Memory.wf_erase h a
  · next hv => exact Memory.wf_insert (Memory.wf_erase h a) ha hv (Memory.erase_no_cell m a)

theorem Memory.reset_wf : Memory.wf State.reset.mem = true := rfl

theorem Memory.read_below {m : List Host.Cell} {k : Nat} (h : Memory.above k m = true) {a : Nat} (ha : a ≤ k) :
    Memory.read m a = Memory.unlisted := by
  induction m with
  | nil => rfl
  | cons x rest ih =>
    obtain ⟨j, v⟩ := x
    simp only [Memory.above, Bool.and_eq_true, decide_eq_true_eq] at h
    have : j ≠ a := by omega
    simp [Memory.read, this, ih h.2]

/-- Memories in canonical form that read alike are equal data. -/
theorem Memory.ext_read {m n : List Host.Cell} (hm : Memory.wf m = true) (hn : Memory.wf n = true)
    (h : ∀ a, Memory.read m a = Memory.read n a) : m = n := by
  induction m generalizing n with
  | nil =>
    cases n with
    | nil => rfl
    | cons y ys =>
      obtain ⟨k, v⟩ := y
      simp only [Memory.wf, Bool.and_eq_true, decide_eq_true_eq, bne_iff_ne, ne_eq] at hn
      exact absurd ((h k).trans (by simp [Memory.read])).symm hn.1.1.2
  | cons x xs ih =>
    obtain ⟨j, u⟩ := x
    simp only [Memory.wf, Bool.and_eq_true, decide_eq_true_eq, bne_iff_ne, ne_eq] at hm
    cases n with
    | nil => exact absurd (by simpa [Memory.read] using h j) hm.1.1.2
    | cons y ys =>
      obtain ⟨k, v⟩ := y
      simp only [Memory.wf, Bool.and_eq_true, decide_eq_true_eq, bne_iff_ne, ne_eq] at hn
      have hjk : j = k := by
        rcases lt_trichotomy j k with hlt | he | hlt
        · have h1 := h j
          simp only [Memory.read, if_true, if_neg (show ¬k = j by omega)] at h1
          exact absurd (h1.trans (Memory.read_below hn.1.2 (by omega))) hm.1.1.2
        · exact he
        · have h1 := h k
          simp only [Memory.read, if_true, if_neg (show ¬j = k by omega)] at h1
          exact absurd (h1.symm.trans (Memory.read_below hm.1.2 (by omega))) hn.1.1.2
      subst hjk
      have huv : u = v := by simpa [Memory.read] using h j
      subst huv
      have : xs = ys := ih hm.2 hn.2 fun a => by
        by_cases ha : a = j
        · rw [ha, Memory.read_below hm.1.2 le_rfl, Memory.read_below hn.1.2 le_rfl]
        · simpa [Memory.read, Ne.symm ha] using h a
      rw [this]

/-! ### Bytes of the state -/

theorem State.byteAt_putByte (s : State) (a b : Word) (v : Byte) :
    (s.putByte a v).byteAt b = if b = a then v else s.byteAt b := by
  simp [State.byteAt, Memory.read_write, BitVec.toNat_inj]

theorem State.wf_putBytes {s : State} (h : Memory.wf s.mem = true) (a : Word) (bs : List Byte) :
    Memory.wf (s.putBytes a bs).mem = true := by
  induction bs generalizing s a with
  | nil => exact h
  | cons b bs ih => exact ih (s := s.putByte a b) (Memory.wf_write h a.isLt b) (a + 1)

theorem State.wf_storeValue {s : State} (h : Memory.wf s.mem = true) (size : AccessSize) (a v : Word) :
    Memory.wf (s.storeValue size a v).mem = true := by
  unfold State.storeValue
  dsimp only
  split
  · exact h
  · exact State.wf_putBytes h _ _

/-- A store to a device changes no memory (log entry 5). -/
theorem State.mem_storeValue_device {s : State} {size : AccessSize} {a : Word} (h : s.onDevice size (size.align a) = true) (v : Word) :
    (s.storeValue size a v).mem = s.mem := by
  simp [State.storeValue, h]

/-- A store to memory puts its bytes (R75). -/
theorem State.storeValue_memory {s : State} {size : AccessSize} {a : Word} (h : s.onDevice size (size.align a) = false) (v : Word) :
    s.storeValue size a v = s.putBytes (size.align a) (storedBytes s.bigend size v) := by
  unfold State.storeValue
  rw [h]
  rfl

/-- Bytes outside the stored ones read as before. -/
theorem State.byteAt_putBytes_ne (s : State) (a : Word) (bs : List Byte) (b : Word) (hlen : bs.length ≤ 2 ^ 32)
    (h : bs.length ≤ (b - a).toNat) : (s.putBytes a bs).byteAt b = s.byteAt b := by
  induction bs generalizing s a with
  | nil => rfl
  | cons x xs ih =>
    simp only [List.length_cons] at h hlen
    rw [State.putBytes, ih (s.putByte a x) (a + 1) (by omega) (by bv_omega), State.byteAt_putByte, if_neg]
    rintro rfl
    simp at h

/-- The k-th stored byte is read back. -/
theorem State.byteAt_putBytes (s : State) (a : Word) (bs : List Byte) (k : Nat) (hlen : bs.length ≤ 2 ^ 32) (h : k < bs.length) :
    (s.putBytes a bs).byteAt (a + BitVec.ofNat 32 k) = bs[k] := by
  induction bs generalizing s a k with
  | nil => simp at h
  | cons x xs ih =>
    simp only [List.length_cons] at h hlen
    cases k with
    | zero =>
      rw [State.putBytes]
      simp only [BitVec.add_zero, List.getElem_cons_zero]
      rw [State.byteAt_putBytes_ne _ _ _ _ (by omega) (by bv_omega), State.byteAt_putByte, if_pos rfl]
    | succ k =>
      rw [State.putBytes, List.getElem_cons_succ, ← ih (s.putByte a x) (a + 1) k (by omega) (by omega)]
      congr 1
      rw [BitVec.add_assoc]
      congr 1
      exact BitVec.eq_of_toNat_eq (by simp [BitVec.toNat_add, Nat.add_comm])

/-! ### Values of the state -/

theorem joinHalf_split {big : Bool} {h : Half} {b0 b1 : Byte} (e : splitHalf big h = [b0, b1]) : joinHalf big b0 b1 = h := by
  have key : cat 16 (h.extractLsb' 8 8) (h.extractLsb' 0 8) = h := by
    ext i hi
    by_cases h1 : i < 8
    · simp [getElem_cat, h1, BitVec.getLsbD_eq_getElem hi]
    · simp [getElem_cat, h1, show 8 + (i - 8) = i by omega, BitVec.getLsbD_eq_getElem hi]
  cases big <;> simp [splitHalf] at e <;> obtain ⟨rfl, rfl⟩ := e <;> simpa [joinHalf] using key

theorem joinWord_split {big : Bool} {w : Word} {b0 b1 b2 b3 : Byte} (e : splitWord big w = [b0, b1, b2, b3]) :
    joinWord big b0 b1 b2 b3 = w := by
  have key : cat 32 (w.extractLsb' 24 8) (cat 24 (w.extractLsb' 16 8) (cat 16 (w.extractLsb' 8 8) (w.extractLsb' 0 8))) = w := by
    ext i hi
    by_cases h1 : i < 8
    · simp [getElem_cat, h1, show i < 24 by omega, show i < 16 by omega, BitVec.getLsbD_eq_getElem hi]
    · by_cases h2 : i < 16
      · simp [getElem_cat, h1, h2, show i < 24 by omega, show 8 + (i - 8) = i by omega, BitVec.getLsbD_eq_getElem hi]
      · by_cases h3 : i < 24
        · simp [getElem_cat, h2, h3, show 16 + (i - 16) = i by omega, BitVec.getLsbD_eq_getElem hi]
        · simp [getElem_cat, h3, show 24 + (i - 24) = i by omega, BitVec.getLsbD_eq_getElem hi]
  cases big <;> simp [splitWord] at e <;> obtain ⟨rfl, rfl, rfl, rfl⟩ := e <;> simpa [joinWord] using key

/-- A byte of a word, by its place in memory (R72, R73). -/
theorem joinWord_byte (big : Bool) (b0 b1 b2 b3 : Byte) (k : Nat) (hk : k < 4) :
    (joinWord big b0 b1 b2 b3).extractLsb' (if big then 24 - 8 * k else 8 * k) 8 = [b0, b1, b2, b3][k] := by
  have top : ∀ (x y z u : Byte), (cat 32 x (cat 24 y (cat 16 z u))).extractLsb' 24 8 = x := fun x y z u => by
    rw [extract_cat_high _ _ _ _ (by omega) (by omega), extract_all]
  have second : ∀ (x y z u : Byte), (cat 32 x (cat 24 y (cat 16 z u))).extractLsb' 16 8 = y := fun x y z u => by
    rw [extract_cat_low _ _ _ _ (by omega) (by omega), extract_cat_high _ _ _ _ (by omega) (by omega), extract_all]
  have third : ∀ (x y z u : Byte), (cat 32 x (cat 24 y (cat 16 z u))).extractLsb' 8 8 = z := fun x y z u => by
    rw [extract_cat_low _ _ _ _ (by omega) (by omega), extract_cat_low _ _ _ _ (by omega) (by omega),
      extract_cat_high _ _ _ _ (by omega) (by omega), extract_all]
  have low : ∀ (x y z u : Byte), (cat 32 x (cat 24 y (cat 16 z u))).extractLsb' 0 8 = u := fun x y z u => by
    rw [extract_cat_low _ _ _ _ (by omega) (by omega), extract_cat_low _ _ _ _ (by omega) (by omega),
      extract_cat_low _ _ _ _ (by omega) (by omega), extract_all]
  obtain rfl | rfl | rfl | rfl : k = 0 ∨ k = 1 ∨ k = 2 ∨ k = 3 := by omega
  all_goals cases big <;> simp [joinWord, top, second, third, low]

/-- A byte of a halfword, by its place in memory (R72, R73). -/
theorem joinHalf_byte (big : Bool) (b0 b1 : Byte) (k : Nat) (hk : k < 2) :
    (joinHalf big b0 b1).extractLsb' (if big then 8 - 8 * k else 8 * k) 8 = [b0, b1][k] := by
  have high : ∀ x y : Byte, (cat 16 x y).extractLsb' 8 8 = x := fun x y => by
    rw [extract_cat_high _ _ _ _ (by omega) (by omega), extract_all]
  have low : ∀ x y : Byte, (cat 16 x y).extractLsb' 0 8 = y := fun x y => by
    rw [extract_cat_low _ _ _ _ (by omega) (by omega), extract_all]
  obtain rfl | rfl : k = 0 ∨ k = 1 := by omega
  all_goals cases big <;> simp [joinHalf, high, low]

/-- A halfword of a word, by its place in memory (R72, R73). -/
theorem joinWord_half (big : Bool) (b0 b1 b2 b3 : Byte) (k : Nat) (hk : k < 2) :
    (joinWord big b0 b1 b2 b3).extractLsb' (if big then 16 - 16 * k else 16 * k) 16 =
      [joinHalf big b0 b1, joinHalf big b2 b3][k] := by
  have high : ∀ x y z u : Byte, (cat 32 x (cat 24 y (cat 16 z u))).extractLsb' 16 16 = cat 16 x y := fun x y z u => by
    ext i hi
    simp only [BitVec.getElem_extractLsb', BitVec.getLsbD_eq_getElem (show 16 + i < 32 by omega), getElem_cat]
    by_cases h : i < 8 <;> simp [h, show 16 + i < 24 ↔ i < 8 by omega, show 16 + i - 24 = i - 8 by omega]
  have low : ∀ x y z u : Byte, (cat 32 x (cat 24 y (cat 16 z u))).extractLsb' 0 16 = cat 16 z u := fun x y z u => by
    rw [extract_cat_low _ _ _ _ (by omega) (by omega), extract_cat_low _ _ _ _ (by omega) (by omega), extract_all]
  obtain rfl | rfl : k = 0 ∨ k = 1 := by omega
  all_goals cases big <;> simp [joinWord, joinHalf, high, low]

@[simp] theorem splitHalf_length (big : Bool) (h : Half) : (splitHalf big h).length = 2 := by
  cases big <;> rfl

@[simp] theorem splitWord_length (big : Bool) (w : Word) : (splitWord big w).length = 4 := by
  cases big <;> rfl

@[simp] theorem storedBytes_length (big : Bool) (size : AccessSize) (v : Word) : (storedBytes big size v).length = size.bytes := by
  cases size <;> simp [storedBytes, AccessSize.bytes]

theorem AccessSize.bytes_le (size : AccessSize) : size.bytes ≤ 4 := by
  cases size <;> decide

/-- A store leaves every byte outside its own as it was (R75). -/
theorem State.byteAt_storeValue_ne (s : State) (size : AccessSize) (a v b : Word) (h : size.bytes ≤ (b - size.align a).toNat) :
    (s.storeValue size a v).byteAt b = s.byteAt b := by
  cases hd : s.onDevice size (size.align a)
  · rw [State.storeValue_memory hd]
    exact State.byteAt_putBytes_ne _ _ _ _ (by have := size.bytes_le; simp; omega) (by simpa using h)
  · exact State.byteAt_congr (State.mem_storeValue_device hd v) b

theorem State.keepsMemoryOutside_storeValue (s : State) (size : AccessSize) (a v : Word) :
    s.KeepsMemoryOutside (s.storeValue size a v) (size.align a) size.bytes :=
  fun b h => s.byteAt_storeValue_ne size a v b h

/-- A read that no device answers gives the contents of memory (R74). -/
theorem State.readWord_reads (s : State) (a : Word) : s.Reads .word a (s.wordAt a) (s.readWord a) :=
  fun h => by simp [State.readWord, h]

theorem State.readHalf_reads (s : State) (a : Word) : s.Reads .half a (s.halfAt a) (s.readHalf a) :=
  fun h => by simp [State.readHalf, h]

theorem State.readByte_reads (s : State) (a : Word) : s.Reads .byte a (s.byteAt a) (s.readByte a) :=
  fun h => by simp [State.readByte, h]

/-- Where nothing but memory is, nothing answers for it and nothing is missing. -/
theorem State.mapKind_none {s : State} {size : AccessSize} {a : Word} (h : s.mapKind size a = none) :
    s.onDevice size a = false ∧ s.mapFault size a = none := by
  simp [State.onDevice, State.mapFault, h]

/-- A stored word is read back, but from a device (R75). -/
theorem State.wordAt_storeValue (s : State) (a v : Word) :
    (s.storeValue .word a v).wordAt (wordAligned a) = if s.onDevice .word (wordAligned a) then s.wordAt (wordAligned a) else v := by
  split
  · next hd => exact State.wordAt_congr (State.mem_storeValue_device (size := .word) hd v) (by simp) _
  next hd =>
  have hd := eq_false_of_ne_true hd
  have h : ∀ (bs : List Byte) (hl : bs.length = 4), (s.putBytes (wordAligned a) bs).wordAt (wordAligned a) =
      joinWord s.bigend bs[0] bs[1] bs[2] bs[3] := fun bs hl => by
    have b := fun k hk => State.byteAt_putBytes s (wordAligned a) bs k (by omega) hk
    have b0 := b 0 (by omega)
    rw [BitVec.add_zero] at b0
    simp only [State.wordAt, State.putBytes_bigend, b0, ← b 1 (by omega), ← b 2 (by omega), ← b 3 (by omega)]
    rfl
  rw [State.storeValue_memory (size := .word) hd, AccessSize.align, storedBytes, h _ (splitWord_length ..)]
  apply joinWord_split
  cases s.bigend <;> rfl

/-- A stored halfword is read back, but from a device (R75). -/
theorem State.halfAt_storeValue (s : State) (a v : Word) :
    (s.storeValue .half a v).halfAt (halfAligned a) =
      if s.onDevice .half (halfAligned a) then s.halfAt (halfAligned a) else v.setWidth 16 := by
  split
  · next hd => exact State.halfAt_congr (State.mem_storeValue_device (size := .half) hd v) (by simp) _
  next hd =>
  have hd := eq_false_of_ne_true hd
  have h : ∀ (bs : List Byte) (hl : bs.length = 2), (s.putBytes (halfAligned a) bs).halfAt (halfAligned a) =
      joinHalf s.bigend bs[0] bs[1] := fun bs hl => by
    have b := fun k hk => State.byteAt_putBytes s (halfAligned a) bs k (by omega) hk
    have b0 := b 0 (by omega)
    rw [BitVec.add_zero] at b0
    simp only [State.halfAt, State.putBytes_bigend, b0, ← b 1 (by omega)]
    rfl
  rw [State.storeValue_memory (size := .half) hd, AccessSize.align, storedBytes, h _ (splitHalf_length ..), joinHalf_split (h := v.extractLsb' 0 16)]
  · ext i hi; simp
  · cases s.bigend <;> rfl

/-- A stored byte is read back, but from a device (R75). -/
theorem State.byteAt_storeValue (s : State) (a v : Word) :
    (s.storeValue .byte a v).byteAt a = if s.onDevice .byte a then s.byteAt a else v.setWidth 8 := by
  split
  · next hd => exact State.byteAt_congr (State.mem_storeValue_device (size := .byte) hd v) _
  next hd =>
  have hd := eq_false_of_ne_true hd
  rw [State.storeValue_memory (size := .byte) hd, AccessSize.align, storedBytes, State.putBytes, State.putBytes, State.byteAt_putByte, if_pos rfl]
  ext i hi; simp

/-! ### Aligned addresses -/

theorem wordMask_bit : ∀ j : Fin 32, 2 ≤ j.val → (0xFFFFFFFC#32).getLsbD j.val = true := by
  decide

theorem halfMask_bit : ∀ j : Fin 32, 1 ≤ j.val → (0xFFFFFFFE#32).getLsbD j.val = true := by
  decide

theorem wordAligned_toNat (a : Word) : (wordAligned a).toNat = a.toNat / 4 * 4 := by
  have h : wordAligned a = (a >>> 2) <<< 2 := by
    ext i hi
    simp only [wordAligned, BitVec.getElem_and, BitVec.getElem_shiftLeft, BitVec.getElem_ushiftRight]
    by_cases h2 : i < 2
    · interval_cases i <;> simp
    · have e : (0xFFFFFFFC#32)[i] = true := by
        rw [← BitVec.getLsbD_eq_getElem hi]
        exact wordMask_bit ⟨i, hi⟩ (Nat.le_of_not_lt h2)
      simp [h2, e, show 2 + (i - 2) = i by omega, BitVec.getLsbD_eq_getElem hi]
  rw [h, BitVec.toNat_shiftLeft, BitVec.toNat_ushiftRight, Nat.shiftLeft_eq, Nat.shiftRight_eq_div_pow,
    Nat.mod_eq_of_lt (by have := a.isLt; omega)]

theorem halfAligned_toNat (a : Word) : (halfAligned a).toNat = a.toNat / 2 * 2 := by
  have h : halfAligned a = (a >>> 1) <<< 1 := by
    ext i hi
    simp only [halfAligned, BitVec.getElem_and, BitVec.getElem_shiftLeft, BitVec.getElem_ushiftRight]
    by_cases h2 : i < 1
    · interval_cases i; simp
    · have e : (0xFFFFFFFE#32)[i] = true := by
        rw [← BitVec.getLsbD_eq_getElem hi]
        exact halfMask_bit ⟨i, hi⟩ (Nat.le_of_not_lt h2)
      simp [h2, e, show 1 + (i - 1) = i by omega, BitVec.getLsbD_eq_getElem hi]
  rw [h, BitVec.toNat_shiftLeft, BitVec.toNat_ushiftRight, Nat.shiftLeft_eq, Nat.shiftRight_eq_div_pow,
    Nat.mod_eq_of_lt (by have := a.isLt; omega)]

@[simp] theorem wordAligned_wordAligned (a : Word) : wordAligned (wordAligned a) = wordAligned a := by
  simp [wordAligned, BitVec.and_assoc]

@[simp] theorem halfAligned_halfAligned (a : Word) : halfAligned (halfAligned a) = halfAligned a := by
  simp [halfAligned, BitVec.and_assoc]

/-- An even address is its own halfword address. -/
theorem halfAligned_even {a : Word} (h : a[0] = false) : halfAligned a = a := by
  apply BitVec.eq_of_toNat_eq
  have : a.toNat % 2 = 0 := by
    have := BitVec.getLsbD_eq_getElem (x := a) (i := 0) (by omega)
    rw [h, BitVec.getLsbD, Nat.testBit_zero] at this
    simpa using this
  rw [halfAligned_toNat]; omega

@[simp] theorem alignPc_alignPc (t : Bool) (a : Word) : alignPc t (alignPc t a) = alignPc t a := by
  cases t <;> simp [alignPc, BitVec.and_assoc]

theorem alignPc_arm (a : Word) : alignPc false a = wordAligned a := rfl

theorem alignPc_thumb (a : Word) : alignPc true a = halfAligned a := rfl

end Sys2Proof.Machine
end

