-- ==== Sys2Proof/Laws/Operations.lean ====
section
/-!
SUPPORT. What each shared operation can do, said once: results, single transfers, swaps, status writes, exception entry and return.
-/

namespace Sys2Proof.Machine

theorem State.keepsSystem_refl (s : State) : s.KeepsSystem s :=
  ⟨rfl, ⟨rfl, rfl, rfl, rfl⟩, rfl⟩

/-! ### Results -/

/-- `finish` in a state that differs from `s` in the CPSR and the counter alone. -/
theorem State.finish_resultIn {s u : State} (rd : RegNo) (v : Word) (hr : u.regs = s.regs) (hp : u.pc = s.pc) (hm : u.mem = s.mem)
    (hmode : u.cpsr.mode = s.cpsr.mode) (ht : u.cpsr.t = s.cpsr.t) (hs : s.KeepsSystem u) :
    s.ResultIn (u.finish rd v) rd v u.cpsr := by
  obtain ⟨h1, ⟨h2, h3, h4, h6⟩, h5⟩ := hs
  refine ⟨⟨fun hne => ?_, fun he => ?_⟩, by simp, ?_, State.keepsMemory_of_mem (by simp [hm]), by simp [h1], ⟨by simp [h2], by simp [h3], by simp [h4], by simp [h6]⟩,
    by simp [h5]⟩
  · simp only [State.finish, hne, if_false]
    refine ⟨by simp [hp, State.width_congr (s := s) (t := u.setReg rd v) (by simp [ht])], ?_⟩
    rw [State.reg_advance _ hne, State.reg_setReg_same _ hne]
  · simp [State.finish, he, ht]
  · intro r h
    by_cases he : rd = PC
    · simp [State.finish, he, hr]
    · simp only [State.finish, he, if_false, State.advance_regs, State.get_setReg, hmode, hr]
      rw [if_neg (h rd (by simp))]

/-- `advance` in a state that differs from `s` in the CPSR and the counter alone. -/
theorem State.advance_flagsOnly {s u : State} (hr : u.regs = s.regs) (hp : u.pc = s.pc) (hm : u.mem = s.mem)
    (ht : u.cpsr.t = s.cpsr.t) (hs : s.KeepsSystem u) : s.FlagsOnly u.advance u.cpsr := by
  obtain ⟨h1, ⟨h2, h3, h4, h6⟩, h5⟩ := hs
  refine ⟨?_, by simp, State.keepsRegs_of_regs (by simp [hr]) _, State.keepsMemory_of_mem (by simp [hm]), by simp [h1],
    ⟨by simp [h2], by simp [h3], by simp [h4], by simp [h6]⟩, by simp [h5]⟩
  simp [hp, State.width_congr ht]

theorem State.advance_onlyAdvances (s : State) : s.OnlyAdvances s.advance :=
  ⟨rfl, rfl, State.keepsRegs_of_regs rfl _, State.keepsMemory_of_mem rfl, s.keepsSystem_refl⟩

/-! ### Exceptions -/

/-- Exception entry (R490). -/
theorem State.takeException_enters (s : State) (e : Exc) :
    s.Enters (s.takeException e) e.spsrMode.mode e.vector (e.link s.cpsr.t s.pc) (s.cpsr.f || e.setsF) := by
  refine ⟨rfl, rfl, by simp, fun r h => by simp [Regs.get_set, h], ⟨e.spsrMode, by simp, by simp, fun j h => ?_⟩, rfl, rfl, rfl, rfl⟩
  simp [Spsrs.get_set_ne _ _ h]

theorem State.takeException_keepsMemory (s : State) (e : Exc) : s.KeepsMemory (s.takeException e) :=
  State.keepsMemory_of_mem rfl

/-- Exception return (R510): a branch with the SPSR as CPSR, or a refusal. -/
theorem State.exceptionReturn_cases {s : State} {v : Word} {r : Result} (h : s.exceptionReturn v = r) :
    (s.spsr = none ∧ r = .refused .noSpsr) ∨ (∃ p, s.spsr = some p ∧ p.toCpsr = none ∧ r = .refused .illegalMode)
    ∨ ∃ p k, s.spsr = some p ∧ p.toCpsr = some k ∧ r = .next ({ s with cpsr := k }.branch v) := by
  unfold State.exceptionReturn at h
  split at h
  · next e => exact .inl ⟨e, h.symm⟩
  · next p e =>
    split at h
    · next e2 => exact .inr (.inl ⟨p, e, e2, h.symm⟩)
    · next k e2 => exact .inr (.inr ⟨p, k, e, e2, h.symm⟩)

theorem State.exceptionReturn_some {s : State} {p : Psr} {k : Cpsr} (hp : s.spsr = some p) (hk : p.toCpsr = some k) (v : Word) :
    s.exceptionReturn v = .next ({ s with cpsr := k }.branch v) := by
  simp [State.exceptionReturn, hp, hk]

/-- BX (R162, R164): a branch with bit 0 as T, or a refusal. -/
theorem State.exchange_cases {s : State} {v : Word} {r : Result} (h : s.exchange v = r) :
    (v[0] = false ∧ v[1] = true ∧ r = .refused .bxTargetMisaligned)
    ∨ ((v[0] = true ∨ v[1] = false) ∧ r = .next ({ s with cpsr := { s.cpsr with t := v[0] } }.branch v)) := by
  unfold State.exchange at h
  by_cases h0 : v[0] = true
  · simp only [h0, if_true] at h
    exact .inr ⟨.inl h0, by rw [← h, h0]⟩
  · simp only [h0, if_false, Bool.false_eq_true] at h
    by_cases h1 : v[1] = true
    · simp only [h1, if_true] at h
      exact .inl ⟨by simpa using h0, h1, h.symm⟩
    · simp only [h1, if_false, Bool.false_eq_true] at h
      exact .inr ⟨.inr (by simpa using h1), by rw [← h]; simp [show v[0] = false by simpa using h0]⟩

/-! ### Single transfers -/

/-- The write-back that a flag asks for. -/
def writebackIf (wb : Bool) (rn : RegNo) (m : Word) : Writeback :=
  if wb then some (rn, m) else none

theorem transferWriteback_eq (p u w : Bool) (rn : RegNo) (base offset : Word) :
    transferWriteback p u w rn base offset = writebackIf (!p || w) rn (modifiedBase u base offset) := rfl

theorem writeBack_writebackIf (s : State) (wb : Bool) (rn : RegNo) (m : Word) :
    s.writeBack (writebackIf wb rn m) = if wb then s.setReg rn m else s := by
  cases wb <;> rfl

/-- The base written back, then Rd loaded. -/
theorem State.finish_loaded (s : State) (rd rn : RegNo) (v m : Word) (wb : Bool) (h : wb = true → rn ≠ PC ∧ rd ≠ rn) :
    s.Loaded ((s.writeBack (writebackIf wb rn m)).finish rd v) rd v wb rn m := by
  refine ⟨⟨fun hpc => ?_, fun he => ?_⟩, fun hwb => ?_, by simp, ?_, State.keepsMemory_of_mem (by simp), by simp,
    ⟨by simp, by simp, by simp, by simp⟩, by simp⟩
  · simp only [State.finish, hpc, if_false]
    refine ⟨by simp [State.width], ?_⟩
    rw [State.reg_advance _ hpc, State.reg_setReg_same _ hpc]
  · simp [State.finish, he]
  · obtain ⟨hn, hne⟩ := h hwb
    rw [writeBack_writebackIf, if_pos hwb, State.finish]
    split
    · rw [State.reg_branch _ _ hn, State.reg_setReg_same _ hn]
    · rw [State.reg_advance _ hn, State.reg_setReg_ne _ (Ne.symm hne), State.reg_setReg_same _ hn]
  · intro r hr
    rw [writeBack_writebackIf, State.finish]
    cases wb <;> simp at hr <;> split <;> simp [State.get_setReg, hr]

/-- The same after a read, which draws at most a free value. -/
theorem State.afterRead_loaded (s : State) (size : AccessSize) (a : Word) (rd rn : RegNo) (v m : Word) (wb : Bool)
    (h : wb = true → rn ≠ PC ∧ rd ≠ rn) :
    s.Loaded (((s.afterRead size a).writeBack (writebackIf wb rn m)).finish rd v) rd v wb rn m := by
  unfold State.afterRead
  split
  · exact s.drawn.finish_loaded rd rn v m wb h
  · exact s.finish_loaded rd rn v m wb h

/-- A load whose access is accepted (R273, R285). -/
theorem State.loadSingle_loaded {s : State} {k : LoadKind} {privileged : Bool} {a : Word} {wb : Bool} {rn rd : RegNo} {m : Word}
    (ha : s.accepts .read k.size privileged (k.size.align a)) (h : wb = true → rn ≠ PC ∧ rd ≠ rn) :
    ∃ t, s.loadSingle k privileged a (writebackIf wb rn m) rd = .next t ∧ s.Loaded t rd (s.loadValue k a) wb rn m :=
  ⟨_, by simp only [State.loadSingle, State.loadAborts, ha.1, ha.2, Bool.false_eq_true, if_false], s.afterRead_loaded k.size (k.size.align a) rd rn _ m wb h⟩

/-- A load to whose access nothing answers (R74, U30). -/
theorem State.loadSingle_misses {s : State} {k : LoadKind} {privileged : Bool} {a : Word} {f : Fault}
    (ha : s.misses .read k.size privileged (k.size.align a) f) (wb : Writeback) (rd : RegNo) :
    s.loadSingle k privileged a wb rd = .fault f := by
  simp [State.loadSingle, State.loadAborts, ha.1, ha.2]

/-- A refused load (R285). -/
theorem State.loadSingle_abort {s : State} {k : LoadKind} {privileged : Bool} {a : Word} {wb : Bool} {rn rd : RegNo} {m : Word}
    (ha : s.loadAborts k privileged a = true) :
    ∃ t, s.loadSingle k privileged a (writebackIf wb rn m) rd = .next t
      ∧ (if wb then s.setReg rn m else s).Enters t .abt 0x10 (s.pc + 8) s.cpsr.f ∧ s.KeepsMemory t := by
  refine ⟨(s.writeBack (writebackIf wb rn m)).takeException .dataAbort, by simp [State.loadSingle, ha], ?_,
    State.keepsMemory_of_mem (by simp)⟩
  have h := State.takeException_enters (if wb then s.setReg rn m else s) .dataAbort
  rw [writeBack_writebackIf]
  cases wb <;> simpa [Exc.spsrMode, SpsrMode.mode, Exc.vector, Exc.link, Exc.setsF] using h

/-- A store, then the base written back. -/
theorem State.advance_stored (s : State) (size : AccessSize) (a v : Word) (rn : RegNo) (m : Word) (wb : Bool)
    (hrn : wb = true → rn ≠ PC) :
    s.Stored (((s.storeValue size a v).writeBack (writebackIf wb rn m)).advance) (size.align a) size.bytes wb rn m := by
  refine ⟨by simp [State.width], fun hwb => ?_, by simp, ?_, ?_, by simp, ⟨by simp, by simp, by simp, by simp⟩, by simp⟩
  · have hn := hrn hwb
    rw [writeBack_writebackIf, if_pos hwb, State.reg_advance _ hn, State.reg_setReg_same _ hn]
  · intro r h
    rw [writeBack_writebackIf]
    cases wb <;> simp at h <;> simp [State.get_setReg, h]
  · intro b hb
    rw [State.byteAt_congr (s := s.storeValue size a v) (by simp), State.byteAt_storeValue_ne _ _ _ _ _ hb]

/-- A store whose access is accepted (R275, R285): what it stores is in memory, the rest is `Stored`. -/
theorem State.storeSingle_stored {s : State} {size : AccessSize} {privileged : Bool} {ahead a : Word} {wb : Bool} {rn rd : RegNo} {m : Word}
    (ha : s.accepts .write size privileged (size.align a)) (hrn : wb = true → rn ≠ PC) :
    ∃ t, s.storeSingle size privileged ahead a (writebackIf wb rn m) rd = .next t ∧ s.Stored t (size.align a) size.bytes wb rn m
      ∧ t.mem = (s.storeValue size a (s.reg ahead rd)).mem ∧ t.bigend = s.bigend :=
  ⟨_, by simp [State.storeSingle, State.storeAborts, ha.1, ha.2], s.advance_stored size a (s.reg ahead rd) rn m wb hrn, by simp, by simp⟩

/-- A store to whose access nothing answers (R75, U30). -/
theorem State.storeSingle_misses {s : State} {size : AccessSize} {privileged : Bool} {a : Word} {f : Fault}
    (ha : s.misses .write size privileged (size.align a) f) (ahead : Word) (wb : Writeback) (rd : RegNo) :
    s.storeSingle size privileged ahead a wb rd = .fault f := by
  simp [State.storeSingle, State.storeAborts, ha.1, ha.2]

/-- A refused store (R285). -/
theorem State.storeSingle_abort {s : State} {size : AccessSize} {privileged : Bool} {ahead a : Word} {wb : Bool} {rn rd : RegNo} {m : Word}
    (ha : s.storeAborts size privileged a = true) :
    ∃ t, s.storeSingle size privileged ahead a (writebackIf wb rn m) rd = .next t
      ∧ (if wb then s.setReg rn m else s).Enters t .abt 0x10 (s.pc + 8) s.cpsr.f ∧ s.KeepsMemory t := by
  refine ⟨(s.writeBack (writebackIf wb rn m)).takeException .dataAbort, by simp [State.storeSingle, ha], ?_,
    State.keepsMemory_of_mem (by simp)⟩
  have h := State.takeException_enters (if wb then s.setReg rn m else s) .dataAbort
  rw [writeBack_writebackIf]
  cases wb <;> simpa [Exc.spsrMode, SpsrMode.mode, Exc.vector, Exc.link, Exc.setsF] using h

/-! ### Swap -/

/-- A swap (R341, R343, R344): refused operands, an abort of either transfer that changes nothing, an address where
nothing answers, or the read and the write. -/
theorem State.swap_cases {s : State} {k : LoadKind} {rn rd rm : RegNo} {r : Result} (h : s.swap k rn rd rm = r) :
    (swapForbidden rn rd rm = true ∧ r = .refused .swapR15)
    ∨ (swapForbidden rn rd rm = false
        ∧ (s.loadAborts k s.privileged (s.reg 8 rn) || s.storeAborts k.size s.privileged (s.reg 8 rn)) = true
        ∧ r = .next (s.takeException .dataAbort))
    ∨ (swapForbidden rn rd rm = false
        ∧ (s.loadAborts k s.privileged (s.reg 8 rn) || s.storeAborts k.size s.privileged (s.reg 8 rn)) = false
        ∧ ∃ f, s.mapFault k.size (k.size.align (s.reg 8 rn)) = some f ∧ r = .fault f)
    ∨ (swapForbidden rn rd rm = false
        ∧ (s.loadAborts k s.privileged (s.reg 8 rn) || s.storeAborts k.size s.privileged (s.reg 8 rn)) = false
        ∧ s.mapFault k.size (k.size.align (s.reg 8 rn)) = none
        ∧ r = .next ((((s.storeValue k.size (s.reg 8 rn) (s.reg 8 rm)).afterRead k.size (k.size.align (s.reg 8 rn))).setReg rd
            (s.loadValue k (s.reg 8 rn))).advance)) := by
  unfold State.swap at h
  split at h
  · next e => exact .inl ⟨e, h.symm⟩
  · next e =>
    dsimp only at h
    split at h
    · next e2 => exact .inr (.inl ⟨by simpa using e, e2, h.symm⟩)
    · next e2 =>
      refine .inr (.inr ?_)
      split at h
      · next f e3 => exact .inl ⟨by simpa using e, by simpa using e2, f, e3, h.symm⟩
      · next e3 => exact .inr ⟨by simpa using e, by simpa using e2, e3, h.symm⟩

/-! ### Status registers -/

/-- The CPSR written from a word (R232, R237, R239). -/
theorem State.writeCpsr_cases {s : State} {w : Word} {r : Result} (h : s.writeCpsr w = r) :
    (s.cpsr.mode = .usr ∧ r = .next (State.advance { s with cpsr := s.cpsr.withFlagsOf w }))
    ∨ (s.cpsr.mode ≠ .usr ∧ w[5] ≠ s.cpsr.t ∧ r = .refused .msrChangesT)
    ∨ (s.cpsr.mode ≠ .usr ∧ w[5] = s.cpsr.t ∧ Mode.ofCode (w.extractLsb' 0 5) = none ∧ r = .refused .illegalMode)
    ∨ ∃ m, s.cpsr.mode ≠ .usr ∧ w[5] = s.cpsr.t ∧ Mode.ofCode (w.extractLsb' 0 5) = some m
        ∧ r = .next (State.advance { s with cpsr := { s.cpsr.withFlagsOf w with i := w[7], f := w[6], mode := m } }) := by
  unfold State.writeCpsr at h
  by_cases hu : s.cpsr.mode = .usr
  · simp only [State.privileged, hu, Mode.privileged, if_false, Bool.false_eq_true] at h
    exact .inl ⟨hu, h.symm⟩
  · have hp : s.privileged = true := by
      cases e : s.privileged
      · exact absurd ((Mode.privileged_eq_false _).mp e) hu
      · rfl
    simp only [hp, if_true] at h
    split at h
    · next e => exact .inr (.inl ⟨hu, by simpa using e, h.symm⟩)
    · next e =>
      have e' : w[5] = s.cpsr.t := by simpa using e
      split at h
      · next e2 => exact .inr (.inr (.inl ⟨hu, e', e2, h.symm⟩))
      · next m e2 => exact .inr (.inr (.inr ⟨m, hu, e', e2, h.symm⟩))

/-- The SPSR of the mode written (R232 to R235). -/
theorem State.updateSpsr_cases {s : State} {f : Psr → Psr} {r : Result} (h : s.updateSpsr f = r) :
    (s.cpsr.mode.spsr = none ∧ r = .refused .noSpsr)
    ∨ ∃ k, s.cpsr.mode.spsr = some k ∧ r = .next (State.advance { s with spsrs := s.spsrs.set k (f (s.spsrs.get k)) }) := by
  unfold State.updateSpsr at h
  split at h
  · next e => exact .inl ⟨e, h.symm⟩
  · next k e => exact .inr ⟨k, e, h.symm⟩

end Sys2Proof.Machine
end

