-- ==== Sys2Proof/Laws/Blocks.lean ====
section
/-!
SUPPORT. Register lists and block transfers: what the loads and the stores of a block leave.
-/

namespace Sys2Proof.Machine

/-! ### Register lists -/

theorem mem_regList (list : BitVec 16) (i : RegNo) : i ∈ regList list ↔ list.getLsbD i.toNat = true := by
  have h : i ∈ [0#4, 1#4, 2#4, 3#4, 4#4, 5#4, 6#4, 7#4, 8#4, 9#4, 10#4, 11#4, 12#4, 13#4, 14#4, 15#4] := by
    revert i; decide
  simp only [regList, List.mem_filter, h, true_and]

theorem regList_pairwise (list : BitVec 16) : (regList list).Pairwise fun i j => i.toNat < j.toNat :=
  List.Pairwise.filter _ (by decide)

theorem regList_length (list : BitVec 16) : (regList list).length ≤ 16 :=
  List.length_filter_le _ _

theorem regList_ne_nil {list : BitVec 16} (h : list ≠ 0) : regList list ≠ [] := by
  intro e
  apply h
  ext i hi
  have : (BitVec.ofNat 4 i) ∉ regList list := by simp [e]
  rw [mem_regList] at this
  simpa [Nat.mod_eq_of_lt hi, BitVec.getLsbD_eq_getElem hi] using this

/-- R15 is transferred last (R310). -/
theorem regList_ne_pc {list : BitVec 16} {k : Nat} {i : RegNo} (h : (regList list)[k]? = some i)
    (hk : k + 1 < (regList list).length) : i ≠ PC := by
  rintro rfl
  have hp := List.pairwise_iff_getElem.mp (regList_pairwise list) k (k + 1) (by omega) hk (by omega)
  rw [List.getElem?_eq_getElem (by omega), Option.some.injEq] at h
  rw [h] at hp
  have := ((regList list)[k + 1]).isLt
  simp at hp; omega

theorem regList_nodup (list : BitVec 16) : (regList list).Nodup :=
  (regList_pairwise list).imp fun h e => by rw [e] at h; omega

/-! ### Slots -/

/-- The k-th word of a block lies 4k bytes past the first (R80, R312). -/
theorem wordAligned_add (a : Word) (k : Nat) : wordAligned (a + BitVec.ofNat 32 (4 * k)) = wordAligned a + BitVec.ofNat 32 (4 * k) := by
  apply BitVec.eq_of_toNat_eq
  rw [wordAligned_toNat, BitVec.toNat_add, BitVec.toNat_add, wordAligned_toNat, BitVec.toNat_ofNat]
  have := a.isLt
  omega

theorem slot_eq (start : Word) (k : Nat) : slot start k = wordAligned start + BitVec.ofNat 32 (4 * k) :=
  wordAligned_add start k

theorem slot_zero (start : Word) : slot start 0 = wordAligned start := by
  simp [slot]

theorem slot_succ (start : Word) (k : Nat) : slot (start + 4) k = slot start (k + 1) := by
  rw [slot, slot, BitVec.add_assoc]
  congr 2
  exact BitVec.eq_of_toNat_eq (by simp [BitVec.toNat_add]; omega)

theorem wordAligned_add_four (a : Word) : wordAligned (a + 4) = wordAligned a + 4 :=
  wordAligned_add a 1

/-! ### Loads of a block -/

/-- The loads of a list none of whose words is refused (R317): the registers of the list hold their words, the rest is kept, R15 goes
to the target. -/
theorem State.loadWords_accepted (s : State) (bank : Mode) (l : List RegNo) (a : Word) (g : Regs) (hn : l.Nodup)
    (hpc : ∀ k, k + 1 < l.length → l[k]? ≠ some PC) (ha : s.blockAccepted .read a l.length) :
    (s.loadWords bank l a g).aborted = false
    ∧ (s.loadWords bank l a g).target = (if PC ∈ l then some (s.readWord (slot a (l.length - 1))) else none)
    ∧ (∀ k i r, l[k]? = some i → physReg bank i = some r → (s.loadWords bank l a g).regs.get r = s.readWord (slot a k))
    ∧ ∀ r, (∀ i ∈ l, physReg bank i ≠ some r) → (s.loadWords bank l a g).regs.get r = g.get r := by
  induction l generalizing a g with
  | nil => simp [State.loadWords]
  | cons i rest ih =>
    have h0 : s.aborted .read .word s.privileged (wordAligned a) = false := by
      have := (ha 0 (by simp)).1; rwa [slot_zero] at this
    have hrest : s.blockAccepted .read (a + 4) rest.length := fun k hk => by
      rw [slot_succ]; exact ha (k + 1) (by simpa using hk)
    have hpcr : ∀ k, k + 1 < rest.length → rest[k]? ≠ some PC := fun k hk => by
      have := hpc (k + 1) (by simpa using hk); simpa using this
    obtain ⟨hni, hnr⟩ := List.nodup_cons.mp hn
    cases hp : physReg bank i with
    | none =>
      have hi : i = PC := (physReg_eq_none bank i).mp hp
      have hr : rest = [] := by
        cases rest with
        | nil => rfl
        | cons j js => exact absurd (by simp [hi]) (hpc 0 (by simp))
      subst hr
      subst hi
      refine ⟨by simp [State.loadWords, h0, hp], by simp [State.loadWords, h0, hp, slot_zero], ?_, ?_⟩
      · intro k j r hk hj
        cases k with
        | zero => simp at hk; subst hk; rw [hp] at hj; cases hj
        | succ k => simp at hk
      · intro r _; simp [State.loadWords, h0, hp]
    | some q =>
      have hi : i ≠ PC := fun e => by rw [e, physReg_pc] at hp; cases hp
      obtain ⟨h1, h2, h3, h4⟩ := ih (a + 4) (g.set q (s.readWord (wordAligned a))) hnr hpcr hrest
      have he : s.loadWords bank (i :: rest) a g = s.loadWords bank rest (a + 4) (g.set q (s.readWord (wordAligned a))) := by
        simp [State.loadWords, h0, hp]
      rw [he]
      refine ⟨h1, ?_, ?_, ?_⟩
      · rw [h2]
        have hm : (PC ∈ i :: rest) ↔ PC ∈ rest := by simp [Ne.symm hi]
        simp only [hm]
        split
        · next hin =>
          have : 0 < rest.length := List.length_pos_of_mem hin
          rw [slot_succ, show rest.length - 1 + 1 = (i :: rest).length - 1 by simp; omega]
        · rfl
      · intro k j r hk hj
        cases k with
        | zero =>
          simp at hk; subst hk
          rw [hp] at hj; cases hj
          rw [h4 q fun j hj e => hni ((physReg_inj hi (hp.trans e.symm)) ▸ hj), Regs.get_set_same, slot_zero]
        | succ k => rw [h3 k j r (by simpa using hk) hj, slot_succ]
      · intro r hr
        rw [h4 r fun j hj => hr j (by simp [hj]), Regs.get_set_ne]
        rintro rfl
        exact hr i (by simp) hp

/-- The loads of a list whose j-th word is the first refused one (R327): the registers before it hold their words, the rest is kept. -/
theorem State.loadWords_aborted (s : State) (bank : Mode) (l : List RegNo) (a : Word) (g : Regs) (hn : l.Nodup)
    (hpc : ∀ k, k + 1 < l.length → l[k]? ≠ some PC) (j : Nat) (hj : j < l.length) (ha : s.blockAccepted .read a j)
    (hab : s.aborted .read .word s.privileged (slot a j) = true) :
    (s.loadWords bank l a g).aborted = true
    ∧ (∀ k i r, k < j → l[k]? = some i → physReg bank i = some r → (s.loadWords bank l a g).regs.get r = s.readWord (slot a k))
    ∧ ∀ r, (∀ k i, k < j → l[k]? = some i → physReg bank i ≠ some r) → (s.loadWords bank l a g).regs.get r = g.get r := by
  induction l generalizing a g j with
  | nil => simp at hj
  | cons i rest ih =>
    obtain ⟨hni, hnr⟩ := List.nodup_cons.mp hn
    cases j with
    | zero =>
      rw [slot_zero] at hab
      refine ⟨by simp [State.loadWords, hab], fun k i r hk => by omega, fun r _ => by simp [State.loadWords, hab]⟩
    | succ j =>
      have h0 : s.aborted .read .word s.privileged (wordAligned a) = false := by
        have := (ha 0 (by omega)).1; rwa [slot_zero] at this
      have hi : i ≠ PC := fun e => by
        have := hpc 0 (by simp at hj ⊢; omega); simp [e] at this
      obtain ⟨q, hp⟩ := physReg_some (m := bank) hi
      have hpcr : ∀ k, k + 1 < rest.length → rest[k]? ≠ some PC := fun k hk => by
        have := hpc (k + 1) (by simpa using hk); simpa using this
      obtain ⟨h1, h3, h4⟩ := ih (a + 4) (g.set q (s.readWord (wordAligned a))) hnr hpcr j (by simpa using hj)
        (fun k hk => by rw [slot_succ]; exact ha (k + 1) (by omega)) (by rw [slot_succ]; exact hab)
      have he : s.loadWords bank (i :: rest) a g = s.loadWords bank rest (a + 4) (g.set q (s.readWord (wordAligned a))) := by
        simp [State.loadWords, h0, hp]
      rw [he]
      refine ⟨h1, ?_, ?_⟩
      · intro k m r hk hm hr
        cases k with
        | zero =>
          simp at hm; subst hm
          rw [hp] at hr; cases hr
          rw [h4 q fun k m _ hm e => hni ((physReg_inj hi (hp.trans e.symm)) ▸ List.mem_of_getElem? hm),
            Regs.get_set_same, slot_zero]
        | succ k => rw [h3 k m r (by omega) (by simpa using hm) hr, slot_succ]
      · intro r hr
        rw [h4 r fun k m hk hm => hr (k + 1) m (by omega) (by simpa using hm), Regs.get_set_ne]
        rintro rfl
        exact hr 0 i (by omega) (by simp) hp

/-! ### Words of a block where nothing answers -/

/-- A block all of whose words are accepted runs. -/
theorem State.blockFault_accepted (s : State) (kind : AccessKind) (n : Nat) (a : Word) (ha : s.blockAccepted kind a n) :
    s.blockFault kind n a = none := by
  induction n generalizing a with
  | zero => rfl
  | succ n ih =>
    have h0 := ha 0 (by omega)
    rw [slot_zero] at h0
    have hr := ih (a + 4) fun k hk => by rw [slot_succ]; exact ha (k + 1) (by omega)
    simp only [State.blockFault, h0.1, h0.2, Bool.false_eq_true, if_false]
    exact hr

/-- A load block whose j-th word is the first refused one makes no access past it (R327). -/
theorem State.blockFault_read_aborted (s : State) (n : Nat) (a : Word) (j : Nat) (hj : j < n) (ha : s.blockAccepted .read a j)
    (hab : s.aborted .read .word s.privileged (slot a j) = true) : s.blockFault .read n a = none := by
  induction n generalizing a j with
  | zero => omega
  | succ n ih =>
    cases j with
    | zero => rw [slot_zero] at hab; simp [State.blockFault, hab]
    | succ j =>
      have h0 := ha 0 (by omega)
      rw [slot_zero] at h0
      have hr := ih (a + 4) j (by omega) (fun k hk => by rw [slot_succ]; exact ha (k + 1) (by omega)) (by rw [slot_succ]; exact hab)
      simp only [State.blockFault, h0.1, h0.2, Bool.false_eq_true, if_false]
      exact hr

/-- A store block to each of whose words, refused or not, something answers runs (R326). -/
theorem State.blockFault_write_none (s : State) (n : Nat) (a : Word) (h : s.blockAnswered a n) :
    s.blockFault .write n a = none := by
  induction n generalizing a with
  | zero => rfl
  | succ n ih =>
    have hr := ih (a + 4) fun k hk => by rw [slot_succ]; exact h (k + 1) (by omega)
    have h0 := h 0 (by omega)
    rw [slot_zero] at h0
    cases hab : s.aborted .write .word s.privileged (wordAligned a)
    · simp only [State.blockFault, hab, h0 hab, Bool.false_eq_true, if_false]
      exact hr
    · simp only [State.blockFault, hab, if_true]
      exact hr

/-- A block whose j-th word is the first that gets no answer, the words before it being accepted, ends there. -/
theorem State.blockFault_misses (s : State) (kind : AccessKind) (n : Nat) (a : Word) (j : Nat) (f : Fault) (hj : j < n)
    (ha : s.blockAccepted kind a j) (hf : s.misses kind .word s.privileged (slot a j) f) : s.blockFault kind n a = some f := by
  induction n generalizing a j with
  | zero => omega
  | succ n ih =>
    cases j with
    | zero => obtain ⟨h1, h2⟩ := hf; rw [slot_zero] at h1 h2; simp [State.blockFault, h1, h2]
    | succ j =>
      have h0 := ha 0 (by omega)
      rw [slot_zero] at h0
      have hr := ih (a + 4) j (by omega) (fun k hk => by rw [slot_succ]; exact ha (k + 1) (by omega)) (by rw [slot_succ]; exact hf)
      simp only [State.blockFault, h0.1, h0.2, Bool.false_eq_true, if_false]
      exact hr

/-- A store block whose j-th word is the first that gets no answer, the words before it being refused or answered, ends there (R326). -/
theorem State.blockFault_write_misses (s : State) (n : Nat) (a : Word) (j : Nat) (f : Fault) (hj : j < n)
    (h : s.blockAnswered a j) (hf : s.misses .write .word s.privileged (slot a j) f) : s.blockFault .write n a = some f := by
  induction n generalizing a j with
  | zero => omega
  | succ n ih =>
    cases j with
    | zero => obtain ⟨h1, h2⟩ := hf; rw [slot_zero] at h1 h2; simp [State.blockFault, h1, h2]
    | succ j =>
      have hr := ih (a + 4) j (by omega) (fun k hk => by rw [slot_succ]; exact h (k + 1) (by omega)) (by rw [slot_succ]; exact hf)
      have h0 := h 0 (by omega)
      rw [slot_zero] at h0
      cases hab : s.aborted .write .word s.privileged (wordAligned a)
      · simp only [State.blockFault, hab, h0 hab, Bool.false_eq_true, if_false]
        exact hr
      · simp only [State.blockFault, hab, if_true]
        exact hr

/-! ### Stores of a block -/

/-- The stores of a block change memory and the prefetch marks alone. -/
theorem State.storeWords_frame (s : State) (vs : List Word) (a : Word) :
    let t := (s.storeWords vs a).1
    t.regs = s.regs ∧ t.pc = s.pc ∧ t.cpsr = s.cpsr ∧ t.spsrs = s.spsrs ∧ t.bigend = s.bigend ∧ t.aborts = s.aborts
      ∧ t.inputs = s.inputs ∧ t.memMap = s.memMap ∧ t.bankHazard = s.bankHazard ∧ t.draws = s.draws := by
  induction vs generalizing s a with
  | nil => simp [State.storeWords]
  | cons v rest ih =>
    simp only [State.storeWords]
    split
    · exact ih s (a + 4)
    · simpa using ih (s.storeValue .word a v) (a + 4)

theorem State.storeWords_wf {s : State} (h : Memory.wf s.mem = true) (vs : List Word) (a : Word) :
    Memory.wf (s.storeWords vs a).1.mem = true := by
  induction vs generalizing s a with
  | nil => exact h
  | cons v rest ih =>
    simp only [State.storeWords]
    split
    · exact ih h (a + 4)
    · exact ih (State.wf_storeValue h .word a v) (a + 4)

/-- Bytes outside the block read as before. -/
theorem State.storeWords_outside (s : State) (vs : List Word) (a b : Word) (hl : vs.length ≤ 2 ^ 30)
    (h : 4 * vs.length ≤ (b - wordAligned a).toNat) : (s.storeWords vs a).1.byteAt b = s.byteAt b := by
  induction vs generalizing s a with
  | nil => rfl
  | cons v rest ih =>
    simp only [List.length_cons] at h hl
    have hb : 4 * rest.length ≤ (b - wordAligned (a + 4)).toNat := by
      rw [wordAligned_add_four]; bv_omega
    simp only [State.storeWords]
    split
    · exact ih s (a + 4) (by omega) hb
    · rw [ih _ (a + 4) (by omega) hb, State.byteAt_storeValue_ne]
      simp only [AccessSize.bytes, AccessSize.align]; omega

/-- A word outside the block reads as before. -/
theorem State.wordAt_of_bytes {s t : State} {a : Word} (hb : t.bigend = s.bigend)
    (h : ∀ k, k < 4 → t.byteAt (a + BitVec.ofNat 32 k) = s.byteAt (a + BitVec.ofNat 32 k)) : t.wordAt a = s.wordAt a := by
  have h0 := h 0 (by omega)
  rw [BitVec.add_zero] at h0
  have h1 := h 1 (by omega)
  have h2 := h 2 (by omega)
  have h3 := h 3 (by omega)
  simp only [State.wordAt, hb, h0]
  congr 1

theorem State.storeWords_abort_iff (s : State) (vs : List Word) (a : Word) :
    (s.storeWords vs a).2 = true ↔ ∃ k, k < vs.length ∧ s.aborted .write .word s.privileged (slot a k) = true := by
  induction vs generalizing s a with
  | nil => simp [State.storeWords]
  | cons v rest ih =>
    simp only [State.storeWords]
    split
    · next h => exact ⟨fun _ => ⟨0, by simp, by rw [slot_zero]; exact h⟩, fun _ => rfl⟩
    · next h =>
      rw [ih]
      have hc : ∀ k, State.aborted (s.storeValue .word a v) .write .word (s.storeValue .word a v).privileged (slot (a + 4) k) =
          s.aborted .write .word s.privileged (slot a (k + 1)) := fun k => by
        rw [State.aborted_congr (State.storeValue_aborts ..), State.privileged, State.storeValue_cpsr, slot_succ]; rfl
      simp only [hc]
      constructor
      · rintro ⟨k, hk, e⟩; exact ⟨k + 1, by simpa using hk, e⟩
      · rintro ⟨k, hk, e⟩
        cases k with
        | zero => rw [slot_zero] at e; exact absurd e h
        | succ k => exact ⟨k, by simpa using hk, e⟩

/-- Every word of the block that is not refused and is memory is stored, the others hold what they held (R314, R326). -/
theorem State.storeWords_words (s : State) (vs : List Word) (a : Word) (hl : vs.length ≤ 2 ^ 30) (k : Nat) (v : Word)
    (hk : vs[k]? = some v) :
    (s.storeWords vs a).1.wordAt (slot a k) =
      if s.aborted .write .word s.privileged (slot a k) || s.onDevice .word (slot a k) then s.wordAt (slot a k) else v := by
  induction vs generalizing s a k with
  | nil => simp at hk
  | cons u rest ih =>
    simp only [List.length_cons] at hl
    have later : ∀ t : State, (t.storeWords rest (a + 4)).1.wordAt (wordAligned a) = t.wordAt (wordAligned a) := fun t =>
      State.wordAt_of_bytes (t.storeWords_frame rest (a + 4)).2.2.2.2.1 fun j hj =>
        State.storeWords_outside t rest (a + 4) _ (by omega) (by rw [wordAligned_add_four]; bv_omega)
    simp only [State.storeWords]
    cases k with
    | zero =>
      simp at hk; subst hk
      rw [slot_zero]
      split
      · next h => rw [h, later]; simp
      · next h => rw [later, State.wordAt_storeValue]; simp [h]
    | succ k =>
      simp only [List.getElem?_cons_succ] at hk
      rw [← slot_succ]
      split
      · exact ih s (a + 4) (by omega) k hk
      · rw [ih _ (a + 4) (by omega) k hk, State.aborted_congr (State.storeValue_aborts ..), State.privileged, State.storeValue_cpsr]
        have hkl : k < rest.length := (List.getElem?_eq_some_iff.mp hk).1
        have : (s.storeValue .word a u).wordAt (slot (a + 4) k) = s.wordAt (slot (a + 4) k) :=
          State.wordAt_of_bytes (State.storeValue_bigend ..) fun j hj =>
            State.byteAt_storeValue_ne _ _ _ _ _ (by
              rw [slot_eq, wordAligned_add_four]
              simp only [AccessSize.bytes, AccessSize.align]
              bv_omega)
        rw [this, State.onDevice_congr (State.storeValue_memMap ..)]; rfl

/-- A block store none of whose words is refused (R314). -/
theorem State.blockStore_accepted (s : State) (bank : Mode) (rn : RegNo) (w : Bool) (start final : Word) (list : BitVec 16)
    (hrn : w = true → rn ≠ PC) (ha : s.blockAccepted .write start (regList list).length) :
    s.BlockStored (s.blockStore bank rn w start final list) start
      ((regList list).map (s.blockOperand bank rn w final list)) w rn final := by
  set vs := (regList list).map (s.blockOperand bank rn w final list) with hvs
  have hlen : vs.length = (regList list).length := by simp [hvs]
  have hl : vs.length ≤ 2 ^ 30 := by have := regList_length list; omega
  have hno : (s.storeWords vs start).2 = false := by
    cases h : (s.storeWords vs start).2
    · rfl
    · obtain ⟨k, hk, e⟩ := (State.storeWords_abort_iff s vs start).mp h
      rw [(ha k (by omega)).1] at e; cases e
  obtain ⟨f1, f2, f3, f4, f5, f6, f7, f8, f9, f10⟩ := State.storeWords_frame s vs start
  have hb : s.blockStore bank rn w start final list =
      (if w then (s.storeWords vs start).1.setReg rn final else (s.storeWords vs start).1).advance := by
    simp [State.blockStore, ← hvs, hno]
  rw [hb]
  have hmem : (if w then (s.storeWords vs start).1.setReg rn final else (s.storeWords vs start).1).advance.mem =
      (s.storeWords vs start).1.mem := by cases w <;> simp
  have hbig : (if w then (s.storeWords vs start).1.setReg rn final else (s.storeWords vs start).1).advance.bigend =
      (s.storeWords vs start).1.bigend := by cases w <;> simp
  refine ⟨fun k v hk => ?_, ?_, fun hw => ?_, ?_, ?_, ?_, ?_⟩
  · rw [State.wordAt_congr hmem hbig, State.storeWords_words s vs start hl k v hk,
      (ha k (by have := (List.getElem?_eq_some_iff.mp hk).1; omega)).1, Bool.false_or]
  · cases w <;> simp [f2, State.width, f3]
  · have hn := hrn hw
    rw [if_pos hw, State.reg_advance _ hn, State.reg_setReg_same _ hn]
  · cases w <;> simp [f3]
  · intro r hr
    cases w <;> simp at hr <;> simp [State.get_setReg, f3, f1, hr]
  · intro b hb
    rw [State.byteAt_congr hmem, State.storeWords_outside s vs start b hl hb]
  · cases w <;> simp [State.KeepsSystem, State.KeepsInputs, f4, f5, f6, f7, f8, f9]

/-- A block store some word of which is refused (R326). -/
theorem State.blockStore_aborted (s : State) (bank : Mode) (rn : RegNo) (w : Bool) (start final : Word) (list : BitVec 16) (j : Nat)
    (hj : j < (regList list).length) (hab : s.aborted .write .word s.privileged (slot start j) = true) :
    s.BlockStoreAborted (s.blockStore bank rn w start final list) (if w then s.setReg rn final else s) start list
      (s.blockOperand bank rn w final list) := by
  set t := s.blockStore bank rn w start final list with ht0
  set vs := (regList list).map (s.blockOperand bank rn w final list) with hvs
  have hlen : vs.length = (regList list).length := by simp [hvs]
  have hl : vs.length ≤ 2 ^ 30 := by have := regList_length list; omega
  have hyes : (s.storeWords vs start).2 = true := (State.storeWords_abort_iff s vs start).mpr ⟨j, by omega, hab⟩
  obtain ⟨f1, f2, f3, f4, f5, f6, f7, f8, f9, f10⟩ := State.storeWords_frame s vs start
  let u := if w then (s.storeWords vs start).1.setReg rn final else (s.storeWords vs start).1
  have ht : t = u.takeException .dataAbort := by simp [ht0, State.blockStore, ← hvs, hyes, u]
  have hu : u.mem = (s.storeWords vs start).1.mem ∧ u.bigend = (s.storeWords vs start).1.bigend := by
    constructor <;> (simp only [u]; cases w <;> simp)
  refine ⟨?_, fun k i hk => ?_, fun b hb => ?_⟩
  · have h := State.takeException_enters u .dataAbort
    have e1 : u.cpsr = s.cpsr := by simp only [u]; cases w <;> simp [f3]
    have e2 : u.pc = s.pc := by simp only [u]; cases w <;> simp [f2]
    have e3 : u.regs.get = (if w then s.setReg rn final else s).regs.get := by
      funext r; simp only [u]; cases w <;> simp [State.get_setReg, f1, f3]
    have e4 : u.spsrs = s.spsrs := by simp only [u]; cases w <;> simp [f4]
    have e5 : u.bigend = s.bigend ∧ u.aborts = s.aborts ∧ u.inputs = s.inputs ∧ u.memMap = s.memMap := by
      simp only [u]; cases w <;> simp [f5, f6, f7, f8]
    rw [ht]
    simp only [State.Enters, State.KeepsInputs, e1, e2, e3, e4, e5.1, e5.2.1, e5.2.2.1, e5.2.2.2] at h ⊢
    have g1 : (if w then s.setReg rn final else s).cpsr = s.cpsr := by cases w <;> simp
    have g2 : (if w then s.setReg rn final else s).spsrs = s.spsrs := by cases w <;> simp
    have g3 : (if w then s.setReg rn final else s).bigend = s.bigend := by cases w <;> simp
    have g4 : (if w then s.setReg rn final else s).aborts = s.aborts := by cases w <;> simp
    have g5 : (if w then s.setReg rn final else s).inputs = s.inputs := by cases w <;> simp
    have g6 : (if w then s.setReg rn final else s).memMap = s.memMap := by cases w <;> simp
    rw [g1, g2, g3, g4, g5, g6]
    simpa [Exc.spsrMode, SpsrMode.mode, Exc.vector, Exc.link, Exc.setsF] using h
  · rw [ht, State.wordAt_congr (s := u) (t := u.takeException .dataAbort) rfl rfl, State.wordAt_congr hu.1 hu.2]
    rw [State.storeWords_words s vs start hl k (s.blockOperand bank rn w final list i) (by simp [hvs, hk])]
  · rw [ht, State.byteAt_congr (s := u) (t := u.takeException .dataAbort) rfl, State.byteAt_congr hu.1, State.storeWords_outside s vs start b hl (by rw [hlen]; exact hb)]

end Sys2Proof.Machine
end

