-- ==== Sys2Proof/Laws/Outcomes.lean ====
section
/-!
SUPPORT. Every outcome of the operations behind the meanings, and of a step: a refusal with its condition, or the next state.
-/

namespace Sys2Proof.Machine

/-! ### Conditions -/

theorem whenPassed_true {c : Cond} {s : State} (h : condPassed c s.cpsr = true) (r : Result) : whenPassed c s r = r := by
  simp [whenPassed, h]

theorem whenPassed_false {c : Cond} {s : State} (h : condPassed c s.cpsr = false) (r : Result) : whenPassed c s r = .next s.advance := by
  simp [whenPassed, h]

theorem whenPassed_cases {c : Cond} {s : State} {e r : Result} (h : whenPassed c s e = r) :
    (condPassed c s.cpsr = true ∧ e = r) ∨ (condPassed c s.cpsr = false ∧ r = .next s.advance) := by
  unfold whenPassed at h
  split at h
  · next hc => exact .inl ⟨hc, h⟩
  · next hc => exact .inr ⟨by simpa using hc, h.symm⟩

/-! ### Data processing -/

theorem State.dataProcess_cases {s : State} {op : AluOp} {sets : Bool} {rn rd : RegNo} {op2 : Operand2} {r : Result}
    (h : s.dataProcess op sets rn rd op2 = r) :
    (amountIsR15 op2 = true ∧ r = .refused .shiftAmountR15)
    ∨ (amountIsR15 op2 = false ∧ sets = true ∧ rd = PC ∧ s.exceptionReturn (s.aluOut op rn op2).result = r)
    ∨ (amountIsR15 op2 = false ∧ sets = true ∧ rd ≠ PC
        ∧ r = .next (State.finish { s with cpsr := s.cpsr.setFlags (s.aluOut op rn op2) } rd (s.aluOut op rn op2).result))
    ∨ (amountIsR15 op2 = false ∧ sets = false ∧ r = .next (s.finish rd (s.aluOut op rn op2).result)) := by
  unfold State.dataProcess at h
  split at h
  · next e => exact .inl ⟨e, h.symm⟩
  · next e =>
    have e := eq_false_of_ne_true e
    dsimp only at h
    split at h
    · next e2 =>
      split at h
      · next e3 => exact .inr (.inl ⟨e, e2, e3, h⟩)
      · next e3 => exact .inr (.inr (.inl ⟨e, e2, e3, h.symm⟩))
    · next e2 => exact .inr (.inr (.inr ⟨e, eq_false_of_ne_true e2, h.symm⟩))

theorem State.testRestore_cases {s : State} {r : Result} (h : s.testRestore = r) :
    (s.cpsr.mode = .usr ∧ r = .next s.advance) ∨ (s.cpsr.mode = .sys ∧ r = .refused .noSpsr)
    ∨ (∃ p, s.spsr = some p ∧ p.toCpsr = none ∧ r = .refused .illegalMode)
    ∨ ∃ p k, s.spsr = some p ∧ p.toCpsr = some k ∧ r = .next { s.advance with cpsr := k } := by
  unfold State.testRestore at h
  split at h
  · next hp =>
    split at h
    · next e =>
      refine .inr (.inl ⟨?_, h.symm⟩)
      have hn : s.cpsr.mode.spsr = none := by simpa [State.spsr] using e
      rcases (Mode.spsr_eq_none _).mp hn with hu | hs
      · rw [State.privileged, hu] at hp; cases hp
      · exact hs
    · next p e =>
      split at h
      · next e2 => exact .inr (.inr (.inl ⟨p, e, e2, h.symm⟩))
      · next k e2 => exact .inr (.inr (.inr ⟨p, k, e, e2, h.symm⟩))
  · next hp => exact .inl ⟨(Mode.privileged_eq_false _).mp (eq_false_of_ne_true hp), h.symm⟩

theorem State.dataTest_cases {s : State} {op : AluOp} {rn rd : RegNo} {op2 : Operand2} {r : Result}
    (h : s.dataTest op rn rd op2 = r) :
    (amountIsR15 op2 = true ∧ r = .refused .shiftAmountR15)
    ∨ (amountIsR15 op2 = false ∧ rd = PC ∧ s.testRestore = r)
    ∨ (amountIsR15 op2 = false ∧ rd ≠ PC
        ∧ r = .next (State.advance { s with cpsr := s.cpsr.setFlags (s.aluOut op rn op2) })) := by
  unfold State.dataTest at h
  split at h
  · next e => exact .inl ⟨e, h.symm⟩
  · next e =>
    have e := eq_false_of_ne_true e
    split at h
    · next e2 => exact .inr (.inl ⟨e, e2, h⟩)
    · next e2 => exact .inr (.inr ⟨e, e2, h.symm⟩)

/-! ### Single transfers -/

/-- A single load aborts, gets no answer, or loads (R273, R285). -/
theorem State.loadSingle_cases {s : State} {k : LoadKind} {privileged : Bool} {a : Word} {wb : Writeback} {rd : RegNo} {r : Result}
    (h : s.loadSingle k privileged a wb rd = r) :
    (s.loadAborts k privileged a = true ∧ r = .next ((s.writeBack wb).takeException .dataAbort))
    ∨ (s.loadAborts k privileged a = false ∧ ∃ f, s.mapFault k.size (k.size.align a) = some f ∧ r = .fault f)
    ∨ (s.loadAborts k privileged a = false ∧ s.mapFault k.size (k.size.align a) = none
        ∧ r = .next (((s.afterRead k.size (k.size.align a)).writeBack wb).finish rd (s.loadValue k a))) := by
  unfold State.loadSingle at h
  split at h
  · next e => exact .inl ⟨e, h.symm⟩
  · next e =>
    refine .inr ?_
    split at h
    · next f e2 => exact .inl ⟨eq_false_of_ne_true e, f, e2, h.symm⟩
    · next e2 => exact .inr ⟨eq_false_of_ne_true e, e2, h.symm⟩

/-- A single store aborts, gets no answer, or stores (R275, R285). -/
theorem State.storeSingle_cases {s : State} {size : AccessSize} {privileged : Bool} {ahead a : Word} {wb : Writeback} {rd : RegNo}
    {r : Result} (h : s.storeSingle size privileged ahead a wb rd = r) :
    (s.storeAborts size privileged a = true ∧ r = .next ((s.writeBack wb).takeException .dataAbort))
    ∨ (s.storeAborts size privileged a = false ∧ ∃ f, s.mapFault size (size.align a) = some f ∧ r = .fault f)
    ∨ (s.storeAborts size privileged a = false ∧ s.mapFault size (size.align a) = none
        ∧ r = .next (((s.storeValue size a (s.reg ahead rd)).writeBack wb).advance)) := by
  unfold State.storeSingle at h
  split at h
  · next e => exact .inl ⟨e, h.symm⟩
  · next e =>
    refine .inr ?_
    split at h
    · next f e2 => exact .inl ⟨eq_false_of_ne_true e, f, e2, h.symm⟩
    · next e2 => exact .inr ⟨eq_false_of_ne_true e, e2, h.symm⟩

theorem State.singleLoad_cases {s : State} {k : LoadKind} {privileged p u w : Bool} {rn rd : RegNo} {off : Offset} {r : Result}
    (h : s.singleLoad k privileged p u w rn rd off = r) :
    (∃ x, singleRefusal p w rn rd off = some x ∧ r = .refused x)
    ∨ (singleRefusal p w rn rd off = none
        ∧ s.loadSingle k privileged (transferAddress p u (s.reg 8 rn) (s.offsetValue off))
            (writebackIf (!p || w) rn (modifiedBase u (s.reg 8 rn) (s.offsetValue off))) rd = r) := by
  unfold State.singleLoad at h
  split at h
  · next x e => exact .inl ⟨x, e, h.symm⟩
  · next e => exact .inr ⟨e, h⟩

theorem State.singleStore_cases {s : State} {size : AccessSize} {privileged p u w : Bool} {rn rd : RegNo} {off : Offset} {r : Result}
    (h : s.singleStore size privileged p u w rn rd off = r) :
    (∃ x, singleRefusal p w rn rd off = some x ∧ r = .refused x)
    ∨ (singleRefusal p w rn rd off = none
        ∧ s.storeSingle size privileged 12 (transferAddress p u (s.reg 8 rn) (s.offsetValue off))
            (writebackIf (!p || w) rn (modifiedBase u (s.reg 8 rn) (s.offsetValue off))) rd = r) := by
  unfold State.singleStore at h
  split at h
  · next x e => exact .inl ⟨x, e, h.symm⟩
  · next e => exact .inr ⟨e, h⟩

theorem State.halfwordLoad_cases {s : State} {k : LoadKind} {p u w : Bool} {rn rd : RegNo} {rm : Option RegNo} {offset : Word}
    {r : Result} (h : s.halfwordLoad k p u w rn rd rm offset = r) :
    (∃ x, halfwordRefusal p w rn rd rm = some x ∧ r = .refused x)
    ∨ (halfwordRefusal p w rn rd rm = none ∧ k.size.odd (transferAddress p u (s.reg 8 rn) offset) = true
        ∧ r = .refused .oddHalfword)
    ∨ (halfwordRefusal p w rn rd rm = none ∧ k.size.odd (transferAddress p u (s.reg 8 rn) offset) = false
        ∧ s.loadSingle k s.privileged (transferAddress p u (s.reg 8 rn) offset)
            (writebackIf (!p || w) rn (modifiedBase u (s.reg 8 rn) offset)) rd = r) := by
  unfold State.halfwordLoad at h
  split at h
  · next x e => exact .inl ⟨x, e, h.symm⟩
  · next e =>
    split at h
    · next e2 => exact .inr (.inl ⟨e, e2, h.symm⟩)
    · next e2 => exact .inr (.inr ⟨e, eq_false_of_ne_true e2, h⟩)

theorem State.halfwordStore_cases {s : State} {p u w : Bool} {rn rd : RegNo} {rm : Option RegNo} {offset : Word}
    {r : Result} (h : s.halfwordStore p u w rn rd rm offset = r) :
    (∃ x, halfwordRefusal p w rn rd rm = some x ∧ r = .refused x)
    ∨ (halfwordRefusal p w rn rd rm = none ∧ AccessSize.odd .half (transferAddress p u (s.reg 8 rn) offset) = true ∧ r = .refused .oddHalfword)
    ∨ (halfwordRefusal p w rn rd rm = none ∧ AccessSize.odd .half (transferAddress p u (s.reg 8 rn) offset) = false
        ∧ s.storeSingle .half s.privileged 12 (transferAddress p u (s.reg 8 rn) offset)
            (writebackIf (!p || w) rn (modifiedBase u (s.reg 8 rn) offset)) rd = r) := by
  unfold State.halfwordStore at h
  split at h
  · next x e => exact .inl ⟨x, e, h.symm⟩
  · next e =>
    split at h
    · next e2 => exact .inr (.inl ⟨e, e2, h.symm⟩)
    · next e2 => exact .inr (.inr ⟨e, eq_false_of_ne_true e2, h⟩)

/-- The operands a word or byte transfer runs with (R281 to R283). -/
theorem singleRefusal_none {p w : Bool} {rn rd : RegNo} {off : Offset} :
    singleRefusal p w rn rd off = none ↔ singleAllowed p (!p || w) rn rd off := by
  unfold singleRefusal singleAllowed
  by_cases h1 : offsetReg off = some PC <;> by_cases h2 : offsetReg off = some rn <;> by_cases h3 : rn = PC <;> by_cases h4 : rd = rn <;>
    cases p <;> cases w <;> simp_all

/-- The operands a halfword or signed transfer runs with (R282, R296, R300). -/
theorem halfwordRefusal_none {p w : Bool} {rn rd : RegNo} {rm : Option RegNo} :
    halfwordRefusal p w rn rd rm = none ↔ halfwordAllowed p w rn rd rm := by
  unfold halfwordRefusal halfwordAllowed
  by_cases h1 : rm = some PC <;> by_cases h3 : rn = PC <;> by_cases h4 : rd = rn <;> cases p <;> cases w <;> simp_all

/-! ### Block transfers -/

/-- An LDM is refused, gets no answer, aborts, branches, or loads (R317). -/
theorem State.blockLdm_cases {s : State} {p u sb w : Bool} {rn : RegNo} {list : BitVec 16} {r : Result} (h : s.blockLdm p u sb w rn list = r) :
    let b := s.blockLoads (s.transferBank true sb list) rn w (blockStart p u (s.reg 0 rn) list) (blockFinal u (s.reg 0 rn) list) list
    let bf := s.blockFault .read (regList list).length (blockStart p u (s.reg 0 rn) list)
    let after := s.afterBlock (regList list).length (blockStart p u (s.reg 0 rn) list)
    (∃ x, blockRefusal true sb w rn list s.cpsr.mode = some x ∧ r = .refused x)
    ∨ (blockRefusal true sb w rn list s.cpsr.mode = none ∧ ∃ f, bf = some f ∧ r = .fault f)
    ∨ (blockRefusal true sb w rn list s.cpsr.mode = none ∧ bf = none ∧ b.aborted = true
        ∧ r = .next (after.blockLoadAbort rn w (blockFinal u (s.reg 0 rn) list) b.regs))
    ∨ (blockRefusal true sb w rn list s.cpsr.mode = none ∧ bf = none ∧ b.aborted = false ∧ ∃ v, b.target = some v
        ∧ ((sb = true ∧ State.exceptionReturn { after with regs := b.regs } v = r)
          ∨ (sb = false ∧ r = .next (State.branch { after with regs := b.regs } v))))
    ∨ (blockRefusal true sb w rn list s.cpsr.mode = none ∧ bf = none ∧ b.aborted = false ∧ b.target = none
        ∧ r = .next (State.advance { after with regs := b.regs, bankHazard := sb || s.bankHazard })) := by
  intro b bf after
  unfold State.blockLdm at h
  split at h
  · next x e => exact .inl ⟨x, e, h.symm⟩
  · next e =>
    refine .inr ?_
    split at h
    · next f e1 => exact .inl ⟨e, f, e1, h.symm⟩
    · next e1 =>
      refine .inr ?_
      dsimp only at h
      split at h
      · next e2 => exact .inl ⟨e, e1, e2, h.symm⟩
      · next e2 =>
        have e2 := eq_false_of_ne_true e2
        refine .inr ?_
        split at h
        · next v e3 =>
          refine .inl ⟨e, e1, e2, v, e3, ?_⟩
          split at h
          · next e4 => exact .inl ⟨e4, h⟩
          · next e4 => exact .inr ⟨eq_false_of_ne_true e4, h.symm⟩
        · next e3 => exact .inr ⟨e, e1, e2, e3, h.symm⟩

/-- A block store gets no answer, or makes all its transfers (R86, R314). -/
theorem State.storeBlock_cases {s : State} {bank : Mode} {rn : RegNo} {w : Bool} {start final : Word} {list : BitVec 16} {r : Result}
    (h : s.storeBlock bank rn w start final list = r) :
    (∃ f, s.blockFault .write (regList list).length start = some f ∧ r = .fault f)
    ∨ (s.blockFault .write (regList list).length start = none ∧ r = .next (s.blockStore bank rn w start final list)) := by
  unfold State.storeBlock at h
  split at h
  · next f e => exact .inl ⟨f, e, h.symm⟩
  · next e => exact .inr ⟨e, h.symm⟩

theorem State.blockStm_cases {s : State} {p u sb w : Bool} {rn : RegNo} {list : BitVec 16} {r : Result} (h : s.blockStm p u sb w rn list = r) :
    (∃ x, blockRefusal false sb w rn list s.cpsr.mode = some x ∧ r = .refused x)
    ∨ (blockRefusal false sb w rn list s.cpsr.mode = none
        ∧ s.storeBlock (s.transferBank false sb list) rn w (blockStart p u (s.reg 0 rn) list) (blockFinal u (s.reg 0 rn) list) list = r) := by
  unfold State.blockStm at h
  split at h
  · next x e => exact .inl ⟨x, e, h.symm⟩
  · next e => exact .inr ⟨e, h⟩

theorem State.thumbPush_cases {s : State} {list : BitVec 16} {r : Result} (h : s.thumbPush list = r) :
    (list = 0 ∧ r = .refused .emptyRegisterList)
    ∨ (list ≠ 0 ∧ s.storeBlock s.cpsr.mode SP true (blockStart true false (s.reg 4 SP) list) (blockFinal false (s.reg 4 SP) list) list = r) := by
  unfold State.thumbPush at h
  split at h
  · next e => exact .inl ⟨e, h.symm⟩
  · next e => exact .inr ⟨e, h⟩

theorem State.thumbLoadMultiple_cases {s : State} {rb : RegNo} {list : BitVec 16} {r : Result} (h : s.thumbLoadMultiple rb list = r) :
    let b := s.blockLoads s.cpsr.mode rb true (blockStart false true (s.reg 4 rb) list) (blockFinal true (s.reg 4 rb) list) list
    let bf := s.blockFault .read (regList list).length (blockStart false true (s.reg 4 rb) list)
    let after := s.afterBlock (regList list).length (blockStart false true (s.reg 4 rb) list)
    (list = 0 ∧ r = .refused .emptyRegisterList)
    ∨ (list ≠ 0 ∧ ∃ f, bf = some f ∧ r = .fault f)
    ∨ (list ≠ 0 ∧ bf = none ∧ b.aborted = true ∧ r = .next (after.blockLoadAbort rb true (blockFinal true (s.reg 4 rb) list) b.regs))
    ∨ (list ≠ 0 ∧ bf = none ∧ b.aborted = false ∧ ∃ v, b.target = some v ∧ r = .next (State.branch { after with regs := b.regs } v))
    ∨ (list ≠ 0 ∧ bf = none ∧ b.aborted = false ∧ b.target = none ∧ r = .next (State.advance { after with regs := b.regs })) := by
  intro b bf after
  unfold State.thumbLoadMultiple at h
  split at h
  · next e => exact .inl ⟨e, h.symm⟩
  · next e =>
    refine .inr ?_
    split at h
    · next f e1 => exact .inl ⟨e, f, e1, h.symm⟩
    · next e1 =>
      refine .inr ?_
      dsimp only at h
      split at h
      · next e2 => exact .inl ⟨e, e1, e2, h.symm⟩
      · next e2 =>
        have e2 := eq_false_of_ne_true e2
        refine .inr ?_
        split at h
        · next v e3 => exact .inl ⟨e, e1, e2, v, e3, h.symm⟩
        · next e3 => exact .inr ⟨e, e1, e2, e3, h.symm⟩

/-- The loads of a block none of whose words is refused (R317). -/
theorem State.blockLoads_accepted (s : State) (bank : Mode) (rn : RegNo) (w : Bool) (start final : Word) (list : BitVec 16)
    (ha : s.blockAccepted .read start (regList list).length) :
    let b := s.blockLoads bank rn w start final list
    b.aborted = false
    ∧ b.target = (if list.getLsbD 15 then some (s.readWord (slot start ((regList list).length - 1))) else none)
    ∧ (∀ k i r, (regList list)[k]? = some i → physReg bank i = some r → b.regs.get r = s.readWord (slot start k))
    ∧ ∀ r, (∀ i ∈ regList list, physReg bank i ≠ some r) → b.regs.get r = (if w then s.setReg rn final else s).regs.get r := by
  have h := s.loadWords_accepted bank (regList list) start (if w then s.setReg rn final else s).regs (regList_nodup list)
    (fun _ hk e => regList_ne_pc e hk rfl) ha
  have hm : PC ∈ regList list ↔ list.getLsbD 15 = true := mem_regList list PC
  simp only [hm] at h
  exact h

/-- The loads of a block whose j-th word is the first refused one (R327). -/
theorem State.blockLoads_aborted (s : State) (bank : Mode) (rn : RegNo) (w : Bool) (start final : Word) (list : BitVec 16) (j : Nat)
    (hj : j < (regList list).length) (ha : s.blockAccepted .read start j)
    (hab : s.aborted .read .word s.privileged (slot start j) = true) :
    let b := s.blockLoads bank rn w start final list
    b.aborted = true
    ∧ (∀ k i r, k < j → (regList list)[k]? = some i → physReg bank i = some r → b.regs.get r = s.readWord (slot start k))
    ∧ ∀ r, (∀ k i, k < j → (regList list)[k]? = some i → physReg bank i ≠ some r) →
        b.regs.get r = (if w then s.setReg rn final else s).regs.get r :=
  s.loadWords_aborted bank (regList list) start _ (regList_nodup list) (fun _ hk e => regList_ne_pc e hk rfl) j hj ha hab

/-- The end of an aborted block load (R327). -/
theorem State.blockLoadAbort_enters (s : State) (rn : RegNo) (w : Bool) (final : Word) (g : Regs) :
    State.Enters (State.setReg { s with regs := g } rn (if w then final else s.reg 0 rn)) (s.blockLoadAbort rn w final g) .abt 0x10
      (s.pc + 8) s.cpsr.f := by
  have h := State.takeException_enters (State.setReg { s with regs := g } rn (if w then final else s.reg 0 rn)) .dataAbort
  simpa [State.blockLoadAbort, Exc.spsrMode, SpsrMode.mode, Exc.vector, Exc.link, Exc.setsF] using h

/-! ### A step -/

/-- What a boundary takes before the instruction (R501, R505). -/
theorem State.boundaryException_cases (s : State) (lines : Sample) :
    (lines.reset = true ∧ s.boundaryException lines = some s.takeReset)
    ∨ (lines.reset = false ∧ (lines.fiq && !s.cpsr.f) = true ∧ s.boundaryException lines = some (s.takeException .fiq))
    ∨ (lines.reset = false ∧ (lines.fiq && !s.cpsr.f) = false ∧ (lines.irq && !s.cpsr.i) = true
        ∧ s.boundaryException lines = some (s.takeException .irq))
    ∨ (lines.reset = false ∧ (lines.fiq && !s.cpsr.f) = false ∧ (lines.irq && !s.cpsr.i) = false ∧ s.fetchAborts = true
        ∧ s.boundaryException lines = some (s.takeException .prefetchAbort))
    ∨ (lines.reset = false ∧ (lines.fiq && !s.cpsr.f) = false ∧ (lines.irq && !s.cpsr.i) = false ∧ s.fetchAborts = false
        ∧ s.boundaryException lines = none) := by
  unfold State.boundaryException
  cases lines.reset <;> cases (lines.fiq && !s.cpsr.f) <;> cases (lines.irq && !s.cpsr.i) <;> cases s.fetchAborts <;> simp

/-- A read that no device answers draws nothing. -/
theorem State.afterRead_memory {s : State} {size : AccessSize} {a : Word} (h : s.onDevice size a = false) : s.afterRead size a = s := by
  simp [State.afterRead, h]

/-- The instruction fetched from memory (R85). -/
theorem State.fetch_memory {s : State} (h : s.onDevice s.fetchSize s.pc = false) :
    s.fetch = if s.cpsr.t then decodeThumb (s.halfAt s.pc) else decodeArm (s.wordAt s.pc) := by
  unfold State.fetchSize at h
  unfold State.fetch State.readHalf State.readWord
  cases ht : s.cpsr.t <;> simp_all

/-- A step is an exception of the boundary, a stop, or the fetched instruction (R501, R86, R98, R551). -/
theorem step_cases {s : State} {r : Result} (h : step s = r) :
    (∃ u, s.atBoundary.boundaryException s.sample = some u ∧ r = .next u)
    ∨ (s.atBoundary.boundaryException s.sample = none ∧ s.prefetch.current = true ∧ r = .fault .overwrittenPrefetch)
    ∨ (s.atBoundary.boundaryException s.sample = none ∧ s.prefetch.current = false ∧ ∃ f, s.fetchFault = some f ∧ r = .fault f)
    ∨ (s.atBoundary.boundaryException s.sample = none ∧ s.prefetch.current = false ∧ s.fetchFault = none
        ∧ s.atBoundary.hitsBankHazard s.atBoundary.fetch = true ∧ r = .fault .bankedRegisterAfterUserLdm)
    ∨ (s.atBoundary.boundaryException s.sample = none ∧ s.prefetch.current = false ∧ s.fetchFault = none
        ∧ s.atBoundary.hitsBankHazard s.atBoundary.fetch = false
        ∧ exec s.atBoundary.fetch { s.atBoundary.afterRead s.fetchSize s.pc with bankHazard := false } = r) := by
  unfold step at h
  dsimp only at h
  split at h
  · next u e => exact .inl ⟨u, e, h.symm⟩
  · next e =>
    rw [State.atBoundary_prefetch] at h
    split at h
    · next e2 => exact .inr (.inl ⟨e, e2, h.symm⟩)
    · next e2 =>
      have e2 := eq_false_of_ne_true e2
      refine .inr (.inr ?_)
      split at h
      · next f e3 => exact .inl ⟨e, e2, f, e3, h.symm⟩
      · next e3 =>
        refine .inr ?_
        split at h
        · next e4 => exact .inl ⟨e, e2, e3, e4, h.symm⟩
        · next e4 => exact .inr ⟨e, e2, e3, eq_false_of_ne_true e4, h⟩

end Sys2Proof.Machine
end

