-- ==== Sys2Proof/Tests/Slice0.lean ====
section
/-!
SUPPORT. Tests: the well-formedness checks, the decoding of every constructor's word, single steps, and states that meet the
hypotheses of the statements. Words come from the masks and fields of spec/opcode_table.json, steps from the vectors X, Y and V of
spec/95_test_vectors.md and spec/96_derived_vectors.md, named in the comments.
-/

namespace Sys2Proof.Tests

open Sys2Proof Sys2Proof.Machine

/-! ## Helpers -/

/-- A region over every address that refuses every data access. -/
def everyData : AbortRegion :=
  { first := 0, last := 0xFFFFFFFF, fetch := false, read := true, write := true, privileged := true, nonPrivileged := true,
    byteAccess := true, halfAccess := true, wordAccess := true }

/-- A CPSR with interrupts enabled. -/
def status (mode : Mode) (thumb : Bool) (nzcv : BitVec 4) : Cpsr :=
  { n := nzcv[3], z := nzcv[2], c := nzcv[1], v := nzcv[0], i := false, f := false, t := thumb, mode := mode }

/-- A state at address 0x8000 with some registers of its mode and some memory words. -/
def start (thumb : Bool) (regs : List (RegNo × Word)) (nzcv : BitVec 4) (mode : Mode) (mem : List (Word × Word)) : State :=
  let s : State := { State.reset with pc := 0x8000, cpsr := status mode thumb nzcv }
  let s := regs.foldl (fun s r => s.setReg r.1 r.2) s
  { mem.foldl (fun s m => s.storeValue .word m.1 m.2) s with prefetch := Prefetch.fresh }

/-- A state about to run an ARM word. -/
def arm (w : Nat) (regs : List (RegNo × Word) := []) (nzcv : BitVec 4 := 0) (mode : Mode := .usr)
    (mem : List (Word × Word) := []) : State :=
  (start false regs nzcv mode mem).withFetchWord 32 w

/-- A state about to run a THUMB halfword. -/
def thumb (h : Nat) (regs : List (RegNo × Word) := []) (nzcv : BitVec 4 := 0) (mode : Mode := .usr)
    (mem : List (Word × Word) := []) : State :=
  (start true regs nzcv mode mem).withFetchWord 16 h

/-- The step faults for a reason. -/
def faults (s : State) (why : Fault) : Bool :=
  match step s with
  | .next _ => false
  | .fault f => f == why
  | .refused _ => false

/-- A next state that a check accepts. -/
def answers (r : Result) (check : State → Bool) : Bool :=
  match r with
  | .next t => check t
  | .fault _ => false
  | .refused _ => false

/-- The step answers a state that a check accepts. -/
def after (s : State) (check : State → Bool) : Bool :=
  answers (step s) check

/-- The step leads to these registers, flags, pc and memory words, in the mode of the state before. -/
def gives (s : State) (regs : List (RegNo × Word)) (nzcv : BitVec 4) (pc : Word) (mem : List (Word × Word) := []) : Bool :=
  after s fun t =>
    regs.all (fun r => t.reg 0 r.1 == r.2) && t.cpsr == { s.cpsr with n := nzcv[3], z := nzcv[2], c := nzcv[1], v := nzcv[0] }
      && t.pc == pc && mem.all (fun m => t.wordAt m.1 == m.2)

/-- The step enters an exception mode from the state: link, vector, saved flags. -/
def enters (s : State) (mode : Mode) (vector link : Word) : Bool :=
  after s fun t =>
    t.cpsr.mode == mode && !t.cpsr.t && t.cpsr.i && t.pc == vector && t.reg 0 LR == link && t.spsr == some s.cpsr.toPsr

/-- The step is refused for a reason. -/
def refuses (s : State) (why : Refusal) : Bool :=
  match step s with
  | .next _ => false
  | .fault _ => false
  | .refused r => r == why


/-! ## Decoding: a word of every row of the opcode table, its fields put into the mask of the row -/

/-- Words of BX, B, BL. -/
theorem test_decode_branches :
    decodeArm 0x112FFF13#32 = .bx .ne 3
    ∧ decodeArm 0x1A5675F7#32 = .b .ne 0x5675F7
    ∧ decodeArm 0x2B3451D1#32 = .bl .cs 0x3451D1 := by
  decide

/-- Words of multiplies. -/
theorem test_decode_multiplies :
    decodeArm 0x201B129E#32 = .mul .cs true 11 1 2 14
    ∧ decodeArm 0x3026A19F#32 = .mla .cc false 6 10 1 15
    ∧ decodeArm 0x40812797#32 = .umull .mi false 1 2 7 7
    ∧ decodeArm 0x50A42997#32 = .umlal .pl false 4 2 9 7
    ∧ decodeArm 0x60CEA294#32 = .smull .vs false 14 10 2 4
    ∧ decodeArm 0x70EAA791#32 = .smlal .vc false 10 10 7 1 := by
  decide

/-- Words of halfword and signed transfers. -/
theorem test_decode_halfwordTransfers :
    decodeArm 0xA10A50B9#32 = .strhReg .ge true false false 10 5 9
    ∧ decodeArm 0xB04629BD#32 = .strhImm .lt false false false 6 2 157
    ∧ decodeArm 0xC018B0B9#32 = .ldrhReg .gt false false false 8 11 9
    ∧ decodeArm 0xD1FAF8B5#32 = .ldrhImm .le true true true 10 15 133
    ∧ decodeArm 0xE19D30DC#32 = .ldrsbReg .al true true false 13 3 12
    ∧ decodeArm 0x00798FD1#32 = .ldrsbImm .eq false false true 9 8 241
    ∧ decodeArm 0x11BA20F2#32 = .ldrshReg .ne true true true 10 2 2
    ∧ decodeArm 0x2173F8FE#32 = .ldrshImm .cs true false true 3 15 142 := by
  decide

/-- Words of signed stores. -/
theorem test_decode_signedStores :
    decodeArm 0x310D90DA#32 = .signedStoreByteReg .cc true false false 13 9 10
    ∧ decodeArm 0x41EA8AD5#32 = .signedStoreByteImm .mi true true true 10 8 165
    ∧ decodeArm 0x510580FC#32 = .signedStoreHalfReg .pl true false false 5 8 12
    ∧ decodeArm 0x606BABFF#32 = .signedStoreHalfImm .vs false false true 11 10 191 := by
  decide

/-- Words of PSR transfers. -/
theorem test_decode_psrTransfers :
    decodeArm 0x814F5000#32 = .mrs .hi true 5
    ∧ decodeArm 0x9169F00F#32 = .msr .ls true 15
    ∧ decodeArm 0xA168F001#32 = .msrFlg .ge true 1
    ∧ decodeArm 0xB368F62C#32 = .msrFlgImm .lt true 6 44 := by
  decide

/-- Words of data processing, first half. -/
theorem test_decode_dataProcessing :
    decodeArm 0xD0081CA5#32 = .and .le false 8 1 (.shiftImm .lsr 25 5)
    ∧ decodeArm 0xE02C477E#32 = .eor .al false 12 4 (.shiftReg .ror 7 14)
    ∧ decodeArm 0x02523867#32 = .sub .eq true 2 3 (.imm 8 103)
    ∧ decodeArm 0x107F3E69#32 = .rsb .ne true 15 3 (.shiftImm .ror 28 9)
    ∧ decodeArm 0x209C7B57#32 = .add .cs true 12 7 (.shiftReg .asr 11 7)
    ∧ decodeArm 0x32A32327#32 = .adc .cc false 3 2 (.imm 3 39)
    ∧ decodeArm 0x40CB480E#32 = .sbc .mi false 11 4 (.shiftImm .lsl 16 14)
    ∧ decodeArm 0x50E55317#32 = .rsc .pl false 5 5 (.shiftReg .lsl 3 7) := by
  decide

/-- Words of data processing, second half. -/
theorem test_decode_dataProcessing2 :
    decodeArm 0x63196A91#32 = .tst .vs 9 6 (.imm 10 145)
    ∧ decodeArm 0x7136378E#32 = .teq .vc 6 3 (.shiftImm .lsl 15 14)
    ∧ decodeArm 0x815DE777#32 = .cmp .hi 13 14 (.shiftReg .ror 7 7)
    ∧ decodeArm 0x937728A3#32 = .cmn .ls 7 2 (.imm 8 163)
    ∧ decodeArm 0xA1914388#32 = .orr .ge true 1 4 (.shiftImm .lsl 7 8)
    ∧ decodeArm 0xB1A26211#32 = .mov .lt false 2 6 (.shiftReg .lsl 2 1)
    ∧ decodeArm 0xC3C9269E#32 = .bic .gt false 9 2 (.imm 6 158)
    ∧ decodeArm 0xD1E2EA27#32 = .mvn .le false 2 14 (.shiftImm .lsr 20 7) := by
  decide

/-- Words of word and byte transfers. -/
theorem test_decode_singleTransfers :
    decodeArm 0x04BA6797#32 = .ldrt .eq true 10 6 (.imm 1943)
    ∧ decodeArm 0x1672E7E8#32 = .ldrbt .ne false 2 14 (.reg .ror 15 8)
    ∧ decodeArm 0x24A5224F#32 = .strt .cs true 5 2 (.imm 591)
    ∧ decodeArm 0x366C684E#32 = .strbt .cc false 12 6 (.reg .asr 16 14)
    ∧ decodeArm 0x45391349#32 = .ldr .mi false (.pre true) 9 1 (.imm 841)
    ∧ decodeArm 0x56D3CC89#32 = .ldrb .pl true .post 3 12 (.reg .lsl 25 9)
    ∧ decodeArm 0x658BE175#32 = .str .vs true (.pre false) 11 14 (.imm 373)
    ∧ decodeArm 0x77E9662D#32 = .strb .vc true (.pre true) 9 6 (.reg .lsr 12 13) := by
  decide

/-- Words of block transfers. -/
theorem test_decode_blockTransfers :
    decodeArm 0x88BB391A#32 = .ldmia .hi false true 11 0x391A
    ∧ decodeArm 0x999E6694#32 = .ldmib .ls false false 14 0x6694
    ∧ decodeArm 0xA8197E27#32 = .ldmda .ge false false 9 0x7E27
    ∧ decodeArm 0xB951CA45#32 = .ldmdb .lt true false 1 0xCA45
    ∧ decodeArm 0xC8E53193#32 = .stmia .gt true true 5 0x3193
    ∧ decodeArm 0xD9EDEFE1#32 = .stmib .le true true 13 0xEFE1
    ∧ decodeArm 0xE8623871#32 = .stmda .al true true 2 0x3871
    ∧ decodeArm 0x0908325C#32 = .stmdb .eq false false 8 0x325C := by
  decide

/-- Words of swap, SWI, coprocessor, undefined. -/
theorem test_decode_others :
    decodeArm 0x81041099#32 = .swp .hi 4 1 9
    ∧ decodeArm 0x914E3095#32 = .swpb .ls 14 3 5
    ∧ decodeArm 0x8F77216F#32 = .swi .hi 0x77216F
    ∧ decodeArm 0xE6981D98#32 = .undefined .al 0x4C0EC#20 0x8#4
    ∧ decodeArm 0x3D6DB2D6#32 = .stc .cc true false true true 13 11 2 214
    ∧ decodeArm 0x4CBF37CB#32 = .ldc .mi false true false true 15 3 7 203
    ∧ decodeArm 0x5EB62DC7#32 = .cdp .pl 11 6 2 13 6 7
    ∧ decodeArm 0x6E87C2D3#32 = .mcr .vs 4 7 12 2 6 3
    ∧ decodeArm 0x7E5313BF#32 = .mrc .vc 2 3 1 3 5 15 := by
  decide

/-- Words of reserved and not defined. -/
theorem test_decode_reserved :
    decodeArm 0xFA5CD687#32 = .reservedCondition 0xA5CD687#28
    ∧ decodeArm 0x7040F290#32 = .notDefinedExtension .vc 0x040F290#28
    ∧ decodeArm 0xC1012003#32 = .notDefinedTest .gt 0x1012003#28 := by
  decide

/-- Words of formats 1 to 3. -/
theorem test_decode_formats1to3 :
    decodeThumb 0x06B2#16 = .tLslImm 26 6 2
    ∧ decodeThumb 0x0D3D#16 = .tLsrImm 20 7 5
    ∧ decodeThumb 0x1433#16 = .tAsrImm 16 6 3
    ∧ decodeThumb 0x18AD#16 = .tAddReg 2 5 5
    ∧ decodeThumb 0x1A89#16 = .tSubReg 2 1 1
    ∧ decodeThumb 0x1DF6#16 = .tAddImm3 7 6 6
    ∧ decodeThumb 0x1E6E#16 = .tSubImm3 1 5 6
    ∧ decodeThumb 0x2270#16 = .tMovImm 2 112
    ∧ decodeThumb 0x2F32#16 = .tCmpImm 7 50
    ∧ decodeThumb 0x37E0#16 = .tAddImm 7 224
    ∧ decodeThumb 0x3A08#16 = .tSubImm 2 8 := by
  decide

/-- Words of format 4. -/
theorem test_decode_format4 :
    decodeThumb 0x401A#16 = .tAnd 3 2
    ∧ decodeThumb 0x405D#16 = .tEor 3 5
    ∧ decodeThumb 0x4097#16 = .tLsl 2 7
    ∧ decodeThumb 0x40EB#16 = .tLsr 5 3
    ∧ decodeThumb 0x411D#16 = .tAsr 3 5
    ∧ decodeThumb 0x4167#16 = .tAdc 4 7
    ∧ decodeThumb 0x4191#16 = .tSbc 2 1
    ∧ decodeThumb 0x41F3#16 = .tRor 6 3
    ∧ decodeThumb 0x4226#16 = .tTst 4 6
    ∧ decodeThumb 0x426F#16 = .tNeg 5 7
    ∧ decodeThumb 0x42AC#16 = .tCmp 5 4
    ∧ decodeThumb 0x42FD#16 = .tCmn 7 5
    ∧ decodeThumb 0x4315#16 = .tOrr 2 5
    ∧ decodeThumb 0x4355#16 = .tMul 2 5
    ∧ decodeThumb 0x43A9#16 = .tBic 5 1
    ∧ decodeThumb 0x43FC#16 = .tMvn 7 4 := by
  decide

/-- Words of format 5. -/
theorem test_decode_format5 :
    decodeThumb 0x44CA#16 = .tAddHi 9 10
    ∧ decodeThumb 0x45C5#16 = .tCmpHi 8 13
    ∧ decodeThumb 0x464B#16 = .tMovHi 9 3
    ∧ decodeThumb 0x4765#16 = .tBx false 12 5 := by
  decide

/-- Words of formats 6 to 11. -/
theorem test_decode_formats6to11 :
    decodeThumb 0x4DBA#16 = .tLdrPc 5 186
    ∧ decodeThumb 0x5069#16 = .tStrReg 1 5 1
    ∧ decodeThumb 0x54F5#16 = .tStrbReg 3 6 5
    ∧ decodeThumb 0x596C#16 = .tLdrReg 5 5 4
    ∧ decodeThumb 0x5DF9#16 = .tLdrbReg 7 7 1
    ∧ decodeThumb 0x534A#16 = .tStrhReg 5 1 2
    ∧ decodeThumb 0x5699#16 = .tLdsbReg 2 3 1
    ∧ decodeThumb 0x5BCD#16 = .tLdrhReg 7 1 5
    ∧ decodeThumb 0x5F29#16 = .tLdshReg 4 5 1
    ∧ decodeThumb 0x664C#16 = .tStrImm 25 1 4
    ∧ decodeThumb 0x6AED#16 = .tLdrImm 11 5 5
    ∧ decodeThumb 0x752A#16 = .tStrbImm 20 5 2
    ∧ decodeThumb 0x7DDC#16 = .tLdrbImm 23 3 4
    ∧ decodeThumb 0x846F#16 = .tStrhImm 17 5 7
    ∧ decodeThumb 0x8C2A#16 = .tLdrhImm 16 5 2
    ∧ decodeThumb 0x9686#16 = .tStrSp 6 134
    ∧ decodeThumb 0x9BED#16 = .tLdrSp 3 237 := by
  decide

/-- Words of formats 12 to 15. -/
theorem test_decode_formats12to15 :
    decodeThumb 0xA5E5#16 = .tAddPc 5 229
    ∧ decodeThumb 0xAAD8#16 = .tAddSp 2 216
    ∧ decodeThumb 0xB03A#16 = .tSpPlus 58
    ∧ decodeThumb 0xB092#16 = .tSpMinus 18
    ∧ decodeThumb 0xB46B#16 = .tPush 107
    ∧ decodeThumb 0xB520#16 = .tPushLr 32
    ∧ decodeThumb 0xBC65#16 = .tPop 101
    ∧ decodeThumb 0xBD72#16 = .tPopPc 114
    ∧ decodeThumb 0xC313#16 = .tStmia 3 19
    ∧ decodeThumb 0xCE3E#16 = .tLdmia 6 62 := by
  decide

/-- Words of format 16. -/
theorem test_decode_format16 :
    decodeThumb 0xD06E#16 = .tBeq 110
    ∧ decodeThumb 0xD113#16 = .tBne 19
    ∧ decodeThumb 0xD237#16 = .tBcs 55
    ∧ decodeThumb 0xD3AC#16 = .tBcc 172
    ∧ decodeThumb 0xD44E#16 = .tBmi 78
    ∧ decodeThumb 0xD5C9#16 = .tBpl 201
    ∧ decodeThumb 0xD620#16 = .tBvs 32
    ∧ decodeThumb 0xD7E6#16 = .tBvc 230
    ∧ decodeThumb 0xD8C7#16 = .tBhi 199
    ∧ decodeThumb 0xD928#16 = .tBls 40
    ∧ decodeThumb 0xDAF1#16 = .tBge 241
    ∧ decodeThumb 0xDBB8#16 = .tBlt 184
    ∧ decodeThumb 0xDCA5#16 = .tBgt 165
    ∧ decodeThumb 0xDDAA#16 = .tBle 170
    ∧ decodeThumb 0xDE5E#16 = .tCond1110 0x5E#8 := by
  decide

/-- Words of formats 17 to 19. -/
theorem test_decode_formats17to19 :
    decodeThumb 0xDF25#16 = .tSwi 37
    ∧ decodeThumb 0xE207#16 = .tB 519
    ∧ decodeThumb 0xF711#16 = .tBlFirst 1809
    ∧ decodeThumb 0xF91A#16 = .tBlSecond 282 := by
  decide

/-- Words of halfwords that are no instruction. -/
theorem test_decode_notAllocated :
    decodeThumb 0xB1F8#16 = .tFreeB1 0xF8#8
    ∧ decodeThumb 0xB2F0#16 = .tFreeB2 240
    ∧ decodeThumb 0xB671#16 = .tFreeB6 113
    ∧ decodeThumb 0xBAFD#16 = .tFreeB8 765
    ∧ decodeThumb 0xBFE8#16 = .tFreeBE 488
    ∧ decodeThumb 0xE8C1#16 = .tFreeE8 193 := by
  decide
/-! ## Steps of the spec's vectors -/

/-- V5.101: MUL R0,R1,R2 -/
theorem test_mul :
    gives (arm 0xE0000291 [(1, 0xFFFFFFFF), (2, 0xFFFFFFFF)] (nzcv := 0b1111))
      [(0, 0x1)] 0b1111 0x8004 = true := by
  decide
/-- V5.109: UMULL R0,R1,R2,R3 -/
theorem test_umull :
    gives (arm 0xE0810392 [(2, 0xFFFFFFFF), (3, 0xFFFFFFFF)])
      [(0, 0x1), (1, 0xFFFFFFFE)] 0b0000 0x8004 = true := by
  decide
/-- X5.29: SMULL R0,R1,R2,R3 -/
theorem test_smull :
    gives (arm 0xE0C10392 [(2, 0xFFFFFFF6), (3, 0x14)])
      [(0, 0xFFFFFF38), (1, 0xFFFFFFFF)] 0b0000 0x8004 = true := by
  decide
/-- V9.201: SWP R0,R1,[R2] -/
theorem test_swp :
    gives (arm 0xE1020091 [(1, 0xAABBCCDD), (2, 0x1003)] (mem := [(0x1000, 0x44332211)]))
      [(0, 0x33221144)] 0b0000 0x8004 [(0x1000, 0xAABBCCDD)] = true := by
  decide
/-- V9.199: SWPB R0,R1,[R2] -/
theorem test_swpb :
    gives (arm 0xE1420091 [(1, 0xFFFFFF99), (2, 0x1003)] (mem := [(0x1000, 0x44332211)]))
      [(0, 0x44)] 0b0000 0x8004 [(0x1000, 0x99332211)] = true := by
  decide
/-- V15.325: 0xE10200B1 = STRH R0,[R2,-R1] -/
theorem test_strhReg :
    gives (arm 0xE10200B1 [(0, 0xBEEF), (1, 0x2), (2, 0x1002)] (mem := [(0x1000, 0x0)]))
      [(0, 0xBEEF), (1, 0x2), (2, 0x1002)] 0b0000 0x8004 [(0x1000, 0xBEEF)] = true := by
  decide
/-- V7.165: STRH R0,[R1,#2] -/
theorem test_strhImm :
    gives (arm 0xE1C100B2 [(0, 0xAAAABBBB), (1, 0x1000)] (mem := [(0x1000, 0x80FF7F01), (0x1004, 0x1234ABCD)]))
      [(0, 0xAAAABBBB), (1, 0x1000)] 0b0000 0x8004 [(0x1000, 0xBBBB7F01)] = true := by
  decide
/-- X8.42: LDRH R1,[R2,-R3]! -/
theorem test_ldrhReg :
    gives (arm 0xE13210B3 [(2, 0x1010), (3, 0xE)] (mem := [(0x1000, 0xBEEF1234)]))
      [(2, 0x1002), (1, 0xBEEF)] 0b0000 0x8004 = true := by
  decide
/-- V7.155: LDRH R0,[R1] -/
theorem test_ldrhImm :
    gives (arm 0xE1D100B0 [(1, 0x1000)] (mem := [(0x1000, 0x80FF7F01), (0x1004, 0x1234ABCD)]))
      [(0, 0x7F01)] 0b0000 0x8004 = true := by
  decide
/-- X8.44: LDRSB R8,[R2],#-223 -/
theorem test_ldrsbImm :
    gives (arm 0xE0528DDF [(2, 0x1001)] (mem := [(0x1000, 0x8000)]))
      [(2, 0xF22), (8, 0xFFFFFF80)] 0b0000 0x8004 = true := by
  decide
/-- X8.45: LDRNESH R11,[R0] -/
theorem test_ldrshImm :
    gives (arm 0x11D0B0F0 [(0, 0x1000)] (mem := [(0x1000, 0x1234FFFE)]))
      [(11, 0xFFFFFFFE)] 0b0000 0x8004 = true := by
  decide
/-- V4.95: MSR CPSR_flg,R0 -/
theorem test_msrFlg : gives (arm 0xE128F000 [(0, 0x900000FF)] (mode := .svc)) [(0, 0x900000FF)] 0b1001 0x8004 = true := by decide
/-- X4.18: MSR CPSR_flg,#0xF0000000 -/
theorem test_msrFlgImm : gives (arm 0xE328F20F) [] 0b1111 0x8004 = true := by decide
/-- V3.51: ANDS R0,R1,R2 -/
theorem test_and :
    gives (arm 0xE0110002 [(1, 0xF0F0F0F0), (2, 0xF0F0F0F)] (nzcv := 0b1011))
      [(0, 0x0)] 0b0111 0x8004 = true := by
  decide
/-- V3.52: EORS R0,R1,R2 -/
theorem test_eor : gives (arm 0xE0310002 [(1, 0xFFFFFFFF), (2, 0x7FFFFFFF)]) [(0, 0x80000000)] 0b1000 0x8004 = true := by decide
/-- V3.64: SUBS R0,R1,R2 -/
theorem test_sub : gives (arm 0xE0510002 [(1, 0x80000000), (2, 0x1)]) [(0, 0x7FFFFFFF)] 0b0011 0x8004 = true := by decide
/-- S8.75: RSB R0,R0,R0,LSL #3 -/
theorem test_rsb : gives (arm 0xE0600180 [(0, 0x7)]) [(0, 0x31)] 0b0000 0x8004 = true := by decide
/-- V3.61: ADDS R0,R1,R2 -/
theorem test_add : gives (arm 0xE0910002 [(1, 0x80000000), (2, 0x80000000)]) [(0, 0x0)] 0b0111 0x8004 = true := by decide
/-- V3.75: ADD R0,R15,R1,LSL R2 -/
theorem test_add_b : gives (arm 0xE08F0211 [(1, 0x0), (2, 0x0)]) [(0, 0x800C)] 0b0000 0x8004 = true := by decide
/-- V3.66: ADCS R0,R1,R2 -/
theorem test_adc :
    gives (arm 0xE0B10002 [(1, 0xFFFFFFFF), (2, 0x0)] (nzcv := 0b0010))
      [(0, 0x0)] 0b0110 0x8004 = true := by
  decide
/-- V3.68: SBCS R0,R1,R2 -/
theorem test_sbc : gives (arm 0xE0D10002 [(1, 0x5), (2, 0x5)]) [(0, 0xFFFFFFFF)] 0b1000 0x8004 = true := by decide
/-- V3.70: RSCS R0,R1,R2 -/
theorem test_rsc : gives (arm 0xE0F10002 [(1, 0x1), (2, 0x3)]) [(0, 0x1)] 0b0010 0x8004 = true := by decide
/-- V3.57: TST R1,#1 -/
theorem test_tst : gives (arm 0xE3110001 [(1, 0x2)] (nzcv := 0b0011)) [(1, 0x2)] 0b0111 0x8004 = true := by decide
/-- V3.58: TEQ R1,R2 -/
theorem test_teq :
    gives (arm 0xE1310002 [(1, 0x80000000), (2, 0x0)])
      [(1, 0x80000000), (2, 0x0)] 0b1000 0x8004 = true := by
  decide
/-- V3.71: CMP R1,R2 -/
theorem test_cmp : gives (arm 0xE1510002 [(1, 0x1), (2, 0x2)]) [(1, 0x1), (2, 0x2)] 0b1000 0x8004 = true := by decide
/-- V3.72: CMN R1,R2 -/
theorem test_cmn :
    gives (arm 0xE1710002 [(1, 0x1), (2, 0xFFFFFFFF)])
      [(1, 0x1), (2, 0xFFFFFFFF)] 0b0110 0x8004 = true := by
  decide
/-- V3.53: ORRS R0,R1,#0x80000000 -/
theorem test_orr : gives (arm 0xE3910102 [(1, 0x1)]) [(0, 0x80000001)] 0b1010 0x8004 = true := by decide
/-- V2.16: MOVS R0,R1,RRX -/
theorem test_mov : gives (arm 0xE1B00061 [(1, 0x80000001)] (nzcv := 0b0010)) [(0, 0xC0000000)] 0b1010 0x8004 = true := by decide
/-- V2.39: MOVS R0,R1,ROR R2 -/
theorem test_mov_b :
    gives (arm 0xE1B00271 [(1, 0x80000001), (2, 0x0)] (nzcv := 0b0010))
      [(0, 0x80000001)] 0b1010 0x8004 = true := by
  decide
/-- V3.54: BICS R0,R1,R2 -/
theorem test_bic : gives (arm 0xE1D10002 [(1, 0xFFFF), (2, 0xFF0F)]) [(0, 0xF0)] 0b0000 0x8004 = true := by decide
/-- V3.55: MVNS R0,R1 -/
theorem test_mvn : gives (arm 0xE1F00001 [(1, 0x0)]) [(0, 0xFFFFFFFF)] 0b1000 0x8004 = true := by decide
/-- V6.121: LDR R0,[R1] -/
theorem test_ldr :
    gives (arm 0xE5910000 [(1, 0x1001)] (mem := [(0x1000, 0x44332211), (0x1004, 0x88776655)]))
      [(0, 0x11443322)] 0b0000 0x8004 = true := by
  decide
/-- V6.126: LDR R0,[R1] -/
theorem test_ldr_b :
    gives (arm 0xE5910000 [(1, 0x1002)] (mem := [(0x1000, 0x44332211), (0x1004, 0x88776655)]))
      [(0, 0x22114433)] 0b0000 0x8004 = true := by
  decide
/-- X7.38: LDREQB R1,[R6,#5] -/
theorem test_ldrb :
    gives (arm 0x5D61005 [(6, 0x1000)] (nzcv := 0b0100) (mem := [(0x1004, 0xAABBCCDD)]))
      [(1, 0xCC)] 0b0100 0x8004 = true := by
  decide
/-- V6.134: STR R0,[R1] -/
theorem test_str :
    gives (arm 0xE5810000 [(0, 0xAABBCCDD), (1, 0x1002)] (mem := [(0x1000, 0x44332211), (0x1004, 0x88776655)]))
      [(0, 0xAABBCCDD), (1, 0x1002)] 0b0000 0x8004 [(0x1000, 0xAABBCCDD)] = true := by
  decide
/-- V6.135: STRB R0,[R1] -/
theorem test_strb :
    gives (arm 0xE5C10000 [(0, 0xAABBCCDD), (1, 0x1002)] (mem := [(0x1000, 0x44332211), (0x1004, 0x88776655)]))
      [(0, 0xAABBCCDD), (1, 0x1002)] 0b0000 0x8004 [(0x1000, 0x44DD2211)] = true := by
  decide
/-- X9.60: LDMED SP!,{R0-R3,R15} -/
theorem test_ldmib :
    gives (arm 0xE9BD800F [(13, 0x1FFC)] (mem := [(0x2000, 0xA0), (0x2004, 0xA1), (0x2008, 0xA2), (0x200C, 0xA3), (0x2010, 0x8004)]))
      [(13, 0x2010), (0, 0xA0), (1, 0xA1), (2, 0xA2), (3, 0xA3)] 0b0000 0x8004 = true := by
  decide
/-- V8.177: LDMDA R0!,{R1,R2} -/
theorem test_ldmda :
    gives (arm 0xE8300006 [(0, 0x1004)] (mem := [(0x1000, 0xA0), (0x1004, 0xA1), (0x1008, 0xA2), (0x100C, 0xA3)]))
      [(0, 0xFFC), (1, 0xA0), (2, 0xA1)] 0b0000 0x8004 = true := by
  decide
/-- X9.48: STMIA R0!,{R1,R5,R7} -/
theorem test_stmia :
    gives (arm 0xE8A000A2 [(0, 0x1000), (1, 0x11111111), (5, 0x55555555), (7, 0x77777777)])
      [(0, 0x100C)] 0b0000 0x8004 [(0x1000, 0x11111111), (0x1004, 0x55555555), (0x1008, 0x77777777)] = true := by
  decide
/-- X9.49: STMIB R0!,{R1,R5,R7} -/
theorem test_stmib :
    gives (arm 0xE9A000A2 [(0, 0x1000), (1, 0x11111111), (5, 0x55555555), (7, 0x77777777)])
      [(0, 0x100C)] 0b0000 0x8004 [(0x1004, 0x11111111), (0x1008, 0x55555555), (0x100C, 0x77777777)] = true := by
  decide
/-- X9.50: STMDA R0!,{R1,R5,R7} -/
theorem test_stmda :
    gives (arm 0xE82000A2 [(0, 0x1000), (1, 0x11111111), (5, 0x55555555), (7, 0x77777777)])
      [(0, 0xFF4)] 0b0000 0x8004 [(0xFF8, 0x11111111), (0xFFC, 0x55555555), (0x1000, 0x77777777)] = true := by
  decide
/-- X9.51: STMDB R0!,{R1,R5,R7} -/
theorem test_stmdb :
    gives (arm 0xE92000A2 [(0, 0x1000), (1, 0x11111111), (5, 0x55555555), (7, 0x77777777)])
      [(0, 0xFF4)] 0b0000 0x8004 [(0xFF4, 0x11111111), (0xFF8, 0x55555555), (0xFFC, 0x77777777)] = true := by
  decide
/-- V11.228: B . (offset -2) -/
theorem test_b : gives (arm 0xEAFFFFFE) [] 0b0000 0x8000 = true := by decide
/-- V11.229: BL 0x8100 -/
theorem test_bl : gives (arm 0xEB00003E) [(14, 0x8004)] 0b0000 0x8100 = true := by decide
/-- V12.239: LSL R0,R1,#0 -/
theorem test_tLslImm : gives (thumb 0x8 [(1, 0x80000000)] (nzcv := 0b0010)) [(0, 0x80000000)] 0b1010 0x8002 = true := by decide
/-- Y1.81: LSR R2,R5,#27 -/
theorem test_tLsrImm : gives (thumb 0xEEA [(5, 0xF8000001)]) [(2, 0x1F)] 0b0000 0x8002 = true := by decide
/-- V12.242: ASR R0,R1,#0 -/
theorem test_tAsrImm : gives (thumb 0x1008 [(1, 0x80000000)]) [(0, 0xFFFFFFFF)] 0b1010 0x8002 = true := by decide
/-- Y1.83: ADD R0,R3,R4 -/
theorem test_tAddReg : gives (thumb 0x1918 [(3, 0x7FFFFFFF), (4, 0x1)]) [(0, 0x80000000)] 0b1001 0x8002 = true := by decide
/-- V12.245: SUB R0,R1,R2 -/
theorem test_tSubReg : gives (thumb 0x1A88 [(1, 0x80000000), (2, 0x1)]) [(0, 0x7FFFFFFF)] 0b0011 0x8002 = true := by decide
/-- V12.244: ADD R0,R1,#7 -/
theorem test_tAddImm3 : gives (thumb 0x1DC8 [(1, 0xFFFFFFF9)]) [(0, 0x0)] 0b0110 0x8002 = true := by decide
/-- Y1.84: SUB R6,R2,#6 -/
theorem test_tSubImm3 : gives (thumb 0x1F96 [(2, 0x5)]) [(6, 0xFFFFFFFF)] 0b1000 0x8002 = true := by decide
/-- Y1.85: MOV R0,#128 -/
theorem test_tMovImm : gives (thumb 0x2080 [] (nzcv := 0b1111)) [(0, 0x80)] 0b0011 0x8002 = true := by decide
/-- Y1.86: CMP R2,#62 -/
theorem test_tCmpImm : gives (thumb 0x2A3E [(2, 0x3E)]) [(2, 0x3E)] 0b0110 0x8002 = true := by decide
/-- Y1.87: ADD R1,#255 -/
theorem test_tAddImm : gives (thumb 0x31FF [(1, 0xFFFFFF01)]) [(1, 0x0)] 0b0110 0x8002 = true := by decide
/-- Y1.88: SUB R6,#145 -/
theorem test_tSubImm : gives (thumb 0x3E91 [(6, 0x91)]) [(6, 0x0)] 0b0110 0x8002 = true := by decide
/-- V12.249: AND R0,R1 -/
theorem test_tAnd : gives (thumb 0x4008 [(0, 0xF0), (1, 0xF)] (nzcv := 0b0011)) [(0, 0x0)] 0b0111 0x8002 = true := by decide
/-- Y1.89: EOR R3,R4 -/
theorem test_tEor :
    gives (thumb 0x4063 [(3, 0xFF00FF00), (4, 0xFF00FF0)] (nzcv := 0b0011))
      [(3, 0xF0F0F0F0)] 0b1011 0x8002 = true := by
  decide
/-- V12.250: LSL R0,R1 -/
theorem test_tLsl : gives (thumb 0x4088 [(0, 0x1), (1, 0x20)]) [(0, 0x0)] 0b0110 0x8002 = true := by decide
/-- V12.253: LSR R0,R1 -/
theorem test_tLsr : gives (thumb 0x40C8 [(0, 0x80000000), (1, 0x20)]) [(0, 0x0)] 0b0110 0x8002 = true := by decide
/-- V12.254: ASR R0,R1 -/
theorem test_tAsr : gives (thumb 0x4108 [(0, 0x80000000), (1, 0xC8)]) [(0, 0xFFFFFFFF)] 0b1010 0x8002 = true := by decide
/-- V12.256: ADC R0,R1 -/
theorem test_tAdc : gives (thumb 0x4148 [(0, 0xFFFFFFFF), (1, 0x0)] (nzcv := 0b0010)) [(0, 0x0)] 0b0110 0x8002 = true := by decide
/-- V12.257: SBC R0,R1 -/
theorem test_tSbc : gives (thumb 0x4188 [(0, 0x0), (1, 0x0)]) [(0, 0xFFFFFFFF)] 0b1000 0x8002 = true := by decide
/-- Y1.90: ROR R1,R0 -/
theorem test_tRor : gives (thumb 0x41C1 [(1, 0x80000001), (0, 0x4)]) [(1, 0x18000000)] 0b0000 0x8002 = true := by decide
/-- V12.258: TST R0,R1 -/
theorem test_tTst :
    gives (thumb 0x4208 [(0, 0x80000000), (1, 0x80000000)])
      [(0, 0x80000000), (1, 0x80000000)] 0b1000 0x8002 = true := by
  decide
/-- Y1.91: NEG R5,R3 -/
theorem test_tNeg : gives (thumb 0x425D [(3, 0x1)]) [(5, 0xFFFFFFFF)] 0b1000 0x8002 = true := by decide
/-- Y1.92: CMP R2,R6 -/
theorem test_tCmp : gives (thumb 0x42B2 [(2, 0x3), (6, 0x5)]) [(2, 0x3), (6, 0x5)] 0b1000 0x8002 = true := by decide
/-- V12.261: CMN R0,R1 -/
theorem test_tCmn : gives (thumb 0x42C8 [(0, 0x7FFFFFFF), (1, 0x1)]) [(0, 0x7FFFFFFF), (1, 0x1)] 0b1001 0x8002 = true := by decide
/-- V12.262: ORR R0,R1 -/
theorem test_tOrr : gives (thumb 0x4308 [(0, 0x0), (1, 0x0)]) [(0, 0x0), (1, 0x0)] 0b0100 0x8002 = true := by decide
/-- V12.263: BIC R0,R1 -/
theorem test_tBic : gives (thumb 0x4388 [(0, 0xFF), (1, 0xF)]) [(0, 0xF0)] 0b0000 0x8002 = true := by decide
/-- V12.264: MVN R0,R1 -/
theorem test_tMvn : gives (thumb 0x43C8 [(1, 0xFFFFFFFF)]) [(0, 0x0)] 0b0100 0x8002 = true := by decide
/-- Y1.94: ADD PC,R5 -/
theorem test_tAddHi : gives (thumb 0x44AF [(5, 0x100)]) [(5, 0x100)] 0b0000 0x8104 = true := by decide
/-- Y1.95: CMP R4,R12 -/
theorem test_tCmpHi : gives (thumb 0x4564 [(4, 0x10), (12, 0x10)]) [(4, 0x10), (12, 0x10)] 0b0110 0x8002 = true := by decide
/-- Y1.96: MOV R15,R14 -/
theorem test_tMovHi : gives (thumb 0x46F7 [(14, 0x9001)]) [(14, 0x9001)] 0b0000 0x9000 = true := by decide
/-- V12.273: BX R14 -/
theorem test_tBx : gives (thumb 0x4770 [(14, 0x9003)]) [(14, 0x9003)] 0b0000 0x9002 = true := by decide
/-- V13.278: LDR R0,[PC,#0] -/
theorem test_tLdrPc : gives (thumb 0x4800 [] (mem := [(0x8004, 0x11111111)])) [(0, 0x11111111)] 0b0000 0x8002 = true := by decide
/-- Y2.99: STR R3,[R2,R6] -/
theorem test_tStrReg :
    gives (thumb 0x5193 [(3, 0x11223344), (2, 0x1000), (6, 0x10)])
      [(3, 0x11223344), (2, 0x1000), (6, 0x10)] 0b0000 0x8002 [(0x1010, 0x11223344)] = true := by
  decide
/-- V13.282: STRB R0,[R1,R2] -/
theorem test_tStrbReg :
    gives (thumb 0x5488 [(0, 0x1FF), (1, 0x1000), (2, 0x1)] (mem := [(0x1000, 0x0)]))
      [(0, 0x1FF), (1, 0x1000), (2, 0x1)] 0b0000 0x8002 [(0x1000, 0xFF00)] = true := by
  decide
/-- V13.281: LDR R0,[R1,R2] -/
theorem test_tLdrReg :
    gives (thumb 0x5888 [(1, 0x1000), (2, 0x1)] (mem := [(0x1000, 0x44332211)]))
      [(0, 0x11443322)] 0b0000 0x8002 = true := by
  decide
/-- Y2.100: LDRB R2,[R0,R7] -/
theorem test_tLdrbReg :
    gives (thumb 0x5DC2 [(0, 0x1000), (7, 0x3)] (mem := [(0x1000, 0xAABBCCDD)]))
      [(2, 0xAA)] 0b0000 0x8002 = true := by
  decide
/-- Y2.101: STRH R4,[R3,R0] -/
theorem test_tStrhReg :
    gives (thumb 0x521C [(4, 0x12345678), (3, 0x1000), (0, 0x2)] (mem := [(0x1000, 0x0)]))
      [(4, 0x12345678), (3, 0x1000), (0, 0x2)] 0b0000 0x8002 [(0x1000, 0x56780000)] = true := by
  decide
/-- Y2.102: LDSB R2,[R7,R1] -/
theorem test_tLdsbReg :
    gives (thumb 0x567A [(7, 0x1000), (1, 0x1)] (mem := [(0x1000, 0x8000)]))
      [(2, 0xFFFFFF80)] 0b0000 0x8002 = true := by
  decide
/-- Y2.103: LDSH R3,[R4,R2] -/
theorem test_tLdshReg :
    gives (thumb 0x5EA3 [(4, 0x1000), (2, 0x2)] (mem := [(0x1000, 0xFFFE0000)]))
      [(3, 0xFFFFFFFE)] 0b0000 0x8002 = true := by
  decide
/-- V13.286: STR R0,[R1,#124] -/
theorem test_tStrImm :
    gives (thumb 0x67C8 [(0, 0xAB), (1, 0x1000)])
      [(0, 0xAB), (1, 0x1000)] 0b0000 0x8002 [(0x107C, 0xAB)] = true := by
  decide
/-- Y2.104: LDR R2,[R5,#116] -/
theorem test_tLdrImm :
    gives (thumb 0x6F6A [(5, 0x1000)] (mem := [(0x1074, 0x1020304)]))
      [(2, 0x1020304)] 0b0000 0x8002 = true := by
  decide
/-- Y2.105: STRB R1,[R0,#13] -/
theorem test_tStrbImm :
    gives (thumb 0x7341 [(1, 0xFFFFFF5A), (0, 0x1000)] (mem := [(0x100C, 0x0)]))
      [(1, 0xFFFFFF5A), (0, 0x1000)] 0b0000 0x8002 [(0x100C, 0x5A00)] = true := by
  decide
/-- V13.287: LDRB R0,[R1,#31] -/
theorem test_tLdrbImm :
    gives (thumb 0x7FC8 [(1, 0x1000)] (mem := [(0x101C, 0x99000000)]))
      [(0, 0x99)] 0b0000 0x8002 = true := by
  decide
/-- Y2.106: STRH R6,[R1,#56] -/
theorem test_tStrhImm :
    gives (thumb 0x870E [(6, 0xABCD1234), (1, 0x1000)] (mem := [(0x1038, 0x0)]))
      [(6, 0xABCD1234), (1, 0x1000)] 0b0000 0x8002 [(0x1038, 0x1234)] = true := by
  decide
/-- Y2.107: LDRH R4,[R7,#4] -/
theorem test_tLdrhImm :
    gives (thumb 0x88BC [(7, 0x1000)] (mem := [(0x1004, 0x9999BEEF)]))
      [(4, 0xBEEF)] 0b0000 0x8002 = true := by
  decide
/-- Y2.108: STR R4,[SP,#492] -/
theorem test_tStrSp :
    gives (thumb 0x947B [(4, 0x44444444), (13, 0x2000)])
      [(4, 0x44444444), (13, 0x2000)] 0b0000 0x8002 [(0x21EC, 0x44444444)] = true := by
  decide
/-- V13.289: LDR R0,[SP,#1020] -/
theorem test_tLdrSp :
    gives (thumb 0x98FF [(13, 0x1000)] (mem := [(0x13FC, 0x33333333)]))
      [(0, 0x33333333)] 0b0000 0x8002 = true := by
  decide
/-- Y2.110: ADD R6,SP,#212 -/
theorem test_tAddSp : gives (thumb 0xAE35 [(13, 0x2000)]) [(6, 0x20D4)] 0b0000 0x8002 = true := by decide
/-- Y2.111: ADD SP,#268 -/
theorem test_tSpPlus : gives (thumb 0xB043 [(13, 0x2000)]) [(13, 0x210C)] 0b0000 0x8002 = true := by decide
/-- Y2.112: ADD SP,#-104 -/
theorem test_tSpMinus : gives (thumb 0xB09A [(13, 0x2000)]) [(13, 0x1F98)] 0b0000 0x8002 = true := by decide
/-- V13.295: PUSH {R0} -/
theorem test_tPush :
    gives (thumb 0xB401 [(0, 0xA0), (13, 0x2000)])
      [(13, 0x1FFC)] 0b0000 0x8002 [(0x1FFC, 0xA0)] = true := by
  decide
/-- Y2.113: PUSH {R0-R4,LR} -/
theorem test_tPushLr :
    gives (thumb 0xB51F [(0, 0xA0), (1, 0xA1), (2, 0xA2), (3, 0xA3), (4, 0xA4), (14, 0x8101), (13, 0x2000)])
      [(13, 0x1FE8)] 0b0000 0x8002 [(0x1FE8, 0xA0), (0x1FEC, 0xA1), (0x1FF0, 0xA2), (0x1FF4, 0xA3), (0x1FF8, 0xA4), (0x1FFC, 0x8101)] = true := by
  decide
/-- V13.297: POP {R0} -/
theorem test_tPop :
    gives (thumb 0xBC01 [(13, 0x1FFC)] (mem := [(0x1FFC, 0xA0)]))
      [(13, 0x2000), (0, 0xA0)] 0b0000 0x8002 = true := by
  decide
/-- Y2.114: POP {R2,R6,PC} -/
theorem test_tPopPc :
    gives (thumb 0xBD44 [(13, 0x1FF4)] (mem := [(0x1FF4, 0x22), (0x1FF8, 0x66), (0x1FFC, 0x8101)]))
      [(13, 0x2000), (2, 0x22), (6, 0x66)] 0b0000 0x8100 = true := by
  decide
/-- Y2.115: STMIA R0!,{R3-R7} -/
theorem test_tStmia :
    gives (thumb 0xC0F8 [(0, 0x1000), (3, 0x3), (4, 0x4), (5, 0x5), (6, 0x6), (7, 0x7)])
      [(0, 0x1014)] 0b0000 0x8002 [(0x1000, 0x3), (0x1004, 0x4), (0x1008, 0x5), (0x100C, 0x6), (0x1010, 0x7)] = true := by
  decide
/-- V13.300: LDMIA R0!,{R1,R2} -/
theorem test_tLdmia :
    gives (thumb 0xC806 [(0, 0x1000)] (mem := [(0x1000, 0x1), (0x1004, 0x2)]))
      [(0, 0x1008), (1, 0x1), (2, 0x2)] 0b0000 0x8002 = true := by
  decide
/-- V14.306: BEQ with SOffset8 = 0x7F -/
theorem test_tBeq : gives (thumb 0xD07F [] (nzcv := 0b0100)) [] 0b0100 0x8102 = true := by decide
/-- V14.308: BNE with SOffset8 = 0xFE -/
theorem test_tBne : gives (thumb 0xD1FE) [] 0b0000 0x8000 = true := by decide
/-- V14.309: BHI -/
theorem test_tBhi : gives (thumb 0xD806 [] (nzcv := 0b0110)) [] 0b0110 0x8002 = true := by decide
/-- V14.310: BLS -/
theorem test_tBls : gives (thumb 0xD906 [] (nzcv := 0b0110)) [] 0b0110 0x8010 = true := by decide
/-- V1.4: BGE +8 -/
theorem test_tBge : gives (thumb 0xDA04 [] (nzcv := 0b1001)) [] 0b1001 0x800C = true := by decide
/-- V1.5: BLT +8 -/
theorem test_tBlt : gives (thumb 0xDB04 [] (nzcv := 0b1001)) [] 0b1001 0x8002 = true := by decide
/-- Y3.120: here B here -/
theorem test_tB : gives (thumb 0xE7FE) [] 0b0000 0x8000 = true := by decide
/-- V14.314: BL first half (H = 0), Offset = 0x001 -/
theorem test_tBlFirst : gives (thumb 0xF001) [(14, 0x9004)] 0b0000 0x8002 = true := by decide
/-- V14.316: BL second half (H = 1), Offset = 0x002 -/
theorem test_tBlSecond : gives (thumb 0xF802 [(14, 0x409004)]) [(14, 0x8003)] 0b0000 0x409008 = true := by decide
/-- X9.53: LDMFD SP!,(R0,R1,R2) -/
theorem test_ldmia : gives (arm 0xE8BD0007 [(13, 0x2000)] (mem := [(0x2000, 10), (0x2004, 11), (0x2008, 12)]))
    [(0, 10), (1, 11), (2, 12), (13, 0x200C)] 0 0x8004 = true := by decide
/-! ## Steps whose result has a free part, and steps without a vector -/

/-- X6.31: MLAEQS R1,R2,R3,R4 gives 0, Z set; C is free. -/
theorem test_mla : after (arm 0x00314392 [(2, 6), (3, 7), (4, 0xFFFFFFD6)] (nzcv := 0b0101))
    (fun t => t.reg 0 1 == 0 && t.cpsr.z && !t.cpsr.n && t.cpsr.v) = true := by decide
/-- X6.33: UMLALS R1,R5,R2,R3 gives 6 + 0xFFFFFFFF; C and V are free. -/
theorem test_umlal : after (arm 0xE0B51392 [(2, 2), (3, 3), (5, 0), (1, 0xFFFFFFFF)])
    (fun t => t.reg 0 5 == 1 && t.reg 0 1 == 5 && !t.cpsr.z && !t.cpsr.n) = true := by decide
/-- V5.116: SMLALS R0,R1,R2,R3 gives -1. -/
theorem test_smlal : after (arm 0xE0F10392 [(0, 0), (1, 0), (2, 0xFFFFFFFF), (3, 1)])
    (fun t => t.reg 0 0 == 0xFFFFFFFF && t.reg 0 1 == 0xFFFFFFFF && t.cpsr.n && !t.cpsr.z) = true := by decide
/-- Y1.93: THUMB MUL R0,R7 gives 42; C is free, V kept. -/
theorem test_tMul : after (thumb 0x4378 [(0, 6), (7, 7)] (nzcv := 0b0011))
    (fun t => t.reg 0 0 == 42 && !t.cpsr.z && !t.cpsr.n && t.cpsr.v) = true := by decide
/-- V11.234: BX R0 to THUMB state. -/
theorem test_bx : after (arm 0xE12FFF10 [(0, 0x9001)]) (fun t => t.cpsr.t && t.pc == 0x9000) = true := by decide
/-- V12.271: THUMB BX R0 to ARM state. -/
theorem test_tBx_arm : after (thumb 0x4700 [(0, 0x9000)]) (fun t => !t.cpsr.t && t.pc == 0x9000) = true := by decide
/-- V11.236: BX to an address with bits 1:0 = 10 is refused. -/
theorem test_bx_misaligned : refuses (arm 0xE12FFF10 [(0, 0x9002)]) .bxTargetMisaligned = true := by decide
/-- V10.224: SUBS PC,R14,#8 returns from a data abort and restores the CPSR. -/
theorem test_sub_return :
    after { arm 0xE25EF008 [(14, 0x8008)] (mode := .abt) with
            spsrs := { State.reset.spsrs with abt := { Psr.zero with c := true, m := 0b10000#5 } } }
      (fun t => t.pc == 0x8000 && t.cpsr == status .usr false 0b0010) = true := by decide
/-- R294: LDRSB R0,[R1,R2] sign-extends the byte. -/
theorem test_ldrsbReg : gives (arm 0xE19100D2 [(1, 0x1000), (2, 1)] (mem := [(0x1000, 0x8000)])) [(0, 0xFFFFFF80)] 0 0x8004 = true := by
  decide
/-- R295: LDRSH R0,[R1,R2] sign-extends the halfword. -/
theorem test_ldrshReg : gives (arm 0xE19100F2 [(1, 0x1000), (2, 2)] (mem := [(0x1000, 0xFFFE0000)])) [(0, 0xFFFFFFFE)] 0 0x8004 = true := by
  decide
/-- V4.85: MRS R0,CPSR completes. -/
theorem test_mrs : after (arm 0xE10F0000 (nzcv := 0b1010)) (fun t => t.pc == 0x8004 && t.cpsr == status .usr false 0b1010) = true := by
  decide
/-- V4.85 and R35: the PSR word of User mode with N and C set, whatever bits 27:8 read as. -/
theorem test_mrs_word (reserved : BitVec 20) :
    (Cpsr.toPsr (status .usr false 0b1010)).toWord reserved = 0xA0000010#32 ||| (reserved.setWidth 32 <<< 8) := by
  ext i hi
  simp only [Psr.toWord, getElem_cat]
  interval_cases i <;> simp [status, Cpsr.toPsr, Mode.code]
/-- V4.92: MSR CPSR,R0 from Supervisor to FIQ mode; R13 is then another register. -/
theorem test_msr : after (arm 0xE129F000 [(0, 0x60000011), (13, 0x1111)] (mode := .svc))
    (fun t => t.cpsr == status .fiq false 0b0110 && t.reg 0 13 == 0 && t.regs.r13Svc == 0x1111) = true := by decide
/-- V4.91: MSR CPSR,R0 in User mode changes the flags only. -/
theorem test_msr_user : gives (arm 0xE129F000 [(0, 0xF00000DF)]) [] 0b1111 0x8004 = true := by decide
/-- V6.145 and R279: LDRT R0,[R1],#4. -/
theorem test_ldrt : gives (arm 0xE4B10004 [(1, 0x1000)] (mem := [(0x1000, 0x44332211)])) [(0, 0x44332211), (1, 0x1004)] 0 0x8004 = true := by
  decide
/-- R279: LDRBT R0,[R1],#4. -/
theorem test_ldrbt : gives (arm 0xE4F10004 [(1, 0x1003)] (mem := [(0x1000, 0x44332211)])) [(0, 0x44), (1, 0x1007)] 0 0x8004 = true := by
  decide
/-- R279: STRT R0,[R1],#-4. -/
theorem test_strt : gives (arm 0xE4210004 [(0, 0x55667788), (1, 0x1000)]) [(1, 0xFFC)] 0 0x8004 [(0x1000, 0x55667788)] = true := by
  decide
/-- R279: STRBT R0,[R1],#4. -/
theorem test_strbt : gives (arm 0xE4E10004 [(0, 0x55667788), (1, 0x1001)]) [(1, 0x1005)] 0 0x8004 [(0x1000, 0x8800)] = true := by
  decide
/-- V8.178: LDMDB R0!,{R1,R2}. -/
theorem test_ldmdb : gives (arm 0xE9300006 [(0, 0x1008)] (mem := [(0x1000, 0xA0), (0x1004, 0xA1)])) [(0, 0x1000), (1, 0xA0), (2, 0xA1)]
    0 0x8004 = true := by decide
/-- R321: LDMIA R0,{R13}^ in Supervisor mode loads the User bank. -/
theorem test_ldmia_user : after (arm 0xE8D02000 [(0, 0x1000), (13, 0x77)] (mode := .svc) (mem := [(0x1000, 0xA0)]))
    (fun t => t.regs.r13 == 0xA0 && t.reg 0 13 == 0x77 && t.bankHazard) = true := by decide
/-- V10.204: SWI. -/
theorem test_swi : enters (arm 0xEF123456 (nzcv := 0b1001)) .svc 8 0x8004 = true := by decide
/-- V10.205: THUMB SWI. -/
theorem test_tSwi : enters (thumb 0xDFFF (nzcv := 0b1001) (mode := .sys)) .svc 8 0x8002 = true := by decide
/-- V10.206: the undefined instruction. -/
theorem test_undefined : enters (arm 0xE7F000F0 (nzcv := 0b0100)) .und 4 0x8004 = true := by decide
/-- R352, R354: STC. -/
theorem test_stc : enters (arm 0xED802100) .und 4 0x8004 = true := by decide
/-- V10.210: LDC. -/
theorem test_ldc : enters (arm 0xED902100) .und 4 0x8004 = true := by decide
/-- X12.69: CDP. -/
theorem test_cdp : enters (arm 0xEEA21103) .und 4 0x8004 = true := by decide
/-- V10.209: MCR. -/
theorem test_mcr : enters (arm 0xEE010F10 (mode := .svc)) .und 4 0x8004 = true := by decide
/-- R352, R356: MRC. -/
theorem test_mrc : enters (arm 0xEE110F10) .und 4 0x8004 = true := by decide
/-- V10.213: a data abort of LDR. -/
theorem test_dataAbort : enters { arm 0xE5910000 [(1, 0x1000)] with aborts := [everyData] } .abt 0x10 0x8008 = true := by decide
/-- V10.217: an FIQ is taken before the instruction. -/
theorem test_fiq : enters { arm 0xE3A00001 with inputs := [{ Sample.quiet with fiq := true, irq := true }] } .fiq 0x1C 0x8004 = true := by
  decide
/-- R428: LDRH R0,[R1,R2]. -/
theorem test_tLdrhReg : gives (thumb 0x5A88 [(1, 0x1000), (2, 2)] (mem := [(0x1000, 0xFFFE0000)])) [(0, 0xFFFE)] 0 0x8002 = true := by
  decide
/-- R440: ADD R2,PC,#12. -/
theorem test_tAddPc : gives (thumb 0xA203) [(2, 0x8010)] 0 0x8002 = true := by decide
/-- R602: BCS. -/
theorem test_tBcs : gives (thumb 0xD206 (nzcv := 0b0010)) [] 0b0010 0x8010 = true := by decide
/-- R603: BCC. -/
theorem test_tBcc : gives (thumb 0xD306 (nzcv := 0b0010)) [] 0b0010 0x8002 = true := by decide
/-- R604: BMI. -/
theorem test_tBmi : gives (thumb 0xD406 (nzcv := 0b1000)) [] 0b1000 0x8010 = true := by decide
/-- R605: BPL. -/
theorem test_tBpl : gives (thumb 0xD506 (nzcv := 0b1000)) [] 0b1000 0x8002 = true := by decide
/-- R606: BVS. -/
theorem test_tBvs : gives (thumb 0xD606 (nzcv := 0b0001)) [] 0b0001 0x8010 = true := by decide
/-- R607: BVC. -/
theorem test_tBvc : gives (thumb 0xD706 (nzcv := 0b0001)) [] 0b0001 0x8002 = true := by decide
/-- R612: BGT. -/
theorem test_tBgt : gives (thumb 0xDC06 (nzcv := 0b1001)) [] 0b1001 0x8010 = true := by decide
/-- R613: BLE. -/
theorem test_tBle : gives (thumb 0xDD06 (nzcv := 0b1001)) [] 0b1001 0x8002 = true := by decide
/-- V1.3: condition field 1111. -/
theorem test_reservedCondition : refuses (arm 0xF3A00001) .reservedCondition = true := by decide
/-- V15.324: bits 7 and 4 set and no multiply, swap or halfword transfer. -/
theorem test_notDefinedExtension : refuses (arm 0xE0400090) .notDefinedEncoding = true := by decide
/-- R132 (c): TST without S. -/
theorem test_notDefinedTest : refuses (arm 0xE1012003) .notDefinedEncoding = true := by decide
/-- R297: the four signed stores. -/
theorem test_signedStores :
    (refuses (arm 0xE18100D2) .signedStore && refuses (arm 0xE1C100D2) .signedStore && refuses (arm 0xE18100F2) .signedStore
      && refuses (arm 0xE1C100F2) .signedStore) = true := by decide
/-- R79, R298: a halfword load at an odd address is refused, in ARM and in THUMB state. -/
theorem test_oddHalfword :
    (refuses (arm 0xE1D100B0 [(1, 0x1001)]) .oddHalfword && refuses (thumb 0x5A88 [(1, 0x1000), (2, 1)]) .oddHalfword) = true := by decide
/-- R282: LDR R0,[R0],#4 and LDRH R0,[R0,#2]! are refused; LDR R0,[R0] loads. -/
theorem test_transferredBase :
    (refuses (arm 0xE4900004 [(0, 0x1000)]) .transferredBase && refuses (arm 0xE1F000B2 [(0, 0x1000)]) .transferredBase
      && gives (arm 0xE5900000 [(0, 0x1000)] (mem := [(0x1000, 7)])) [(0, 7)] 0 0x8004) = true := by decide
/-- Log entry 5: a store where nothing answers, a load and a fetch from memory; the load and the store of a device run, the load draws a
free value, the store changes no memory. -/
theorem test_memMap :
    (let holes := [{ first := 0x1000, last := 0x1003, kind := .device }, { first := 0x2003, last := 0x2FFF, kind := .nothing }]
     after { arm 0xE5910000 [(1, 0x1000)] with memMap := holes } (fun t => t.pc == 0x8004 && t.draws == 1)
       && after { arm 0xE4810004 [(0, 7), (1, 0x1000)] with memMap := holes } (fun t => t.byteAt 0x1000 == 0 && t.reg 0 1 == 0x1004)
       && faults { arm 0xE5810000 [(1, 0x2000)] with memMap := holes } .unmappedAddress
       && after { arm 0xE5910000 [(1, 0x1FFC)] with memMap := holes } (fun _ => true)
       && faults { arm 0xE5910000 with memMap := [{ first := 0x8003, last := 0x8003, kind := .nothing }] } .unmappedAddress) = true := by
  decide
/-- V1.6: format 16 with Cond = 1110. -/
theorem test_tCond1110 : refuses (thumb 0xDE00) .thumbCond1110 = true := by decide
/-- V15.339 to V15.341: halfwords that are no instruction. -/
theorem test_tFree :
    ([0xB100, 0xB2FF, 0xB600, 0xBBFF, 0xBE00, 0xE801].all fun h => refuses (thumb h) .thumbNotAllocated) = true := by decide
/-! ## Well-formedness: what the checks refuse -/

/-- Row 7 does not hold a multiply, a swap, a halfword transfer, or a word without bits 7 and 4. -/
theorem test_wf_notDefinedExtension :
    (Instr.notDefinedExtension .al 0x0400090#28).wf = true ∧ (Instr.notDefinedExtension .al 0x0000091#28).wf = false
    ∧ (Instr.notDefinedExtension .al 0x0800291#28).wf = false ∧ (Instr.notDefinedExtension .al 0x1001092#28).wf = false
    ∧ (Instr.notDefinedExtension .al 0x01000B1#28).wf = false ∧ (Instr.notDefinedExtension .al 0x0400000#28).wf = false := by
  decide

/-- Row 12 does not hold BX, a PSR transfer, or an opcode with S = 1. -/
theorem test_wf_notDefinedTest :
    (Instr.notDefinedTest .al 0x1012003#28).wf = true ∧ (Instr.notDefinedTest .al 0x12FFF10#28).wf = false
    ∧ (Instr.notDefinedTest .al 0x10F0000#28).wf = false ∧ (Instr.notDefinedTest .al 0x129F000#28).wf = false
    ∧ (Instr.notDefinedTest .al 0x328F00F#28).wf = false ∧ (Instr.notDefinedTest .al 0x1112003#28).wf = false
    ∧ (Instr.notDefinedTest .al 0x1012093#28).wf = false := by
  decide

/-- The table words reach the decoder in both widths; no row has 8 bits. -/
theorem test_decodeTableWord :
    decodeTableWord 32 0xE0910002 = some (.add .al true 1 0 (.shiftImm .lsl 0 2)) ∧ decodeTableWord 16 0xBD44 = some (.tPopPc 0x44)
    ∧ decodeTableWord 8 0x44 = none := by
  decide

/-! ## Hypotheses of the statements, met -/

/-- The registers of the states below. -/
def someRegs : List (RegNo × Word) :=
  [(1, 0x1000), (2, 4), (3, 0x9001), (4, 0x9002), (5, 0x1F), (6, 0x30), (13, 0x2000), (14, 0x9000)]

/-- ARM state, Supervisor mode, nothing refused; SPSR_svc holds no legal mode. -/
def svc : State := start false someRegs 0 .svc []

/-- Supervisor mode with an SPSR that holds User mode in THUMB state. -/
def saved : State := { svc with spsrs := { svc.spsrs with svc := { Psr.zero with t := true, m := 0b10000#5 } } }

/-- ARM state, User mode. -/
def usr : State := start false someRegs 0 .usr []

/-- ARM state, System mode. -/
def sys : State := start false someRegs 0 .sys []

/-- THUMB state, User mode. -/
def thumbUsr : State := start true someRegs 0 .usr []

/-- The memory manager refuses every data access. -/
def refusing (s : State) : State := { s with aborts := [everyData] }

/-- Nothing at the address `a` and up. -/
def holed (s : State) (a : Word) : State := { s with memMap := [{ first := a, last := 0xFFFFFFFF, kind := .nothing }] }

/-- A device at the addresses `a` to `b`. -/
def deviceAt (s : State) (a b : Word) : State := { s with memMap := [{ first := a, last := b, kind := .device }] }

/-- The memory manager refuses the data accesses to one word. -/
def refusingWord (s : State) (a : Word) : State := { s with aborts := [{ everyData with first := a, last := a + 3 }] }

/-- The hypotheses of ResetTransition. -/
theorem test_hyps_ResetTransition :
    ({ svc with inputs := [{ Sample.quiet with reset := true }] } : State).sample.reset = true := by
  decide

/-- The hypotheses of DecodeOfEncode, for the two rows with a check and for others. -/
theorem test_hyps_DecodeOfEncode :
    (Instr.notDefinedExtension .al 0x0400090#28).wf = true ∧ (Instr.notDefinedTest .ne 0x1012003#28).wf = true
    ∧ (Instr.add .al true 1 0 (.imm 15 255)).wf = true ∧ (Instr.tBx true 15 7).wf = true := by
  decide

/-- The hypotheses of StepRunsDecoded in ARM state. -/
theorem test_hyps_StepRunsDecoded_arm :
    let s := arm 0xE0910002
    s.sample.reset = false ∧ (s.sample.fiq = true → s.cpsr.f = true) ∧ (s.sample.irq = true → s.cpsr.i = true)
    ∧ s.atBoundary.fetchAborts = false ∧ s.prefetch.current = false ∧ s.mapKind (if s.cpsr.t then .half else .word) s.pc = none
    ∧ (s.cpsr.t = false → decodeArm (joinWord s.bigend (s.byteAt s.pc) (s.byteAt (s.pc + 1)) (s.byteAt (s.pc + 2)) (s.byteAt (s.pc + 3)))
        = .add .al true 1 0 (.shiftImm .lsl 0 2))
    ∧ (s.cpsr.t = true → decodeThumb (joinHalf s.bigend (s.byteAt s.pc) (s.byteAt (s.pc + 1))) = .add .al true 1 0 (.shiftImm .lsl 0 2))
    ∧ s.hitsBankHazard (.add .al true 1 0 (.shiftImm .lsl 0 2)) = false := by
  decide

/-- The hypotheses of StepRunsDecoded in THUMB state, an IRQ masked and new abort regions in the sample. -/
theorem test_hyps_StepRunsDecoded_thumb :
    let s := { thumb 0x1918 with inputs := [{ Sample.quiet with irq := true, aborts := some [everyData] }],
                                 cpsr := { (thumb 0x1918).cpsr with i := true } }
    s.sample.reset = false ∧ (s.sample.fiq = true → s.cpsr.f = true) ∧ (s.sample.irq = true → s.cpsr.i = true)
    ∧ s.atBoundary.fetchAborts = false ∧ s.prefetch.current = false ∧ s.mapKind (if s.cpsr.t then .half else .word) s.pc = none
    ∧ (s.cpsr.t = false → decodeArm (joinWord s.bigend (s.byteAt s.pc) (s.byteAt (s.pc + 1)) (s.byteAt (s.pc + 2)) (s.byteAt (s.pc + 3)))
        = .tAddReg 4 3 0)
    ∧ (s.cpsr.t = true → decodeThumb (joinHalf s.bigend (s.byteAt s.pc) (s.byteAt (s.pc + 1))) = .tAddReg 4 3 0)
    ∧ s.hitsBankHazard (.tAddReg 4 3 0) = false := by
  decide

/-- The hypotheses of InvariantKept. -/
theorem test_hyps_InvariantKept :
    let s := arm 0xE0910002 (mem := [(0x1000, 0x44332211)])
    Memory.wf s.mem = true ∧ s.pcAligned = true ∧ s.prefetch.afterNext = false ∧ after s (fun _ => true) = true := by
  decide

/-- The hypotheses of FailedCondition. -/
theorem test_hyps_FailedCondition :
    conditionOf (.str .eq true .post 1 2 (.imm 4)) = some .eq ∧ condPassed .eq svc.cpsr = false ∧ svc.cpsr.t = false := by
  decide

/-- The hypothesis of ConditionTable on a reserved word. -/
theorem test_hyps_ConditionTable : (0xFFFFFFFF#32).extractLsb' 28 4 = 15 ∧ (0xF0000000#32).extractLsb' 28 4 = 15 := by
  decide

/-- The hypotheses of ShiftByRegister, each clause at its bounds. -/
theorem test_hyps_ShiftByRegister :
    (0x100 : Word).toNat % 256 = 0
    ∧ ((1 : BitVec 5) ≠ 0 ∧ (0xFF01 : Word).toNat % 256 = (1 : BitVec 5).toNat)
    ∧ ((31 : BitVec 5) ≠ 0 ∧ (31 : Word).toNat % 256 = (31 : BitVec 5).toNat)
    ∧ (0x120 : Word).toNat % 256 = 32 ∧ 32 < (33 : Word).toNat % 256 ∧ 32 < (0xFFFFFFFF : Word).toNat % 256
    ∧ 32 ≤ (32 : Word).toNat % 256 := by
  decide

/-- The hypotheses of OperandForms. -/
theorem test_hyps_OperandForms : (0 : RegNo) ≠ PC ∧ (14 : RegNo) ≠ PC := by
  decide

/-- The hypotheses of LogicalClass and ArithmeticClass. -/
theorem test_hyps_dataProcessing :
    condPassed .al svc.cpsr = true ∧ amountIsR15 (.shiftReg .ror 14 15) = false ∧ amountIsR15 (.imm 15 255) = false
    ∧ amountIsR15 (.shiftImm .lsl 0 15) = false ∧ (0 : RegNo) ≠ PC ∧ (14 : RegNo) ≠ PC := by
  decide

/-- The hypotheses of ResultToPc and TestWithPcField, each clause. -/
theorem test_hyps_ResultToPc_and_TestWithPcField :
    condPassed .al saved.cpsr = true ∧ amountIsR15 (.shiftReg .ror 14 15) = false
    ∧ saved.spsr = some { Psr.zero with t := true, m := 0b10000#5 }
    ∧ Psr.toCpsr { Psr.zero with t := true, m := 0b10000#5 } =
        some { n := false, z := false, c := false, v := false, i := false, f := false, t := true, mode := .usr }
    ∧ usr.cpsr.mode = .usr ∧ sys.cpsr.mode = .sys ∧ svc.spsr = some Psr.zero ∧ Psr.zero.toCpsr = none := by
  decide

/-- The hypotheses of StatusRead, of the SPSR and of the CPSR. -/
theorem test_hyps_StatusRead :
    condPassed .al svc.cpsr = true ∧ (14 : RegNo) ≠ PC ∧ (if true then svc.spsr = some Psr.zero else svc.cpsr.toPsr = Psr.zero)
    ∧ (if false then usr.spsr = some usr.cpsr.toPsr else usr.cpsr.toPsr = usr.cpsr.toPsr) := by
  decide

/-- The hypotheses of StatusWrite and StatusFlagsWrite, each clause. -/
theorem test_hyps_StatusWrite :
    0#5 ∉ [0b10000#5, 0b10001, 0b10010, 0b10011, 0b10111, 0b11011, 0b11111] ∧ 0b11110#5 ∉ [0b10000#5, 0b10001, 0b10010, 0b10011, 0b10111, 0b11011, 0b11111] ∧
    condPassed .al svc.cpsr = true ∧ condPassed .eq svc.cpsr = false ∧ (5 : RegNo) ≠ PC ∧ usr.cpsr.mode = .usr ∧ svc.cpsr.mode ≠ .usr
    ∧ ((svc.reg 8 5)[5] = svc.cpsr.t ∧ Mode.ofCode ((svc.reg 8 5).extractLsb' 0 5) = some .sys)
    ∧ (svc.reg 8 6)[5] ≠ svc.cpsr.t ∧ ((svc.reg 8 2)[5] = svc.cpsr.t ∧ Mode.ofCode ((svc.reg 8 2).extractLsb' 0 5) = none)
    ∧ svc.cpsr.mode.spsr = some .svc := by
  decide

/-- The hypotheses of MultiplyResult and LongMultiplyResult. -/
theorem test_hyps_multiplies :
    condPassed .al svc.cpsr = true ∧ (1 : RegNo) ≠ 2 ∧ (1 : RegNo) ≠ 14 ∧ (2 : RegNo) ≠ 14 ∧ (1 : RegNo) ≠ PC ∧ (2 : RegNo) ≠ PC
    ∧ (14 : RegNo) ≠ PC := by
  decide

/-- The hypotheses of BranchAndLink, ThumbBranchTargets and ThumbLongBranch. -/
theorem test_hyps_branches :
    condPassed .al svc.cpsr = true ∧ condPassed .eq svc.cpsr = false ∧ svc.cpsr.t = false ∧ svc.pcAligned = true ∧ thumbUsr.cpsr.t = true ∧ thumbUsr.pcAligned = true
    ∧ ({ thumbUsr with pc := 0x8002 } : State).pcAligned = true := by
  decide

/-- The hypotheses of BranchAndExchange, each clause. -/
theorem test_hyps_BranchAndExchange :
    condPassed .al svc.cpsr = true ∧ (decide ((3 : RegNo) ≠ PC) = true ∧ (svc.reg 8 3)[0] = true)
    ∧ ((svc.reg 8 14)[0] = false ∧ (svc.reg 8 14)[1] = false) ∧ ((svc.reg 8 4)[0] = false ∧ (svc.reg 8 4)[1] = true)
    ∧ ((!(decide ((15 : RegNo) = PC) && thumbUsr.pc[1])) = true ∧ (thumbUsr.reg 4 15)[0] = false ∧ (thumbUsr.reg 4 15)[1] = false)
    ∧ ({ thumbUsr with pc := 0x8002 } : State).pc[1] = true := by
  decide

/-- The hypotheses of WordAndByteLoads and WordAndByteStores, pre- and post-indexed. -/
theorem test_hyps_singleTransfers :
    condPassed .al svc.cpsr = true ∧ singleAllowed true false 15 15 (.imm 4095) ∧ singleAllowed false true 1 15 (.reg .ror 0 2)
    ∧ svc.accepts .read .word svc.privileged (wordAligned 0x1003) ∧ svc.accepts .write .byte svc.privileged 0x1003
    ∧ svc.accepts .read .word false 0x1000 ∧ svc.accepts .write .byte false 0xFFFFFFFF := by
  unfold singleAllowed State.accepts; decide

/-- The access of a device is accepted, for the loads, stores, blocks and swaps; a device meets the last clause of StoredThenRead. -/
theorem test_hyps_devices :
    let s := deviceAt svc 0x1000 0x1003
    s.accepts .read .word s.privileged (wordAligned 0x1003) ∧ s.accepts .write .half s.privileged 0x1002
    ∧ s.accepts .write .byte s.privileged 0x1003 ∧ s.onDevice .word 0x1000 = true ∧ s.onDevice .half (AccessSize.half.align 0x1003) = true
    ∧ s.onDevice .byte 0x1000 = true ∧ s.onDevice .word 0x1004 = false ∧ s.onDevice .byte 0xFFF = false
    ∧ s.blockAccepted .read 0x1000 2 ∧ s.blockAccepted .write 0x1000 2 := by
  unfold State.blockAccepted State.accepts; decide

/-- The hypotheses of HalfwordAndSignedLoads and HalfwordStores, each clause. -/
theorem test_hyps_halfwordTransfers :
    condPassed .al svc.cpsr = true ∧ halfwordAllowed true false 15 15 (some 2) ∧ halfwordAllowed false false 1 15 none
    ∧ (0x1002 : Word)[0] = false ∧ (0x1003 : Word)[0] = true ∧ svc.accepts .read .half svc.privileged 0x1002
    ∧ svc.accepts .write .half svc.privileged 0x1002 ∧ svc.accepts .read .byte svc.privileged 0x1003 := by
  unfold halfwordAllowed State.accepts; decide

/-- The hypotheses of MemoryMapAccesses: the map, the fetch, the transfers of each size. -/
theorem test_hyps_MemoryMapAccesses :
    (holed usr 0x8003).mapFault .word 0x8000 = some .unmappedAddress ∧ (holed usr 0x8004).mapFault .word 0x8000 = none
    ∧ (let s := holed usr 0x8003
       s.sample.reset = false ∧ (s.sample.fiq = true → s.cpsr.f = true) ∧ (s.sample.irq = true → s.cpsr.i = true)
       ∧ s.atBoundary.fetchAborts = false ∧ s.prefetch.current = false
       ∧ s.mapFault (if s.cpsr.t then .half else .word) s.pc = some .unmappedAddress)
    ∧ condPassed .al usr.cpsr = true ∧ singleAllowed (Index.pre true).p true 1 0 (.imm 4) ∧ singleAllowed false true 1 0 (.imm 4)
    ∧ (holed usr 0x1000).misses .read .word usr.privileged (AccessSize.word.align (usr.reg 8 1)) .unmappedAddress
    ∧ (holed usr 0x1000).misses .write .byte false (AccessSize.byte.align (usr.reg 8 1)) .unmappedAddress
    ∧ halfwordAllowed true false 1 0 (some 2) ∧ (usr.reg 8 1)[0] = false
    ∧ (holed usr 0x1001).misses .write .half usr.privileged (usr.reg 8 1) .unmappedAddress
    ∧ ((1 : RegNo) ≠ PC ∧ (holed usr 0x1000).aborted .read .word usr.privileged (AccessSize.word.align (usr.reg 8 1)) = false) := by
  unfold singleAllowed halfwordAllowed State.misses; decide

/-- The hypotheses of the clause of MemoryMapAccesses on a fetch from a device; whatever is fetched, no hazard mark is set. -/
theorem test_hyps_MemoryMapAccesses_fetch :
    let s := deviceAt thumbUsr 0x8000 0x8001
    s.sample.reset = false ∧ (s.sample.fiq = true → s.cpsr.f = true) ∧ (s.sample.irq = true → s.cpsr.i = true)
    ∧ s.atBoundary.fetchAborts = false ∧ s.prefetch.current = false ∧ s.onDevice (if s.cpsr.t then .half else .word) s.pc = true
    ∧ s.bankHazard = false := by
  decide

/-- The hypotheses of the block clauses of MemoryMapAccesses: the first word accepted, nothing at the second. -/
theorem test_hyps_MemoryMapAccesses_blocks :
    1 < (regList 0x6003).length ∧ blockRefusal true false true 1 0x6003 svc.cpsr.mode = none
    ∧ blockRefusal false true false 1 0x6003 svc.cpsr.mode = none
    ∧ (holed svc 0x1004).blockAccepted .read 0x1000 1 ∧ (holed svc 0x1004).blockAnswered 0x1000 1
    ∧ (holed svc 0x1004).misses .read .word svc.privileged (slot 0x1000 1) .unmappedAddress
    ∧ (holed svc 0x1004).misses .write .word svc.privileged (slot 0x1000 1) .unmappedAddress := by
  unfold State.blockAccepted State.blockAnswered State.accepts State.misses; decide

/-- The hypotheses of TransferAborts, each size and kind. -/
theorem test_hyps_TransferAborts :
    let s := refusing usr
    condPassed .al s.cpsr = true ∧ singleAllowed true false 15 15 (.imm 4095) ∧ singleAllowed false true 1 15 (.reg .ror 0 2)
    ∧ halfwordAllowed true false 15 15 (some 2) ∧ halfwordAllowed false false 1 15 none
    ∧ s.aborted .read .word s.privileged (AccessSize.word.align 0x1003) = true
    ∧ s.aborted .write .byte s.privileged (AccessSize.byte.align 0xFFFFFFFF) = true
    ∧ s.aborted .write .word false (AccessSize.word.align (s.reg 8 1)) = true ∧ (s.reg 8 1)[0] = false
    ∧ s.aborted .write .half s.privileged (AccessSize.half.align (s.reg 8 1)) = true
    ∧ s.aborted .read .half s.privileged (AccessSize.half.align (s.reg 8 1)) = true := by
  unfold singleAllowed halfwordAllowed; decide

/-- The hypotheses of MultipleLoads, MultipleLoadReturn (with `test_hyps_ResultToPc_and_TestWithPcField`), MultipleLoadUserBank and MultipleStores. -/
theorem test_hyps_blockTransfers :
    condPassed .al svc.cpsr = true ∧ (0x8001 : BitVec 16) ≠ 0 ∧ (14 : RegNo) ≠ PC ∧ (0x8001 : BitVec 16).getLsbD 15 = true
    ∧ (0x6003 : BitVec 16).getLsbD 15 = false ∧ svc.cpsr.mode ≠ .usr ∧ usr.cpsr.mode = .usr ∧ sys.cpsr.mode = .sys
    ∧ svc.blockAccepted .read 0xFFFFFFE1 16 ∧ svc.blockAccepted .write 0x1003 16 := by
  unfold State.blockAccepted State.accepts; decide

/-- The hypotheses of MultipleLoadAborts and MultipleStoreAborts. -/
theorem test_hyps_blockAborts :
    let s := refusingWord svc 0x1004
    condPassed .al s.cpsr = true ∧ blockRefusal true true false 1 0x6003 s.cpsr.mode = none
    ∧ physReg s.cpsr.mode 1 = some .r1 ∧ 1 < (regList 0x6003).length
    ∧ s.blockAccepted .read (s.reg 0 1) 1 ∧ s.aborted .read .word s.privileged (slot (s.reg 0 1) 1) = true
    ∧ s.aborted .write .word s.privileged (slot (s.reg 0 1) 1) = true ∧ s.blockAnswered (s.reg 0 1) 4
    ∧ (1 : RegNo) ≠ PC ∧ s.cpsr.mode ≠ .usr := by
  unfold State.blockAccepted State.blockAnswered State.accepts; decide

/-- The hypotheses of SwapInOneStep, each clause. -/
theorem test_hyps_SwapInOneStep :
    condPassed .al svc.cpsr = true ∧ (1 : RegNo) ≠ PC ∧ svc.accepts .read .word svc.privileged (wordAligned (svc.reg 0 4))
    ∧ svc.accepts .write .word svc.privileged (wordAligned (svc.reg 0 4))
    ∧ svc.accepts .read .byte svc.privileged (svc.reg 0 4) ∧ svc.accepts .write .byte svc.privileged (svc.reg 0 4)
    ∧ (refusing svc).aborted .write .byte svc.privileged (AccessSize.byte.align (svc.reg 0 4)) = true := by
  unfold State.accepts; decide

/-- The hypotheses of SoftwareInterruptEntry and UndefinedEntry. -/
theorem test_hyps_traps :
    (svc.cpsr.t = false ∧ condPassed .al svc.cpsr = true) ∧ thumbUsr.cpsr.t = true := by
  decide

/-- The hypotheses of BoundaryExceptions, each clause. -/
theorem test_hyps_BoundaryExceptions :
    (let s := { usr with inputs := [{ Sample.quiet with fiq := true, irq := true }] }
     s.sample.reset = false ∧ (s.sample.fiq && !s.cpsr.f) = true)
    ∧ (let s := { usr with inputs := [{ Sample.quiet with fiq := true, irq := true }], cpsr := { usr.cpsr with f := true } }
       s.sample.reset = false ∧ (s.sample.fiq && !s.cpsr.f) = false ∧ (s.sample.irq && !s.cpsr.i) = true)
    ∧ (let s := { usr with inputs := [{ Sample.quiet with aborts := some [{ everyData with fetch := true }] }] }
       s.sample.reset = false ∧ (s.sample.fiq && !s.cpsr.f) = false ∧ (s.sample.irq && !s.cpsr.i) = false
       ∧ s.atBoundary.aborted .fetch (if s.cpsr.t then .half else .word) s.privileged s.pc = true) := by
  decide

/-- The hypotheses of ReturnFromException. -/
theorem test_hyps_ReturnFromException :
    usr.pcAligned = true ∧ ({ thumbUsr with pc := 0xFFFFFFFE } : State).pcAligned = true := by
  decide

/-- The hypotheses of ThumbAluOperations. -/
theorem test_hyps_ThumbAluOperations : (0 : LoReg) ≠ 7 ∧ (7 : LoReg) = 7 := by
  decide

/-- The hypotheses of ThumbHiRegisters, both clauses. -/
theorem test_hyps_ThumbHiRegisters :
    thumbUsr.cpsr.t = true ∧ (8 ≤ (8 : RegNo).toNat ∨ 8 ≤ (0 : RegNo).toNat) ∧ (8 ≤ (7 : RegNo).toNat ∨ 8 ≤ (15 : RegNo).toNat)
    ∧ (7 : RegNo).toNat < 8 ∧ (0 : RegNo).toNat < 8 := by
  decide

/-- The hypotheses of ThumbLoads and ThumbStores, each clause. -/
theorem test_hyps_ThumbTransfers :
    let a := thumbUsr.reg 0 (lo 1) + thumbUsr.reg 0 (lo 2)
    (AccessSize.half = .half → a[0] = false) ∧ (thumbUsr.reg 0 (lo 3) + thumbUsr.reg 0 (lo 2))[0] = true
    ∧ thumbUsr.accepts .read .half thumbUsr.privileged (AccessSize.half.align a)
    ∧ (refusing thumbUsr).aborted .read .half thumbUsr.privileged (AccessSize.half.align a) = true
    ∧ thumbUsr.accepts .write .word thumbUsr.privileged (wordAligned a)
    ∧ (refusing thumbUsr).aborted .write .word thumbUsr.privileged (AccessSize.word.align a) = true
    ∧ thumbUsr.accepts .write .byte thumbUsr.privileged a := by
  unfold State.accepts; decide

/-- The hypotheses of ThumbMultipleStores and ThumbMultipleLoads. -/
theorem test_hyps_ThumbMultiples :
    (0x80 : BitVec 8) ≠ 0 ∧ thumbUsr.cpsr.t = true ∧ ((0 : BitVec 8).setWidth 16 ||| 0x8000 : BitVec 16) ≠ 0
    ∧ thumbUsr.blockAccepted .write (thumbUsr.reg 0 SP - 36) 9 ∧ thumbUsr.blockAccepted .read (thumbUsr.reg 0 SP) 9
    ∧ (0x7F : BitVec 16).getLsbD (13 : RegNo).toNat = false
    ∧ (let s := refusingWord thumbUsr 0x2004
       s.blockAccepted .read (s.reg 0 SP) 1 ∧ s.aborted .read .word s.privileged (slot (s.reg 0 SP) 1) = true
       ∧ s.blockAnswered (s.reg 0 SP) 9 ∧ s.aborted .write .word s.privileged (slot (s.reg 0 SP) 1) = true
       ∧ physReg s.cpsr.mode SP = some .r13) := by
  unfold State.blockAccepted State.blockAnswered State.accepts; decide

/-- The hypotheses of ReservedEncodings and ForbiddenOperands, each clause. -/
theorem test_hyps_ForbiddenOperands :
    condPassed .al svc.cpsr = true ∧ (usr.cpsr.mode = .usr ∨ usr.cpsr.mode = .sys) ∧ (sys.cpsr.mode = .usr ∨ sys.cpsr.mode = .sys)
    ∧ (14 : RegNo) ≠ PC ∧ (!Index.post.p || Index.post.w) = true ∧ ((!(Index.pre false).p || (Index.pre false).w) = true → PC ≠ PC)
    ∧ offsetReg (.reg .lsl 0 14) ≠ some PC ∧ (0 : RegNo) ≠ 14 ∧ (!true || true) = true ∧ (true = false → true = false) ∧ ((!false || false) = true ∧ (false = false → false = false))
    ∧ ((!true || false) = true → PC ≠ PC) ∧ (0x8000 : BitVec 16) ≠ 0 ∧ svc.cpsr.mode ≠ .usr := by
  decide

/-- The hypotheses of the first clauses of HazardsStop: stores of each form at the bounds of the window, a MOV in between. -/
theorem test_hyps_HazardsStop_store :
    (let s := { usr with regs := { usr.regs with r1 := 0x8007, r2 := 0x01A00000 } }
     s.aborts = [] ∧ s.inputs = [] ∧ s.width.toNat ≤ ((0x8004 : Word) - s.pc).toNat ∧ ((0x8007 : Word) - s.pc).toNat < 2 * s.width.toNat
     ∧ ((0x8007 : Word) - wordAligned (s.reg 8 1)).toNat < 4
     ∧ answers (exec (.str .al true (.pre false) 1 2 (.imm 0)) s) (fun t => s.byteAt 0x8007 != t.byteAt 0x8007) = true
     ∧ answers (exec (.strb .al true (.pre false) 1 2 (.imm 0)) s) (fun _ => s.reg 8 1 == 0x8007) = true)
    ∧ (let s := { usr with regs := { usr.regs with r1 := 0x8008 } }
       2 * s.width.toNat ≤ ((0x8008 : Word) - s.pc).toNat ∧ ((0x800B : Word) - s.pc).toNat < 3 * s.width.toNat
       ∧ answers (exec (.str .al true (.pre false) 1 2 (.imm 0)) s)
           (fun t => answers (step t) (fun _ => t.fetch == .and .eq false 0 0 (.shiftImm .lsl 0 0))) = true)
    ∧ (let s := { thumb 0x0000 with regs := { usr.regs with r1 := 0x8000, r2 := 4 } }
       let s := s.storeValue .half 0x8002 0x4640
       s.width.toNat ≤ ((0x8002 : Word) - s.pc).toNat ∧ ((0x8005 : Word) - s.pc).toNat < 3 * s.width.toNat
       ∧ ((0x8005 : Word) - wordAligned (s.reg 0 (lo 1) + s.reg 0 (lo 2))).toNat < 4
       ∧ answers (exec (.tStrReg 2 1 0) { s with prefetch := Prefetch.fresh })
           (fun t => answers (step t) (fun _ => t.fetch == .tMovHi 8 0)) = true) := by
  decide

/-- The hypotheses of the last clause of HazardsStop, a banked register named and none. -/
theorem test_hyps_HazardsStop_bank :
    let s := { arm 0xE1A0000D (mode := .svc) with bankHazard := true }
    s.inputs = [] ∧ s.aborts = [] ∧ s.prefetch.current = false ∧ s.mapKind .word s.pc = none ∧ s.bankHazard = true ∧ s.cpsr.t = false
    ∧ condPassed .al s.cpsr = true ∧ decodeArm (s.wordAt s.pc) = .mov .al false 0 0 (.shiftImm .lsl 0 13)
    ∧ (∃ r ∈ [(0 : RegNo), 13], physReg s.cpsr.mode r ≠ physReg .usr r)
    ∧ (∀ r ∈ [(0 : RegNo), 12], physReg s.cpsr.mode r = physReg .usr r)
    ∧ (∃ r ∈ [(0 : RegNo), 8], physReg .fiq r ≠ physReg .usr r) := by
  decide

/-- The hypotheses of OnlyStoresChangeMemory. -/
theorem test_hyps_OnlyStoresChangeMemory :
    storesMemory (.ldr .al true .post 1 0 (.imm 4)) = false
    ∧ answers (exec (.ldr .al true .post 1 0 (.imm 4)) usr) (fun _ => true) = true := by
  decide

/-- The hypotheses of UserModeConfined, both outcomes. -/
theorem test_hyps_UserModeConfined :
    usr.cpsr.mode = .usr ∧ answers (exec (.msr .al false 5) usr) (fun t => t.cpsr.mode == .usr) = true
    ∧ answers (exec (.swi .al 0) usr) (fun t => t.cpsr.mode == .svc) = true
    ∧ answers (exec (.ldr .al true .post 1 0 (.imm 4)) (refusing usr)) (fun t => t.cpsr.mode == .abt) = true := by
  decide

/-- The hypotheses of StateBitChanges, each outcome. -/
theorem test_hyps_StateBitChanges :
    answers (exec (.bx .al 3) usr) (fun t => t.cpsr.t != usr.cpsr.t) = true
    ∧ answers (exec (.tBx false 14 0) thumbUsr) (fun t => t.cpsr.t != thumbUsr.cpsr.t) = true
    ∧ answers (exec (.tSwi 0) thumbUsr) (fun t => t.cpsr.t != thumbUsr.cpsr.t) = true
    ∧ answers (exec (.mov .al true 0 PC (.shiftImm .lsl 0 LR)) saved) (fun t => t.cpsr.t != saved.cpsr.t) = true := by
  decide

end Sys2Proof.Tests
end

section
/-!
SUPPORT. The ARM branches B and BL (spec/40_condition_bx_branch.md): the arithmetic of the target, what a branch keeps, and the
statement about both.
-/

namespace Sys2Proof.Machine

/-! ### Aligned addresses moved by whole words -/

/-- Modulo 2^32 a signed word offset is a natural one, which brings it to `wordAligned_add`. -/
theorem ofInt_four_mul (z : Int) : BitVec.ofInt 32 (4 * z) = BitVec.ofNat 32 (4 * (z % 2 ^ 30).toNat) := by
  apply BitVec.eq_of_toNat_eq
  rw [BitVec.toNat_ofInt, BitVec.toNat_ofNat]
  omega

theorem wordAligned_add_ofInt (a : Word) (z : Int) :
    wordAligned (a + BitVec.ofInt 32 (4 * z)) = wordAligned a + BitVec.ofInt 32 (4 * z) := by
  rw [ofInt_four_mul, wordAligned_add]

theorem State.wordAligned_pc {s : State} (ht : s.cpsr.t = false) (ha : s.pcAligned = true) : wordAligned s.pc = s.pc := by
  rw [State.pcAligned, beq_iff_eq, ht] at ha
  exact ha

/-! ### The target of an ARM branch -/

/-- `offset24 :: 00` is four times the signed offset (R165). -/
theorem toInt_cat_zeros (offset : BitVec 24) : (cat 26 offset 0#2).toInt = 4 * offset.toInt := by
  rw [cat, BitVec.setWidth_eq, BitVec.toInt_append_zero]
  rfl

theorem State.branchTarget_eq (s : State) (offset : BitVec 24) :
    s.branchTarget offset = s.pc + 8 + BitVec.ofInt 32 (4 * offset.toInt) := by
  rw [State.branchTarget, BitVec.signExtend, toInt_cat_zeros]

/-- From an aligned pc the mask of `branch` drops nothing. -/
theorem State.wordAligned_branchTarget {s : State} (h : wordAligned s.pc = s.pc) (offset : BitVec 24) :
    wordAligned (s.branchTarget offset) = s.branchTarget offset := by
  have h8 : wordAligned (s.pc + 8) = wordAligned s.pc + 8 := wordAligned_add s.pc 2
  rw [State.branchTarget_eq, wordAligned_add_ofInt, h8, h]

/-- Where B and BL go: `u` is the state that branches, `s` the one the target is computed in. -/
theorem State.branch_branchTarget_pc {s u : State} (hu : u.cpsr = s.cpsr) (ht : s.cpsr.t = false) (ha : s.pcAligned = true)
    (offset : BitVec 24) : (u.branch (s.branchTarget offset)).pc = s.pc + 8 + BitVec.ofInt 32 (4 * offset.toInt) := by
  rw [State.branch_pc, hu, ht, alignPc_arm, State.wordAligned_branchTarget (State.wordAligned_pc ht ha), State.branchTarget_eq]

/-! ### What a register write and a branch keep -/

theorem State.keepsSystem_setReg (s : State) (i : RegNo) (v : Word) : s.KeepsSystem (s.setReg i v) := by
  simp [State.KeepsSystem, State.KeepsInputs]

theorem State.KeepsRegs.branch {s u : State} {ws : List RegNo} (h : s.KeepsRegs u ws) (a : Word) : s.KeepsRegs (u.branch a) ws :=
  h

theorem State.KeepsSystem.branch {s u : State} (h : s.KeepsSystem u) (a : Word) : s.KeepsSystem (u.branch a) :=
  h

/-! ### B and BL -/

theorem exec_b_passed {s : State} {c : Cond} (h : condPassed c s.cpsr = true) (offset : BitVec 24) :
    exec (.b c offset) s = .next (s.branch (s.branchTarget offset)) :=
  whenPassed_true h _

theorem exec_bl_passed {s : State} {c : Cond} (h : condPassed c s.cpsr = true) (offset : BitVec 24) :
    exec (.bl c offset) s = .next ((s.setReg LR (s.pc + 4)).branch (s.branchTarget offset)) :=
  whenPassed_true h _

theorem exec_b_failed {s : State} {c : Cond} (h : condPassed c s.cpsr = false) (offset : BitVec 24) :
    exec (.b c offset) s = .next s.advance :=
  whenPassed_false h _

theorem exec_bl_failed {s : State} {c : Cond} (h : condPassed c s.cpsr = false) (offset : BitVec 24) :
    exec (.bl c offset) s = .next s.advance :=
  whenPassed_false h _

theorem State.advance_pc_arm {s : State} (ht : s.cpsr.t = false) : s.advance.pc = s.pc + 4 := by
  simp [State.width, ht]

theorem lr_ne_pc : LR ≠ PC := by
  decide

/-- Settles O23: the target is a whole number of words from an aligned pc, so `branch` leaves it as it is; the link is written before
the branch, which keeps the registers. -/
theorem branchAndLink : Obligations.BranchAndLink := by
  intro s c offset ht ha
  refine ⟨fun hc => ⟨?b, ?bl⟩, fun hc i hi => ?failed⟩
  case b =>
    exact ⟨_, exec_b_passed hc offset, State.branch_branchTarget_pc rfl ht ha offset, rfl,
      State.keepsRegs_of_regs rfl [], State.keepsMemory_of_mem rfl, s.keepsSystem_refl.branch _⟩
  case bl =>
    have link : ((s.setReg LR (s.pc + 4)).branch (s.branchTarget offset)).reg 0 LR = s.pc + 4 := by
      rw [State.reg_branch _ _ lr_ne_pc, State.reg_setReg_same _ lr_ne_pc]
    exact ⟨_, exec_bl_passed hc offset, State.branch_branchTarget_pc (s.setReg_cpsr ..) ht ha offset, link, s.setReg_cpsr ..,
      (s.keepsRegs_setReg LR _).branch _,
      State.keepsMemory_of_mem (s.setReg_mem ..), (s.keepsSystem_setReg LR _).branch _⟩
  case failed =>
    have stays : exec i s = .next s.advance := by
      obtain rfl | rfl : i = .b c offset ∨ i = .bl c offset := by simpa using hi
      · exact exec_b_failed hc offset
      · exact exec_bl_failed hc offset
    exact ⟨_, stays, State.advance_pc_arm ht, s.advance_onlyAdvances⟩

end Sys2Proof.Machine
end

section
/-!
SUPPORT. ARM data processing (spec/41_data_processing.md): the shifter by its amount, the operation behind each opcode, and the
statements about the register-specified shift and the two classes of opcodes.
-/

namespace Sys2Proof.Machine

/-! ### The shifter by its amount -/

/-- The bottom byte of the register counts (R188). -/
theorem shiftByReg_eq (ty : ShiftType) (rs v : Word) (c : Bool) : shiftByReg ty rs v c = shiftBy ty (rs.toNat % 256) v c := by
  simp [shiftByReg, BitVec.extractLsb'_toNat]

theorem shiftBy_zero (ty : ShiftType) (v : Word) (c : Bool) : shiftBy ty 0 v c = (v, c) :=
  rfl

/-- An instruction amount other than 0 is taken literally (R184 to R187). -/
theorem shiftByField_of_ne_zero {amount : BitVec 5} (h : amount ≠ 0) (ty : ShiftType) (v : Word) (c : Bool) :
    shiftByField ty amount v c = shiftBy ty amount.toNat v c :=
  if_neg h

theorem shiftBy_lsl_32 (v : Word) (c : Bool) : shiftBy .lsl 32 v c = (0#32, v[0]) :=
  rfl

theorem shiftBy_lsr_32 (v : Word) (c : Bool) : shiftBy .lsr 32 v c = (0#32, v[31]) :=
  rfl

theorem shiftBy_ror_32 (v : Word) (c : Bool) : shiftBy .ror 32 v c = (v, v[31]) :=
  rfl

section Far
variable {n : Nat} (v : Word) (c : Bool)

theorem shiftBy_lsl_gt_32 (h : 32 < n) : shiftBy .lsl n v c = (0#32, false) := by
  have h0 : n ≠ 0 := by omega
  have hlt : ¬ n < 32 := by omega
  have hne : n ≠ 32 := by omega
  simp only [shiftBy, h0, hlt, hne, if_false, BitVec.ofNat_eq_ofNat]

theorem shiftBy_lsr_gt_32 (h : 32 < n) : shiftBy .lsr n v c = (0#32, false) := by
  have h0 : n ≠ 0 := by omega
  have hlt : ¬ n < 32 := by omega
  have hne : n ≠ 32 := by omega
  simp only [shiftBy, h0, hlt, hne, if_false, BitVec.ofNat_eq_ofNat]

theorem shiftBy_asr_ge_32 (h : 32 ≤ n) : shiftBy .asr n v c = (if v[31] then 0xFFFFFFFF#32 else 0#32, v[31]) := by
  have h0 : n ≠ 0 := by omega
  have hlt : ¬ n < 32 := by omega
  simp only [shiftBy, h0, hlt, if_false, BitVec.ofNat_eq_ofNat]

/-- A rotate looks at its amount modulo 32 only, 0 apart (R191). -/
theorem shiftBy_ror_sub_32 (h : 32 < n) : shiftBy .ror n v c = shiftBy .ror (n - 32) v c := by
  have h0 : n ≠ 0 := by omega
  have hsub : n - 32 ≠ 0 := by omega
  have hmod : (n - 1) % 32 = (n - 32 - 1) % 32 := by omega
  simp only [shiftBy, h0, hsub, hmod, if_false]

end Far

/-- Settles O12: each clause is the shifter at a literal amount, the bottom byte of the register. -/
theorem shiftByRegister : Obligations.ShiftByRegister := by
  intro rs v c
  refine ⟨fun h ty => ?zero, fun amount hne h ty => ?field, fun h => ?at32, fun h => ?above32, fun h => ?asr⟩
  case zero => rw [shiftByReg_eq, h, shiftBy_zero]
  case field => rw [shiftByReg_eq, h, shiftByField_of_ne_zero hne]
  case at32 =>
    simp only [shiftByReg_eq, h]
    exact ⟨shiftBy_lsl_32 v c, shiftBy_lsr_32 v c, shiftBy_ror_32 v c⟩
  case above32 =>
    have less : (BitVec.ofNat 32 (rs.toNat % 256 - 32)).toNat % 256 = rs.toNat % 256 - 32 := by
      rw [BitVec.toNat_ofNat]
      omega
    simp only [shiftByReg_eq, less]
    exact ⟨shiftBy_lsl_gt_32 v c h, shiftBy_lsr_gt_32 v c h, shiftBy_ror_sub_32 v c h⟩
  case asr => rw [shiftByReg_eq, shiftBy_asr_ge_32 v c h]

/-! ### The flags of an ALU outcome -/

theorem logical_result (p : Cpsr) (v : Word) (shc : Bool) : (logical p v shc).result = v :=
  rfl

/-- A logical outcome leaves V as it is (R199). -/
theorem Cpsr.setFlags_logical (p : Cpsr) (v : Word) (shc : Bool) : p.setFlags (logical p v shc) = p.withNzc v shc :=
  rfl

theorem Cpsr.setFlags_eq (p : Cpsr) (o : AluOut) : p.setFlags o = p.withNzcv o.result o.carry o.overflow :=
  rfl

/-! ### The operation behind each opcode -/

/-- The meaning of every opcode that writes Rd (R182). -/
theorem exec_writingOpcode {mk : Cond → Bool → RegNo → RegNo → Operand2 → Instr} {op : AluOp} (h : (mk, op) ∈ writingOpcodes)
    (s : State) (c : Cond) (sb : Bool) (rn rd : RegNo) (op2 : Operand2) :
    exec (mk c sb rn rd op2) s = whenPassed c s (s.dataProcess op sb rn rd op2) := by
  simp only [writingOpcodes, List.mem_cons, Prod.mk.injEq, List.not_mem_nil, or_false] at h
  rcases h with ⟨rfl, rfl⟩ | ⟨rfl, rfl⟩ | ⟨rfl, rfl⟩ | ⟨rfl, rfl⟩ | ⟨rfl, rfl⟩ | ⟨rfl, rfl⟩ | ⟨rfl, rfl⟩ | ⟨rfl, rfl⟩
    | ⟨rfl, rfl⟩ | ⟨rfl, rfl⟩ | ⟨rfl, rfl⟩ | ⟨rfl, rfl⟩ <;> rfl

/-- The opcodes that write no register, each with its operation (R180). -/
def testOperations : List ((Cond → RegNo → RegNo → Operand2 → Instr) × AluOp) :=
  [(.tst, aluAnd), (.teq, aluEor), (.cmp, aluSub), (.cmn, aluAdd)]

theorem map_fst_testOperations : testOperations.map Prod.fst = testOpcodes :=
  rfl

/-- The meaning of every opcode that writes no register (R182). -/
theorem exec_testOperation {mk : Cond → RegNo → RegNo → Operand2 → Instr} {op : AluOp} (h : (mk, op) ∈ testOperations)
    (s : State) (c : Cond) (rn rd : RegNo) (op2 : Operand2) :
    exec (mk c rn rd op2) s = whenPassed c s (s.dataTest op rn rd op2) := by
  simp only [testOperations, List.mem_cons, Prod.mk.injEq, List.not_mem_nil, or_false] at h
  rcases h with ⟨rfl, rfl⟩ | ⟨rfl, rfl⟩ | ⟨rfl, rfl⟩ | ⟨rfl, rfl⟩ <;> rfl

/-! ### Result, flags and frame -/

section DataProcessing
variable {s : State} {c : Cond} {sb : Bool} {rn rd : RegNo} {op2 : Operand2}

/-- Rd not R15: the flags of the outcome where S asks for them, then Rd written (R182). -/
theorem State.dataProcess_eq (s : State) (op : AluOp) (sb : Bool) (rn : RegNo) (h15 : amountIsR15 op2 = false) (hrd : rd ≠ PC) :
    s.dataProcess op sb rn rd op2 =
      .next (State.finish { s with cpsr := if sb then s.cpsr.setFlags (s.aluOut op rn op2) else s.cpsr } rd
        (s.aluOut op rn op2).result) := by
  cases sb <;> simp [State.dataProcess, h15, hrd]

/-- Rd not R15: the flags alone (R182). -/
theorem State.dataTest_eq (s : State) (op : AluOp) (rn : RegNo) (h15 : amountIsR15 op2 = false) (hrd : rd ≠ PC) :
    s.dataTest op rn rd op2 = .next (State.advance { s with cpsr := s.cpsr.setFlags (s.aluOut op rn op2) }) := by
  simp [State.dataTest, h15, hrd]

theorem State.dataProcess_resultIn (s : State) (op : AluOp) (sb : Bool) (rn : RegNo) (h15 : amountIsR15 op2 = false) (hrd : rd ≠ PC) :
    ∃ t, s.dataProcess op sb rn rd op2 = .next t
      ∧ s.ResultIn t rd (s.aluOut op rn op2).result (if sb then s.cpsr.setFlags (s.aluOut op rn op2) else s.cpsr) :=
  ⟨_, s.dataProcess_eq op sb rn h15 hrd, State.finish_resultIn rd _ rfl rfl rfl (by cases sb <;> rfl) (by cases sb <;> rfl)
    s.keepsSystem_refl⟩

theorem State.dataTest_flagsOnly (s : State) (op : AluOp) (rn : RegNo) (h15 : amountIsR15 op2 = false) (hrd : rd ≠ PC) :
    ∃ t, s.dataTest op rn rd op2 = .next t ∧ s.FlagsOnly t (s.cpsr.setFlags (s.aluOut op rn op2)) :=
  ⟨_, s.dataTest_eq op rn h15 hrd, State.advance_flagsOnly rfl rfl rfl rfl s.keepsSystem_refl⟩

/-! The outcome, `o`, as the rule of the opcode gives it (R200); or its value `v`, where it is a logical one (R199). -/

theorem exec_writingOpcode_resultIn {mk : Cond → Bool → RegNo → RegNo → Operand2 → Instr} {op : AluOp} {o : AluOut}
    (h : (mk, op) ∈ writingOpcodes) (ho : s.aluOut op rn op2 = o)
    (hc : condPassed c s.cpsr = true) (h15 : amountIsR15 op2 = false) (hrd : rd ≠ PC) :
    ∃ t, exec (mk c sb rn rd op2) s = .next t
      ∧ s.ResultIn t rd o.result (if sb then s.cpsr.withNzcv o.result o.carry o.overflow else s.cpsr) := by
  rw [exec_writingOpcode h, whenPassed_true hc]
  simpa only [ho, Cpsr.setFlags_eq] using s.dataProcess_resultIn op sb rn h15 hrd

theorem exec_testOperation_flagsOnly {mk : Cond → RegNo → RegNo → Operand2 → Instr} {op : AluOp} {o : AluOut}
    (h : (mk, op) ∈ testOperations) (ho : s.aluOut op rn op2 = o)
    (hc : condPassed c s.cpsr = true) (h15 : amountIsR15 op2 = false) (hrd : rd ≠ PC) :
    ∃ t, exec (mk c rn rd op2) s = .next t ∧ s.FlagsOnly t (s.cpsr.withNzcv o.result o.carry o.overflow) := by
  rw [exec_testOperation h, whenPassed_true hc]
  simpa only [ho, Cpsr.setFlags_eq] using s.dataTest_flagsOnly op rn h15 hrd

theorem exec_logical_resultIn {mk : Cond → Bool → RegNo → RegNo → Operand2 → Instr} {op : AluOp} {v : Word}
    (h : (mk, op) ∈ writingOpcodes) (hv : s.aluOut op rn op2 = logical s.cpsr v (s.shifterOperand op2).2)
    (hc : condPassed c s.cpsr = true) (h15 : amountIsR15 op2 = false) (hrd : rd ≠ PC) :
    ∃ t, exec (mk c sb rn rd op2) s = .next t
      ∧ s.ResultIn t rd v (if sb then s.cpsr.withNzc v (s.shifterOperand op2).2 else s.cpsr) := by
  rw [exec_writingOpcode h, whenPassed_true hc]
  simpa only [hv, Cpsr.setFlags_logical, logical_result] using s.dataProcess_resultIn op sb rn h15 hrd

theorem exec_logical_flagsOnly {mk : Cond → RegNo → RegNo → Operand2 → Instr} {op : AluOp} {v : Word}
    (h : (mk, op) ∈ testOperations) (hv : s.aluOut op rn op2 = logical s.cpsr v (s.shifterOperand op2).2)
    (hc : condPassed c s.cpsr = true) (h15 : amountIsR15 op2 = false) (hrd : rd ≠ PC) :
    ∃ t, exec (mk c rn rd op2) s = .next t ∧ s.FlagsOnly t (s.cpsr.withNzc v (s.shifterOperand op2).2) := by
  rw [exec_testOperation h, whenPassed_true hc]
  simpa only [hv, Cpsr.setFlags_logical] using s.dataTest_flagsOnly op rn h15 hrd

end DataProcessing

/-- Settles O14: each opcode's outcome is a `logical` one, whose flags are N and Z of the value and C of the shifter. -/
theorem logicalClass : Obligations.LogicalClass := by
  intro s c sb rn rd op2 hc h15 hrd
  refine ⟨?and, ?eor, ?orr, ?mov, ?bic, ?mvn, ?tst, ?teq⟩
  case and => exact exec_logical_resultIn (op := aluAnd) (by simp [writingOpcodes]) rfl hc h15 hrd
  case eor => exact exec_logical_resultIn (op := aluEor) (by simp [writingOpcodes]) rfl hc h15 hrd
  case orr => exact exec_logical_resultIn (op := aluOrr) (by simp [writingOpcodes]) rfl hc h15 hrd
  case mov => exact exec_logical_resultIn (op := aluMov) (by simp [writingOpcodes]) rfl hc h15 hrd
  case bic => exact exec_logical_resultIn (op := aluBic) (by simp [writingOpcodes]) rfl hc h15 hrd
  case mvn => exact exec_logical_resultIn (op := aluMvn) (by simp [writingOpcodes]) rfl hc h15 hrd
  case tst => exact exec_logical_flagsOnly (op := aluAnd) (by simp [testOperations]) rfl hc h15 hrd
  case teq => exact exec_logical_flagsOnly (op := aluEor) (by simp [testOperations]) rfl hc h15 hrd

/-- Settles O15: each opcode's outcome is the addition its rule names. -/
theorem arithmeticClass : Obligations.ArithmeticClass := by
  intro s c sb rn rd op2 hc h15 hrd
  refine ⟨?sub, ?rsb, ?add, ?adc, ?sbc, ?rsc, ?cmp, ?cmn⟩
  case sub => exact exec_writingOpcode_resultIn (op := aluSub) (by simp [writingOpcodes]) rfl hc h15 hrd
  case rsb => exact exec_writingOpcode_resultIn (op := aluRsb) (by simp [writingOpcodes]) rfl hc h15 hrd
  case add => exact exec_writingOpcode_resultIn (op := aluAdd) (by simp [writingOpcodes]) rfl hc h15 hrd
  case adc => exact exec_writingOpcode_resultIn (op := aluAdc) (by simp [writingOpcodes]) rfl hc h15 hrd
  case sbc => exact exec_writingOpcode_resultIn (op := aluSbc) (by simp [writingOpcodes]) rfl hc h15 hrd
  case rsc => exact exec_writingOpcode_resultIn (op := aluRsc) (by simp [writingOpcodes]) rfl hc h15 hrd
  case cmp => exact exec_testOperation_flagsOnly (op := aluSub) (by simp [testOperations]) rfl hc h15 hrd
  case cmn => exact exec_testOperation_flagsOnly (op := aluAdd) (by simp [testOperations]) rfl hc h15 hrd

end Sys2Proof.Machine
end

section
/-!
SUPPORT. PSR transfers (spec/42_psr_transfer.md): what a write to an SPSR changes and leaves, and the statement about MSR to the flags.
-/

namespace Sys2Proof.Machine

/-! ### What a PSR write changes and leaves -/

/-- The SPSR `k` is `p`, the pc moved on, nothing else changed: beside `FlagsOnly`, which says it of the CPSR. -/
def State.SpsrOnly (s t : State) (k : SpsrMode) (p : Psr) : Prop :=
  t.pc = s.pc + s.width ∧ t.cpsr = s.cpsr ∧ s.KeepsRegs t [] ∧ s.KeepsMemory t ∧ t.spsrs.get k = p
    ∧ (∀ j, j ≠ k → t.spsrs.get j = s.spsrs.get j) ∧ s.KeepsInputs t ∧ t.bankHazard = s.bankHazard

theorem State.updateSpsr_spsrOnly {s : State} {k : SpsrMode} (hk : s.cpsr.mode.spsr = some k) (f : Psr → Psr) :
    ∃ t, s.updateSpsr f = .next t ∧ s.SpsrOnly t k (f (s.spsrs.get k)) := by
  obtain ⟨hnone, -⟩ | ⟨j, hj, hnext⟩ := State.updateSpsr_cases (s := s) (f := f) rfl
  · rw [hk] at hnone
    contradiction
  · obtain rfl : k = j := Option.some.inj (hk.symm.trans hj)
    exact ⟨_, hnext, rfl, rfl, State.keepsRegs_of_regs rfl [], State.keepsMemory_of_mem rfl, Spsrs.get_set_same ..,
      fun _ hne => Spsrs.get_set_ne _ _ hne, s.keepsSystem_refl.2⟩

theorem State.writeFlags_flagsOnly (s : State) (w : Word) :
    ∃ t, s.writeFlags false w = .next t ∧ s.FlagsOnly t (s.cpsr.withFlagsOf w) :=
  ⟨_, rfl, State.advance_flagsOnly rfl rfl rfl rfl s.keepsSystem_refl⟩

theorem State.writeFlags_spsrOnly {s : State} {k : SpsrMode} (hk : s.cpsr.mode.spsr = some k) (w : Word) :
    ∃ t, s.writeFlags true w = .next t ∧ s.SpsrOnly t k ((s.spsrs.get k).withFlagsOf w) :=
  State.updateSpsr_spsrOnly hk fun p => p.withFlagsOf w

/-! ### MSR to the flags -/

section FlagsTransfer
variable {s : State} {c : Cond}

theorem exec_msrFlg_passed (hc : condPassed c s.cpsr = true) {rm : RegNo} (hrm : rm ≠ PC) (spsr : Bool) :
    exec (.msrFlg c spsr rm) s = s.writeFlags spsr (s.reg 8 rm) :=
  (whenPassed_true hc _).trans (if_neg hrm)

theorem exec_msrFlgImm_passed (hc : condPassed c s.cpsr = true) (spsr : Bool) (rotate : BitVec 4) (imm8 : BitVec 8) :
    exec (.msrFlgImm c spsr rotate imm8) s = s.writeFlags spsr (rotatedImm rotate imm8) :=
  whenPassed_true hc _

theorem exec_msrFlg_failed (hc : condPassed c s.cpsr = false) (spsr : Bool) (rm : RegNo) :
    exec (.msrFlg c spsr rm) s = .next s.advance :=
  whenPassed_false hc _

theorem exec_msrFlgImm_failed (hc : condPassed c s.cpsr = false) (spsr : Bool) (rotate : BitVec 4) (imm8 : BitVec 8) :
    exec (.msrFlgImm c spsr rotate imm8) s = .next s.advance :=
  whenPassed_false hc _

end FlagsTransfer

/-- Settles O20: both forms are `writeFlags` of their word, which replaces the four flags of one PSR. -/
theorem statusFlagsWrite : Obligations.StatusFlagsWrite := by
  intro s c rm rotate imm8
  refine ⟨fun hc b i hi => ?failed, fun hc hrm x hx => ?passed⟩
  case failed =>
    have stays : exec i s = .next s.advance := by
      obtain rfl | rfl : i = .msrFlg c b rm ∨ i = .msrFlgImm c b rotate imm8 := by simpa using hi
      · exact exec_msrFlg_failed hc b rm
      · exact exec_msrFlgImm_failed hc b rotate imm8
    exact ⟨_, stays, s.advance_onlyAdvances⟩
  case passed =>
    have writes : ∀ b, exec (x.1 b) s = s.writeFlags b x.2 := by
      simp only [List.mem_cons, List.not_mem_nil, or_false] at hx
      obtain rfl | rfl := hx
      · exact exec_msrFlg_passed hc hrm
      · exact fun b => exec_msrFlgImm_passed hc b rotate imm8
    simp only [writes]
    exact ⟨s.writeFlags_flagsOnly x.2, fun k hk => State.writeFlags_spsrOnly hk x.2⟩

end Sys2Proof.Machine
end

section
/-!
SUPPORT. The multiplies (spec/43_multiply.md): the arithmetic of the products and of the accumulator, what each multiply leaves with
allowed operands, and the statements about the short and the long ones.
-/

namespace Sys2Proof.Machine

/-! ### Products and the accumulator -/

/-- The low word of a product is that of the product of the unsigned values (R252). -/
theorem mul_eq_ofNat (a b : Word) : a * b = BitVec.ofNat 32 (a.toNat * b.toNat) := by
  rw [BitVec.ofNat_mul, BitVec.ofNat_toNat, BitVec.ofNat_toNat, BitVec.setWidth_eq, BitVec.setWidth_eq]

/-- RdHi :: RdLo is the number with RdHi above RdLo (R260). -/
theorem cat_words_eq_ofNat (hi lo : Word) : cat 64 hi lo = BitVec.ofNat 64 (hi.toNat * 2 ^ 32 + lo.toNat) := by
  apply BitVec.eq_of_toNat_eq
  have hhi := hi.isLt
  have hlo := lo.isLt
  rw [cat, BitVec.setWidth_eq, BitVec.toNat_append, ← Nat.shiftLeft_add_eq_or_of_lt hlo, Nat.shiftLeft_eq, BitVec.toNat_ofNat]
  omega

theorem State.accumulator_eq (s : State) {rdHi rdLo : RegNo} (hhi : rdHi ≠ PC) (hlo : rdLo ≠ PC) :
    s.accumulator rdHi rdLo = BitVec.ofNat 64 ((s.reg 0 rdHi).toNat * 2 ^ 32 + (s.reg 0 rdLo).toNat) := by
  rw [State.accumulator, s.reg_ahead hhi 8 0, s.reg_ahead hlo 8 0, cat_words_eq_ofNat]

theorem unsignedProduct_add_ofNat (a b : Word) (n : Nat) :
    unsignedProduct a b + BitVec.ofNat 64 n = BitVec.ofNat 64 (a.toNat * b.toNat + n) :=
  (BitVec.ofNat_add ..).symm

theorem signedProduct_add_ofNat (a b : Word) (n : Nat) :
    signedProduct a b + BitVec.ofNat 64 n = BitVec.ofInt 64 (a.toInt * b.toInt + n) := by
  rw [BitVec.ofInt_add, BitVec.ofInt_natCast, signedProduct]

/-! ### MUL and MLA -/

/-- Rd arrives; with S the flags are N and Z of it and a free C, V kept (R254). -/
theorem State.finishMul_resultIn (s : State) (sb : Bool) (rd : RegNo) (v : Word) :
    ∃ k, s.ResultIn (s.finishMul sb rd v) rd v (if sb then s.cpsr.withNzc v k else s.cpsr) := by
  cases sb with
  | false => exact ⟨false, State.finish_resultIn rd v rfl rfl rfl rfl rfl s.keepsSystem_refl⟩
  | true =>
    exact ⟨Config.mulC s.draws,
      State.finish_resultIn (u := { s.drawn with cpsr := s.cpsr.setMulFlags v (Config.mulC s.draws) }) rd v rfl rfl rfl rfl rfl
        s.keepsSystem_refl⟩

theorem mulForbidden_eq_false {rd rs rm : RegNo} (hne : rd ≠ rm) (hrd : rd ≠ PC) (hrm : rm ≠ PC) (hrs : rs ≠ PC) :
    mulForbidden rd rs rm = false := by
  simp [mulForbidden, hne, hrd, hrm, hrs]

section Short
variable {s : State} {c : Cond} {rd rn rs rm : RegNo}

theorem exec_mul_passed (hc : condPassed c s.cpsr = true) (hok : mulForbidden rd rs rm = false) (sb : Bool) (rn : RegNo) :
    exec (.mul c sb rd rn rs rm) s = .next (s.finishMul sb rd (s.reg 8 rm * s.reg 8 rs)) :=
  (whenPassed_true hc _).trans (if_neg (by simp [hok]))

theorem exec_mla_passed (hc : condPassed c s.cpsr = true) (hok : mulForbidden rd rs rm = false) (hrn : rn ≠ PC) (sb : Bool) :
    exec (.mla c sb rd rn rs rm) s = .next (s.finishMul sb rd (s.reg 8 rm * s.reg 8 rs + s.reg 8 rn)) :=
  (whenPassed_true hc _).trans (if_neg (by simp [hok, hrn]))

end Short

/-- Settles O21: with allowed operands both end in `finishMul` of their value, which is the stated one as no operand is R15. -/
theorem multiplyResult : Obligations.MultiplyResult := by
  intro s c sb rd rn rs rm hc hne hrd hrm hrs product
  have allowed := mulForbidden_eq_false hne hrd hrm hrs
  have value : s.reg 8 rm * s.reg 8 rs = product := by
    rw [s.reg_ahead hrm 8 0, s.reg_ahead hrs 8 0, mul_eq_ofNat]
  refine ⟨?mul, fun hrn => ?mla⟩
  case mul =>
    obtain ⟨k, result⟩ := s.finishMul_resultIn sb rd product
    exact ⟨_, k, by rw [exec_mul_passed hc allowed, value], result⟩
  case mla =>
    obtain ⟨k, result⟩ := s.finishMul_resultIn sb rd (product + s.reg 0 rn)
    exact ⟨_, k, by rw [exec_mla_passed hc allowed hrn, value, s.reg_ahead hrn 8 0], result⟩

/-! ### The long multiplies -/

/-- The halves of `p` arrived in RdHi and RdLo, the CPSR is `q`, nothing else changed: `ResultIn` for a pair of registers. -/
def State.LongResultIn (s t : State) (rdHi rdLo : RegNo) (p : BitVec 64) (q : Cpsr) : Prop :=
  t.reg 0 rdLo = p.extractLsb' 0 32 ∧ t.reg 0 rdHi = p.extractLsb' 32 32 ∧ t.cpsr = q
    ∧ t.pc = s.pc + s.width ∧ s.KeepsRegs t [rdHi, rdLo] ∧ s.KeepsMemory t ∧ s.KeepsSystem t

section Pair
variable {s u : State} {rdHi rdLo : RegNo}

/-- Two registers written one after the other: the rest of the register file is kept. -/
theorem State.keepsRegs_setReg_setReg (hr : u.regs = s.regs) (hmode : u.cpsr.mode = s.cpsr.mode) (lo hi : Word) :
    s.KeepsRegs ((u.setReg rdLo lo).setReg rdHi hi) [rdHi, rdLo] := by
  intro r unnamed
  have notHi : physReg s.cpsr.mode rdHi ≠ some r := unnamed rdHi (by simp)
  have notLo : physReg s.cpsr.mode rdLo ≠ some r := unnamed rdLo (by simp)
  simp [State.get_setReg, hmode, hr, notHi, notLo]

/-- A pair written in a state that differs from `s` in the CPSR and the counter alone. -/
theorem State.setReg_setReg_longResultIn (p : BitVec 64) (hr : u.regs = s.regs) (hp : u.pc = s.pc) (hm : u.mem = s.mem)
    (hmode : u.cpsr.mode = s.cpsr.mode) (ht : u.cpsr.t = s.cpsr.t) (hs : s.KeepsSystem u)
    (hhi : rdHi ≠ PC) (hlo : rdLo ≠ PC) (hne : rdHi ≠ rdLo) :
    s.LongResultIn (((u.setReg rdLo (p.extractLsb' 0 32)).setReg rdHi (p.extractLsb' 32 32)).advance) rdHi rdLo p u.cpsr := by
  refine ⟨?low, ?high, by simp, ?pc, State.keepsRegs_setReg_setReg hr hmode _ _, State.keepsMemory_of_mem (by simp [hm]), ?system⟩
  case low => rw [State.reg_advance _ hlo, State.reg_setReg_ne _ hne.symm, State.reg_setReg_same _ hlo]
  case high => rw [State.reg_advance _ hhi, State.reg_setReg_same _ hhi]
  case pc => simp [hp, State.width, ht]
  case system => simpa [State.KeepsSystem, State.KeepsInputs] using hs

/-- With S the flags are N and Z of the 64 bits and free C and V (R262). -/
theorem State.finishLong_longResultIn (s : State) (sb : Bool) (p : BitVec 64) (hhi : rdHi ≠ PC) (hlo : rdLo ≠ PC)
    (hne : rdHi ≠ rdLo) :
    ∃ k o, s.LongResultIn (s.finishLong sb rdHi rdLo p) rdHi rdLo p
      (if sb then { s.cpsr with n := p[63], z := decide (p = 0), c := k, v := o } else s.cpsr) := by
  cases sb with
  | false =>
    exact ⟨false, false, State.setReg_setReg_longResultIn p rfl rfl rfl rfl rfl s.keepsSystem_refl hhi hlo hne⟩
  | true =>
    exact ⟨Config.mullC s.draws, Config.mullV s.draws,
      State.setReg_setReg_longResultIn
        (u := { s.drawn with cpsr := s.cpsr.setLongFlags p (Config.mullC s.draws) (Config.mullV s.draws) })
        p rfl rfl rfl rfl rfl s.keepsSystem_refl hhi hlo hne⟩

end Pair

section Long
variable {s : State} {c : Cond} {rdHi rdLo rs rm : RegNo}

theorem longForbidden_eq_false (hhi : rdHi ≠ PC) (hlo : rdLo ≠ PC) (hrs : rs ≠ PC) (hrm : rm ≠ PC) (hne : rdHi ≠ rdLo)
    (hhim : rdHi ≠ rm) (hlom : rdLo ≠ rm) : longForbidden rdHi rdLo rs rm = false := by
  simp [longForbidden, hhi, hlo, hrs, hrm, hne, hhim, hlom]

/-- Condition passed and operands allowed: what every long multiply comes to, `p` its value. -/
theorem whenPassed_multiplyLong (hc : condPassed c s.cpsr = true) (hok : longForbidden rdHi rdLo rs rm = false) (sb : Bool)
    (p : BitVec 64) : whenPassed c s (s.multiplyLong sb rdHi rdLo rs rm p) = .next (s.finishLong sb rdHi rdLo p) :=
  (whenPassed_true hc _).trans (if_neg (by simp [hok]))

end Long

/-- Settles O22: each of the four ends in `finishLong` of its value, by the arithmetic of the products and of the accumulator. -/
theorem longMultiplyResult : Obligations.LongMultiplyResult := by
  intro s c sb rdHi rdLo rs rm hc hhi hlo hrs hrm hne hhim hlom unsigned signed accumulator x hx
  have ends := fun p => whenPassed_multiplyLong hc (longForbidden_eq_false hhi hlo hrs hrm hne hhim hlom) sb p
  have regRm := s.reg_ahead hrm 8 0
  have regRs := s.reg_ahead hrs 8 0
  have acc : s.accumulator rdHi rdLo = BitVec.ofNat 64 accumulator := s.accumulator_eq hhi hlo
  have value : exec x.1 s = .next (s.finishLong sb rdHi rdLo x.2) := by
    simp only [List.mem_cons, List.not_mem_nil, or_false] at hx
    obtain rfl | rfl | rfl | rfl := hx
    · exact (ends _).trans (by rw [regRm, regRs, unsignedProduct])
    · exact (ends _).trans (by rw [regRm, regRs, acc, unsignedProduct_add_ofNat])
    · exact (ends _).trans (by rw [regRm, regRs, signedProduct])
    · exact (ends _).trans (by rw [regRm, regRs, acc, signedProduct_add_ofNat])
  obtain ⟨k, o, result⟩ := s.finishLong_longResultIn sb x.2 hhi hlo hne
  exact ⟨_, k, o, value, result⟩

end Sys2Proof.Machine
end

section
/-!
SUPPORT. THUMB formats 2 and 3 (spec/47_thumb_formats_1_to_5.md): what an ALU outcome leaves in THUMB state, the values of the
immediates, and the statement about both formats.
-/

namespace Sys2Proof.Machine

/-! ### An ALU outcome in THUMB state -/

/-- A Lo register is never R15, so how far ahead the pc reads does not matter. -/
theorem State.reg_eq_loReg (s : State) (r : LoReg) : s.reg 0 (lo r) = s.loReg r :=
  (s.reg_lo r 4).symm

/-- Rd and the four flags come from the outcome (R370). -/
theorem State.thumbWrite_resultIn (s : State) (rd : LoReg) (o : AluOut) :
    ∃ t, s.thumbWrite rd o = .next t ∧ s.ResultIn t (lo rd) o.result (s.cpsr.withNzcv o.result o.carry o.overflow) :=
  ⟨_, rfl, State.finish_resultIn (lo rd) o.result rfl rfl rfl rfl rfl s.keepsSystem_refl⟩

/-- The four flags alone come from the outcome (R370). -/
theorem State.thumbTest_flagsOnly (s : State) (o : AluOut) :
    ∃ t, s.thumbTest o = .next t ∧ s.FlagsOnly t (s.cpsr.withNzcv o.result o.carry o.overflow) :=
  ⟨_, rfl, State.advance_flagsOnly rfl rfl rfl rfl s.keepsSystem_refl⟩

/-! ### Values -/

/-- Adding the complement with the carry set subtracts (R181). -/
theorem addWithCarry_not_true_result (a b : Word) : (addWithCarry a (~~~b) true).result = a - b := by
  change BitVec.ofNat 32 (a.toNat + (~~~b).toNat + 1) = a - b
  rw [BitVec.ofNat_add, BitVec.ofNat_add, BitVec.ofNat_toNat, BitVec.ofNat_toNat, BitVec.setWidth_eq, BitVec.setWidth_eq,
    BitVec.sub_eq_add_neg, BitVec.neg_eq_not_add, BitVec.add_assoc]

/-- An 8-bit immediate is never negative as a word, and zero only where its field is (R380). -/
theorem Cpsr.withNzc_imm8 (p : Cpsr) (imm8 : BitVec 8) :
    p.withNzc (imm8.setWidth 32) p.c = { p with n := false, z := decide (imm8 = 0) } := by
  have signBit : (imm8.setWidth 32)[31] = false := by simp
  have zero : imm8.setWidth 32 = 0 ↔ imm8 = 0 := by
    rw [← BitVec.toNat_inj, ← BitVec.toNat_inj, BitVec.toNat_setWidth_of_le (by decide)]
    rfl
  simp only [Cpsr.withNzc, signBit, zero]

/-! ### Formats 2 and 3 -/

/-- Settles O44: each writing form is `thumbWrite` of its outcome and CMP is `thumbTest`; MOV's outcome is a `logical` one that hands
on the C flag. -/
theorem thumbAddSubtractImmediate : Obligations.ThumbAddSubtractImmediate := by
  intro s rn rs rd o3 o8 a b d k3 k8
  have rsValue : a = s.loReg rs := s.reg_eq_loReg rs
  have rnValue : b = s.loReg rn := s.reg_eq_loReg rn
  have rdValue : d = s.loReg rd := s.reg_eq_loReg rd
  have imm3 : k3 = o3.setWidth 32 := BitVec.ofNat_toNat 32 o3
  have imm8 : k8 = o8.setWidth 32 := BitVec.ofNat_toNat 32 o8
  rw [rsValue, rnValue, rdValue, imm3, imm8]
  refine ⟨fun x hx => ?write, ?mov, ?cmp⟩
  case write =>
    have value : exec x.1 s = s.thumbWrite rd x.2 := by
      simp only [List.mem_cons, List.not_mem_nil, or_false] at hx
      obtain rfl | rfl | rfl | rfl | rfl | rfl := hx <;> rfl
    rw [value]
    exact s.thumbWrite_resultIn rd x.2
  case mov =>
    rw [← Cpsr.withNzc_imm8]
    exact s.thumbWrite_resultIn rd (logical s.cpsr (o8.setWidth 32) s.cpsr.c)
  case cmp =>
    rw [← addWithCarry_not_true_result]
    exact s.thumbTest_flagsOnly (addWithCarry (s.loReg rd) (~~~(o8.setWidth 32)) true)

end Sys2Proof.Machine
end

section
/-!
SUPPORT. THUMB formats 12 and 13 (spec/48_thumb_formats_6_to_15.md): the value of a scaled field, what a THUMB result without flags
leaves, and the statement about the addresses made from the pc and from SP.
-/

namespace Sys2Proof.Machine

/-! ### Values -/

/-- A field over two zero bits is four times the number it holds (R137). -/
theorem scaled4_eq_ofNat {n : Nat} (field : BitVec n) : scaled4 field = BitVec.ofNat 32 (4 * field.toNat) := by
  apply BitVec.eq_of_toNat_eq
  rw [scaled4, BitVec.toNat_shiftLeft, BitVec.toNat_setWidth, BitVec.toNat_ofNat, Nat.shiftLeft_eq]
  omega

/-- SP is never R15, so how far ahead the pc reads does not matter. -/
theorem State.reg_sp (s : State) (a : Word) : s.reg a SP = s.reg 0 SP :=
  s.reg_ahead (by decide) a 0

/-! ### Formats 12 and 13 -/

/-- A value written and nothing else: the CPSR stays (R440, R441, R443, R444). -/
theorem State.finish_resultIn_self (s : State) (rd : RegNo) (v : Word) : s.ResultIn (s.finish rd v) rd v s.cpsr :=
  State.finish_resultIn rd v rfl rfl rfl rfl rfl s.keepsSystem_refl

section Addresses
variable (s : State) (rd : LoReg) (word8 : BitVec 8) (sword7 : BitVec 7)

/-- R440: the base is the pc two halfwords ahead, its low two bits dropped. -/
theorem exec_tAddPc : exec (.tAddPc rd word8) s =
    .next (s.finish (lo rd) (((s.pc + 4) &&& 0xFFFFFFFC#32) + BitVec.ofNat 32 (4 * word8.toNat))) := by
  rw [← scaled4_eq_ofNat]
  rfl

theorem exec_tAddSp : exec (.tAddSp rd word8) s =
    .next (s.finish (lo rd) (s.reg 0 SP + BitVec.ofNat 32 (4 * word8.toNat))) := by
  rw [← scaled4_eq_ofNat, ← s.reg_sp 4]
  rfl

theorem exec_tSpPlus : exec (.tSpPlus sword7) s =
    .next (s.finish SP (s.reg 0 SP + BitVec.ofNat 32 (4 * sword7.toNat))) := by
  rw [← scaled4_eq_ofNat, ← s.reg_sp 4]
  rfl

theorem exec_tSpMinus : exec (.tSpMinus sword7) s =
    .next (s.finish SP (s.reg 0 SP - BitVec.ofNat 32 (4 * sword7.toNat))) := by
  rw [← scaled4_eq_ofNat, ← s.reg_sp 4]
  rfl

end Addresses

/-- Settles O47: each form is `finish` of its address. -/
theorem thumbAddresses : Obligations.ThumbAddresses := by
  intro s rd word8 sword7 k8 k7 x hx
  have value : exec x.1 s = .next (s.finish x.2.1 x.2.2) := by
    simp only [List.mem_cons, List.not_mem_nil, or_false] at hx
    obtain rfl | rfl | rfl | rfl := hx
    · exact exec_tAddPc s rd word8
    · exact exec_tAddSp s rd word8
    · exact exec_tSpPlus s sword7
    · exact exec_tSpMinus s sword7
  exact ⟨_, value, s.finish_resultIn_self x.2.1 x.2.2⟩

end Sys2Proof.Machine
end

section
/-!
SUPPORT. The THUMB branches of formats 16 and 18 (spec/49_thumb_formats_16_to_19.md): the arithmetic of the target, where a branch
goes from an aligned pc, and the statement about both.
-/

namespace Sys2Proof.Machine

/-! ### Aligned addresses moved by whole halfwords -/

theorem halfAligned_add_ofInt (a : Word) (z : Int) :
    halfAligned (a + BitVec.ofInt 32 (2 * z)) = halfAligned a + BitVec.ofInt 32 (2 * z) := by
  apply BitVec.eq_of_toNat_eq
  rw [BitVec.toNat_add, halfAligned_toNat, halfAligned_toNat, BitVec.toNat_add, BitVec.toNat_ofInt]
  omega

theorem State.halfAligned_pc {s : State} (ht : s.cpsr.t = true) (ha : s.pcAligned = true) : halfAligned s.pc = s.pc := by
  rw [State.pcAligned, beq_iff_eq, ht] at ha
  exact ha

/-! ### The target of a THUMB branch -/

/-- A signed field over one zero bit is twice the number it holds (R461, R468). -/
theorem signExtend_shiftLeft_one {n : Nat} (offset : BitVec n) :
    offset.signExtend 32 <<< 1 = BitVec.ofInt 32 (2 * offset.toInt) := by
  rw [BitVec.shiftLeft_eq_mul_twoPow, BitVec.signExtend, Int.mul_comm, BitVec.ofInt_mul]
  rfl

theorem State.thumbTarget_eq {n : Nat} (s : State) (offset : BitVec n) :
    s.thumbTarget offset = s.pc + 4 + BitVec.ofInt 32 (2 * offset.toInt) := by
  have four : ((4 : Nat) : Word) = 4 := rfl
  rw [State.thumbTarget, signExtend_shiftLeft_one, four]

/-- From an aligned pc the mask of `branch` drops nothing. -/
theorem State.halfAligned_thumbTarget {n : Nat} {s : State} (h : halfAligned s.pc = s.pc) (offset : BitVec n) :
    halfAligned (s.thumbTarget offset) = s.thumbTarget offset := by
  have h4 : halfAligned (s.pc + 4) = halfAligned s.pc + 4 := halfAligned_add_ofInt s.pc 2
  rw [State.thumbTarget_eq, halfAligned_add_ofInt, h4, h]

theorem State.branch_thumbTarget_pc {n : Nat} {s : State} (ht : s.cpsr.t = true) (ha : s.pcAligned = true) (offset : BitVec n) :
    (s.branch (s.thumbTarget offset)).pc = s.pc + 4 + BitVec.ofInt 32 (2 * offset.toInt) := by
  rw [State.branch_pc, ht, alignPc_thumb, State.halfAligned_thumbTarget (State.halfAligned_pc ht ha), State.thumbTarget_eq]

theorem State.advance_pc_thumb {s : State} (ht : s.cpsr.t = true) : s.advance.pc = s.pc + 2 := by
  simp [State.width, ht]

/-! ### The branches -/

/-- A branch keeps everything but the pc and the prefetched instructions (R31). -/
theorem State.branch_keeps (s : State) (a : Word) :
    (s.branch a).cpsr = s.cpsr ∧ s.KeepsRegs (s.branch a) [] ∧ s.KeepsMemory (s.branch a) ∧ s.KeepsSystem (s.branch a) :=
  ⟨rfl, State.keepsRegs_of_regs rfl [], State.keepsMemory_of_mem rfl, s.keepsSystem_refl.branch a⟩

theorem State.branchIf_passed {s : State} {c : Cond} (h : condPassed c s.cpsr = true) (soffset8 : BitVec 8) :
    s.branchIf c soffset8 = .next (s.branch (s.thumbTarget soffset8)) :=
  if_pos h

theorem State.branchIf_failed {s : State} {c : Cond} (h : condPassed c s.cpsr = false) (soffset8 : BitVec 8) :
    s.branchIf c soffset8 = .next s.advance :=
  if_neg (Bool.eq_false_iff.mp h)

/-- Each conditional branch is `branchIf` of the condition it is listed with (R600 to R613). -/
theorem exec_thumbBranch {mk : BitVec 8 → Instr} {c : Cond} (h : (mk, c) ∈ thumbBranches) (soffset8 : BitVec 8) (s : State) :
    exec (mk soffset8) s = s.branchIf c soffset8 := by
  simp only [thumbBranches, List.mem_cons, List.not_mem_nil, or_false, Prod.mk.injEq] at h
  obtain ⟨rfl, rfl⟩ | ⟨rfl, rfl⟩ | ⟨rfl, rfl⟩ | ⟨rfl, rfl⟩ | ⟨rfl, rfl⟩ | ⟨rfl, rfl⟩ | ⟨rfl, rfl⟩ | ⟨rfl, rfl⟩ | ⟨rfl, rfl⟩
    | ⟨rfl, rfl⟩ | ⟨rfl, rfl⟩ | ⟨rfl, rfl⟩ | ⟨rfl, rfl⟩ | ⟨rfl, rfl⟩ := h <;> rfl

theorem exec_tB (offset11 : BitVec 11) (s : State) : exec (.tB offset11) s = .next (s.branch (s.thumbTarget offset11)) :=
  rfl

/-- Settles O52: the target is a whole number of halfwords from an aligned pc, so `branch` leaves it as it is; a conditional branch
whose condition fails only advances. -/
theorem thumbBranchTargets : Obligations.ThumbBranchTargets := by
  intro s o8 o11 ht ha frame
  refine ⟨?conditional, ?unconditional⟩
  case conditional =>
    rintro ⟨mk, c⟩ hx
    rw [exec_thumbBranch hx]
    cases hc : condPassed c s.cpsr with
    | true =>
      exact ⟨_, State.branchIf_passed hc o8, State.branch_thumbTarget_pc ht ha o8, s.branch_keeps _⟩
    | false =>
      obtain ⟨_, kept⟩ := s.advance_onlyAdvances
      exact ⟨_, State.branchIf_failed hc o8, State.advance_pc_thumb ht, kept⟩
  case unconditional =>
    exact ⟨_, exec_tB o11 s, State.branch_thumbTarget_pc ht ha o11, s.branch_keeps _⟩

end Sys2Proof.Machine
end

section
/-!
SUPPORT. How an instruction ends: what it may have done to the state before its last act, the six last acts there are, and the
whole-machine statements read off from them: the invariant, memory, User mode and T.
-/

namespace Sys2Proof.Machine

/-! ### What an instruction does before its last act -/

/-- Nothing that belongs to a privileged mode differs: mode, I, F, the SPSRs and the registers outside the User bank (R43). -/
def State.Confined (s u : State) : Prop :=
  u.cpsr.mode = .usr ∧ u.cpsr.i = s.cpsr.i ∧ u.cpsr.f = s.cpsr.f ∧ u.spsrs = s.spsrs
    ∧ ∀ r, (∀ n, physReg .usr n ≠ some r) → u.regs.get r = s.regs.get r

/-- What every instruction keeps up to its last act, which moves the pc: `u` is the state reached from `s`. -/
structure State.Works (s : State) (i : Instr) (u : State) : Prop where
  pc : u.pc = s.pc
  thumb : u.cpsr.t = s.cpsr.t
  wf : Memory.wf s.mem = true → Memory.wf u.mem = true
  mem : storesMemory i = false → u.mem = s.mem
  user : s.cpsr.mode = .usr → s.Confined u

section Works
variable {s u : State} {i : Instr}

theorem State.Works.refl (s : State) (i : Instr) : s.Works i s :=
  ⟨rfl, rfl, id, fun _ => rfl, fun h => ⟨h, rfl, rfl, rfl, fun _ _ => rfl⟩⟩

/-- The flags may change. -/
theorem State.Works.withCpsr (h : s.Works i u) {c : Cpsr} (ht : c.t = u.cpsr.t)
    (hu : s.cpsr.mode = .usr → c.mode = u.cpsr.mode ∧ c.i = u.cpsr.i ∧ c.f = u.cpsr.f) : s.Works i { u with cpsr := c } := by
  refine ⟨h.pc, ht.trans h.thumb, h.wf, h.mem, fun usr => ?_⟩
  obtain ⟨mode, irq, fiq, rest⟩ := h.user usr
  obtain ⟨mode', irq', fiq'⟩ := hu usr
  exact ⟨mode'.trans mode, irq'.trans irq, fiq'.trans fiq, rest⟩

theorem State.Works.setFlags (h : s.Works i u) (o : AluOut) : s.Works i { u with cpsr := u.cpsr.setFlags o } :=
  h.withCpsr rfl fun _ => ⟨rfl, rfl, rfl⟩

theorem State.Works.withFlagsOf (h : s.Works i u) (w : Word) : s.Works i { u with cpsr := u.cpsr.withFlagsOf w } :=
  h.withCpsr rfl fun _ => ⟨rfl, rfl, rfl⟩

theorem State.Works.withDraws (h : s.Works i u) (d : Nat) : s.Works i { u with draws := d } :=
  ⟨h.pc, h.thumb, h.wf, h.mem, h.user⟩

theorem State.Works.afterRead (h : s.Works i u) (size : AccessSize) (a : Word) : s.Works i (u.afterRead size a) := by
  obtain ⟨d, e⟩ := u.afterRead_eq size a
  exact e ▸ h.withDraws d

theorem State.Works.afterBlock (h : s.Works i u) (n : Nat) (a : Word) : s.Works i (u.afterBlock n a) := by
  obtain ⟨d, e⟩ := u.afterBlock_eq n a
  exact e ▸ h.withDraws d

theorem State.Works.withBankHazard (h : s.Works i u) (b : Bool) : s.Works i { u with bankHazard := b } :=
  ⟨h.pc, h.thumb, h.wf, h.mem, h.user⟩

/-- In User mode only the User bank is written. -/
theorem State.Works.withRegs (h : s.Works i u) {g : Regs}
    (hg : s.cpsr.mode = .usr → ∀ r, (∀ n, physReg .usr n ≠ some r) → g.get r = u.regs.get r) : s.Works i { u with regs := g } := by
  refine ⟨h.pc, h.thumb, h.wf, h.mem, fun usr => ?_⟩
  obtain ⟨mode, irq, fiq, spsrs, regs⟩ := h.user usr
  exact ⟨mode, irq, fiq, spsrs, fun r hr => (hg usr r hr).trans (regs r hr)⟩

theorem State.Works.setReg (h : s.Works i u) (rd : RegNo) (v : Word) : s.Works i (u.setReg rd v) := by
  refine ⟨by simpa using h.pc, by simpa using h.thumb, by simpa using h.wf, by simpa using h.mem, fun usr => ?_⟩
  obtain ⟨mode, irq, fiq, spsrs, regs⟩ := h.user usr
  refine ⟨by simpa using mode, by simpa using irq, by simpa using fiq, by simpa using spsrs, fun r hr => ?_⟩
  rw [State.get_setReg, mode, if_neg (hr rd), regs r hr]

theorem State.Works.writeBack (h : s.Works i u) (wb : Writeback) : s.Works i (u.writeBack wb) := by
  cases wb with
  | none => exact h
  | some x => exact h.setReg x.1 x.2

/-- The other views of the state are kept by a store, whose instruction may change memory. -/
theorem State.Works.storeValue (h : s.Works i u) (hi : storesMemory i = true) (size : AccessSize) (a v : Word) :
    s.Works i (u.storeValue size a v) := by
  refine ⟨by simpa using h.pc, by simpa using h.thumb, fun wf => State.wf_storeValue (h.wf wf) size a v,
    fun no => absurd (hi.symm.trans no) (by simp), fun usr => ?_⟩
  simpa [State.Confined] using h.user usr

theorem State.Works.storeWords (h : s.Works i u) (hi : storesMemory i = true) (vs : List Word) (a : Word) :
    s.Works i (u.storeWords vs a).1 := by
  obtain ⟨regs, pc, cpsr, spsrs, -⟩ := u.storeWords_frame vs a
  refine ⟨pc.trans h.pc, cpsr ▸ h.thumb, fun wf => State.storeWords_wf (h.wf wf) vs a,
    fun no => absurd (hi.symm.trans no) (by simp), fun usr => ?_⟩
  simpa only [State.Confined, regs, cpsr, spsrs] using h.user usr

end Works

/-! ### The six last acts -/

/-- The two BX, which set T from their operand (R162, R411). -/
def isExchange (i : Instr) : Prop :=
  (∃ c rn, i = .bx c rn) ∨ ∃ h1 hs low, i = .tBx h1 hs low

/-- The ways in which `i`, executed in `s`, can end in a next state. -/
inductive State.Ends (s : State) (i : Instr) : State → Prop
  /-- The pc moves on (R29). -/
  | advances {u : State} (work : s.Works i u) : s.Ends i u.advance
  /-- A branch that keeps T (R31). -/
  | branches {u : State} (work : s.Works i u) (target : Word) : s.Ends i (u.branch target)
  /-- One of the exceptions an instruction can cause (R490). -/
  | traps {u : State} (work : s.Works i u) {e : Exc} (he : e ∈ [Exc.swi, .undefined, .dataAbort]) : s.Ends i (u.takeException e)
  /-- An exception return: the SPSR becomes the CPSR with a branch (R510). -/
  | returns {u : State} (work : s.Works i u) {p : Psr} {k : Cpsr} (hp : s.spsr = some p) (hk : p.toCpsr = some k) (target : Word) :
      s.Ends i ({ u with cpsr := k }.branch target)
  /-- TSTP and its like: the SPSR becomes the CPSR and the pc moves on, in ARM instructions alone (R198). -/
  | restores (arm : conditionOf i ≠ none) {p : Psr} {k : Cpsr} (hp : s.spsr = some p) (hk : p.toCpsr = some k) :
      s.Ends i { s.advance with cpsr := k }
  /-- BX: a branch with bit 0 of the target as T (R162). -/
  | exchanges (bx : isExchange i) (target : Word) : s.Ends i ({ s with cpsr := { s.cpsr with t := target[0] } }.branch target)

/-- Every next state that a result holds ends `i`. -/
def State.EndsIn (s : State) (i : Instr) (r : Result) : Prop :=
  ∀ t, r = .next t → s.Ends i t

section Results
variable {s u t : State} {i : Instr}

theorem State.Ends.next (h : s.Ends i t) : s.EndsIn i (.next t) := by
  rintro _ ⟨⟩
  exact h

theorem State.endsIn_refused (s : State) (i : Instr) (r : Refusal) : s.EndsIn i (.refused r) :=
  fun _ h => by simp at h

theorem State.endsIn_fault (s : State) (i : Instr) (f : Fault) : s.EndsIn i (.fault f) :=
  fun _ h => by simp at h

theorem State.EndsIn.whenPassed {r : Result} (h : s.EndsIn i r) (c : Cond) : s.EndsIn i (whenPassed c s r) := by
  obtain ⟨-, e⟩ | ⟨-, e⟩ := whenPassed_cases (c := c) (s := s) (e := r) rfl
  · exact e ▸ h
  · exact e ▸ (State.Ends.advances (.refl s i)).next

theorem State.Works.finish (h : s.Works i u) (rd : RegNo) (v : Word) : s.Ends i (u.finish rd v) := by
  unfold State.finish
  split
  · exact .branches h v
  · exact .advances (h.setReg rd v)

theorem State.Works.dataAbort (h : s.Works i u) : s.Ends i (u.takeException .dataAbort) :=
  .traps h (by simp)

/-- An exception return after work that kept the mode and the SPSRs. -/
theorem State.Works.exceptionReturn (h : s.Works i u) (hs : u.spsr = s.spsr) (v : Word) : s.EndsIn i (u.exceptionReturn v) := by
  obtain ⟨-, e⟩ | ⟨p, -, -, e⟩ | ⟨p, k, hp, hk, e⟩ := State.exceptionReturn_cases (s := u) (v := v) rfl
  · exact e ▸ s.endsIn_refused i _
  · exact e ▸ s.endsIn_refused i _
  · exact e ▸ (State.Ends.returns h (hs ▸ hp) hk v).next

end Results

/-! ### The operations behind the meanings -/

section Operations
variable (s : State) (i : Instr)

theorem State.dataProcess_endsIn (op : AluOp) (sb : Bool) (rn rd : RegNo) (op2 : Operand2) :
    s.EndsIn i (s.dataProcess op sb rn rd op2) := by
  obtain ⟨-, e⟩ | ⟨-, -, -, e⟩ | ⟨-, -, -, e⟩ | ⟨-, -, e⟩ :=
    State.dataProcess_cases (s := s) (op := op) (sets := sb) (rn := rn) (rd := rd) (op2 := op2) rfl
  · exact e ▸ s.endsIn_refused i _
  · exact e ▸ (State.Works.refl s i).exceptionReturn rfl _
  · exact e ▸ (((State.Works.refl s i).setFlags _).finish rd _).next
  · exact e ▸ ((State.Works.refl s i).finish rd _).next

theorem State.dataTest_endsIn (arm : conditionOf i ≠ none) (op : AluOp) (rn rd : RegNo) (op2 : Operand2) :
    s.EndsIn i (s.dataTest op rn rd op2) := by
  obtain ⟨-, e⟩ | ⟨-, -, e⟩ | ⟨-, -, e⟩ := State.dataTest_cases (s := s) (op := op) (rn := rn) (rd := rd) (op2 := op2) rfl
  · exact e ▸ s.endsIn_refused i _
  · rw [← e]
    obtain ⟨-, e⟩ | ⟨-, e⟩ | ⟨p, -, -, e⟩ | ⟨p, k, hp, hk, e⟩ := State.testRestore_cases (s := s) rfl
    · exact e ▸ (State.Ends.advances (.refl s i)).next
    · exact e ▸ s.endsIn_refused i _
    · exact e ▸ s.endsIn_refused i _
    · exact e ▸ (State.Ends.restores arm hp hk).next
  · exact e ▸ (State.Ends.advances ((State.Works.refl s i).setFlags _)).next

theorem State.exchange_endsIn (bx : isExchange i) (v : Word) : s.EndsIn i (s.exchange v) := by
  obtain ⟨-, -, e⟩ | ⟨-, e⟩ := State.exchange_cases (s := s) (v := v) rfl
  · exact e ▸ s.endsIn_refused i _
  · exact e ▸ (State.Ends.exchanges bx v).next

theorem State.finishMul_ends (sb : Bool) (rd : RegNo) (v : Word) : s.Ends i (s.finishMul sb rd v) := by
  cases sb with
  | false => exact (State.Works.refl s i).finish rd v
  | true => exact (((State.Works.refl s i).withCpsr (c := s.cpsr.setMulFlags v (Config.mulC s.draws)) rfl
      fun _ => ⟨rfl, rfl, rfl⟩).withDraws (s.draws + 1)).finish rd v

theorem State.finishLong_ends (sb : Bool) (rdHi rdLo : RegNo) (p : BitVec 64) : s.Ends i (s.finishLong sb rdHi rdLo p) := by
  cases sb with
  | false => exact .advances (((State.Works.refl s i).setReg _ _).setReg _ _)
  | true => exact .advances (((((State.Works.refl s i).withCpsr
      (c := s.cpsr.setLongFlags p (Config.mullC s.draws) (Config.mullV s.draws)) rfl
      fun _ => ⟨rfl, rfl, rfl⟩).withDraws (s.draws + 1)).setReg _ _).setReg _ _)

theorem State.multiplyLong_endsIn (sb : Bool) (rdHi rdLo rs rm : RegNo) (p : BitVec 64) :
    s.EndsIn i (s.multiplyLong sb rdHi rdLo rs rm p) := by
  unfold State.multiplyLong
  split
  · exact s.endsIn_refused i _
  · exact (s.finishLong_ends i sb rdHi rdLo p).next

theorem State.readPsr_endsIn (p : Psr) (rd : RegNo) : s.EndsIn i (s.readPsr p rd) :=
  (((State.Works.refl s i).withDraws _).finish rd _).next

/-- User mode has no SPSR, so a write to one is no work of it. -/
theorem State.updateSpsr_endsIn (f : Psr → Psr) : s.EndsIn i (s.updateSpsr f) := by
  obtain ⟨-, e⟩ | ⟨k, hk, e⟩ := State.updateSpsr_cases (s := s) (f := f) rfl
  · exact e ▸ s.endsIn_refused i _
  · have work : s.Works i { s with spsrs := s.spsrs.set k (f (s.spsrs.get k)) } :=
      ⟨rfl, rfl, id, fun _ => rfl, fun usr => by rw [usr] at hk; cases hk⟩
    exact e ▸ (State.Ends.advances work).next

theorem State.writeCpsr_endsIn (w : Word) : s.EndsIn i (s.writeCpsr w) := by
  obtain ⟨-, e⟩ | ⟨-, -, e⟩ | ⟨-, -, -, e⟩ | ⟨m, priv, -, -, e⟩ := State.writeCpsr_cases (s := s) (w := w) rfl
  · exact e ▸ (State.Ends.advances ((State.Works.refl s i).withFlagsOf w)).next
  · exact e ▸ s.endsIn_refused i _
  · exact e ▸ s.endsIn_refused i _
  · have work : s.Works i { s with cpsr := { s.cpsr.withFlagsOf w with i := w[7], f := w[6], mode := m } } :=
      (State.Works.refl s i).withCpsr rfl fun usr => absurd usr priv
    exact e ▸ (State.Ends.advances work).next

theorem State.writeFlags_endsIn (spsr : Bool) (w : Word) : s.EndsIn i (s.writeFlags spsr w) := by
  cases spsr with
  | false => exact (State.Ends.advances ((State.Works.refl s i).withFlagsOf w)).next
  | true => exact s.updateSpsr_endsIn i fun p => p.withFlagsOf w

theorem State.loadSingle_endsIn (k : LoadKind) (privileged : Bool) (a : Word) (wb : Writeback) (rd : RegNo) :
    s.EndsIn i (s.loadSingle k privileged a wb rd) := by
  obtain ⟨-, e⟩ | ⟨-, f, -, e⟩ | ⟨-, -, e⟩ :=
    State.loadSingle_cases (s := s) (k := k) (privileged := privileged) (a := a) (wb := wb) (rd := rd) rfl
  · exact e ▸ ((State.Works.refl s i).writeBack wb).dataAbort.next
  · exact e ▸ s.endsIn_fault i f
  · exact e ▸ ((((State.Works.refl s i).afterRead _ _).writeBack wb).finish rd _).next

theorem State.singleLoad_endsIn (k : LoadKind) (privileged p u w : Bool) (rn rd : RegNo) (off : Offset) :
    s.EndsIn i (s.singleLoad k privileged p u w rn rd off) := by
  unfold State.singleLoad
  split
  · exact s.endsIn_refused i _
  · exact s.loadSingle_endsIn i _ _ _ _ _

theorem State.halfwordLoad_endsIn (k : LoadKind) (p u w : Bool) (rn rd : RegNo) (rm : Option RegNo) (offset : Word) :
    s.EndsIn i (s.halfwordLoad k p u w rn rd rm offset) := by
  unfold State.halfwordLoad
  split
  · exact s.endsIn_refused i _
  · split
    · exact s.endsIn_refused i _
    · exact s.loadSingle_endsIn i _ _ _ _ _

theorem State.thumbLoad_endsIn (k : LoadKind) (a : Word) (rd : LoReg) : s.EndsIn i (s.thumbLoad k a rd) := by
  unfold State.thumbLoad
  split
  · exact s.endsIn_refused i _
  · exact s.loadSingle_endsIn i _ _ _ _ _

theorem State.thumbWrite_endsIn (rd : LoReg) (o : AluOut) : s.EndsIn i (s.thumbWrite rd o) :=
  (((State.Works.refl s i).setFlags o).finish (lo rd) _).next

theorem State.thumbTest_endsIn (o : AluOut) : s.EndsIn i (s.thumbTest o) :=
  (State.Ends.advances ((State.Works.refl s i).setFlags o)).next

theorem State.finish_endsIn (rd : RegNo) (v : Word) : s.EndsIn i (.next (s.finish rd v)) :=
  ((State.Works.refl s i).finish rd v).next

theorem State.branchIf_endsIn (c : Cond) (soffset8 : BitVec 8) : s.EndsIn i (s.branchIf c soffset8) := by
  unfold State.branchIf
  split
  · exact (State.Ends.branches (.refl s i) _).next
  · exact (State.Ends.advances (.refl s i)).next

theorem State.takeException_endsIn {e : Exc} (he : e ∈ [Exc.swi, .undefined, .dataAbort]) :
    s.EndsIn i (.next (s.takeException e)) :=
  (State.Ends.traps (.refl s i) he).next

/-- The loads of a block write the bank of the list and the base alone. -/
theorem State.loadWords_outside (bank : Mode) (l : List RegNo) (a : Word) (g : Regs) {r : PhysReg}
    (hr : ∀ n, physReg bank n ≠ some r) : (s.loadWords bank l a g).regs.get r = g.get r := by
  induction l generalizing a g with
  | nil => rfl
  | cons n rest ih =>
    unfold State.loadWords
    split
    · rfl
    · split
      · next q hq => rw [ih, Regs.get_set_ne _ _ fun e => hr n (hq.trans (congrArg some e.symm))]
      · rfl

/-- A block load in User mode writes the User bank alone, whatever the form. -/
theorem State.blockLoads_works (bank : Mode) (hb : s.cpsr.mode = .usr → bank = .usr) (rn : RegNo) (w : Bool) (start final : Word)
    (list : BitVec 16) :
    s.Works i { s.afterBlock (regList list).length start with regs := (s.blockLoads bank rn w start final list).regs } := by
  have base : s.Works i (if w then s.setReg rn final else s) := by
    cases w with
    | false => exact .refl s i
    | true => exact (State.Works.refl s i).setReg rn final
  refine ((State.Works.refl s i).afterBlock _ _).withRegs fun usr r hr => ?_
  obtain ⟨-, -, -, -, regs⟩ := base.user usr
  rw [State.blockLoads, State.loadWords_outside _ _ _ _ _ (by rw [hb usr]; exact hr), regs r hr, State.afterBlock_regs]

theorem State.blockLoadAbort_ends (bank : Mode) (hb : s.cpsr.mode = .usr → bank = .usr) (rn : RegNo) (w : Bool) (start final : Word)
    (list : BitVec 16) :
    s.Ends i ((s.afterBlock (regList list).length start).blockLoadAbort rn w final
      (s.blockLoads bank rn w start final list).regs) :=
  ((s.blockLoads_works i bank hb rn w start final list).setReg rn _).dataAbort

theorem State.transferBank_usr (load sb : Bool) (list : BitVec 16) (h : s.cpsr.mode = .usr) : s.transferBank load sb list = .usr := by
  unfold State.transferBank
  split
  · rfl
  · exact h

theorem State.blockLdm_endsIn (p u sb w : Bool) (rn : RegNo) (list : BitVec 16) : s.EndsIn i (s.blockLdm p u sb w rn list) := by
  have work := s.blockLoads_works i (s.transferBank true sb list) (s.transferBank_usr true sb list) rn w
    (blockStart p u (s.reg 0 rn) list) (blockFinal u (s.reg 0 rn) list) list
  obtain ⟨x, -, e⟩ | ⟨-, f, -, e⟩ | ⟨-, -, -, e⟩ | ⟨-, -, -, v, -, ⟨-, e⟩ | ⟨-, e⟩⟩ | ⟨-, -, -, -, e⟩ :=
    State.blockLdm_cases (s := s) (p := p) (u := u) (sb := sb) (w := w) (rn := rn) (list := list) rfl
  · exact e ▸ s.endsIn_refused i x
  · exact e ▸ s.endsIn_fault i f
  · exact e ▸ (s.blockLoadAbort_ends i _ (s.transferBank_usr true sb list) rn w _ _ list).next
  · exact e ▸ work.exceptionReturn (by simp [State.spsr]) v
  · exact e ▸ (State.Ends.branches work v).next
  · exact e ▸ (State.Ends.advances (work.withBankHazard _)).next

theorem State.thumbLoadMultiple_endsIn (rb : RegNo) (list : BitVec 16) : s.EndsIn i (s.thumbLoadMultiple rb list) := by
  have work := s.blockLoads_works i s.cpsr.mode id rb true
    (blockStart false true (s.reg 4 rb) list) (blockFinal true (s.reg 4 rb) list) list
  obtain ⟨-, e⟩ | ⟨-, f, -, e⟩ | ⟨-, -, -, e⟩ | ⟨-, -, -, v, -, e⟩ | ⟨-, -, -, -, e⟩ :=
    State.thumbLoadMultiple_cases (s := s) (rb := rb) (list := list) rfl
  · exact e ▸ s.endsIn_refused i _
  · exact e ▸ s.endsIn_fault i f
  · exact e ▸ (s.blockLoadAbort_ends i _ id rb true _ _ list).next
  · exact e ▸ (State.Ends.branches work v).next
  · exact e ▸ (State.Ends.advances work).next

end Operations

/-! ### The operations that store -/

section Stores
variable (s : State) {i : Instr} (hi : storesMemory i = true)
include hi

theorem State.storeSingle_endsIn (size : AccessSize) (privileged : Bool) (ahead a : Word) (wb : Writeback) (rd : RegNo) :
    s.EndsIn i (s.storeSingle size privileged ahead a wb rd) := by
  obtain ⟨-, e⟩ | ⟨-, f, -, e⟩ | ⟨-, -, e⟩ :=
    State.storeSingle_cases (s := s) (size := size) (privileged := privileged) (ahead := ahead) (a := a) (wb := wb) (rd := rd) rfl
  · exact e ▸ ((State.Works.refl s i).writeBack wb).dataAbort.next
  · exact e ▸ s.endsIn_fault i f
  · exact e ▸ (State.Ends.advances (((State.Works.refl s i).storeValue hi _ _ _).writeBack wb)).next

theorem State.singleStore_endsIn (size : AccessSize) (privileged p u w : Bool) (rn rd : RegNo) (off : Offset) :
    s.EndsIn i (s.singleStore size privileged p u w rn rd off) := by
  unfold State.singleStore
  split
  · exact s.endsIn_refused i _
  · exact s.storeSingle_endsIn hi _ _ _ _ _ _

theorem State.halfwordStore_endsIn (p u w : Bool) (rn rd : RegNo) (rm : Option RegNo) (offset : Word) :
    s.EndsIn i (s.halfwordStore p u w rn rd rm offset) := by
  unfold State.halfwordStore
  split
  · exact s.endsIn_refused i _
  · split
    · exact s.endsIn_refused i _
    · exact s.storeSingle_endsIn hi _ _ _ _ _ _

theorem State.thumbStore_endsIn (size : AccessSize) (a : Word) (rd : LoReg) : s.EndsIn i (s.thumbStore size a rd) := by
  unfold State.thumbStore
  split
  · exact s.endsIn_refused i _
  · exact s.storeSingle_endsIn hi _ _ _ _ _ _

theorem State.swap_endsIn (k : LoadKind) (rn rd rm : RegNo) : s.EndsIn i (s.swap k rn rd rm) := by
  obtain ⟨-, e⟩ | ⟨-, -, e⟩ | ⟨-, -, f, -, e⟩ | ⟨-, -, -, e⟩ :=
    State.swap_cases (s := s) (k := k) (rn := rn) (rd := rd) (rm := rm) rfl
  · exact e ▸ s.endsIn_refused i _
  · exact e ▸ (State.Works.refl s i).dataAbort.next
  · exact e ▸ s.endsIn_fault i f
  · exact e ▸ (State.Ends.advances ((((State.Works.refl s i).storeValue hi _ _ _).afterRead _ _).setReg rd _)).next

theorem State.storeBlock_endsIn (bank : Mode) (rn : RegNo) (w : Bool) (start final : Word) (list : BitVec 16) :
    s.EndsIn i (s.storeBlock bank rn w start final list) := by
  obtain ⟨f, -, e⟩ | ⟨-, e⟩ := State.storeBlock_cases (s := s) (bank := bank) (rn := rn) (w := w) (start := start) (final := final)
    (list := list) rfl
  · exact e ▸ s.endsIn_fault i f
  · have stored := (State.Works.refl s i).storeWords hi ((regList list).map (s.blockOperand bank rn w final list)) start
    have work : s.Works i (if w then (s.storeWords ((regList list).map (s.blockOperand bank rn w final list)) start).1.setReg rn final
        else (s.storeWords ((regList list).map (s.blockOperand bank rn w final list)) start).1) := by
      cases w with
      | false => exact stored
      | true => exact stored.setReg rn final
    rw [e]
    refine State.Ends.next ?_
    unfold State.blockStore
    dsimp only
    split
    · exact work.dataAbort
    · exact .advances work

theorem State.blockStm_endsIn (p u sb w : Bool) (rn : RegNo) (list : BitVec 16) : s.EndsIn i (s.blockStm p u sb w rn list) := by
  unfold State.blockStm
  split
  · exact s.endsIn_refused i _
  · exact s.storeBlock_endsIn hi _ _ _ _ _ _

theorem State.thumbPush_endsIn (list : BitVec 16) : s.EndsIn i (s.thumbPush list) := by
  unfold State.thumbPush
  split
  · exact s.endsIn_refused i _
  · exact s.storeBlock_endsIn hi _ _ _ _ _ _

end Stores

/-! ### Every instruction ends in one of the six ways -/

theorem exec_ends (i : Instr) (s : State) : s.EndsIn i (exec i s) := by
  cases i
  case reservedCondition | tCond1110 | tFreeB1 | tFreeB2 | tFreeB6 | tFreeB8 | tFreeBE | tFreeE8 => exact s.endsIn_refused _ _
  case notDefinedExtension c _ | notDefinedTest c _ => exact (s.endsIn_refused _ _).whenPassed c
  case signedStoreByteReg c _ _ _ _ _ _ | signedStoreByteImm c _ _ _ _ _ _ | signedStoreHalfReg c _ _ _ _ _ _
      | signedStoreHalfImm c _ _ _ _ _ _ => exact (s.endsIn_refused _ _).whenPassed c
  case and c sb rn rd op2 | eor c sb rn rd op2 | sub c sb rn rd op2 | rsb c sb rn rd op2 | add c sb rn rd op2
      | adc c sb rn rd op2 | sbc c sb rn rd op2 | rsc c sb rn rd op2 | orr c sb rn rd op2 | mov c sb rn rd op2
      | bic c sb rn rd op2 | mvn c sb rn rd op2 => exact (s.dataProcess_endsIn _ _ sb rn rd op2).whenPassed c
  case tst c rn rd op2 | teq c rn rd op2 | cmp c rn rd op2 | cmn c rn rd op2 =>
    exact (s.dataTest_endsIn _ (by simp [conditionOf]) _ rn rd op2).whenPassed c
  case bx c rn =>
    refine State.EndsIn.whenPassed ?_ c
    split
    · exact s.endsIn_refused _ _
    · exact s.exchange_endsIn _ (.inl ⟨c, rn, rfl⟩) _
  case mul c sb rd rn rs rm | mla c sb rd rn rs rm =>
    refine State.EndsIn.whenPassed ?_ c
    split
    · exact s.endsIn_refused _ _
    · exact (s.finishMul_ends _ sb rd _).next
  case umull c sb rdHi rdLo rs rm | umlal c sb rdHi rdLo rs rm | smull c sb rdHi rdLo rs rm | smlal c sb rdHi rdLo rs rm =>
    exact (s.multiplyLong_endsIn _ sb rdHi rdLo rs rm _).whenPassed c
  case swp c rn rd rm | swpb c rn rd rm => exact (s.swap_endsIn rfl _ rn rd rm).whenPassed c
  case strhReg c p u w rn rd rm => exact (s.halfwordStore_endsIn rfl p u w rn rd _ _).whenPassed c
  case strhImm c p u w rn rd imm8 => exact (s.halfwordStore_endsIn rfl p u w rn rd _ _).whenPassed c
  case ldrhReg c p u w rn rd rm | ldrsbReg c p u w rn rd rm | ldrshReg c p u w rn rd rm =>
    exact (s.halfwordLoad_endsIn _ _ p u w rn rd _ _).whenPassed c
  case ldrhImm c p u w rn rd imm8 | ldrsbImm c p u w rn rd imm8 | ldrshImm c p u w rn rd imm8 =>
    exact (s.halfwordLoad_endsIn _ _ p u w rn rd _ _).whenPassed c
  case mrs c spsr rd =>
    refine State.EndsIn.whenPassed ?_ c
    split
    · exact s.endsIn_refused _ _
    · split
      · split
        · exact s.endsIn_refused _ _
        · exact s.readPsr_endsIn _ _ rd
      · exact s.readPsr_endsIn _ _ rd
  case msr c spsr rm =>
    refine State.EndsIn.whenPassed ?_ c
    split
    · exact s.endsIn_refused _ _
    · split
      · exact s.updateSpsr_endsIn _ _
      · exact s.writeCpsr_endsIn _ _
  case msrFlg c spsr rm =>
    refine State.EndsIn.whenPassed ?_ c
    split
    · exact s.endsIn_refused _ _
    · exact s.writeFlags_endsIn _ spsr _
  case msrFlgImm c spsr rotate imm8 => exact (s.writeFlags_endsIn _ spsr _).whenPassed c
  case undefined c _ _ | stc c _ _ _ _ _ _ _ _ | ldc c _ _ _ _ _ _ _ _ | cdp c _ _ _ _ _ _ | mcr c _ _ _ _ _ _
      | mrc c _ _ _ _ _ _ | swi c _ => exact (s.takeException_endsIn _ (by simp)).whenPassed c
  case ldrt c u rn rd off | ldrbt c u rn rd off => exact (s.singleLoad_endsIn _ _ false false u false rn rd off).whenPassed c
  case ldr c u ix rn rd off | ldrb c u ix rn rd off => exact (s.singleLoad_endsIn _ _ _ ix.p u ix.w rn rd off).whenPassed c
  case strt c u rn rd off | strbt c u rn rd off => exact (s.singleStore_endsIn rfl _ false false u false rn rd off).whenPassed c
  case str c u ix rn rd off | strb c u ix rn rd off => exact (s.singleStore_endsIn rfl _ _ ix.p u ix.w rn rd off).whenPassed c
  case ldmia c sb w rn list | ldmib c sb w rn list | ldmda c sb w rn list | ldmdb c sb w rn list =>
    exact (s.blockLdm_endsIn _ _ _ sb w rn list).whenPassed c
  case stmia c sb w rn list | stmib c sb w rn list | stmda c sb w rn list | stmdb c sb w rn list =>
    exact (s.blockStm_endsIn rfl _ _ sb w rn list).whenPassed c
  case b c offset => exact (State.Ends.branches (.refl s _) _).next.whenPassed c
  case bl c offset => exact (State.Ends.branches ((State.Works.refl s _).setReg _ _) _).next.whenPassed c
  case tLslImm n rs rd | tLsrImm n rs rd | tAsrImm n rs rd => exact s.thumbWrite_endsIn _ rd _
  case tAddReg _ rs rd | tSubReg _ rs rd | tAddImm3 _ rs rd | tSubImm3 _ rs rd => exact s.thumbWrite_endsIn _ rd _
  case tMovImm rd o | tAddImm rd o | tSubImm rd o => exact s.thumbWrite_endsIn _ rd _
  case tAnd rs rd | tEor rs rd | tLsl rs rd | tLsr rs rd | tAsr rs rd | tAdc rs rd | tSbc rs rd | tRor rs rd | tNeg rs rd
      | tOrr rs rd | tBic rs rd | tMvn rs rd => exact s.thumbWrite_endsIn _ rd _
  case tCmpImm | tTst | tCmp | tCmn => exact s.thumbTest_endsIn _ _
  case tMul rs rd =>
    change s.EndsIn _ (execTMul rs rd s)
    unfold execTMul
    split
    · exact s.endsIn_refused _ _
    · exact (s.finishMul_ends _ true (lo rd) _).next
  case tAddHi hs hd =>
    change s.EndsIn _ (execTAddHi hs hd s)
    unfold execTAddHi
    split
    · exact s.endsIn_refused _ _
    · exact s.finish_endsIn _ hd _
  case tMovHi hs hd =>
    change s.EndsIn _ (execTMovHi hs hd s)
    unfold execTMovHi
    split
    · exact s.endsIn_refused _ _
    · exact s.finish_endsIn _ hd _
  case tCmpHi hs hd =>
    change s.EndsIn _ (execTCmpHi hs hd s)
    unfold execTCmpHi
    split
    · exact s.endsIn_refused _ _
    · exact s.thumbTest_endsIn _ _
  case tBx h1 hs low =>
    change s.EndsIn _ (execTBx h1 hs low s)
    unfold execTBx
    split
    · exact s.endsIn_refused _ _
    · split
      · exact s.endsIn_refused _ _
      · exact s.exchange_endsIn _ (.inr ⟨h1, hs, low, rfl⟩) _
  case tLdrPc rd _ | tLdrSp rd _ => exact s.thumbLoad_endsIn _ .word _ rd
  case tLdrReg _ _ rd | tLdrImm _ _ rd => exact s.thumbLoad_endsIn _ .word _ rd
  case tLdrbReg _ _ rd | tLdrbImm _ _ rd => exact s.thumbLoad_endsIn _ .byte _ rd
  case tLdsbReg _ _ rd => exact s.thumbLoad_endsIn _ .signedByte _ rd
  case tLdrhReg _ _ rd | tLdrhImm _ _ rd => exact s.thumbLoad_endsIn _ .half _ rd
  case tLdshReg _ _ rd => exact s.thumbLoad_endsIn _ .signedHalf _ rd
  case tStrReg _ _ rd | tStrImm _ _ rd => exact s.thumbStore_endsIn rfl .word _ rd
  case tStrSp rd _ => exact s.thumbStore_endsIn rfl .word _ rd
  case tStrbReg _ _ rd | tStrbImm _ _ rd => exact s.thumbStore_endsIn rfl .byte _ rd
  case tStrhReg _ _ rd | tStrhImm _ _ rd => exact s.thumbStore_endsIn rfl .half _ rd
  case tAddPc | tAddSp | tSpPlus | tSpMinus | tBlFirst => exact s.finish_endsIn _ _ _
  case tPush | tPushLr => exact s.thumbPush_endsIn rfl _
  case tPop | tPopPc | tLdmia => exact s.thumbLoadMultiple_endsIn _ _ _
  case tStmia rb list =>
    change s.EndsIn _ (execTStmia rb list s)
    unfold execTStmia
    split
    · exact s.endsIn_refused _ _
    · exact s.storeBlock_endsIn rfl _ _ _ _ _ _
  case tBeq | tBne | tBcs | tBcc | tBmi | tBpl | tBvs | tBvc | tBhi | tBls | tBge | tBlt | tBgt | tBle =>
    exact s.branchIf_endsIn _ _ _
  case tSwi => exact s.takeException_endsIn _ (by simp)
  case tB => exact (State.Ends.branches (.refl s _) _).next
  case tBlSecond => exact (State.Ends.branches ((State.Works.refl s _).setReg _ _) _).next

/-! ### Memory, User mode, T -/

/-- Settles O58: no way of ending touches memory, and up to it an instruction that is no store keeps it. -/
theorem onlyStoresChangeMemory : Obligations.OnlyStoresChangeMemory := by
  intro i s t hi h
  refine State.keepsMemory_of_mem ?_
  cases exec_ends i s t h with
  | advances work => exact work.mem hi
  | branches work => exact work.mem hi
  | traps work => exact work.mem hi
  | returns work => exact work.mem hi
  | restores => rfl
  | exchanges => rfl

/-- The three exceptions an instruction can cause, as the state they leave (R481, R490). -/
theorem State.takeException_entered (u : State) {e : Exc} (he : e ∈ [Exc.swi, .undefined, .dataAbort]) :
    let t := u.takeException e
    t.cpsr.i = true ∧ t.cpsr.t = false ∧ t.cpsr.f = u.cpsr.f
      ∧ ((t.cpsr.mode = .svc ∧ t.pc = 0x08) ∨ (t.cpsr.mode = .und ∧ t.pc = 0x04) ∨ (t.cpsr.mode = .abt ∧ t.pc = 0x10)) := by
  simp only [List.mem_cons, List.not_mem_nil, or_false] at he
  obtain rfl | rfl | rfl := he <;> simp [Exc.spsrMode, SpsrMode.mode, Exc.vector, Exc.setsF]

/-- Settles O59: User mode has no SPSR to return with, so what is left is work confined to it, or an exception after such work. -/
theorem userModeConfined : Obligations.UserModeConfined := by
  intro i s t usr h
  have noSpsr : s.spsr = none := by simp [State.spsr, usr, Mode.spsr]
  cases exec_ends i s t h with
  | advances work => exact .inl (work.user usr)
  | branches work => exact .inl (work.user usr)
  | @traps u work e he =>
    obtain ⟨-, -, fiq, -⟩ := work.user usr
    obtain ⟨irq, arm, fiq', entry⟩ := u.takeException_entered he
    exact .inr ⟨irq, arm, fiq'.trans fiq, entry⟩
  | returns _ hp => rw [noSpsr] at hp; cases hp
  | restores _ hp => rw [noSpsr] at hp; cases hp
  | exchanges => exact .inl ⟨usr, rfl, rfl, rfl, fun _ _ => rfl⟩

/-- Settles O60: the pc moving on and a branch keep T; the other four ways of ending are those of the statement. -/
theorem stateBitChanges : Obligations.StateBitChanges := by
  intro i s t h changed
  cases exec_ends i s t h with
  | advances work => exact absurd work.thumb changed
  | branches work => exact absurd work.thumb changed
  | @traps u work e he =>
    obtain ⟨irq, arm, -, entry⟩ := u.takeException_entered he
    exact .inr (.inr (.inl ⟨arm, irq, entry⟩))
  | returns _ hp hk => exact .inr (.inr (.inr ⟨_, hp, hk⟩))
  | restores _ hp hk => exact .inr (.inr (.inr ⟨_, hp, hk⟩))
  | exchanges bx =>
    obtain bx | bx := bx
    · exact .inl bx
    · exact .inr (.inl bx)

end Sys2Proof.Machine
end

section
/-!
SUPPORT. The invariant of the machine (spec/10_state.md, section 2): the three parts of it at each way an instruction can end, and that
every step keeps it.
-/

namespace Sys2Proof.Machine

/-! ### The pc at the ways of ending -/

theorem State.pcAligned_iff (s : State) : s.pcAligned = true ↔ alignPc s.cpsr.t s.pc = s.pc := by
  simp [State.pcAligned]

/-- One instruction further is a boundary again (R29, R82). -/
theorem alignPc_add_width (t : Bool) {a : Word} (h : alignPc t a = a) :
    alignPc t (a + if t then 2 else 4) = a + if t then 2 else 4 := by
  cases t with
  | false =>
    have step : wordAligned (a + 4) = wordAligned a + 4 := wordAligned_add a 1
    exact step.trans (congrArg (· + 4) h)
  | true =>
    have step : halfAligned (a + 2) = halfAligned a + 2 := halfAligned_add_ofInt a 1
    exact step.trans (congrArg (· + 2) h)

/-- A word boundary is a halfword boundary. -/
theorem alignPc_of_wordAligned (t : Bool) {a : Word} (h : wordAligned a = a) : alignPc t a = a := by
  cases t with
  | false => exact h
  | true =>
    apply BitVec.eq_of_toNat_eq
    have word := congrArg BitVec.toNat h
    rw [wordAligned_toNat] at word
    rw [alignPc_thumb, halfAligned_toNat]
    omega

theorem State.pcAligned_branch (u : State) (target : Word) : (u.branch target).pcAligned = true := by
  simp [State.pcAligned]

theorem alignPc_zero : alignPc false 0 = 0 := by
  decide

theorem alignPc_vector (e : Exc) : alignPc false e.vector = e.vector := by
  cases e <;> decide

theorem State.pcAligned_takeException (u : State) (e : Exc) : (u.takeException e).pcAligned = true :=
  (State.pcAligned_iff _).mpr (alignPc_vector e)

theorem State.pcAligned_advance {s u : State} {i : Instr} (work : s.Works i u) (h : s.pcAligned = true) : u.advance.pcAligned = true := by
  rw [State.pcAligned_iff] at h ⊢
  simp only [State.advance_cpsr, State.advance_pc, State.width, work.thumb, work.pc]
  exact alignPc_add_width _ h

/-- From an ARM boundary the pc moves on to a boundary of both instruction sets. -/
theorem State.pcAligned_restores {s : State} (arm : s.cpsr.t = false) (h : s.pcAligned = true) (k : Cpsr) :
    State.pcAligned { s.advance with cpsr := k } = true := by
  rw [State.pcAligned_iff, arm] at h
  have next : wordAligned (s.pc + 4) = s.pc + 4 := alignPc_add_width false h
  rw [State.pcAligned_iff]
  simpa [State.width, arm] using alignPc_of_wordAligned k.t next

/-! ### The invariant at the ways of ending -/

/-- An instruction that is an ARM one only where T is clear ends in a state of the invariant: a mark past the two prefetched
instructions becomes one of theirs as the pc moves on, and is dropped where it is written. -/
theorem State.Ends.inv {s t : State} {i : Instr} (h : s.Ends i t) (arm : conditionOf i ≠ none → s.cpsr.t = false)
    (wf : Memory.wf s.mem = true) (aligned : s.pcAligned = true) : t.Inv := by
  cases h with
  | advances work => exact ⟨work.wf wf, State.pcAligned_advance work aligned, rfl⟩
  | branches work target => exact ⟨work.wf wf, State.pcAligned_branch _ target, rfl⟩
  | traps work => exact ⟨work.wf wf, State.pcAligned_takeException _ _, rfl⟩
  | returns work _ _ target => exact ⟨work.wf wf, State.pcAligned_branch _ target, rfl⟩
  | restores isArm => exact ⟨wf, State.pcAligned_restores (arm isArm) aligned _, rfl⟩
  | exchanges _ target => exact ⟨wf, State.pcAligned_branch _ target, rfl⟩

/-! ### The instruction sets -/

/-- A halfword stands for no instruction with a condition field (R110, R136). -/
theorem conditionOf_decodeThumb (h : Half) : conditionOf (decodeThumb h) = none := by
  unfold decodeThumb decodeShiftAdd decodeImmediate decodeHiRegister decodeAlu decodeRegisterOffset decodeImmediateOffset
    decodeMiscellaneous decodeConditionalBranch
  dsimp only
  split <;> (repeat' split) <;> rfl

theorem State.fetch_arm {s : State} (h : conditionOf s.fetch ≠ none) : s.cpsr.t = false := by
  cases t : s.cpsr.t with
  | false => rfl
  | true => exact absurd (by simp [State.fetch, t, conditionOf_decodeThumb]) h

/-! ### The step -/

theorem State.takeReset_inv {s : State} (wf : Memory.wf s.mem = true) : s.takeReset.Inv :=
  ⟨wf, (State.pcAligned_iff _).mpr alignPc_zero, rfl⟩

theorem State.takeException_inv {s : State} (wf : Memory.wf s.mem = true) (e : Exc) : (s.takeException e).Inv :=
  ⟨wf, s.pcAligned_takeException e, rfl⟩

theorem State.boundaryException_inv {s u : State} {lines : Sample} (wf : Memory.wf s.mem = true)
    (h : s.boundaryException lines = some u) : u.Inv := by
  obtain ⟨-, e⟩ | ⟨-, -, e⟩ | ⟨-, -, -, e⟩ | ⟨-, -, -, -, e⟩ | ⟨-, -, -, -, e⟩ := s.boundaryException_cases lines
  all_goals
    rw [e] at h
    cases h
  · exact State.takeReset_inv wf
  · exact State.takeException_inv wf .fiq
  · exact State.takeException_inv wf .irq
  · exact State.takeException_inv wf .prefetchAbort

/-- Settles O7: an exception of the boundary starts at a vector, and an instruction ends in one of the six ways, each of which leads to a
state of the invariant. -/
theorem invariantKept : Obligations.InvariantKept := by
  rintro s t ⟨wf, aligned, -⟩ h
  obtain ⟨u, taken, e⟩ | ⟨-, -, e⟩ | ⟨-, -, f, -, e⟩ | ⟨-, -, -, -, e⟩ | ⟨-, -, -, -, e⟩ := step_cases h
  case inl =>
    cases e
    exact State.boundaryException_inv (s := s.atBoundary) wf taken
  case inr.inr.inr.inr =>
    refine (exec_ends _ _ t e).inv (fun isArm => ?arm) (by simpa using wf) (by simpa [State.pcAligned] using aligned)
    simpa using State.fetch_arm isArm
  all_goals cases e

/-- Settles O6: memory is empty, the pc is 0 and nothing is marked. -/
theorem invariantAtReset : Obligations.InvariantAtReset :=
  ⟨Memory.reset_wf, rfl, rfl⟩

end Sys2Proof.Machine
end

section
/-!
SUPPORT. Conditions (spec/40_condition_bx_branch.md): an ARM instruction whose condition fails, and the table of the codes.
-/

namespace Sys2Proof.Machine

/-- Every row with a condition field asks for its condition first (R161). -/
theorem exec_failed {i : Instr} {c : Cond} {s : State} (hi : conditionOf i = some c) (hc : condPassed c s.cpsr = false) :
    exec i s = .next s.advance := by
  cases i <;> cases hi <;> exact whenPassed_false hc _

/-- Settles O9: an ARM row asks for its condition first, and the row of field 1111 has none to ask. -/
theorem failedCondition : Obligations.FailedCondition := by
  refine ⟨fun s i c hi hc ht => ?failed, fun s bits => rfl⟩
  exact ⟨_, exec_failed hi hc, State.advance_pc_arm ht, s.advance_onlyAdvances⟩

/-- Settles O8: the codes and the tests are read off the two tables; a word of field 1111 decodes to the row that is refused. -/
theorem conditionTable : Obligations.ConditionTable := by
  refine ⟨by decide, by decide, fun w s hw => ?reserved, fun p => ?tests⟩
  case reserved =>
    have row : decodeArm w = .reservedCondition (w.extractLsb' 0 28) := by
      rw [decodeArm, hw]
      rfl
    rw [row]
    rfl
  case tests => simp [condPassed]

end Sys2Proof.Machine
end

section
/-!
SUPPORT. The addition and the shifter with an amount in the instruction (spec/41_data_processing.md), as arithmetic.
-/

namespace Sys2Proof.Machine

/-! ### AddWithCarry -/

theorem addWithCarry_result_toNat (a b : Word) (cin : Bool) :
    (addWithCarry a b cin).result.toNat = (a.toNat + b.toNat + cin.toNat) % 2 ^ 32 :=
  BitVec.toNat_ofNat ..

theorem addWithCarry_carry (a b : Word) (cin : Bool) :
    (addWithCarry a b cin).carry = true ↔ 2 ^ 32 ≤ a.toNat + b.toNat + cin.toNat :=
  decide_eq_true_iff

theorem addWithCarry_overflow_iff (a b : Word) (cin : Bool) :
    (addWithCarry a b cin).overflow = true ↔ a.toInt + b.toInt + cin.toNat ≠ (addWithCarry a b cin).result.toInt :=
  decide_eq_true_iff

/-- The exact signed sum differs from the result exactly where it is no 32-bit value (R181). -/
theorem addWithCarry_overflow (a b : Word) (cin : Bool) :
    (addWithCarry a b cin).overflow = true ↔
      a.toInt + b.toInt + cin.toNat < -2 ^ 31 ∨ 2 ^ 31 ≤ a.toInt + b.toInt + cin.toNat := by
  have result := addWithCarry_result_toNat a b cin
  have carryIn : cin.toNat ≤ 1 := cin.toNat_le
  rw [addWithCarry_overflow_iff]
  simp only [BitVec.toInt_eq_toNat_cond]
  omega

/-- The complement, signed, is one less than the negated value (R181). -/
theorem toInt_not_word (b : Word) : (~~~b).toInt = -b.toInt - 1 := by
  have complement := BitVec.toNat_not (x := b)
  have := b.isLt
  simp only [BitVec.toInt_eq_toNat_cond]
  omega

/-- Adding the complement with the carry clear subtracts one more (R181). -/
theorem addWithCarry_not_false_result (a b : Word) : (addWithCarry a (~~~b) false).result = a - b - 1 := by
  apply BitVec.eq_of_toNat_eq
  rw [addWithCarry_result_toNat]
  have complement := BitVec.toNat_not (x := b)
  have := a.isLt
  have := b.isLt
  bv_omega

/-- Settles O10: the clauses about a difference are those about the sum with the complement, as the complement is `-b - 1`. -/
theorem additionAndSubtraction : Obligations.AdditionAndSubtraction := by
  intro a b
  refine ⟨fun cin => ⟨addWithCarry_result_toNat a b cin, addWithCarry_carry a b cin, addWithCarry_overflow a b cin⟩,
    addWithCarry_not_true_result a b, ?carry, ?overflow, addWithCarry_not_false_result a b⟩
  case carry =>
    have complement := BitVec.toNat_not (x := b)
    have := b.isLt
    rw [addWithCarry_carry, Bool.toNat_true]
    omega
  case overflow =>
    rw [addWithCarry_overflow, toInt_not_word, Bool.toNat_true]
    omega

/-! ### The shifter with an amount in the instruction -/

section Amount
variable {n : Nat} (v : Word) (c : Bool)

theorem shiftBy_lsl (h0 : n ≠ 0) (h : n < 32) : shiftBy .lsl n v c = (BitVec.ofNat 32 (v.toNat * 2 ^ n), v.getLsbD (32 - n)) := by
  have value : v <<< n = BitVec.ofNat 32 (v.toNat * 2 ^ n) := by
    apply BitVec.eq_of_toNat_eq
    rw [BitVec.toNat_shiftLeft, Nat.shiftLeft_eq, BitVec.toNat_ofNat]
  simp [shiftBy, h0, h, value]

theorem shiftBy_lsr (h0 : n ≠ 0) (h : n < 32) : shiftBy .lsr n v c = (BitVec.ofNat 32 (v.toNat / 2 ^ n), v.getLsbD (n - 1)) := by
  have value : v >>> n = BitVec.ofNat 32 (v.toNat / 2 ^ n) := by
    rw [← Nat.shiftRight_eq_div_pow, ← BitVec.toNat_ushiftRight, BitVec.ofNat_toNat, BitVec.setWidth_eq]
  simp [shiftBy, h0, h, value]

theorem shiftBy_asr (h0 : n ≠ 0) (h : n < 32) : shiftBy .asr n v c = (BitVec.ofInt 32 (v.toInt / 2 ^ n), v.getLsbD (n - 1)) := by
  have value : v.sshiftRight n = BitVec.ofInt 32 (v.toInt / 2 ^ n) := by
    rw [BitVec.sshiftRight, Int.shiftRight_eq_div_pow]
    norm_cast
  simp [shiftBy, h0, h, value]

/-- A rotate right, as a division and a multiplication that the width cuts off (R116, R187). -/
theorem rotateRight_eq_ofNat (h : n < 32) : v.rotateRight n = BitVec.ofNat 32 (v.toNat / 2 ^ n + v.toNat * 2 ^ (32 - n)) := by
  have span : 2 ^ n * 2 ^ (32 - n) = 2 ^ 32 := by rw [← Nat.pow_add, Nat.add_sub_cancel' h.le]
  have high : v.toNat * 2 ^ (32 - n) % 2 ^ 32 = (v.toNat % 2 ^ n) <<< (32 - n) := by
    rw [← span, Nat.mul_mod_mul_right, Nat.shiftLeft_eq]
  have low : v.toNat / 2 ^ n < 2 ^ (32 - n) := by
    rw [Nat.div_lt_iff_lt_mul (by positivity), Nat.mul_comm, span]
    exact v.isLt
  have value : (v.rotateRight n).toNat = (v.toNat % 2 ^ n) <<< (32 - n) + v.toNat / 2 ^ n := by
    rw [BitVec.toNat_rotateRight, Nat.mod_eq_of_lt h, Nat.shiftRight_eq_div_pow, Nat.shiftLeft_eq, high,
      Nat.shiftLeft_add_eq_or_of_lt low, Nat.or_comm]
  have bound := (v.rotateRight n).isLt
  apply BitVec.eq_of_toNat_eq
  rw [BitVec.toNat_ofNat, value]
  omega

theorem shiftBy_ror (h0 : n ≠ 0) (h : n < 32) :
    shiftBy .ror n v c = (BitVec.ofNat 32 (v.toNat / 2 ^ n + v.toNat * 2 ^ (32 - n)), v.getLsbD (n - 1)) := by
  have amount : (n - 1) % 32 + 1 = n := by omega
  have less : n ≠ 32 := by omega
  simp [shiftBy, h0, amount, less, rotateRight_eq_ofNat v h]

end Amount

/-- RRX takes the carry in at the top (R187). -/
theorem rotateExtend_eq (v : Word) (c : Bool) :
    rotateExtend v c = (BitVec.ofNat 32 (v.toNat / 2 + if c then 2 ^ 31 else 0), v[0]) := by
  have low : v.toNat / 2 < 2 ^ 31 := by have := v.isLt; omega
  have value : v >>> 1 ||| (if c then 0x80000000#32 else 0) = BitVec.ofNat 32 (v.toNat / 2 + if c then 2 ^ 31 else 0) := by
    apply BitVec.eq_of_toNat_eq
    rw [BitVec.toNat_or, BitVec.toNat_ushiftRight, Nat.shiftRight_one, BitVec.toNat_ofNat]
    cases c with
    | false => simp; omega
    | true =>
      have top : v.toNat / 2 ||| (0x80000000#32).toNat = 2 ^ 31 * 1 + v.toNat / 2 := by
        rw [Nat.two_pow_add_eq_or_of_lt low, Nat.or_comm]
        rfl
      rw [if_pos rfl, if_pos rfl, top]
      omega
  rw [rotateExtend, value]

/-- Settles O11: an amount other than 0 is taken literally; 0 stands for LSL #0, LSR #32, ASR #32 and RRX. -/
theorem shiftByInstruction : Obligations.ShiftByInstruction := by
  intro amount v c
  by_cases h : amount = 0
  · subst h
    refine ⟨rfl, shiftBy_lsr_32 v c, shiftBy_asr_ge_32 v c (Nat.le_refl 32), rotateExtend_eq v c⟩
  · have h0 : amount.toNat ≠ 0 := fun e => h (BitVec.eq_of_toNat_eq e)
    simp only [shiftByField_of_ne_zero h, if_neg h]
    exact ⟨shiftBy_lsl v c h0 amount.isLt, shiftBy_lsr v c h0 amount.isLt, shiftBy_asr v c h0 amount.isLt,
      shiftBy_ror v c h0 amount.isLt⟩

end Sys2Proof.Machine
end

section
/-!
SUPPORT. The forms of operand 2 and of a transfer offset, and data processing with the Rd field R15 (spec/41_data_processing.md, section 3).
-/

namespace Sys2Proof.Machine

/-! ### Operand forms -/

theorem shiftedImm_eq (rotate : BitVec 4) (imm8 : BitVec 8) (c : Bool) :
    (shiftedImm rotate imm8 c).1 = BitVec.ofNat 32 (imm8.toNat / 2 ^ (2 * rotate.toNat) + imm8.toNat * 2 ^ (32 - 2 * rotate.toNat)) := by
  have amount : 2 * rotate.toNat < 32 := by have := rotate.isLt; omega
  rw [shiftedImm, rotatedImm, rotateRight_eq_ofNat _ amount, BitVec.toNat_setWidth_of_le (by decide)]

/-- Settles O13: the operand reads are `State.reg` with the distance of their form. -/
theorem operandForms : Obligations.OperandForms := by
  intro s
  refine ⟨fun rotate imm8 => ⟨shiftedImm_eq rotate imm8 s.cpsr.c, rfl⟩, fun ty amount rm => ?shiftImm, fun ty rs rm hrs => ?shiftReg,
    fun imm12 => BitVec.toNat_setWidth_of_le (by decide), fun _ _ => s.reg_PC 8, fun _ _ _ => s.reg_PC 8, fun _ _ _ => s.reg_PC 12⟩
  case shiftImm =>
    rw [← s.reg_ite rm 8]
    exact ⟨rfl, rfl⟩
  case shiftReg =>
    rw [← s.reg_ite rm 12, ← s.reg_ahead hrs 12 0]
    rfl

/-! ### Rd field R15 -/

theorem State.spsr_usr_sys {s : State} (h : s.cpsr.mode = .usr ∨ s.cpsr.mode = .sys) : s.spsr = none := by
  rw [State.spsr, (Mode.spsr_eq_none _).mpr h]
  rfl

theorem State.exceptionReturn_noSpsr {s : State} (h : s.spsr = none) (v : Word) : s.exceptionReturn v = .refused .noSpsr := by
  simp [State.exceptionReturn, h]

theorem State.exceptionReturn_illegal {s : State} {p : Psr} (hp : s.spsr = some p) (hk : p.toCpsr = none) (v : Word) :
    s.exceptionReturn v = .refused .illegalMode := by
  simp [State.exceptionReturn, hp, hk]

/-- With S and Rd = R15 every writing opcode is an exception return to its result (R197). -/
theorem State.dataProcess_return {op2 : Operand2} (h15 : amountIsR15 op2 = false) (s : State) (op : AluOp) (rn : RegNo) :
    s.dataProcess op true rn PC op2 = s.exceptionReturn (s.aluOut op rn op2).result := by
  simp [State.dataProcess, h15]

theorem State.dataProcess_noFlags {op2 : Operand2} (h15 : amountIsR15 op2 = false) (s : State) (op : AluOp) (rn rd : RegNo) :
    s.dataProcess op false rn rd op2 = .next (s.finish rd (s.aluOut op rn op2).result) := by
  simp [State.dataProcess, h15]

/-- Settles O16: without S the result is branched to by `finish`, with S by an exception return. -/
theorem resultToPc : Obligations.ResultToPc := by
  rintro ⟨mk, op⟩ hx s c rn op2 hc h15 v
  have plain : exec (mk c false rn PC op2) s = .next (s.finish PC v) := by
    rw [exec_writingOpcode hx, whenPassed_true hc, State.dataProcess_noFlags h15]
    rfl
  have returning : exec (mk c true rn PC op2) s = s.exceptionReturn v := by
    rw [exec_writingOpcode hx, whenPassed_true hc, State.dataProcess_return h15]
    rfl
  refine ⟨⟨_, plain, s.finish_resultIn_self PC v⟩, fun p k hp hk => ?returns, fun mode => ?noSpsr, fun p hp hk => ?illegal⟩
  case returns =>
    exact ⟨_, returning.trans (State.exceptionReturn_some hp hk v), rfl, rfl, State.keepsRegs_of_regs rfl [],
      State.keepsMemory_of_mem rfl, s.keepsSystem_refl⟩
  case noSpsr => exact returning.trans (State.exceptionReturn_noSpsr (State.spsr_usr_sys mode) v)
  case illegal => exact returning.trans (State.exceptionReturn_illegal hp hk v)

theorem exec_testOpcode_pc {mk : Cond → RegNo → RegNo → Operand2 → Instr} (h : mk ∈ testOpcodes) {s : State} {c : Cond} {op2 : Operand2}
    (hc : condPassed c s.cpsr = true) (h15 : amountIsR15 op2 = false) (rn : RegNo) : exec (mk c rn PC op2) s = s.testRestore := by
  rw [← map_fst_testOperations, List.mem_map] at h
  obtain ⟨⟨_, op⟩, hx, rfl⟩ := h
  rw [exec_testOperation hx, whenPassed_true hc]
  simp [State.dataTest, h15]

theorem State.privileged_of_ne_usr {s : State} (h : s.cpsr.mode ≠ .usr) : s.privileged = true := by
  rw [← Bool.not_eq_false]
  exact mt (Mode.privileged_eq_false _).mp h

theorem State.privileged_usr {s : State} (h : s.cpsr.mode = .usr) : s.privileged = false :=
  (Mode.privileged_eq_false _).mpr h

theorem State.ne_usr_of_spsr {s : State} {p : Psr} (h : s.spsr = some p) : s.cpsr.mode ≠ .usr :=
  fun usr => by rw [State.spsr_usr_sys (.inl usr)] at h; cases h

/-- Settles O17: with the Rd field R15 the four opcodes are `testRestore`, whose outcomes go by mode and SPSR. -/
theorem testWithPcField : Obligations.TestWithPcField := by
  intro mk hmk s c rn op2 hc h15
  rw [exec_testOpcode_pc hmk hc h15]
  refine ⟨fun p k hp hk => ?restores, fun usr => ?usr, fun sys => ?sys, fun p hp hk => ?illegal⟩
  case restores =>
    have value : s.testRestore = .next { s.advance with cpsr := k } := by
      simp [State.testRestore, State.privileged_of_ne_usr (State.ne_usr_of_spsr hp), hp, hk]
    exact ⟨_, value, rfl, rfl, State.keepsRegs_of_regs rfl [], State.keepsMemory_of_mem rfl, s.keepsSystem_refl⟩
  case usr =>
    have value : s.testRestore = .next s.advance := by simp [State.testRestore, State.privileged_usr usr]
    exact ⟨_, value, s.advance_onlyAdvances⟩
  case sys =>
    have priv : s.privileged = true := State.privileged_of_ne_usr (by simp [sys])
    simp [State.testRestore, priv, State.spsr_usr_sys (.inr sys)]
  case illegal => simp [State.testRestore, State.privileged_of_ne_usr (State.ne_usr_of_spsr hp), hp, hk]

end Sys2Proof.Machine
end

section
/-!
SUPPORT. MRS, MSR to a whole PSR (spec/42_psr_transfer.md) and BX (spec/40_condition_bx_branch.md, section 2).
-/

namespace Sys2Proof.Machine

/-! ### The word of a PSR -/

/-- Each defined bit of a PSR lies where R35 puts it, whatever the reserved bits read as. -/
theorem Psr.toWord_bits (p : Psr) (reserved : BitVec 20) :
    (p.toWord reserved)[31] = p.n ∧ (p.toWord reserved)[30] = p.z ∧ (p.toWord reserved)[29] = p.c ∧ (p.toWord reserved)[28] = p.v
      ∧ (p.toWord reserved)[7] = p.i ∧ (p.toWord reserved)[6] = p.f ∧ (p.toWord reserved)[5] = p.t
      ∧ (p.toWord reserved).extractLsb' 0 5 = p.m := by
  refine ⟨?_, ?_, ?_, ?_, ?_, ?_, ?_, ?_⟩
  case refine_8 => simp (disch := omega) only [Psr.toWord, extract_cat_low, extract_all]
  all_goals simp [Psr.toWord, getElem_cat]

/-! ### MRS -/

theorem exec_mrs_passed {s : State} {c : Cond} (hc : condPassed c s.cpsr = true) {rd : RegNo} (hrd : rd ≠ PC) {spsr : Bool} {p : Psr}
    (hp : if spsr then s.spsr = some p else s.cpsr.toPsr = p) : exec (.mrs c spsr rd) s = s.readPsr p rd := by
  refine (whenPassed_true hc _).trans ?_
  cases spsr with
  | false =>
    obtain rfl : s.cpsr.toPsr = p := hp
    simp [hrd]
  | true =>
    replace hp : s.spsr = some p := hp
    simp [hrd, hp]

/-- Settles O18: Rd takes the word of the PSR, whose bits lie as R35 says. -/
theorem statusRead : Obligations.StatusRead := by
  intro s c spsr rd p hc hrd hp
  have result : s.ResultIn (s.drawn.finish rd (p.toWord (Config.psrReservedRead s.draws))) rd _ s.cpsr :=
    State.finish_resultIn rd _ rfl rfl rfl rfl rfl s.keepsSystem_refl
  obtain ⟨arrives, kept⟩ := id result
  obtain ⟨-, value⟩ := arrives.1 hrd
  obtain ⟨n, z, cy, v, i, f, t, m⟩ := p.toWord_bits (Config.psrReservedRead s.draws)
  refine ⟨_, exec_mrs_passed hc hrd hp, ?_⟩
  simp only [value]
  exact ⟨n, z, cy, v, i, f, t, m, result⟩

/-! ### MSR to a whole PSR -/

theorem exec_msr_cpsr {s : State} {c : Cond} (hc : condPassed c s.cpsr = true) {rm : RegNo} (hrm : rm ≠ PC) :
    exec (.msr c false rm) s = s.writeCpsr (s.reg 8 rm) :=
  (whenPassed_true hc _).trans (if_neg hrm)

theorem exec_msr_spsr {s : State} {c : Cond} (hc : condPassed c s.cpsr = true) {rm : RegNo} (hrm : rm ≠ PC) :
    exec (.msr c true rm) s = s.updateSpsr fun _ => Psr.ofWord (s.reg 8 rm) :=
  (whenPassed_true hc _).trans (if_neg hrm)

theorem State.advance_withCpsr_flagsOnly (s : State) {k : Cpsr} (ht : k.t = s.cpsr.t) :
    s.FlagsOnly (State.advance { s with cpsr := k }) k :=
  State.advance_flagsOnly (u := { s with cpsr := k }) rfl rfl rfl ht s.keepsSystem_refl

section WriteCpsr
variable {s : State} {w : Word}

theorem State.writeCpsr_usr (h : s.cpsr.mode = .usr) :
    s.writeCpsr w = .next (State.advance { s with cpsr := s.cpsr.withFlagsOf w }) := by
  simp [State.writeCpsr, State.privileged_usr h]

theorem State.writeCpsr_changesT (h : s.cpsr.mode ≠ .usr) (ht : w[5] ≠ s.cpsr.t) : s.writeCpsr w = .refused .msrChangesT := by
  simp [State.writeCpsr, State.privileged_of_ne_usr h, ht]

theorem State.writeCpsr_illegal (h : s.cpsr.mode ≠ .usr) (ht : w[5] = s.cpsr.t) (hm : Mode.ofCode (w.extractLsb' 0 5) = none) :
    s.writeCpsr w = .refused .illegalMode := by
  simp [State.writeCpsr, State.privileged_of_ne_usr h, ht, hm]

theorem State.writeCpsr_legal {m : Mode} (h : s.cpsr.mode ≠ .usr) (ht : w[5] = s.cpsr.t)
    (hm : Mode.ofCode (w.extractLsb' 0 5) = some m) :
    s.writeCpsr w = .next (State.advance { s with cpsr := { s.cpsr.withFlagsOf w with i := w[7], f := w[6], mode := m } }) := by
  simp [State.writeCpsr, State.privileged_of_ne_usr h, ht, hm]

end WriteCpsr

/-- The seven codes of R41 name their modes, and no other value names one. -/
theorem modeCodes :
    (∀ x ∈ [(0b10000#5, Mode.usr), (0b10001, .fiq), (0b10010, .irq), (0b10011, .svc), (0b10111, .abt), (0b11011, .und),
        (0b11111, .sys)], Mode.ofCode x.1 = some x.2 ∧ x.2.code = x.1)
      ∧ ∀ m ∉ [0b10000#5, 0b10001, 0b10010, 0b10011, 0b10111, 0b11011, 0b11111], Mode.ofCode m = none := by
  decide

/-- Settles O19: the codes are a table; a write to the CPSR goes by mode, T and the mode value, one to the SPSR replaces it. -/
theorem statusWrite : Obligations.StatusWrite := by
  refine ⟨modeCodes.1, modeCodes.2, fun s c rm hc hrm => ?_⟩
  dsimp only
  rw [exec_msr_cpsr hc hrm, exec_msr_spsr hc hrm]
  exact ⟨fun usr => ⟨_, State.writeCpsr_usr usr, s.advance_withCpsr_flagsOnly rfl⟩,
    fun m priv ht hm => ⟨_, State.writeCpsr_legal priv ht hm, s.advance_withCpsr_flagsOnly rfl⟩,
    State.writeCpsr_changesT, State.writeCpsr_illegal,
    fun k hk => State.updateSpsr_spsrOnly hk fun _ => Psr.ofWord (s.reg 8 rm)⟩

/-! ### BX -/

theorem exec_bx_passed {s : State} {c : Cond} (hc : condPassed c s.cpsr = true) {rn : RegNo} (hrn : rn ≠ PC) :
    exec (.bx c rn) s = s.exchange (s.reg 8 rn) :=
  (whenPassed_true hc _).trans (if_neg hrn)

theorem exec_tBx {s : State} {hs : RegNo} (h : ¬ (hs = PC ∧ s.pc[1] = true)) (low : BitVec 3) :
    exec (.tBx false hs low) s = s.exchange (s.reg 4 hs) :=
  if_neg h

/-- An address with bits 1:0 clear is word aligned. -/
theorem wordAligned_of_bits {a : Word} (h0 : a[0] = false) (h1 : a[1] = false) : wordAligned a = a := by
  have mask : ∀ j : Fin 32, (0xFFFFFFFC#32)[j.val] = decide (2 ≤ j.val) := by decide
  ext j hj
  rw [wordAligned, BitVec.getElem_and, mask ⟨j, hj⟩]
  obtain rfl | rfl | h : j = 0 ∨ j = 1 ∨ 2 ≤ j := by omega
  · simp [h0]
  · simp [h1]
  · simp [h]

/-- The three outcomes of BX, by bits 1:0 of the operand (R162, R164). -/
theorem State.exchange_spec (s : State) (v : Word) :
    (v[0] = true → ∃ t, s.exchange v = .next t ∧ t.pc = v &&& 0xFFFFFFFE#32 ∧ t.cpsr = { s.cpsr with t := true }
      ∧ s.KeepsRegs t [] ∧ s.KeepsMemory t ∧ s.KeepsSystem t)
    ∧ (v[0] = false → v[1] = false →
        ∃ t, s.exchange v = .next t ∧ t.pc = v ∧ t.cpsr = { s.cpsr with t := false }
          ∧ s.KeepsRegs t [] ∧ s.KeepsMemory t ∧ s.KeepsSystem t)
    ∧ (v[0] = false → v[1] = true → s.exchange v = .refused .bxTargetMisaligned) := by
  have kept : ∀ b, let t := State.branch { s with cpsr := { s.cpsr with t := b } } v
      s.KeepsRegs t [] ∧ s.KeepsMemory t ∧ s.KeepsSystem t :=
    fun b => ⟨State.keepsRegs_of_regs rfl [], State.keepsMemory_of_mem rfl, s.keepsSystem_refl⟩
  refine ⟨fun h0 => ⟨_, by simp [State.exchange, h0], rfl, rfl, kept true⟩, fun h0 h1 => ?_, fun h0 h1 => by simp [State.exchange, h0, h1]⟩
  exact ⟨_, by simp [State.exchange, h0, h1], wordAligned_of_bits h0 h1, rfl, kept false⟩

/-- Settles O24: with an allowed operand both forms are `exchange`; the refused operands are tested before it. -/
theorem branchAndExchange : Obligations.BranchAndExchange := by
  intro s c rn low hc
  refine ⟨fun x hx allowed => ?exchanges, ?armPc, rfl, fun h1 => ?thumbPc⟩
  case exchanges =>
    have value : exec x.1 s = s.exchange x.2.1 := by
      simp only [List.mem_cons, List.not_mem_nil, or_false] at hx
      obtain rfl | rfl := hx
      · exact exec_bx_passed hc (by simpa using allowed)
      · exact exec_tBx (by simpa [imp_iff_not_or] using allowed) low
    rw [value]
    exact s.exchange_spec x.2.1
  case armPc => exact (whenPassed_true hc _).trans (if_pos rfl)
  case thumbPc => exact if_pos ⟨rfl, h1⟩

end Sys2Proof.Machine
end

section
/-!
SUPPORT. Single and halfword transfers (spec/44_single_and_halfword_transfer.md): the access each form makes with allowed operands, the
value a load reads, what a store leaves, and the statements about loads, stores and aborted transfers.
-/

namespace Sys2Proof.Machine

/-! ### The forms with allowed operands -/

section Forms
variable {s : State} {p u w : Bool} {rn rd : RegNo} {off : Offset} {rm : Option RegNo} {offset : Word}

theorem State.singleLoad_allowed (h : singleAllowed p (!p || w) rn rd off) (k : LoadKind) (privileged u : Bool) :
    s.singleLoad k privileged p u w rn rd off =
      s.loadSingle k privileged (transferAddress p u (s.reg 8 rn) (s.offsetValue off))
        (writebackIf (!p || w) rn (modifiedBase u (s.reg 8 rn) (s.offsetValue off))) rd := by
  simp only [State.singleLoad, singleRefusal_none.mpr h, transferWriteback_eq]

theorem State.singleStore_allowed (h : singleAllowed p (!p || w) rn rd off) (size : AccessSize) (privileged u : Bool) :
    s.singleStore size privileged p u w rn rd off =
      s.storeSingle size privileged 12 (transferAddress p u (s.reg 8 rn) (s.offsetValue off))
        (writebackIf (!p || w) rn (modifiedBase u (s.reg 8 rn) (s.offsetValue off))) rd := by
  simp only [State.singleStore, singleRefusal_none.mpr h, transferWriteback_eq]

theorem State.halfwordLoad_allowed (h : halfwordAllowed p w rn rd rm) {k : LoadKind}
    (even : k.size.odd (transferAddress p u (s.reg 8 rn) offset) = false) :
    s.halfwordLoad k p u w rn rd rm offset =
      s.loadSingle k s.privileged (transferAddress p u (s.reg 8 rn) offset)
        (writebackIf (!p || w) rn (modifiedBase u (s.reg 8 rn) offset)) rd := by
  simp only [State.halfwordLoad, halfwordRefusal_none.mpr h, even, transferWriteback_eq, Bool.false_eq_true, if_false]

theorem State.halfwordLoad_odd (h : halfwordAllowed p w rn rd rm) {k : LoadKind}
    (odd : k.size.odd (transferAddress p u (s.reg 8 rn) offset) = true) :
    s.halfwordLoad k p u w rn rd rm offset = .refused .oddHalfword := by
  simp only [State.halfwordLoad, halfwordRefusal_none.mpr h, odd, if_true]

theorem State.halfwordStore_allowed (h : halfwordAllowed p w rn rd rm)
    (even : AccessSize.odd .half (transferAddress p u (s.reg 8 rn) offset) = false) :
    s.halfwordStore p u w rn rd rm offset =
      s.storeSingle .half s.privileged 12 (transferAddress p u (s.reg 8 rn) offset)
        (writebackIf (!p || w) rn (modifiedBase u (s.reg 8 rn) offset)) rd := by
  simp only [State.halfwordStore, halfwordRefusal_none.mpr h, even, transferWriteback_eq, Bool.false_eq_true, if_false]

theorem State.halfwordStore_odd (h : halfwordAllowed p w rn rd rm)
    (odd : AccessSize.odd .half (transferAddress p u (s.reg 8 rn) offset) = true) :
    s.halfwordStore p u w rn rd rm offset = .refused .oddHalfword := by
  simp only [State.halfwordStore, halfwordRefusal_none.mpr h, odd, if_true]

end Forms

/-! ### Accepted loads and stores, by their size -/

section Accepted
variable {s : State} {privileged wb : Bool} {a : Word} {rn rd : RegNo} {m : Word}

/-- The rotation of a word load is by the low two bits of its address (R76). -/
theorem State.loadValue_word (s : State) (a : Word) :
    s.loadValue .word a = (s.readWord (wordAligned a)).rotateRight (8 * (a.toNat % 4)) := by
  rw [State.loadValue, State.rotatedWordAt, BitVec.extractLsb'_toNat]
  rfl

theorem State.loadSingle_word (ha : s.accepts .read .word privileged (wordAligned a)) (h : wb = true → rn ≠ PC ∧ rd ≠ rn) :
    ∃ t v, s.loadSingle .word privileged a (writebackIf wb rn m) rd = .next t
      ∧ s.Reads .word (wordAligned a) (s.wordAt (wordAligned a)) v
      ∧ s.Loaded t rd (v.rotateRight (8 * (a.toNat % 4))) wb rn m := by
  obtain ⟨t, e, loaded⟩ := State.loadSingle_loaded (k := .word) ha h
  exact ⟨t, _, e, s.readWord_reads (wordAligned a), s.loadValue_word a ▸ loaded⟩

theorem State.loadSingle_byte (ha : s.accepts .read .byte privileged a) (h : wb = true → rn ≠ PC ∧ rd ≠ rn) :
    ∃ t v, s.loadSingle .byte privileged a (writebackIf wb rn m) rd = .next t ∧ s.Reads .byte a (s.byteAt a) v
      ∧ s.Loaded t rd (v.setWidth 32) wb rn m := by
  obtain ⟨t, e, loaded⟩ := State.loadSingle_loaded (k := .byte) ha h
  exact ⟨t, _, e, s.readByte_reads a, loaded⟩

theorem State.loadSingle_signedByte (ha : s.accepts .read .byte privileged a) (h : wb = true → rn ≠ PC ∧ rd ≠ rn) :
    ∃ t v, s.loadSingle .signedByte privileged a (writebackIf wb rn m) rd = .next t ∧ s.Reads .byte a (s.byteAt a) v
      ∧ s.Loaded t rd (v.signExtend 32) wb rn m := by
  obtain ⟨t, e, loaded⟩ := State.loadSingle_loaded (k := .signedByte) ha h
  exact ⟨t, _, e, s.readByte_reads a, loaded⟩

theorem State.loadSingle_half (even : a[0] = false) (ha : s.accepts .read .half privileged a) (h : wb = true → rn ≠ PC ∧ rd ≠ rn) :
    ∃ t v, s.loadSingle .half privileged a (writebackIf wb rn m) rd = .next t ∧ s.Reads .half a (s.halfAt a) v
      ∧ s.Loaded t rd (v.setWidth 32) wb rn m := by
  obtain ⟨t, e, loaded⟩ := State.loadSingle_loaded (k := .half) (show s.accepts .read .half privileged (halfAligned a) by
    rwa [halfAligned_even even]) h
  exact ⟨t, _, e, s.readHalf_reads a, loaded⟩

theorem State.loadSingle_signedHalf (even : a[0] = false) (ha : s.accepts .read .half privileged a)
    (h : wb = true → rn ≠ PC ∧ rd ≠ rn) :
    ∃ t v, s.loadSingle .signedHalf privileged a (writebackIf wb rn m) rd = .next t ∧ s.Reads .half a (s.halfAt a) v
      ∧ s.Loaded t rd (v.signExtend 32) wb rn m := by
  obtain ⟨t, e, loaded⟩ := State.loadSingle_loaded (k := .signedHalf) (show s.accepts .read .half privileged (halfAligned a) by
    rwa [halfAligned_even even]) h
  exact ⟨t, _, e, s.readHalf_reads a, loaded⟩

variable {ahead : Word}

theorem State.storeSingle_word (ha : s.accepts .write .word privileged (wordAligned a)) (h : wb = true → rn ≠ PC) :
    ∃ t, s.storeSingle .word privileged ahead a (writebackIf wb rn m) rd = .next t
      ∧ t.wordAt (wordAligned a) =
        (if s.onDevice .word (wordAligned a) then s.wordAt (wordAligned a) else s.reg ahead rd)
      ∧ s.Stored t (wordAligned a) 4 wb rn m := by
  obtain ⟨t, e, stored, mem, big⟩ := State.storeSingle_stored (size := .word) (ahead := ahead) (rd := rd) ha h
  exact ⟨t, e, by rw [State.wordAt_congr (s := s.storeValue .word a (s.reg ahead rd)) mem (by simpa using big),
    State.wordAt_storeValue], stored⟩

theorem State.storeSingle_byte (ha : s.accepts .write .byte privileged a) (h : wb = true → rn ≠ PC) :
    ∃ t, s.storeSingle .byte privileged ahead a (writebackIf wb rn m) rd = .next t
      ∧ t.byteAt a = (if s.onDevice .byte a then s.byteAt a else (s.reg ahead rd).setWidth 8)
      ∧ s.Stored t a 1 wb rn m := by
  obtain ⟨t, e, stored, mem, -⟩ := State.storeSingle_stored (size := .byte) (ahead := ahead) (rd := rd) ha h
  exact ⟨t, e, by rw [State.byteAt_congr (s := s.storeValue .byte a (s.reg ahead rd)) mem, State.byteAt_storeValue], stored⟩

theorem State.storeSingle_half (even : a[0] = false) (ha : s.accepts .write .half privileged a) (h : wb = true → rn ≠ PC) :
    ∃ t, s.storeSingle .half privileged ahead a (writebackIf wb rn m) rd = .next t
      ∧ t.halfAt a = (if s.onDevice .half a then s.halfAt a else (s.reg ahead rd).setWidth 16)
      ∧ s.Stored t a 2 wb rn m := by
  have own := halfAligned_even even
  obtain ⟨t, e, stored, mem, big⟩ := State.storeSingle_stored (size := .half) (ahead := ahead) (rd := rd)
    (show s.accepts .write .half privileged (halfAligned a) by rwa [own]) h
  have value := s.halfAt_storeValue a (s.reg ahead rd)
  rw [own] at value
  refine ⟨t, e, by rw [State.halfAt_congr (s := s.storeValue .half a (s.reg ahead rd)) mem (by simpa using big), value], ?_⟩
  rwa [AccessSize.align, own] at stored

end Accepted

/-! ### Accesses refused by the memory manager or answered by nothing -/

/-- The result of a single load or store of a kind and size (R273, R275): what becomes of it where the access is not accepted does not
depend on more. -/
inductive State.Transfers (s : State) (privileged : Bool) (a : Word) (wb : Writeback) : AccessKind → AccessSize → Result → Prop
  | load (k : LoadKind) (rd : RegNo) : s.Transfers privileged a wb .read k.size (s.loadSingle k privileged a wb rd)
  | store (size : AccessSize) (ahead : Word) (rd : RegNo) :
      s.Transfers privileged a wb .write size (s.storeSingle size privileged ahead a wb rd)

section Transfers
variable {s : State} {privileged wb : Bool} {a : Word} {rn : RegNo} {m : Word} {kind : AccessKind} {size : AccessSize} {r : Result}

theorem State.Transfers.of_eq {b : Writeback} {r' : Result} (e : r' = r) (h : s.Transfers privileged a b kind size r) :
    s.Transfers privileged a b kind size r' :=
  e ▸ h

theorem State.Transfers.misses {b : Writeback} {f : Fault} (h : s.Transfers privileged a b kind size r)
    (hm : s.misses kind size privileged (size.align a) f) : r = .fault f := by
  cases h with
  | load k rd => exact State.loadSingle_misses hm b rd
  | store size ahead rd => exact State.storeSingle_misses hm ahead b rd

theorem State.Transfers.aborts (h : s.Transfers privileged a (writebackIf wb rn m) kind size r)
    (ha : s.aborted kind size privileged (size.align a) = true) :
    ∃ t, r = .next t ∧ (if wb then s.setReg rn m else s).Enters t .abt 0x10 (s.pc + 8) s.cpsr.f ∧ s.KeepsMemory t := by
  cases h with
  | load k rd => exact State.loadSingle_abort ha
  | store size ahead rd => exact State.storeSingle_abort ha

end Transfers

/-! ### The word and byte forms -/

section Forms
variable {s : State} {c : Cond} (hc : condPassed c s.cpsr = true) {u : Bool} {rn rd : RegNo} {off : Offset}
include hc

section Plain
variable {ix : Index} (h : singleAllowed ix.p (!ix.p || ix.w) rn rd off)
include h

theorem exec_ldr_allowed : exec (.ldr c u ix rn rd off) s =
    s.loadSingle .word s.privileged (transferAddress ix.p u (s.reg 8 rn) (s.offsetValue off))
      (writebackIf (!ix.p || ix.w) rn (modifiedBase u (s.reg 8 rn) (s.offsetValue off))) rd :=
  (whenPassed_true hc _).trans (State.singleLoad_allowed h ..)

theorem exec_ldrb_allowed : exec (.ldrb c u ix rn rd off) s =
    s.loadSingle .byte s.privileged (transferAddress ix.p u (s.reg 8 rn) (s.offsetValue off))
      (writebackIf (!ix.p || ix.w) rn (modifiedBase u (s.reg 8 rn) (s.offsetValue off))) rd :=
  (whenPassed_true hc _).trans (State.singleLoad_allowed h ..)

theorem exec_str_allowed : exec (.str c u ix rn rd off) s =
    s.storeSingle .word s.privileged 12 (transferAddress ix.p u (s.reg 8 rn) (s.offsetValue off))
      (writebackIf (!ix.p || ix.w) rn (modifiedBase u (s.reg 8 rn) (s.offsetValue off))) rd :=
  (whenPassed_true hc _).trans (State.singleStore_allowed h ..)

theorem exec_strb_allowed : exec (.strb c u ix rn rd off) s =
    s.storeSingle .byte s.privileged 12 (transferAddress ix.p u (s.reg 8 rn) (s.offsetValue off))
      (writebackIf (!ix.p || ix.w) rn (modifiedBase u (s.reg 8 rn) (s.offsetValue off))) rd :=
  (whenPassed_true hc _).trans (State.singleStore_allowed h ..)

theorem exec_singleForm_transfers {x : Instr × AccessKind × AccessSize}
    (hx : x ∈ [(Instr.ldr c u ix rn rd off, AccessKind.read, AccessSize.word), (.ldrb c u ix rn rd off, .read, .byte),
      (.str c u ix rn rd off, .write, .word), (.strb c u ix rn rd off, .write, .byte)]) :
    s.Transfers s.privileged (transferAddress ix.p u (s.reg 8 rn) (s.offsetValue off))
      (writebackIf (!ix.p || ix.w) rn (modifiedBase u (s.reg 8 rn) (s.offsetValue off))) x.2.1 x.2.2 (exec x.1 s) := by
  simp only [List.mem_cons, List.not_mem_nil, or_false] at hx
  obtain rfl | rfl | rfl | rfl := hx
  · exact .of_eq (exec_ldr_allowed hc h) (.load .word rd)
  · exact .of_eq (exec_ldrb_allowed hc h) (.load .byte rd)
  · exact .of_eq (exec_str_allowed hc h) (.store .word 12 rd)
  · exact .of_eq (exec_strb_allowed hc h) (.store .byte 12 rd)

end Plain

/-! The T forms are post-indexed, with write-back, and ask as non-privileged (R279). -/

section Unprivileged
variable (h : singleAllowed false true rn rd off)
include h

theorem exec_ldrt_allowed : exec (.ldrt c u rn rd off) s =
    s.loadSingle .word false (s.reg 8 rn) (writebackIf true rn (modifiedBase u (s.reg 8 rn) (s.offsetValue off))) rd :=
  (whenPassed_true hc _).trans (State.singleLoad_allowed (w := false) h ..)

theorem exec_ldrbt_allowed : exec (.ldrbt c u rn rd off) s =
    s.loadSingle .byte false (s.reg 8 rn) (writebackIf true rn (modifiedBase u (s.reg 8 rn) (s.offsetValue off))) rd :=
  (whenPassed_true hc _).trans (State.singleLoad_allowed (w := false) h ..)

theorem exec_strt_allowed : exec (.strt c u rn rd off) s =
    s.storeSingle .word false 12 (s.reg 8 rn) (writebackIf true rn (modifiedBase u (s.reg 8 rn) (s.offsetValue off))) rd :=
  (whenPassed_true hc _).trans (State.singleStore_allowed (w := false) h ..)

theorem exec_strbt_allowed : exec (.strbt c u rn rd off) s =
    s.storeSingle .byte false 12 (s.reg 8 rn) (writebackIf true rn (modifiedBase u (s.reg 8 rn) (s.offsetValue off))) rd :=
  (whenPassed_true hc _).trans (State.singleStore_allowed (w := false) h ..)

theorem exec_unprivilegedForm_transfers {x : Instr × AccessKind × AccessSize}
    (hx : x ∈ [(Instr.ldrt c u rn rd off, AccessKind.read, AccessSize.word), (.ldrbt c u rn rd off, .read, .byte),
      (.strt c u rn rd off, .write, .word), (.strbt c u rn rd off, .write, .byte)]) :
    s.Transfers false (s.reg 8 rn) (writebackIf true rn (modifiedBase u (s.reg 8 rn) (s.offsetValue off))) x.2.1 x.2.2
      (exec x.1 s) := by
  simp only [List.mem_cons, List.not_mem_nil, or_false] at hx
  obtain rfl | rfl | rfl | rfl := hx
  · exact .of_eq (exec_ldrt_allowed hc h) (.load .word rd)
  · exact .of_eq (exec_ldrbt_allowed hc h) (.load .byte rd)
  · exact .of_eq (exec_strt_allowed hc h) (.store .word 12 rd)
  · exact .of_eq (exec_strbt_allowed hc h) (.store .byte 12 rd)

end Unprivileged
end Forms

/-- Settles O25: each form is a `loadSingle` of its address and write-back, which the accepted access completes. -/
theorem wordAndByteLoads : Obligations.WordAndByteLoads := by
  intro s c u rn rd off hc base m word byte
  simp only [word, byte]
  refine ⟨fun ix allowed => ⟨fun accepted => ?ldr, fun accepted => ?ldrb⟩,
    fun allowed => ⟨fun accepted => ?ldrt, fun accepted => ?ldrbt⟩⟩
  case ldr => exact exec_ldr_allowed hc allowed ▸ State.loadSingle_word accepted allowed.1
  case ldrb => exact exec_ldrb_allowed hc allowed ▸ State.loadSingle_byte accepted allowed.1
  case ldrt => exact exec_ldrt_allowed hc allowed ▸ State.loadSingle_word accepted allowed.1
  case ldrbt => exact exec_ldrbt_allowed hc allowed ▸ State.loadSingle_byte accepted allowed.1

/-- Settles O26: each form is a `storeSingle` of its address and write-back, which the accepted access completes. -/
theorem wordAndByteStores : Obligations.WordAndByteStores := by
  intro s c u rn rd off hc base m v word byte
  have value : v = s.reg 12 rd := (s.reg_ite rd 12).symm
  have notPc : ∀ {p wb}, singleAllowed p wb rn rd off → wb = true → rn ≠ PC := fun allowed hwb => (allowed.1 hwb).1
  simp only [word, byte, value]
  refine ⟨fun ix allowed => ⟨fun accepted => ?str, fun accepted => ?strb⟩,
    fun allowed => ⟨fun accepted => ?strt, fun accepted => ?strbt⟩⟩
  case str => exact exec_str_allowed hc allowed ▸ State.storeSingle_word accepted (notPc allowed)
  case strb => exact exec_strb_allowed hc allowed ▸ State.storeSingle_byte accepted (notPc allowed)
  case strt => exact exec_strt_allowed hc allowed ▸ State.storeSingle_word accepted (notPc allowed)
  case strbt => exact exec_strbt_allowed hc allowed ▸ State.storeSingle_byte accepted (notPc allowed)

/-! ### The halfword and signed forms -/

/-- Settles O27: with either offset the forms are `halfwordLoad` of their kind. -/
theorem halfwordAndSignedLoads : Obligations.HalfwordAndSignedLoads := by
  intro s c p u w rn rd rm imm8 hc base wb x hx m a allowed
  obtain ⟨half, signedByte, signedHalf⟩ : exec x.1 s = s.halfwordLoad .half p u w rn rd x.2.2.2.1 x.2.2.2.2
      ∧ exec x.2.1 s = s.halfwordLoad .signedByte p u w rn rd x.2.2.2.1 x.2.2.2.2
      ∧ exec x.2.2.1 s = s.halfwordLoad .signedHalf p u w rn rd x.2.2.2.1 x.2.2.2.2 := by
    simp only [List.mem_cons, List.not_mem_nil, or_false] at hx
    obtain rfl | rfl := hx
    · exact ⟨whenPassed_true hc _, whenPassed_true hc _, whenPassed_true hc _⟩
    · exact ⟨whenPassed_true hc _, whenPassed_true hc _, whenPassed_true hc _⟩
  rw [half, signedByte, signedHalf]
  refine ⟨fun even accepted => ?half, fun accepted => ?signedByte, fun even accepted => ?signedHalf, fun odd => ⟨?odd, ?signedOdd⟩⟩
  case half => exact State.halfwordLoad_allowed allowed (k := .half) even ▸ State.loadSingle_half even accepted allowed.2.1
  case signedByte =>
    exact State.halfwordLoad_allowed allowed (k := .signedByte) rfl ▸ State.loadSingle_signedByte accepted allowed.2.1
  case signedHalf =>
    exact State.halfwordLoad_allowed allowed (k := .signedHalf) even ▸ State.loadSingle_signedHalf even accepted allowed.2.1
  case odd => exact State.halfwordLoad_odd allowed (k := .half) odd
  case signedOdd => exact State.halfwordLoad_odd allowed (k := .signedHalf) odd

/-- Settles O28: with either offset the form is `halfwordStore`. -/
theorem halfwordStores : Obligations.HalfwordStores := by
  intro s c p u w rn rd rm imm8 hc base wb v x hx m a allowed
  have value : v = s.reg 12 rd := (s.reg_ite rd 12).symm
  have form : exec x.1 s = s.halfwordStore p u w rn rd x.2.1 x.2.2 := by
    simp only [List.mem_cons, List.not_mem_nil, or_false] at hx
    obtain rfl | rfl := hx
    · exact whenPassed_true hc _
    · exact whenPassed_true hc _
  rw [form, value]
  refine ⟨fun even accepted => ?even, State.halfwordStore_odd allowed⟩
  exact State.halfwordStore_allowed allowed even ▸ State.storeSingle_half even accepted fun hwb => (allowed.2.1 hwb).1

end Sys2Proof.Machine
end

section
/-!
SUPPORT. The halfword and signed forms as accesses, and the single transfers that the memory manager refuses
(spec/44_single_and_halfword_transfer.md).
-/

namespace Sys2Proof.Machine

theorem AccessSize.odd_eq_false {size : AccessSize} {a : Word} (h : size = .half → a[0] = false) : size.odd a = false := by
  cases size with
  | half => exact h rfl
  | byte => rfl
  | word => rfl

theorem AccessSize.align_even {size : AccessSize} {a : Word} (hw : size ≠ .word) (h : size = .half → a[0] = false) :
    size.align a = a := by
  cases size with
  | half => exact halfAligned_even (h rfl)
  | byte => rfl
  | word => exact absurd rfl hw

section Halfword
variable {s : State} {p u w : Bool} {rn rd : RegNo} {rm : Option RegNo} {offset : Word} (allowed : halfwordAllowed p w rn rd rm)
include allowed

theorem State.halfwordLoad_transfers (k : LoadKind) (even : k.size = .half → (transferAddress p u (s.reg 8 rn) offset)[0] = false) :
    s.Transfers s.privileged (transferAddress p u (s.reg 8 rn) offset)
      (writebackIf (!p || w) rn (modifiedBase u (s.reg 8 rn) offset)) .read k.size (s.halfwordLoad k p u w rn rd rm offset) :=
  .of_eq (State.halfwordLoad_allowed allowed (AccessSize.odd_eq_false even)) (.load k rd)

theorem State.halfwordStore_transfers (even : (transferAddress p u (s.reg 8 rn) offset)[0] = false) :
    s.Transfers s.privileged (transferAddress p u (s.reg 8 rn) offset)
      (writebackIf (!p || w) rn (modifiedBase u (s.reg 8 rn) offset)) .write .half (s.halfwordStore p u w rn rd rm offset) :=
  .of_eq (State.halfwordStore_allowed allowed even) (.store .half 12 rd)

end Halfword

section Forms
variable {s : State} {c : Cond} (hc : condPassed c s.cpsr = true) {p u w : Bool} {rn rd : RegNo}
include hc

theorem exec_halfwordRegForm_transfers {rm : RegNo} (allowed : halfwordAllowed p w rn rd (some rm))
    {x : Instr × AccessKind × AccessSize}
    (hx : x ∈ [(Instr.ldrhReg c p u w rn rd rm, AccessKind.read, AccessSize.half), (.ldrsbReg c p u w rn rd rm, .read, .byte),
      (.ldrshReg c p u w rn rd rm, .read, .half), (.strhReg c p u w rn rd rm, .write, .half)])
    (even : x.2.2 = .half → (transferAddress p u (s.reg 8 rn) (s.reg 8 rm))[0] = false) :
    s.Transfers s.privileged (transferAddress p u (s.reg 8 rn) (s.reg 8 rm))
      (writebackIf (!p || w) rn (modifiedBase u (s.reg 8 rn) (s.reg 8 rm))) x.2.1 x.2.2 (exec x.1 s) := by
  simp only [List.mem_cons, List.not_mem_nil, or_false] at hx
  obtain rfl | rfl | rfl | rfl := hx
  · exact .of_eq (whenPassed_true hc _) (State.halfwordLoad_transfers allowed .half even)
  · exact .of_eq (whenPassed_true hc _) (State.halfwordLoad_transfers allowed .signedByte even)
  · exact .of_eq (whenPassed_true hc _) (State.halfwordLoad_transfers allowed .signedHalf even)
  · exact .of_eq (whenPassed_true hc _) (State.halfwordStore_transfers allowed (even rfl))

theorem exec_halfwordImmForm_transfers {imm8 : BitVec 8} (allowed : halfwordAllowed p w rn rd none)
    {x : Instr × AccessKind × AccessSize}
    (hx : x ∈ [(Instr.ldrhImm c p u w rn rd imm8, AccessKind.read, AccessSize.half), (.ldrsbImm c p u w rn rd imm8, .read, .byte),
      (.ldrshImm c p u w rn rd imm8, .read, .half), (.strhImm c p u w rn rd imm8, .write, .half)])
    (even : x.2.2 = .half → (transferAddress p u (s.reg 8 rn) (imm8.setWidth 32))[0] = false) :
    s.Transfers s.privileged (transferAddress p u (s.reg 8 rn) (imm8.setWidth 32))
      (writebackIf (!p || w) rn (modifiedBase u (s.reg 8 rn) (imm8.setWidth 32))) x.2.1 x.2.2 (exec x.1 s) := by
  simp only [List.mem_cons, List.not_mem_nil, or_false] at hx
  obtain rfl | rfl | rfl | rfl := hx
  · exact .of_eq (whenPassed_true hc _) (State.halfwordLoad_transfers allowed .half even)
  · exact .of_eq (whenPassed_true hc _) (State.halfwordLoad_transfers allowed .signedByte even)
  · exact .of_eq (whenPassed_true hc _) (State.halfwordLoad_transfers allowed .signedHalf even)
  · exact .of_eq (whenPassed_true hc _) (State.halfwordStore_transfers allowed (even rfl))

end Forms

/-- Settles O30: every form is an access of its kind and size, whose refusal writes the base back and enters the data abort. -/
theorem transferAborts : Obligations.TransferAborts := by
  intro s c u rn rd rm off imm8 hc base m taken
  refine ⟨fun ix allowed x hx aborted => ?plain, fun allowed x hx aborted => ?unprivileged,
    fun p w => ⟨fun allowed x hx => ?reg, fun allowed x hx => ?imm⟩⟩
  case plain => exact (exec_singleForm_transfers hc allowed hx).aborts aborted
  case unprivileged => exact (exec_unprivilegedForm_transfers hc allowed hx).aborts aborted
  case reg =>
    intro a even aborted
    exact (exec_halfwordRegForm_transfers hc allowed hx even).aborts aborted
  case imm =>
    intro a even aborted
    exact (exec_halfwordImmForm_transfers hc allowed hx even).aborts aborted

end Sys2Proof.Machine
end

section
/-!
SUPPORT. THUMB loads and stores of formats 6 to 11 (spec/48_thumb_formats_6_to_15.md): the access of each form, and the statements about
them.
-/

namespace Sys2Proof.Machine

/-! ### THUMB addresses -/

theorem setWidth_eq_ofNat {n : Nat} (field : BitVec n) : (field.setWidth 32 : Word) = BitVec.ofNat 32 field.toNat :=
  (BitVec.ofNat_toNat 32 field).symm

/-- A field over one zero bit is twice the number it holds (R137). -/
theorem scaled2_eq_ofNat {n : Nat} (field : BitVec n) : scaled2 field = BitVec.ofNat 32 (2 * field.toNat) := by
  apply BitVec.eq_of_toNat_eq
  rw [scaled2, BitVec.toNat_shiftLeft, BitVec.toNat_setWidth, BitVec.toNat_ofNat, Nat.shiftLeft_eq]
  omega

/-! ### A THUMB load or store -/

section Thumb
variable {s : State} {a : Word} {rd : LoReg}

theorem State.thumbLoad_even {k : LoadKind} (even : k.size = .half → a[0] = false) :
    s.thumbLoad k a rd = s.loadSingle k s.privileged a (writebackIf false 0 0) (lo rd) := by
  simp only [State.thumbLoad, AccessSize.odd_eq_false even, Bool.false_eq_true, if_false]
  rfl

theorem State.thumbStore_even {size : AccessSize} (even : size = .half → a[0] = false) :
    s.thumbStore size a rd = s.storeSingle size s.privileged 4 a (writebackIf false 0 0) (lo rd) := by
  simp only [State.thumbStore, AccessSize.odd_eq_false even, Bool.false_eq_true, if_false]
  rfl

theorem State.thumbLoad_odd {k : LoadKind} (half : k.size = .half) (odd : a[0] = true) :
    s.thumbLoad k a rd = .refused .oddHalfword := by
  simp [State.thumbLoad, half, AccessSize.odd, odd]

theorem State.thumbStore_odd (odd : a[0] = true) : s.thumbStore .half a rd = .refused .oddHalfword := by
  simp [State.thumbStore, AccessSize.odd, odd]

theorem State.thumbLoad_transfers {k : LoadKind} (even : k.size = .half → a[0] = false) :
    s.Transfers s.privileged a (writebackIf false 0 0) .read k.size (s.thumbLoad k a rd) :=
  .of_eq (State.thumbLoad_even even) (.load k _)

theorem State.thumbStore_transfers {size : AccessSize} (even : size = .half → a[0] = false) :
    s.Transfers s.privileged a (writebackIf false 0 0) .write size (s.thumbStore size a rd) :=
  .of_eq (State.thumbStore_even even) (.store size 4 _)

/-- A load without write-back leaves its value and nothing else. -/
theorem State.Loaded.resultIn {t : State} {i rn : RegNo} {v m : Word} (h : s.Loaded t i v false rn m) : s.ResultIn t i v s.cpsr := by
  obtain ⟨arrives, -, kept⟩ := h
  exact ⟨arrives, kept⟩

theorem State.thumbLoad_resultIn {k : LoadKind} (even : k.size = .half → a[0] = false)
    (ha : s.accepts .read k.size s.privileged (k.size.align a)) :
    ∃ t, s.thumbLoad k a rd = .next t ∧ s.ResultIn t (lo rd) (s.loadValue k a) s.cpsr := by
  obtain ⟨t, e, loaded⟩ := State.loadSingle_loaded (rn := 0) (m := 0) (rd := lo rd) (wb := false) ha (by simp)
  exact ⟨t, (State.thumbLoad_even even).trans e, loaded.resultIn⟩

end Thumb

/-! ### The forms -/

section Forms
variable (s : State) (ro rb rd : LoReg) (o5 : BitVec 5) (word8 : BitVec 8)

theorem exec_tLdrPc : exec (.tLdrPc rd word8) s =
    s.thumbLoad .word (((s.pc + 4) &&& 0xFFFFFFFC#32) + BitVec.ofNat 32 (4 * word8.toNat)) rd := by
  rw [← scaled4_eq_ofNat]
  rfl

theorem exec_tLdrSp : exec (.tLdrSp rd word8) s = s.thumbLoad .word (s.reg 0 SP + BitVec.ofNat 32 (4 * word8.toNat)) rd := by
  rw [← scaled4_eq_ofNat, ← s.reg_sp 4]
  rfl

theorem exec_tStrSp : exec (.tStrSp rd word8) s = s.thumbStore .word (s.reg 0 SP + BitVec.ofNat 32 (4 * word8.toNat)) rd := by
  rw [← scaled4_eq_ofNat, ← s.reg_sp 4]
  rfl

theorem exec_tLdrImm : exec (.tLdrImm o5 rb rd) s = s.thumbLoad .word (s.reg 0 (lo rb) + BitVec.ofNat 32 (4 * o5.toNat)) rd := by
  rw [← scaled4_eq_ofNat, s.reg_eq_loReg]
  rfl

theorem exec_tLdrbImm : exec (.tLdrbImm o5 rb rd) s = s.thumbLoad .byte (s.reg 0 (lo rb) + BitVec.ofNat 32 o5.toNat) rd := by
  rw [← setWidth_eq_ofNat, s.reg_eq_loReg]
  rfl

theorem exec_tLdrhImm : exec (.tLdrhImm o5 rb rd) s = s.thumbLoad .half (s.reg 0 (lo rb) + BitVec.ofNat 32 (2 * o5.toNat)) rd := by
  rw [← scaled2_eq_ofNat, s.reg_eq_loReg]
  rfl

theorem exec_tStrImm : exec (.tStrImm o5 rb rd) s = s.thumbStore .word (s.reg 0 (lo rb) + BitVec.ofNat 32 (4 * o5.toNat)) rd := by
  rw [← scaled4_eq_ofNat, s.reg_eq_loReg]
  rfl

theorem exec_tStrbImm : exec (.tStrbImm o5 rb rd) s = s.thumbStore .byte (s.reg 0 (lo rb) + BitVec.ofNat 32 o5.toNat) rd := by
  rw [← setWidth_eq_ofNat, s.reg_eq_loReg]
  rfl

theorem exec_tStrhImm : exec (.tStrhImm o5 rb rd) s = s.thumbStore .half (s.reg 0 (lo rb) + BitVec.ofNat 32 (2 * o5.toNat)) rd := by
  rw [← scaled2_eq_ofNat, s.reg_eq_loReg]
  rfl

/-- The register-offset forms, loads by kind and stores by size (R422 to R430). -/
theorem exec_registerOffset : let a := s.reg 0 (lo rb) + s.reg 0 (lo ro)
    exec (.tLdrReg ro rb rd) s = s.thumbLoad .word a rd ∧ exec (.tLdrbReg ro rb rd) s = s.thumbLoad .byte a rd
    ∧ exec (.tLdsbReg ro rb rd) s = s.thumbLoad .signedByte a rd ∧ exec (.tLdrhReg ro rb rd) s = s.thumbLoad .half a rd
    ∧ exec (.tLdshReg ro rb rd) s = s.thumbLoad .signedHalf a rd ∧ exec (.tStrReg ro rb rd) s = s.thumbStore .word a rd
    ∧ exec (.tStrbReg ro rb rd) s = s.thumbStore .byte a rd ∧ exec (.tStrhReg ro rb rd) s = s.thumbStore .half a rd := by
  rw [s.reg_eq_loReg, s.reg_eq_loReg]
  exact ⟨rfl, rfl, rfl, rfl, rfl, rfl, rfl, rfl⟩

end Forms

/-- What every row of the table of THUMB loads says of its form: `reads` is what the rule says of the value at the address. -/
def State.ThumbLoads (s : State) (rd : LoReg) (i : Instr) (size : AccessSize) (a : Word) (reads : Word → Word → Prop) : Prop :=
  ∃ k : LoadKind, k.size = size ∧ reads a (s.loadValue k a) ∧ exec i s = s.thumbLoad k a rd

theorem State.ThumbLoads.spec {s : State} {rd : LoReg} {i : Instr} {size : AccessSize} {a : Word} {reads : Word → Word → Prop}
    (h : s.ThumbLoads rd i size a reads) :
    (size = .half → a[0] = true → exec i s = .refused .oddHalfword)
    ∧ ((size = .half → a[0] = false) →
      (s.accepts .read size s.privileged (size.align a) →
        ∃ t v, exec i s = .next t ∧ reads a v ∧ s.ResultIn t (lo rd) v s.cpsr)
      ∧ (s.aborted .read size s.privileged (size.align a) = true →
        ∃ t, exec i s = .next t ∧ s.Enters t .abt 0x10 (s.pc + 8) s.cpsr.f ∧ s.KeepsMemory t)) := by
  obtain ⟨k, rfl, value, e⟩ := h
  rw [e]
  refine ⟨fun half odd => State.thumbLoad_odd half odd, fun even => ⟨fun accepted => ?_, fun aborted => ?_⟩⟩
  · obtain ⟨t, next, result⟩ := State.thumbLoad_resultIn (rd := rd) even accepted
    exact ⟨t, _, next, value, result⟩
  · exact (State.thumbLoad_transfers (rd := rd) even).aborts aborted

/-- Settles O48: each row names the kind of its load, the value of which is what the rule says of its address. -/
theorem thumbLoads : Obligations.ThumbLoads := by
  intro s ro rb rd o5 word8 base indexed k8 word byte half x hx
  obtain ⟨ldr, ldrb, ldsb, ldrh, ldsh, -⟩ := exec_registerOffset s ro rb rd
  have readsWord : ∀ a, word a (s.loadValue .word a) := fun a => ⟨_, s.readWord_reads _, s.loadValue_word a⟩
  have readsByte : ∀ a, byte (·.setWidth 32) a (s.loadValue .byte a) := fun a => ⟨_, s.readByte_reads a, rfl⟩
  have readsSignedByte : ∀ a, byte (·.signExtend 32) a (s.loadValue .signedByte a) := fun a => ⟨_, s.readByte_reads a, rfl⟩
  have readsHalf : ∀ a, half (·.setWidth 32) a (s.loadValue .half a) := fun a => ⟨_, s.readHalf_reads a, rfl⟩
  have readsSignedHalf : ∀ a, half (·.signExtend 32) a (s.loadValue .signedHalf a) := fun a => ⟨_, s.readHalf_reads a, rfl⟩
  have row : s.ThumbLoads rd x.1 x.2.1 x.2.2.1 x.2.2.2 := by
    simp only [List.mem_cons, List.not_mem_nil, or_false] at hx
    obtain rfl | rfl | rfl | rfl | rfl | rfl | rfl | rfl | rfl | rfl := hx
    · exact ⟨.word, rfl, readsWord _, exec_tLdrPc s rd word8⟩
    · exact ⟨.word, rfl, readsWord _, ldr⟩
    · exact ⟨.byte, rfl, readsByte _, ldrb⟩
    · exact ⟨.signedByte, rfl, readsSignedByte _, ldsb⟩
    · exact ⟨.half, rfl, readsHalf _, ldrh⟩
    · exact ⟨.signedHalf, rfl, readsSignedHalf _, ldsh⟩
    · exact ⟨.word, rfl, readsWord _, exec_tLdrImm s rb rd o5⟩
    · exact ⟨.byte, rfl, readsByte _, exec_tLdrbImm s rb rd o5⟩
    · exact ⟨.half, rfl, readsHalf _, exec_tLdrhImm s rb rd o5⟩
    · exact ⟨.word, rfl, readsWord _, exec_tLdrSp s rd word8⟩
  exact row.spec

/-- Settles O49: each row is `thumbStore` of its size at its address. -/
theorem thumbStores : Obligations.ThumbStores := by
  intro s ro rb rd o5 word8 base indexed v aborted
  obtain ⟨-, -, -, -, -, str, strb, strh⟩ := exec_registerOffset s ro rb rd
  have value : v = s.reg 4 (lo rd) := (s.reg_lo rd 4).symm
  rw [value]
  refine ⟨fun x hx => ?word, fun x hx => ?byte, fun x hx => ?half⟩
  case word =>
    have form : exec x.1 s = s.thumbStore .word x.2 rd := by
      simp only [List.mem_cons, List.not_mem_nil, or_false] at hx
      obtain rfl | rfl | rfl := hx
      · exact str
      · exact exec_tStrImm s rb rd o5
      · exact exec_tStrSp s rd word8
    simp only [aborted, form]
    exact ⟨fun accepted => State.thumbStore_even (size := .word) nofun ▸ State.storeSingle_word accepted nofun,
      (State.thumbStore_transfers (size := .word) nofun).aborts⟩
  case byte =>
    have form : exec x.1 s = s.thumbStore .byte x.2 rd := by
      simp only [List.mem_cons, List.not_mem_nil, or_false] at hx
      obtain rfl | rfl := hx
      · exact strb
      · exact exec_tStrbImm s rb rd o5
    simp only [aborted, form]
    exact ⟨fun accepted => State.thumbStore_even (size := .byte) nofun ▸ State.storeSingle_byte accepted nofun,
      (State.thumbStore_transfers (size := .byte) nofun).aborts⟩
  case half =>
    have form : exec x.1 s = s.thumbStore .half x.2 rd := by
      simp only [List.mem_cons, List.not_mem_nil, or_false] at hx
      obtain rfl | rfl := hx
      · exact strh
      · exact exec_tStrhImm s rb rd o5
    simp only [aborted, form]
    refine ⟨State.thumbStore_odd, fun even => ⟨fun accepted => ?_, (State.thumbStore_transfers fun _ => even).aborts⟩⟩
    exact State.thumbStore_even (size := .half) (fun _ => even) ▸ State.storeSingle_half even accepted nofun

end Sys2Proof.Machine
end
section
/-!
SUPPORT. An encoding read field by field: when a concatenation is a given word, shape by shape of the encoder.
-/

namespace Sys2Proof

/-! ### Fields of a word -/

theorem extract_eq_cat {n m k l : Nat} (w : BitVec l) (start : Nat) (x : BitVec n) (y : BitVec m) (h : n + m = k) :
    w.extractLsb' start k = cat k x y ↔ w.extractLsb' (start + m) n = x ∧ w.extractLsb' start m = y := by
  subst h
  constructor
  · intro e
    have bit (i : Nat) (hi : i < n + m) : w.getLsbD (start + i) = (cat (n + m) x y)[i] := by
      rw [← e, BitVec.getElem_extractLsb']
    constructor
    · ext i hi
      rw [BitVec.getElem_extractLsb', Nat.add_assoc, bit _ (by omega), getElem_cat_high _ _ rfl _ _ (by omega)]
      simp
    · ext i hi
      rw [BitVec.getElem_extractLsb', bit _ (by omega), getElem_cat_low _ _ rfl _ _ (by omega)]
  · rintro ⟨rfl, rfl⟩
    ext i hi
    rw [getElem_cat _ _ rfl]
    split
    · simp
    · next hm => simp [show start + m + (i - m) = start + i by omega]

theorem cat_eq_iff {n m k : Nat} (x : BitVec n) (y : BitVec m) (w : BitVec k) (h : n + m = k) :
    cat k x y = w ↔ w.extractLsb' m n = x ∧ w.extractLsb' 0 m = y := by
  have parts := extract_eq_cat w 0 x y h
  rwa [extract_all, Nat.zero_add, eq_comm] at parts

theorem extract_extract {k : Nat} (w : BitVec k) {start len start' len' : Nat} (h : start' + len' ≤ len) :
    (w.extractLsb' start len).extractLsb' start' len' = w.extractLsb' (start + start') len' := by
  ext i hi
  simp only [BitVec.getElem_extractLsb', BitVec.getLsbD_extractLsb', Nat.add_assoc,
    decide_eq_true (show start' + i < len by omega), Bool.true_and]

theorem extract_eq_iff {k n : Nat} (w : BitVec k) (start : Nat) (x : BitVec n) :
    w.extractLsb' start n = x ↔ ∀ i : Fin n, w.getLsbD (start + i) = x[i] := by
  constructor
  · rintro rfl i
    simp
  · intro h
    ext i hi
    simpa using h ⟨i, hi⟩

theorem extract_eq_ofNat {k : Nat} (w : BitVec k) (start n v : Nat) :
    w.extractLsb' start n = BitVec.ofNat n v ↔ ∀ i : Fin n, w.getLsbD (start + i) = decide (v / 2 ^ i.val % 2 = 1) := by
  rw [extract_eq_iff]
  simp [← BitVec.getLsbD_eq_getElem, BitVec.getLsbD_ofNat, Nat.testBit_eq_decide_div_mod_eq]

theorem extract_eq_nibble {k : Nat} (w : BitVec k) (start : Nat) (b3 b2 b1 b0 : Bool) :
    w.extractLsb' start 4 = nibble b3 b2 b1 b0 ↔
      w.getLsbD (start + 3) = b3 ∧ w.getLsbD (start + 2) = b2 ∧ w.getLsbD (start + 1) = b1 ∧ w.getLsbD start = b0 := by
  obtain ⟨h0, h1, h2, h3⟩ := nibble_bits b3 b2 b1 b0
  rw [extract_eq_iff]
  simp [Fin.forall_fin_succ, h0, h1, h2, h3]
  tauto

theorem extract_eq_ofBool {k : Nat} (w : BitVec k) (start : Nat) (b : Bool) :
    w.extractLsb' start 1 = BitVec.ofBool b ↔ w.getLsbD start = b := by
  rw [extract_eq_iff]
  simp

/-! ### ARM words -/

theorem shiftField_iff (ty : ShiftType) (amount : BitVec 5) (rm : RegNo) (w : BitVec 32) :
    w.extractLsb' 0 12 = shiftField ty amount rm ↔
      w.extractLsb' 7 5 = amount ∧ w[6] = ty.bit6 ∧ w[5] = ty.bit5 ∧ w[4] = false ∧ w.extractLsb' 0 4 = rm := by
  simp [shiftField, extract_eq_cat, extract_eq_ofBool, extract_eq_ofNat]

theorem shiftTypeOf_eq_iff (b6 b5 : Bool) (ty : ShiftType) : shiftTypeOf b6 b5 = ty ↔ b6 = ty.bit6 ∧ b5 = ty.bit5 := by
  cases b6 <;> cases b5 <;> cases ty <;> decide

theorem operand2_field_iff (op2 : Operand2) (w : BitVec 32) :
    w[25] = op2.bit25 ∧ w.extractLsb' 0 12 = op2.field ↔
      operand2Of w = op2 ∧ (w[25] = false → (w[7] && w[4]) = false) := by
  cases op2 with
  | imm rotate imm8 =>
    cases imm : w[25] <;> cases reg : w[4] <;>
      simp [Operand2.field, Operand2.bit25, operand2Of, extract_eq_cat, imm, reg]
  | shiftImm ty amount rm =>
    cases imm : w[25] <;> cases reg : w[4] <;>
      simp [Operand2.field, Operand2.bit25, operand2Of, shiftField_iff, shiftTypeOf_eq_iff, imm, reg]
    grind
  | shiftReg ty rs rm =>
    cases imm : w[25] <;> cases reg : w[4] <;>
      simp [Operand2.field, Operand2.bit25, operand2Of, extract_eq_cat, extract_eq_nibble, shiftTypeOf_eq_iff, imm, reg]
    grind

theorem encodeDp_iff (c : Cond) (o3 o2 o1 o0 s : Bool) (rn rd : RegNo) (op2 : Operand2) (w : BitVec 32) :
    encodeDp c o3 o2 o1 o0 s rn rd op2 = .arm w ↔ w.extractLsb' 28 4 = condBits c ∧
      (w[27] = false ∧ w[26] = false ∧ w[24] = o3) ∧ (w[23] = o2 ∧ w[22] = o1 ∧ w[21] = o0 ∧ w[20] = s) ∧
      w.extractLsb' 16 4 = rn ∧ w.extractLsb' 12 4 = rd ∧
      operand2Of w = op2 ∧ (w[25] = false → (w[7] && w[4]) = false) := by
  rw [← operand2_field_iff]
  simp only [encodeDp, Code.arm.injEq]
  simp [cat_eq_iff, extract_eq_cat, extract_eq_nibble]
  tauto

theorem offset_field_iff (off : Offset) (w : BitVec 32) :
    w[25] = off.bit25 ∧ w.extractLsb' 0 12 = off.field ↔ offsetOf w = off ∧ (w[25] = true → w[4] = false) := by
  cases off with
  | imm imm12 =>
    cases reg : w[25] <;> simp [Offset.field, Offset.bit25, offsetOf, reg]
  | reg ty amount rm =>
    cases reg : w[25] <;> simp [Offset.field, Offset.bit25, offsetOf, shiftField_iff, shiftTypeOf_eq_iff, reg]
    grind

theorem encodeMul_iff (c : Cond) (b23 b22 b21 s : Bool) (r19 r15 r11 r3 : RegNo) (w : BitVec 32) :
    encodeMul c b23 b22 b21 s r19 r15 r11 r3 = .arm w ↔ w.extractLsb' 28 4 = condBits c ∧
      (w[27] = false ∧ w[26] = false ∧ w[25] = false ∧ w[24] = false) ∧
      (w[23] = b23 ∧ w[22] = b22 ∧ w[21] = b21 ∧ w[20] = s) ∧
      w.extractLsb' 16 4 = r19 ∧ w.extractLsb' 12 4 = r15 ∧ w.extractLsb' 8 4 = r11 ∧
      (w[7] = true ∧ w[6] = false ∧ w[5] = false ∧ w[4] = true) ∧ w.extractLsb' 0 4 = r3 := by
  simp [encodeMul, cat_eq_iff, extract_eq_cat, extract_eq_nibble, extract_eq_ofNat, Fin.forall_fin_succ]
  tauto

theorem encodeHalfReg_iff (c : Cond) (p u b l s h : Bool) (rn rd rm : RegNo) (w : BitVec 32) :
    encodeHalfReg c p u b l s h rn rd rm = .arm w ↔ w.extractLsb' 28 4 = condBits c ∧
      (w[27] = false ∧ w[26] = false ∧ w[25] = false ∧ w[24] = p) ∧
      (w[23] = u ∧ w[22] = false ∧ w[21] = b ∧ w[20] = l) ∧
      w.extractLsb' 16 4 = rn ∧ w.extractLsb' 12 4 = rd ∧ w.extractLsb' 8 4 = 0#4 ∧
      (w[7] = true ∧ w[6] = s ∧ w[5] = h ∧ w[4] = true) ∧ w.extractLsb' 0 4 = rm := by
  simp [encodeHalfReg, cat_eq_iff, extract_eq_cat, extract_eq_nibble]

theorem halfwordImm_iff (off : BitVec 8) (w : BitVec 32) :
    w.extractLsb' 8 4 = off.extractLsb' 4 4 ∧ w.extractLsb' 0 4 = off.extractLsb' 0 4 ↔ halfwordImmOf w = off := by
  rw [halfwordImmOf, cat_eq_iff _ _ _ rfl, eq_comm (a := off.extractLsb' 4 4), eq_comm (a := off.extractLsb' 0 4)]

theorem encodeHalfImm_iff (c : Cond) (p u b l s h : Bool) (rn rd : RegNo) (off : BitVec 8) (w : BitVec 32) :
    encodeHalfImm c p u b l s h rn rd off = .arm w ↔ w.extractLsb' 28 4 = condBits c ∧
      (w[27] = false ∧ w[26] = false ∧ w[25] = false ∧ w[24] = p) ∧
      (w[23] = u ∧ w[22] = true ∧ w[21] = b ∧ w[20] = l) ∧
      w.extractLsb' 16 4 = rn ∧ w.extractLsb' 12 4 = rd ∧
      (w[7] = true ∧ w[6] = s ∧ w[5] = h ∧ w[4] = true) ∧ halfwordImmOf w = off := by
  rw [← halfwordImm_iff]
  simp [encodeHalfImm, cat_eq_iff, extract_eq_cat, extract_eq_nibble]
  tauto

theorem encodeSingle_iff (c : Cond) (p u b wb l : Bool) (rn rd : RegNo) (off : Offset) (w : BitVec 32) :
    encodeSingle c p u b wb l rn rd off = .arm w ↔ w.extractLsb' 28 4 = condBits c ∧
      (w[27] = false ∧ w[26] = true ∧ w[24] = p) ∧ (w[23] = u ∧ w[22] = b ∧ w[21] = wb ∧ w[20] = l) ∧
      w.extractLsb' 16 4 = rn ∧ w.extractLsb' 12 4 = rd ∧ offsetOf w = off ∧ (w[25] = true → w[4] = false) := by
  rw [← offset_field_iff]
  simp [encodeSingle, cat_eq_iff, extract_eq_cat, extract_eq_nibble]
  tauto

theorem encodeBlock_iff (c : Cond) (p u sb wb l : Bool) (rn : RegNo) (list : BitVec 16) (w : BitVec 32) :
    encodeBlock c p u sb wb l rn list = .arm w ↔ w.extractLsb' 28 4 = condBits c ∧
      (w[27] = true ∧ w[26] = false ∧ w[25] = false ∧ w[24] = p) ∧
      (w[23] = u ∧ w[22] = sb ∧ w[21] = wb ∧ w[20] = l) ∧
      w.extractLsb' 16 4 = rn ∧ w.extractLsb' 0 16 = list := by
  simp [encodeBlock, cat_eq_iff, extract_eq_cat, extract_eq_nibble]

/-! ### ARM words of one instruction -/

theorem encode_bx_iff (c : Cond) (rn : RegNo) (w : BitVec 32) :
    encode (.bx c rn) = .arm w ↔ w.extractLsb' 28 4 = condBits c ∧
      (w[27] = false ∧ w[26] = false ∧ w[25] = false ∧ w[24] = true) ∧
      (w[23] = false ∧ w[22] = false ∧ w[21] = true ∧ w[20] = false) ∧
      w.extractLsb' 16 4 = 15#4 ∧ w.extractLsb' 12 4 = 15#4 ∧ w.extractLsb' 8 4 = 15#4 ∧ w.extractLsb' 4 4 = 1#4 ∧
      w.extractLsb' 0 4 = rn := by
  have nibbles : 0x12FFF1#24 = cat 24 (nibble false false false true) (cat 20 (nibble false false true false)
      (cat 16 15#4 (cat 12 15#4 (cat 8 15#4 1#4)))) := by decide
  simp [encode, nibbles, cat_eq_iff, extract_eq_cat, extract_eq_nibble, and_assoc]

theorem encode_swp_iff (c : Cond) (rn rd rm : RegNo) (w : BitVec 32) :
    encode (.swp c rn rd rm) = .arm w ↔ w.extractLsb' 28 4 = condBits c ∧
      (w[27] = false ∧ w[26] = false ∧ w[25] = false ∧ w[24] = true) ∧
      (w[23] = false ∧ w[22] = false ∧ w[21] = false ∧ w[20] = false) ∧
      w.extractLsb' 16 4 = rn ∧ w.extractLsb' 12 4 = rd ∧ w.extractLsb' 8 4 = 0#4 ∧
      (w[7] = true ∧ w[6] = false ∧ w[5] = false ∧ w[4] = true) ∧ w.extractLsb' 0 4 = rm := by
  have high : 0x10#8 = cat 8 (nibble false false false true) (nibble false false false false) := by decide
  have low : 9#8 = cat 8 0#4 (nibble true false false true) := by decide
  simp [encode, high, low, cat_eq_iff, extract_eq_cat, extract_eq_nibble, and_assoc]

theorem encode_swpb_iff (c : Cond) (rn rd rm : RegNo) (w : BitVec 32) :
    encode (.swpb c rn rd rm) = .arm w ↔ w.extractLsb' 28 4 = condBits c ∧
      (w[27] = false ∧ w[26] = false ∧ w[25] = false ∧ w[24] = true) ∧
      (w[23] = false ∧ w[22] = true ∧ w[21] = false ∧ w[20] = false) ∧
      w.extractLsb' 16 4 = rn ∧ w.extractLsb' 12 4 = rd ∧ w.extractLsb' 8 4 = 0#4 ∧
      (w[7] = true ∧ w[6] = false ∧ w[5] = false ∧ w[4] = true) ∧ w.extractLsb' 0 4 = rm := by
  have high : 0x14#8 = cat 8 (nibble false false false true) (nibble false true false false) := by decide
  have low : 9#8 = cat 8 0#4 (nibble true false false true) := by decide
  simp [encode, high, low, cat_eq_iff, extract_eq_cat, extract_eq_nibble, and_assoc]

theorem encode_mrs_iff (c : Cond) (spsr : Bool) (rd : RegNo) (w : BitVec 32) :
    encode (.mrs c spsr rd) = .arm w ↔ w.extractLsb' 28 4 = condBits c ∧
      (w[27] = false ∧ w[26] = false ∧ w[25] = false ∧ w[24] = true) ∧
      (w[23] = false ∧ w[22] = spsr ∧ w[21] = false ∧ w[20] = false) ∧
      w.extractLsb' 16 4 = 15#4 ∧ w.extractLsb' 12 4 = rd ∧ w.extractLsb' 8 4 = 0#4 ∧ w.extractLsb' 4 4 = 0#4 ∧
      w.extractLsb' 0 4 = 0#4 := by
  have top : 1#4 = nibble false false false true := by decide
  have low : 0#12 = cat 12 0#4 (cat 8 0#4 0#4) := by decide
  simp [encode, top, low, cat_eq_iff, extract_eq_cat, extract_eq_nibble, and_assoc]

/-- The fields of the two MSR words of a register, `field` 9 for the whole PSR and 8 for its flags. -/
theorem msr_word_iff (c : Cond) (spsr : Bool) (field : BitVec 4) (rm : RegNo) (w : BitVec 32) :
    Code.arm (cat 32 (condBits c) (cat 28 1#4 (cat 24 (nibble false spsr true false) (cat 20 field (cat 16 15#4
        (cat 12 0#8 rm)))))) = .arm w ↔ w.extractLsb' 28 4 = condBits c ∧
      (w[27] = false ∧ w[26] = false ∧ w[25] = false ∧ w[24] = true) ∧
      (w[23] = false ∧ w[22] = spsr ∧ w[21] = true ∧ w[20] = false) ∧
      w.extractLsb' 16 4 = field ∧ w.extractLsb' 12 4 = 15#4 ∧ w.extractLsb' 8 4 = 0#4 ∧ w.extractLsb' 4 4 = 0#4 ∧
      w.extractLsb' 0 4 = rm := by
  have top : 1#4 = nibble false false false true := by decide
  have low : 0#8 = cat 8 0#4 0#4 := by decide
  simp [top, low, cat_eq_iff, extract_eq_cat, extract_eq_nibble, and_assoc]

theorem encode_msrFlgImm_iff (c : Cond) (spsr : Bool) (rotate : BitVec 4) (imm8 : BitVec 8) (w : BitVec 32) :
    encode (.msrFlgImm c spsr rotate imm8) = .arm w ↔ w.extractLsb' 28 4 = condBits c ∧
      (w[27] = false ∧ w[26] = false ∧ w[25] = true ∧ w[24] = true) ∧
      (w[23] = false ∧ w[22] = spsr ∧ w[21] = true ∧ w[20] = false) ∧
      w.extractLsb' 16 4 = 8#4 ∧ w.extractLsb' 12 4 = 15#4 ∧ w.extractLsb' 8 4 = rotate ∧
      w.extractLsb' 0 8 = imm8 := by
  have top : 3#4 = nibble false false true true := by decide
  simp [encode, top, cat_eq_iff, extract_eq_cat, extract_eq_nibble, and_assoc]

theorem encode_undefined_iff (c : Cond) (high : BitVec 20) (low : BitVec 4) (w : BitVec 32) :
    encode (.undefined c high low) = .arm w ↔ w.extractLsb' 28 4 = condBits c ∧
      (w[27] = false ∧ w[26] = true ∧ w[25] = true) ∧ w.extractLsb' 5 20 = high ∧ w[4] = true ∧
      w.extractLsb' 0 4 = low := by
  simp [encode, cat_eq_iff, extract_eq_cat, extract_eq_ofNat, Fin.forall_fin_succ]
  tauto

/-- The fields of B (`link` 0) and BL (`link` 1). -/
theorem branch_word_iff (c : Cond) (link : Bool) (offset : BitVec 24) (w : BitVec 32) :
    Code.arm (cat 32 (condBits c) (cat 28 (nibble true false true link) offset)) = .arm w ↔ w.extractLsb' 28 4 = condBits c ∧
      (w[27] = true ∧ w[26] = false ∧ w[25] = true ∧ w[24] = link) ∧ w.extractLsb' 0 24 = offset := by
  simp [cat_eq_iff, extract_eq_cat, extract_eq_nibble, and_assoc]

/-- The fields of STC (`l` 0) and LDC (`l` 1). -/
theorem coproc_transfer_word_iff (c : Cond) (p u n b l : Bool) (rn crd cp : BitVec 4) (off : BitVec 8) (w : BitVec 32) :
    Code.arm (cat 32 (condBits c) (cat 28 (nibble true true false p) (cat 24 (nibble u n b l) (cat 20 rn
        (cat 16 crd (cat 12 cp off)))))) = .arm w ↔ w.extractLsb' 28 4 = condBits c ∧
      (w[27] = true ∧ w[26] = true ∧ w[25] = false ∧ w[24] = p) ∧
      (w[23] = u ∧ w[22] = n ∧ w[21] = b ∧ w[20] = l) ∧
      w.extractLsb' 16 4 = rn ∧ w.extractLsb' 12 4 = crd ∧ w.extractLsb' 8 4 = cp ∧ w.extractLsb' 0 8 = off := by
  simp [cat_eq_iff, extract_eq_cat, extract_eq_nibble, and_assoc]

theorem encode_cdp_iff (c : Cond) (opc crn crd cp : BitVec 4) (info : BitVec 3) (crm : BitVec 4) (w : BitVec 32) :
    encode (.cdp c opc crn crd cp info crm) = .arm w ↔ w.extractLsb' 28 4 = condBits c ∧
      (w[27] = true ∧ w[26] = true ∧ w[25] = true ∧ w[24] = false) ∧ w.extractLsb' 20 4 = opc ∧
      w.extractLsb' 16 4 = crn ∧ w.extractLsb' 12 4 = crd ∧ w.extractLsb' 8 4 = cp ∧ w.extractLsb' 5 3 = info ∧
      w[4] = false ∧ w.extractLsb' 0 4 = crm := by
  have top : 14#4 = nibble true true true false := by decide
  simp [encode, top, cat_eq_iff, extract_eq_cat, extract_eq_nibble, extract_eq_ofNat, and_assoc]

/-- The fields of MCR (`l` 0) and MRC (`l` 1). -/
theorem coproc_register_word_iff (c : Cond) (l : Bool) (opc : BitVec 3) (crn rd cp : BitVec 4) (info : BitVec 3)
    (crm : BitVec 4) (w : BitVec 32) :
    Code.arm (cat 32 (condBits c) (cat 28 14#4 (cat 24 opc (cat 21 (BitVec.ofBool l) (cat 20 crn (cat 16 rd (cat 12 cp
        (cat 8 info (cat 5 1#1 crm))))))))) = .arm w ↔ w.extractLsb' 28 4 = condBits c ∧
      (w[27] = true ∧ w[26] = true ∧ w[25] = true ∧ w[24] = false) ∧ w.extractLsb' 21 3 = opc ∧ w[20] = l ∧
      w.extractLsb' 16 4 = crn ∧ w.extractLsb' 12 4 = rd ∧ w.extractLsb' 8 4 = cp ∧ w.extractLsb' 5 3 = info ∧
      w[4] = true ∧ w.extractLsb' 0 4 = crm := by
  have top : 14#4 = nibble true true true false := by decide
  simp [top, cat_eq_iff, extract_eq_cat, extract_eq_nibble, extract_eq_ofBool, extract_eq_ofNat, and_assoc]

theorem encode_swi_iff (c : Cond) (comment : BitVec 24) (w : BitVec 32) :
    encode (.swi c comment) = .arm w ↔ w.extractLsb' 28 4 = condBits c ∧
      (w[27] = true ∧ w[26] = true ∧ w[25] = true ∧ w[24] = true) ∧ w.extractLsb' 0 24 = comment := by
  have top : 15#4 = nibble true true true true := by decide
  simp [encode, top, cat_eq_iff, extract_eq_cat, extract_eq_nibble, and_assoc]

/-! ### THUMB halfwords -/

/-- A halfword of fixed top bits and one field (formats 13, 14, 16 to 19 and the rows that are not allocated). -/
theorem head_iff {n m : Nat} (op : BitVec n) (low : BitVec m) (h : Half) (width : n + m = 16) :
    Code.thumb (cat 16 op low) = .thumb h ↔ h.extractLsb' m n = op ∧ h.extractLsb' 0 m = low := by
  rw [Code.thumb.injEq, cat_eq_iff _ _ _ width]

theorem encodeAlu_iff (op : BitVec 4) (rs rd : LoReg) (h : Half) :
    encodeAlu op rs rd = .thumb h ↔
      h.extractLsb' 10 6 = 16#6 ∧ h.extractLsb' 6 4 = op ∧ h.extractLsb' 3 3 = rs ∧ h.extractLsb' 0 3 = rd := by
  simp [encodeAlu, cat_eq_iff, extract_eq_cat]

theorem encodeHi_iff (op : BitVec 2) (h1 : Bool) (hs : RegNo) (rd : BitVec 3) (h : Half) :
    encodeHi op h1 hs rd = .thumb h ↔ h.extractLsb' 10 6 = 17#6 ∧ h.extractLsb' 8 2 = op ∧ h[7] = h1 ∧
      h.extractLsb' 3 4 = hs ∧ h.extractLsb' 0 3 = rd := by
  simp [encodeHi, cat_eq_iff, extract_eq_cat, extract_eq_ofBool]

/-- A register number of format 5 is that of the H bit and the three bits of a halfword. -/
theorem hi_field_iff (hd : RegNo) (h : Half) :
    cat 4 (BitVec.ofBool h[7]) (h.extractLsb' 0 3) = hd ↔ h[7] = hd[3] ∧ h.extractLsb' 0 3 = hd.extractLsb' 0 3 := by
  rw [cat_eq_iff _ _ _ rfl, extract_eq_ofBool, eq_comm, eq_comm (a := hd.extractLsb' 0 3), BitVec.getLsbD_eq_getElem]

theorem encodeT5_iff (op off5 : BitVec 5) (rs rd : LoReg) (h : Half) :
    encodeT5 op off5 rs rd = .thumb h ↔
      h.extractLsb' 11 5 = op ∧ h.extractLsb' 6 5 = off5 ∧ h.extractLsb' 3 3 = rs ∧ h.extractLsb' 0 3 = rd := by
  simp [encodeT5, cat_eq_iff, extract_eq_cat]

theorem encodeT7_iff (op : BitVec 7) (r8 rs rd : BitVec 3) (h : Half) :
    encodeT7 op r8 rs rd = .thumb h ↔
      h.extractLsb' 9 7 = op ∧ h.extractLsb' 6 3 = r8 ∧ h.extractLsb' 3 3 = rs ∧ h.extractLsb' 0 3 = rd := by
  simp [encodeT7, cat_eq_iff, extract_eq_cat]

theorem encodeT58_iff (op : BitVec 5) (rd : LoReg) (low8 : BitVec 8) (h : Half) :
    encodeT58 op rd low8 = .thumb h ↔
      h.extractLsb' 11 5 = op ∧ h.extractLsb' 8 3 = rd ∧ h.extractLsb' 0 8 = low8 := by
  simp [encodeT58, cat_eq_iff, extract_eq_cat]

end Sys2Proof
end
section
/-!
SUPPORT. Decoding after encoding, and encoding after decoding: the two directions of the round trip.
-/

namespace Sys2Proof

/-! ### From a word to its instruction and back -/

/-- The instruction is well formed and `w` its encoding. -/
def Instr.Encodes (i : Instr) (w : BitVec 32) : Prop :=
  i.wf = true ∧ encode i = .arm w

theorem condBits_of_condOf {k : BitVec 4} {c : Cond} (h : condOf k = some c) : condBits c = k := by
  revert h
  revert k
  cases c <;> decide

theorem condOf_eq_none {k : BitVec 4} (h : condOf k = none) : k = 15#4 := by
  revert k
  decide

theorem encodes_decodeDataProcessing {c : Cond} {w : BitVec 32} (cond : w.extractLsb' 28 4 = condBits c)
    (h27 : w[27] = false) (h26 : w[26] = false) (operand : w[25] = false → (w[7] && w[4]) = false)
    (test : (w[24] && !w[23] && !w[20]) = false) : (decodeDataProcessing c w).Encodes w := by
  have s_of_test (h24 : w[24] = true) (h23 : w[23] = false) : w[20] = true := by simpa [h24, h23] using test
  unfold decodeDataProcessing
  split
  all_goals
    next h24 h23 h22 h21 => exact ⟨rfl, (encodeDp_iff ..).2 (by simp_all)⟩

theorem index_bits (p wb : Bool) (plain : ¬(!p && wb) = true) :
    (if p then Index.pre wb else Index.post).p = p ∧ (if p then Index.pre wb else Index.post).w = wb := by
  cases p with
  | true => exact ⟨rfl, rfl⟩
  | false => exact ⟨rfl, by simpa [Index.w, eq_comm] using plain⟩

theorem encodes_decodeSingleTransfer {c : Cond} {w : BitVec 32} (cond : w.extractLsb' 28 4 = condBits c)
    (h27 : w[27] = false) (h26 : w[26] = true) (h4 : w[25] = true → w[4] = false) :
    (decodeSingleTransfer c w).Encodes w := by
  unfold decodeSingleTransfer
  split
  case isTrue translated =>
    split
    all_goals exact ⟨rfl, (encodeSingle_iff ..).2 (by simp_all)⟩
  case isFalse plain =>
    obtain ⟨p, wb⟩ := index_bits (w[24]) (w[21]) plain
    dsimp only
    split
    all_goals exact ⟨rfl, (encodeSingle_iff ..).2 (by simp only [p, wb]; simp_all)⟩

theorem encodes_decodeBlockTransfer {c : Cond} {w : BitVec 32} (cond : w.extractLsb' 28 4 = condBits c)
    (h27 : w[27] = true) (h26 : w[26] = false) (h25 : w[25] = false) : (decodeBlockTransfer c w).Encodes w := by
  unfold decodeBlockTransfer
  split
  all_goals exact ⟨rfl, (encodeBlock_iff ..).2 (by simp_all)⟩

theorem encodes_decodeHalfwordImm {c : Cond} {w : BitVec 32} (cond : w.extractLsb' 28 4 = condBits c)
    (top : w[27] = false ∧ w[26] = false ∧ w[25] = false) (h22 : w[22] = true) (h7 : w[7] = true) (h4 : w[4] = true)
    (sh : (w[6] || w[5]) = true) : (decodeHalfwordImm c w).Encodes w := by
  unfold decodeHalfwordImm
  cases h20 : w[20] <;> cases h6 : w[6] <;> cases h5 : w[5] <;> simp only [h6, h5] at sh ⊢
  all_goals exact ⟨rfl, (encodeHalfImm_iff ..).2 (by simp_all)⟩

theorem encodes_decodeHalfwordReg {c : Cond} {w : BitVec 32} (cond : w.extractLsb' 28 4 = condBits c)
    (top : w[27] = false ∧ w[26] = false ∧ w[25] = false) (h22 : w[22] = false) (h7 : w[7] = true) (h4 : w[4] = true)
    (sh : (w[6] || w[5]) = true) (zero : w.extractLsb' 8 4 = 0#4) : (decodeHalfwordReg c w).Encodes w := by
  unfold decodeHalfwordReg
  cases h20 : w[20] <;> cases h6 : w[6] <;> cases h5 : w[5] <;> simp only [h6, h5] at sh ⊢
  all_goals exact ⟨rfl, (encodeHalfReg_iff ..).2 (by simp_all)⟩

theorem encode_conditional_bits {c : Cond} {w : BitVec 32} (cond : w.extractLsb' 28 4 = condBits c) :
    Code.arm (cat 32 (condBits c) (w.extractLsb' 0 28)) = .arm w := by
  rw [Code.arm.injEq, cat_eq_iff _ _ _ rfl]
  exact ⟨cond, rfl⟩

theorem notDefinedExtension_encodes {c : Cond} {w : BitVec 32} (cond : w.extractLsb' 28 4 = condBits c)
    (remainder : reachesExtension (w.extractLsb' 0 28) = true) :
    (Instr.notDefinedExtension c (w.extractLsb' 0 28)).Encodes w :=
  ⟨remainder, encode_conditional_bits cond⟩

theorem notDefinedTest_encodes {c : Cond} {w : BitVec 32} (cond : w.extractLsb' 28 4 = condBits c)
    (remainder : reachesTestWithoutS (w.extractLsb' 0 28) = true) :
    (Instr.notDefinedTest c (w.extractLsb' 0 28)).Encodes w :=
  ⟨remainder, encode_conditional_bits cond⟩

/-- The tests of row 7 on bits 27:0 are tests of the word's own bits and fields. -/
theorem reachesExtension_word (w : BitVec 32) : reachesExtension (w.extractLsb' 0 28) = true ↔
    (w[27] = false ∧ w[26] = false ∧ w[25] = false ∧ w[7] = true ∧ w[4] = true) ∧
    (w[6] = true ∨ w[5] = true → w[22] = false ∧ w.extractLsb' 8 4 ≠ 0#4) ∧
    (w[6] = false ∧ w[5] = false →
      w[24] = true ∧ (w[23] = true ∨ w[21] = true ∨ w[20] = true ∨ w.extractLsb' 8 4 ≠ 0#4)
        ∨ w[24] = false ∧ w[23] = false ∧ w[22] = true) := by
  simp [reachesExtension, isExtension, isMultiply, isMultiplyLong, isSwap, isHalfwordReg, isHalfwordImm,
    extract_extract]
  grind

theorem encodes_decodeMultiply {c : Cond} {w : BitVec 32} (cond : w.extractLsb' 28 4 = condBits c)
    (top : w[27] = false ∧ w[26] = false ∧ w[25] = false)
    (low : w[7] = true ∧ w[6] = false ∧ w[5] = false ∧ w[4] = true) : (decodeMultiply c w).Encodes w := by
  unfold decodeMultiply
  split
  case h_1 | h_2 | h_3 | h_4 | h_5 | h_6 => exact ⟨rfl, (encodeMul_iff ..).2 (by simp_all)⟩
  case h_7 h24 h23 h21 =>
    have remainder (other : ¬(!w[20] && w.extractLsb' 8 4 == 0#4) = true) :=
      notDefinedExtension_encodes cond ((reachesExtension_word w).2 (by
        simp only [Bool.and_eq_true, Bool.not_eq_true', beq_iff_eq] at other
        grind))
    split
    case isTrue h22 =>
      dsimp only
      split
      case isTrue swap => exact ⟨rfl, (encode_swpb_iff ..).2 (by simp_all)⟩
      case isFalse other => exact remainder other
    case isFalse h22 =>
      dsimp only
      split
      case isTrue swap => exact ⟨rfl, (encode_swp_iff ..).2 (by simp_all)⟩
      case isFalse other => exact remainder other
  case h_8 =>
    refine notDefinedExtension_encodes cond ((reachesExtension_word w).2 ?_)
    cases h21 : w[21] <;> cases h22 : w[22] <;> grind

theorem encodes_decodeExtension {c : Cond} {w : BitVec 32} (cond : w.extractLsb' 28 4 = condBits c)
    (top : w[27] = false ∧ w[26] = false ∧ w[25] = false) (h7 : w[7] = true) (h4 : w[4] = true) :
    (decodeExtension c w).Encodes w := by
  unfold decodeExtension
  split
  case isTrue sh =>
    split
    case isTrue h22 => exact encodes_decodeHalfwordImm cond top h22 h7 h4 sh
    case isFalse h22 =>
      rw [Bool.not_eq_true] at h22
      split
      case isTrue zero => exact encodes_decodeHalfwordReg cond top h22 h7 h4 sh (eq_of_beq zero)
      case isFalse other =>
        exact notDefinedExtension_encodes cond ((reachesExtension_word w).2 (by grind))
  case isFalse sh => exact encodes_decodeMultiply cond top (by simp_all)

/-- The tests of row 12 on bits 27:0 are tests of the word's own bits and fields. -/
theorem reachesTestWithoutS_word (w : BitVec 32) : reachesTestWithoutS (w.extractLsb' 0 28) = true ↔
    (w[27] = false ∧ w[26] = false ∧ w[24] = true ∧ w[23] = false ∧ w[20] = false) ∧
    ¬ (w[25] = false ∧ w[7] = true ∧ w[4] = true) ∧
    ¬ (w[25] = false ∧ w[22] = false ∧ w[21] = true ∧ w.extractLsb' 16 4 = 15#4 ∧ w.extractLsb' 12 4 = 15#4 ∧
      w.extractLsb' 8 4 = 15#4 ∧ w.extractLsb' 4 4 = 1#4) ∧
    ¬ (w[25] = false ∧ w[21] = false ∧ w.extractLsb' 16 4 = 15#4 ∧ w.extractLsb' 8 4 = 0#4 ∧
      w.extractLsb' 4 4 = 0#4 ∧ w.extractLsb' 0 4 = 0#4) ∧
    ¬ (w[25] = false ∧ w[21] = true ∧ (w.extractLsb' 16 4 = 9#4 ∨ w.extractLsb' 16 4 = 8#4) ∧
      w.extractLsb' 12 4 = 15#4 ∧ w.extractLsb' 8 4 = 0#4 ∧ w.extractLsb' 4 4 = 0#4) ∧
    ¬ (w[25] = true ∧ w[21] = true ∧ w.extractLsb' 16 4 = 8#4 ∧ w.extractLsb' 12 4 = 15#4) := by
  simp [reachesTestWithoutS, isTestWithoutS, isExtension, isBranchExchange, isMrs, isMsrReg, isMsrImm,
    extract_extract]
  grind

theorem encodes_decodeTestWithoutS {c : Cond} {w : BitVec 32} (cond : w.extractLsb' 28 4 = condBits c)
    (top : w[27] = false ∧ w[26] = false ∧ w[24] = true ∧ w[23] = false ∧ w[20] = false)
    (extension : w[25] = false → (w[7] && w[4]) = false) : (decodeTestWithoutS c w).Encodes w := by
  have remainder (h : reachesTestWithoutS (w.extractLsb' 0 28) = true) := notDefinedTest_encodes cond h
  rw [reachesTestWithoutS_word] at remainder
  simp only [decodeTestWithoutS, Bool.and_eq_true, Bool.not_eq_true', beq_iff_eq]
  split
  case isTrue h25 =>
    split
    · exact ⟨rfl, (encode_msrFlgImm_iff ..).2 (by simp_all)⟩
    · exact remainder (by grind)
  case isFalse h25 =>
    split
    case isTrue h21 =>
      split
      · exact ⟨rfl, (msr_word_iff ..).2 (by simp_all)⟩
      · split
        · exact ⟨rfl, (msr_word_iff ..).2 (by simp_all)⟩
        · split
          · exact ⟨rfl, (encode_bx_iff ..).2 (by simp_all)⟩
          · exact remainder (by grind)
    case isFalse h21 =>
      split
      · exact ⟨rfl, (encode_mrs_iff ..).2 (by simp_all)⟩
      · exact remainder (by grind)

theorem encodes_decodeCoprocTransfer {c : Cond} {w : BitVec 32} (cond : w.extractLsb' 28 4 = condBits c)
    (top : w[27] = true ∧ w[26] = true ∧ w[25] = false) : (decodeCoprocTransfer c w).Encodes w := by
  unfold decodeCoprocTransfer
  split
  · exact ⟨rfl, (coproc_transfer_word_iff ..).2 (by simp_all)⟩
  · exact ⟨rfl, (coproc_transfer_word_iff ..).2 (by simp_all)⟩

theorem encodes_decodeCoprocOrSwi {c : Cond} {w : BitVec 32} (cond : w.extractLsb' 28 4 = condBits c)
    (top : w[27] = true ∧ w[26] = true ∧ w[25] = true) : (decodeCoprocOrSwi c w).Encodes w := by
  unfold decodeCoprocOrSwi
  split
  case isTrue h24 => exact ⟨rfl, (encode_swi_iff ..).2 (by simp_all)⟩
  case isFalse h24 =>
    split
    case isTrue h4 =>
      split
      · exact ⟨rfl, (coproc_register_word_iff c true ..).2 (by simp_all)⟩
      · exact ⟨rfl, (coproc_register_word_iff c false ..).2 (by simp_all)⟩
    case isFalse h4 => exact ⟨rfl, (encode_cdp_iff ..).2 (by simp_all)⟩

theorem encodes_decodeConditional {c : Cond} {w : BitVec 32} (cond : w.extractLsb' 28 4 = condBits c) :
    (decodeConditional c w).Encodes w := by
  unfold decodeConditional
  split
  case h_1 h27 h26 h25 =>
    split
    case isTrue ext =>
      obtain ⟨h7, h4⟩ := Bool.and_eq_true_iff.1 ext
      exact encodes_decodeExtension cond ⟨h27, h26, h25⟩ h7 h4
    case isFalse ext =>
      split
      · exact encodes_decodeTestWithoutS cond (by simp_all) fun _ => by simpa using ext
      case isFalse test => exact encodes_decodeDataProcessing cond h27 h26 (fun _ => by simpa using ext) (by simpa using test)
  case h_2 h27 h26 h25 =>
    have imm : w[25] = false → (w[7] && w[4]) = false := by simp [h25]
    split
    · exact encodes_decodeTestWithoutS cond (by simp_all) imm
    case isFalse test => exact encodes_decodeDataProcessing cond h27 h26 imm (by simpa using test)
  case h_3 h27 h26 h25 => exact encodes_decodeSingleTransfer cond h27 h26 (by simp [h25])
  case h_4 h27 h26 h25 =>
    split
    · exact ⟨rfl, (encode_undefined_iff ..).2 (by simp_all)⟩
    case isFalse h4 => exact encodes_decodeSingleTransfer cond h27 h26 fun _ => by simpa using h4
  case h_5 h27 h26 h25 => exact encodes_decodeBlockTransfer cond h27 h26 h25
  case h_6 h27 h26 h25 =>
    split
    · exact ⟨rfl, (branch_word_iff c true ..).2 (by simp_all)⟩
    · exact ⟨rfl, (branch_word_iff c false ..).2 (by simp_all)⟩
  case h_7 h27 h26 h25 => exact encodes_decodeCoprocTransfer cond ⟨h27, h26, h25⟩
  case h_8 h27 h26 h25 => exact encodes_decodeCoprocOrSwi cond ⟨h27, h26, h25⟩

theorem encodes_decodeArm (w : BitVec 32) : (decodeArm w).Encodes w := by
  unfold decodeArm
  split
  case h_1 none =>
    have reserved : w.extractLsb' 28 4 = 15#4 := condOf_eq_none none
    exact ⟨rfl, by rw [encode, Code.arm.injEq, cat_eq_iff _ _ _ rfl]; exact ⟨reserved, rfl⟩⟩
  case h_2 c some => exact encodes_decodeConditional (condBits_of_condOf some).symm

/-! ### From a halfword to its instruction and back -/

/-- The instruction is well formed and `h` its encoding. -/
def Instr.EncodesHalf (i : Instr) (h : Half) : Prop :=
  i.wf = true ∧ encode i = .thumb h

theorem encodes_decodeShiftAdd {h : Half} (top : h[15] = false ∧ h[14] = false ∧ h[13] = false) :
    (decodeShiftAdd h).EncodesHalf h := by
  unfold decodeShiftAdd
  split
  case h_1 | h_2 | h_3 => exact ⟨rfl, (encodeT5_iff ..).2 (by simp_all [extract_eq_ofNat, Fin.forall_fin_succ])⟩
  case h_4 =>
    dsimp only
    split
    all_goals exact ⟨rfl, (encodeT7_iff ..).2 (by simp_all [extract_eq_ofNat, Fin.forall_fin_succ])⟩

theorem encodes_decodeImmediate {h : Half} (top : h[15] = false ∧ h[14] = false ∧ h[13] = true) :
    (decodeImmediate h).EncodesHalf h := by
  unfold decodeImmediate
  split
  all_goals exact ⟨rfl, (encodeT58_iff ..).2 (by simp_all [extract_eq_ofNat, Fin.forall_fin_succ])⟩

theorem encodes_decodeAlu {h : Half} (top : h.extractLsb' 10 6 = 16#6) : (decodeAlu h).EncodesHalf h := by
  unfold decodeAlu
  split
  all_goals
    refine ⟨rfl, (encodeAlu_iff ..).2 ⟨top, ?_, rfl, rfl⟩⟩
    simp_all [extract_eq_ofNat, Fin.forall_fin_succ]

theorem encodes_decodeHiRegister {h : Half} (top : h.extractLsb' 10 6 = 17#6) :
    (decodeHiRegister h).EncodesHalf h := by
  obtain ⟨h1, low⟩ := (hi_field_iff _ h).1 rfl
  unfold decodeHiRegister
  split
  case h_1 h9 h8 | h_2 h9 h8 | h_3 h9 h8 =>
    refine ⟨rfl, (encodeHi_iff ..).2 ⟨top, ?_, h1, rfl, low⟩⟩
    simp [extract_eq_ofNat, Fin.forall_fin_succ, h9, h8]
  case h_4 h9 h8 =>
    refine ⟨rfl, (encodeHi_iff ..).2 ⟨top, ?_, rfl, rfl, rfl⟩⟩
    simp [extract_eq_ofNat, Fin.forall_fin_succ, h9, h8]

theorem encodes_decodeRegisterOffset {h : Half}
    (top : h[15] = false ∧ h[14] = true ∧ h[13] = false ∧ h[12] = true) :
    (decodeRegisterOffset h).EncodesHalf h := by
  unfold decodeRegisterOffset
  split
  all_goals exact ⟨rfl, (encodeT7_iff ..).2 (by simp_all [extract_eq_ofNat, Fin.forall_fin_succ])⟩

theorem encodes_decodeImmediateOffset {h : Half} (top : h[15] = false ∧ h[14] = true ∧ h[13] = true) :
    (decodeImmediateOffset h).EncodesHalf h := by
  unfold decodeImmediateOffset
  split
  all_goals exact ⟨rfl, (encodeT5_iff ..).2 (by simp_all [extract_eq_ofNat, Fin.forall_fin_succ])⟩

theorem encodes_decodeMiscellaneous {h : Half}
    (top : h[15] = true ∧ h[14] = false ∧ h[13] = true ∧ h[12] = true) :
    (decodeMiscellaneous h).EncodesHalf h := by
  unfold decodeMiscellaneous
  split
  case h_1 =>
    split
    case isTrue => exact ⟨rfl, (head_iff _ _ _ rfl).2 (by simp_all [extract_eq_ofNat, Fin.forall_fin_succ])⟩
    case isFalse =>
      split
      all_goals exact ⟨rfl, (head_iff _ _ _ rfl).2 (by simp_all [extract_eq_ofNat, Fin.forall_fin_succ])⟩
  case h_3 | h_6 =>
    split
    all_goals exact ⟨rfl, (head_iff _ _ _ rfl).2 (by simp_all [extract_eq_ofNat, Fin.forall_fin_succ])⟩
  case h_2 | h_4 | h_5 | h_7 =>
    exact ⟨rfl, (head_iff _ _ _ rfl).2 (by simp_all [extract_eq_ofNat, Fin.forall_fin_succ])⟩

theorem encodes_decodeConditionalBranch {h : Half}
    (top : h[15] = true ∧ h[14] = true ∧ h[13] = false ∧ h[12] = true) :
    (decodeConditionalBranch h).EncodesHalf h := by
  unfold decodeConditionalBranch
  split
  all_goals exact ⟨rfl, (head_iff _ _ _ rfl).2 (by simp_all [extract_eq_ofNat, Fin.forall_fin_succ])⟩

theorem encodes_decodeThumb (h : Half) : (decodeThumb h).EncodesHalf h := by
  unfold decodeThumb
  split
  case h_1 h15 h14 h13 => exact encodes_decodeShiftAdd ⟨h15, h14, h13⟩
  case h_2 h15 h14 h13 => exact encodes_decodeImmediate ⟨h15, h14, h13⟩
  case h_3 =>
    split
    · exact ⟨rfl, (encodeT58_iff ..).2 (by simp_all [extract_eq_ofNat, Fin.forall_fin_succ])⟩
    · split
      · exact encodes_decodeHiRegister (by simp_all [extract_eq_ofNat, Fin.forall_fin_succ])
      · exact encodes_decodeAlu (by simp_all [extract_eq_ofNat, Fin.forall_fin_succ])
  case h_4 h15 h14 h13 h12 => exact encodes_decodeRegisterOffset ⟨h15, h14, h13, h12⟩
  case h_5 h15 h14 h13 => exact encodes_decodeImmediateOffset ⟨h15, h14, h13⟩
  case h_6 =>
    split
    all_goals exact ⟨rfl, (encodeT5_iff ..).2 (by simp_all [extract_eq_ofNat, Fin.forall_fin_succ])⟩
  case h_7 | h_8 | h_10 =>
    split
    all_goals exact ⟨rfl, (encodeT58_iff ..).2 (by simp_all [extract_eq_ofNat, Fin.forall_fin_succ])⟩
  case h_9 h15 h14 h13 h12 => exact encodes_decodeMiscellaneous ⟨h15, h14, h13, h12⟩
  case h_11 h15 h14 h13 h12 => exact encodes_decodeConditionalBranch ⟨h15, h14, h13, h12⟩
  case h_12 | h_13 =>
    split
    all_goals exact ⟨rfl, (head_iff _ _ _ rfl).2 (by simp_all [extract_eq_ofNat, Fin.forall_fin_succ])⟩

/-- Settles O4: the decoder's branches one by one, each against the fields of its row's encoding. -/
theorem encodeOfDecode : Obligations.EncodeOfDecode :=
  ⟨encodes_decodeArm, encodes_decodeThumb⟩

end Sys2Proof
end
section
/-!
SUPPORT. Decoding after encoding: the decoder takes the word of each shape to the row of that shape, and the row's
fields are those the instruction was built from.
-/

namespace Sys2Proof

/-! ### From an ARM instruction to its word and back -/

theorem decodeArm_of_cond {c : Cond} {w : BitVec 32} (cond : w.extractLsb' 28 4 = condBits c) :
    decodeArm w = decodeConditional c w := by
  simp only [decodeArm, cond, condOf_condBits]

theorem decodeArm_dp {c : Cond} {o3 o2 o1 o0 s : Bool} {rn rd : RegNo} {op2 : Operand2} {w : BitVec 32}
    (h : encodeDp c o3 o2 o1 o0 s rn rd op2 = .arm w) (test : (o3 && !o2 && !s) = false) :
    decodeArm w = decodeDataProcessing c w := by
  obtain ⟨cond, ⟨h27, h26, h24⟩, ⟨h23, -, -, h20⟩, -, -, -, operand⟩ := (encodeDp_iff ..).1 h
  rw [← h24, ← h23, ← h20] at test
  rw [decodeArm_of_cond cond]
  cases h25 : w[25] with
  | false => simp [decodeConditional, h27, h26, h25, operand h25, test]
  | true => simp [decodeConditional, h27, h26, h25, test]

theorem decodeArm_extension {c : Cond} {w : BitVec 32} (cond : w.extractLsb' 28 4 = condBits c)
    (top : w[27] = false ∧ w[26] = false ∧ w[25] = false) (h7 : w[7] = true) (h4 : w[4] = true) :
    decodeArm w = decodeExtension c w := by
  obtain ⟨h27, h26, h25⟩ := top
  simp [decodeArm_of_cond cond, decodeConditional, h27, h26, h25, h7, h4]

theorem decodeArm_mul {c : Cond} {b23 b22 b21 s : Bool} {r19 r15 r11 r3 : RegNo} {w : BitVec 32}
    (h : encodeMul c b23 b22 b21 s r19 r15 r11 r3 = .arm w) : decodeArm w = decodeMultiply c w := by
  obtain ⟨cond, ⟨h27, h26, h25, -⟩, -, -, -, -, ⟨h7, h6, h5, h4⟩, -⟩ := (encodeMul_iff ..).1 h
  simp [decodeArm_extension cond ⟨h27, h26, h25⟩ h7 h4, decodeExtension, h6, h5]

theorem decodeArm_halfReg {c : Cond} {p u b l s h : Bool} {rn rd rm : RegNo} {w : BitVec 32}
    (e : encodeHalfReg c p u b l s h rn rd rm = .arm w) (sh : (s || h) = true) :
    decodeArm w = decodeHalfwordReg c w := by
  obtain ⟨cond, ⟨h27, h26, h25, -⟩, ⟨-, h22, -, -⟩, -, -, zero, ⟨h7, h6, h5, h4⟩, -⟩ := (encodeHalfReg_iff ..).1 e
  rw [← h6, ← h5] at sh
  simp [decodeArm_extension cond ⟨h27, h26, h25⟩ h7 h4, decodeExtension, sh, h22, zero]

theorem decodeArm_halfImm {c : Cond} {p u b l s h : Bool} {rn rd : RegNo} {off : BitVec 8} {w : BitVec 32}
    (e : encodeHalfImm c p u b l s h rn rd off = .arm w) (sh : (s || h) = true) :
    decodeArm w = decodeHalfwordImm c w := by
  obtain ⟨cond, ⟨h27, h26, h25, -⟩, ⟨-, h22, -, -⟩, -, -, ⟨h7, h6, h5, h4⟩, -⟩ := (encodeHalfImm_iff ..).1 e
  rw [← h6, ← h5] at sh
  simp [decodeArm_extension cond ⟨h27, h26, h25⟩ h7 h4, decodeExtension, sh, h22]

theorem decodeArm_single {c : Cond} {p u b wb l : Bool} {rn rd : RegNo} {off : Offset} {w : BitVec 32}
    (h : encodeSingle c p u b wb l rn rd off = .arm w) : decodeArm w = decodeSingleTransfer c w := by
  obtain ⟨cond, ⟨h27, h26, -⟩, -, -, -, -, reg⟩ := (encodeSingle_iff ..).1 h
  rw [decodeArm_of_cond cond]
  cases h25 : w[25] with
  | false => simp [decodeConditional, h27, h26, h25]
  | true => simp [decodeConditional, h27, h26, h25, reg h25]

theorem decodeArm_block {c : Cond} {p u sb wb l : Bool} {rn : RegNo} {list : BitVec 16} {w : BitVec 32}
    (h : encodeBlock c p u sb wb l rn list = .arm w) : decodeArm w = decodeBlockTransfer c w := by
  obtain ⟨cond, ⟨h27, h26, h25, -⟩, -⟩ := (encodeBlock_iff ..).1 h
  simp [decodeArm_of_cond cond, decodeConditional, h27, h26, h25]

theorem decodeArm_test {c : Cond} {w : BitVec 32} (cond : w.extractLsb' 28 4 = condBits c)
    (top : w[27] = false ∧ w[26] = false ∧ w[24] = true ∧ w[23] = false ∧ w[20] = false)
    (extension : w[25] = false → (w[7] && w[4]) = false) : decodeArm w = decodeTestWithoutS c w := by
  obtain ⟨h27, h26, h24, h23, h20⟩ := top
  rw [decodeArm_of_cond cond]
  cases h25 : w[25] with
  | false => simp [decodeConditional, h27, h26, h25, h24, h23, h20, extension h25]
  | true => simp [decodeConditional, h27, h26, h25, h24, h23, h20]

theorem indexOf_bits (ix : Index) :
    (!ix.p && ix.w) = false ∧ (if ix.p then Index.pre ix.w else Index.post) = ix := by
  cases ix with
  | pre writeback => exact ⟨rfl, rfl⟩
  | post => exact ⟨rfl, rfl⟩

theorem bit7_of_nibble {w : BitVec 32} {v : Nat} (field : w.extractLsb' 4 4 = BitVec.ofNat 4 v) (small : v < 8) :
    (w[7] && w[4]) = false := by
  have bit := (extract_eq_ofNat ..).1 field 3
  simp at bit
  simp [bit, Nat.div_eq_of_lt small]

theorem decodeArm_notDefinedExtension {c : Cond} {bits : BitVec 28} {w : BitVec 32} (wf : reachesExtension bits = true)
    (h : encode (.notDefinedExtension c bits) = .arm w) : decodeArm w = .notDefinedExtension c bits := by
  obtain ⟨cond, rfl⟩ := (cat_eq_iff _ _ _ rfl).1 (Code.arm.inj h)
  obtain ⟨⟨h27, h26, h25, h7, h4⟩, half, other⟩ := (reachesExtension_word w).1 wf
  rw [decodeArm_extension cond ⟨h27, h26, h25⟩ h7 h4, decodeExtension]
  split
  case isTrue sh =>
    obtain ⟨h22, field⟩ := half (by simpa using sh)
    simp [h22, field]
  case isFalse sh =>
    have other := other (by simpa using sh)
    unfold decodeMultiply
    split <;> grind

theorem decodeArm_notDefinedTest {c : Cond} {bits : BitVec 28} {w : BitVec 32} (wf : reachesTestWithoutS bits = true)
    (h : encode (.notDefinedTest c bits) = .arm w) : decodeArm w = .notDefinedTest c bits := by
  obtain ⟨cond, rfl⟩ := (cat_eq_iff _ _ _ rfl).1 (Code.arm.inj h)
  obtain ⟨top, ext, bx, mrs, msr, msrImm⟩ := (reachesTestWithoutS_word w).1 wf
  rw [decodeArm_test cond top (by grind)]
  simp only [decodeTestWithoutS, Bool.and_eq_true, Bool.not_eq_true', beq_iff_eq]
  grind

theorem head7_bits {h : Half} {v : Nat} (op : h.extractLsb' 9 7 = BitVec.ofNat 7 v) :
    h[15] = decide (v / 64 % 2 = 1) ∧ h[14] = decide (v / 32 % 2 = 1) ∧ h[13] = decide (v / 16 % 2 = 1) ∧
      h[12] = decide (v / 8 % 2 = 1) ∧ h[11] = decide (v / 4 % 2 = 1) ∧ h[10] = decide (v / 2 % 2 = 1) ∧
      h[9] = decide (v % 2 = 1) := by
  simp [extract_eq_ofNat, Fin.forall_fin_succ] at op
  simp [op]

theorem head5_bits {h : Half} {v : Nat} (op : h.extractLsb' 11 5 = BitVec.ofNat 5 v) :
    h[15] = decide (v / 16 % 2 = 1) ∧ h[14] = decide (v / 8 % 2 = 1) ∧ h[13] = decide (v / 4 % 2 = 1) ∧
      h[12] = decide (v / 2 % 2 = 1) ∧ h[11] = decide (v % 2 = 1) := by
  simp [extract_eq_ofNat, Fin.forall_fin_succ] at op
  simp [op]

/-- Each group of instructions of one shape goes through the fields of that shape's word. -/
theorem decodeArm_of_encode {i : Instr} {w : BitVec 32} (wf : i.wf = true) (h : encode i = .arm w) :
    decodeArm w = i := by
  cases i
  case reservedCondition bits =>
    obtain ⟨cond, rfl⟩ := (cat_eq_iff _ _ _ rfl).1 (Code.arm.inj h)
    rw [decodeArm, cond]
    rfl
  case notDefinedExtension c bits => exact decodeArm_notDefinedExtension wf h
  case notDefinedTest c bits => exact decodeArm_notDefinedTest wf h
  case mul | mla | umull | umlal | smull | smlal =>
    refine (decodeArm_mul h).trans ?_
    obtain ⟨-, ⟨-, -, -, h24⟩, ⟨h23, h22, h21, h20⟩, f19, f15, f11, -, f3⟩ := (encodeMul_iff ..).1 h
    simp only [decodeMultiply, h24, h23, h22, h21, h20, f19, f15, f11, f3]
  case swp =>
    obtain ⟨cond, ⟨h27, h26, h25, h24⟩, ⟨h23, h22, h21, h20⟩, rn, rd, zero, ⟨h7, h6, h5, h4⟩, rm⟩ := (encode_swp_iff ..).1 h
    simp [decodeArm_extension cond ⟨h27, h26, h25⟩ h7 h4, decodeExtension, h6, h5, decodeMultiply, h24, h23, h22, h21,
      h20, rn, rd, zero, rm]
  case swpb =>
    obtain ⟨cond, ⟨h27, h26, h25, h24⟩, ⟨h23, h22, h21, h20⟩, rn, rd, zero, ⟨h7, h6, h5, h4⟩, rm⟩ := (encode_swpb_iff ..).1 h
    simp [decodeArm_extension cond ⟨h27, h26, h25⟩ h7 h4, decodeExtension, h6, h5, decodeMultiply, h24, h23, h22, h21,
      h20, rn, rd, zero, rm]
  case strhReg | ldrhReg | ldrsbReg | ldrshReg | signedStoreByteReg | signedStoreHalfReg =>
    refine (decodeArm_halfReg h rfl).trans ?_
    obtain ⟨-, ⟨-, -, -, h24⟩, ⟨h23, -, h21, h20⟩, rn, rd, -, ⟨-, h6, h5, -⟩, rm⟩ := (encodeHalfReg_iff ..).1 h
    simp [decodeHalfwordReg, h24, h23, h21, h20, h6, h5, rn, rd, rm]
  case strhImm | ldrhImm | ldrsbImm | ldrshImm | signedStoreByteImm | signedStoreHalfImm =>
    refine (decodeArm_halfImm h rfl).trans ?_
    obtain ⟨-, ⟨-, -, -, h24⟩, ⟨h23, -, h21, h20⟩, rn, rd, ⟨-, h6, h5, -⟩, off⟩ := (encodeHalfImm_iff ..).1 h
    simp [decodeHalfwordImm, h24, h23, h21, h20, h6, h5, rn, rd, off]
  case bx =>
    obtain ⟨cond, ⟨h27, h26, h25, h24⟩, ⟨h23, h22, h21, h20⟩, n4, n3, n2, n1, rn⟩ := (encode_bx_iff ..).1 h
    rw [decodeArm_test cond ⟨h27, h26, h24, h23, h20⟩ fun _ => bit7_of_nibble n1 (by decide)]
    simp [decodeTestWithoutS, h25, h22, h21, n4, n3, n2, n1, rn]
  case mrs =>
    obtain ⟨cond, ⟨h27, h26, h25, h24⟩, ⟨h23, h22, h21, h20⟩, n4, rd, n2, n1, n0⟩ := (encode_mrs_iff ..).1 h
    rw [decodeArm_test cond ⟨h27, h26, h24, h23, h20⟩ fun _ => bit7_of_nibble n1 (by decide)]
    simp [decodeTestWithoutS, h25, h22, h21, n4, rd, n2, n1, n0]
  case msr | msrFlg =>
    obtain ⟨cond, ⟨h27, h26, h25, h24⟩, ⟨h23, h22, h21, h20⟩, n4, n3, n2, n1, rm⟩ := (msr_word_iff ..).1 h
    rw [decodeArm_test cond ⟨h27, h26, h24, h23, h20⟩ fun _ => bit7_of_nibble n1 (by decide)]
    simp [decodeTestWithoutS, h25, h22, h21, n4, n3, n2, n1, rm]
  case msrFlgImm =>
    obtain ⟨cond, ⟨h27, h26, h25, h24⟩, ⟨h23, h22, h21, h20⟩, n4, n3, rotate, imm8⟩ := (encode_msrFlgImm_iff ..).1 h
    rw [decodeArm_test cond ⟨h27, h26, h24, h23, h20⟩ (by simp [h25])]
    simp [decodeTestWithoutS, h25, h22, h21, n4, n3, rotate, imm8]
  case and | eor | sub | rsb | add | adc | sbc | rsc | tst | teq | cmp | cmn | orr | mov | bic | mvn =>
    refine (decodeArm_dp h rfl).trans ?_
    obtain ⟨-, ⟨-, -, h24⟩, ⟨h23, h22, h21, h20⟩, rn, rd, operand, -⟩ := (encodeDp_iff ..).1 h
    simp only [decodeDataProcessing, h24, h23, h22, h21, h20, rn, rd, operand]
  case undefined =>
    obtain ⟨cond, ⟨h27, h26, h25⟩, high, h4, low⟩ := (encode_undefined_iff ..).1 h
    simp [decodeArm_of_cond cond, decodeConditional, h27, h26, h25, h4, high, low]
  case ldrt | ldrbt | strt | strbt =>
    refine (decodeArm_single h).trans ?_
    obtain ⟨-, ⟨-, -, h24⟩, ⟨h23, h22, h21, h20⟩, rn, rd, off, -⟩ := (encodeSingle_iff ..).1 h
    simp [decodeSingleTransfer, h24, h23, h22, h21, h20, rn, rd, off]
  case ldr c u ix _ _ _ | ldrb c u ix _ _ _ | str c u ix _ _ _ | strb c u ix _ _ _ =>
    refine (decodeArm_single h).trans ?_
    obtain ⟨-, ⟨-, -, h24⟩, ⟨h23, h22, h21, h20⟩, rn, rd, off, -⟩ := (encodeSingle_iff ..).1 h
    obtain ⟨plain, index⟩ := indexOf_bits ix
    simp only [decodeSingleTransfer, h24, h23, h22, h21, h20, rn, rd, off, plain, index]
    rfl
  case ldmia | ldmib | ldmda | ldmdb | stmia | stmib | stmda | stmdb =>
    refine (decodeArm_block h).trans ?_
    obtain ⟨-, ⟨-, -, -, h24⟩, ⟨h23, h22, h21, h20⟩, rn, list⟩ := (encodeBlock_iff ..).1 h
    simp only [decodeBlockTransfer, h24, h23, h22, h21, h20, rn, list]
  case b c offset =>
    obtain ⟨cond, ⟨h27, h26, h25, h24⟩, off⟩ := (branch_word_iff c false offset w).1 h
    simp [decodeArm_of_cond cond, decodeConditional, h27, h26, h25, h24, off]
  case bl c offset =>
    obtain ⟨cond, ⟨h27, h26, h25, h24⟩, off⟩ := (branch_word_iff c true offset w).1 h
    simp [decodeArm_of_cond cond, decodeConditional, h27, h26, h25, h24, off]
  case stc | ldc =>
    obtain ⟨cond, ⟨h27, h26, h25, h24⟩, ⟨h23, h22, h21, h20⟩, rn, crd, cp, off⟩ := (coproc_transfer_word_iff ..).1 h
    simp [decodeArm_of_cond cond, decodeConditional, h27, h26, h25, decodeCoprocTransfer, h24, h23, h22, h21, h20, rn,
      crd, cp, off]
  case cdp =>
    obtain ⟨cond, ⟨h27, h26, h25, h24⟩, opc, crn, crd, cp, info, h4, crm⟩ := (encode_cdp_iff ..).1 h
    simp [decodeArm_of_cond cond, decodeConditional, h27, h26, h25, decodeCoprocOrSwi, h24, opc, crn, crd, cp, info, h4,
      crm]
  case mcr c opc crn rd cp info crm =>
    obtain ⟨cond, ⟨h27, h26, h25, h24⟩, opc, h20, crn, rd, cp, info, h4, crm⟩ :=
      (coproc_register_word_iff c false opc crn rd cp info crm w).1 h
    simp [decodeArm_of_cond cond, decodeConditional, h27, h26, h25, decodeCoprocOrSwi, h24, opc, h20, crn, rd, cp, info,
      h4, crm]
  case mrc c opc crn rd cp info crm =>
    obtain ⟨cond, ⟨h27, h26, h25, h24⟩, opc, h20, crn, rd, cp, info, h4, crm⟩ :=
      (coproc_register_word_iff c true opc crn rd cp info crm w).1 h
    simp [decodeArm_of_cond cond, decodeConditional, h27, h26, h25, decodeCoprocOrSwi, h24, opc, h20, crn, rd, cp, info,
      h4, crm]
  case swi =>
    obtain ⟨cond, ⟨h27, h26, h25, h24⟩, comment⟩ := (encode_swi_iff ..).1 h
    simp [decodeArm_of_cond cond, decodeConditional, h27, h26, h25, decodeCoprocOrSwi, h24, comment]
  all_goals exact nomatch h

/-! ### From a THUMB instruction to its halfword and back -/

theorem decodeThumb_alu {h : Half} (top : h.extractLsb' 10 6 = 16#6) : decodeThumb h = decodeAlu h := by
  simp [extract_eq_ofNat, Fin.forall_fin_succ] at top
  simp [decodeThumb, top]

theorem decodeThumb_hi {h : Half} (top : h.extractLsb' 10 6 = 17#6) : decodeThumb h = decodeHiRegister h := by
  simp [extract_eq_ofNat, Fin.forall_fin_succ] at top
  simp [decodeThumb, top]

theorem decodeThumb_conditional {h : Half} (h15 : h[15] = true) (h14 : h[14] = true) (h13 : h[13] = false) (h12 : h[12] = true) :
    decodeThumb h = decodeConditionalBranch h := by
  simp [decodeThumb, h15, h14, h13, h12]

/-- The top bits of a halfword, from the number they make. -/
theorem head8_bits {h : Half} {v : Nat} (op : h.extractLsb' 8 8 = BitVec.ofNat 8 v) :
    h[15] = decide (v / 128 % 2 = 1) ∧ h[14] = decide (v / 64 % 2 = 1) ∧ h[13] = decide (v / 32 % 2 = 1) ∧
      h[12] = decide (v / 16 % 2 = 1) ∧ h[11] = decide (v / 8 % 2 = 1) ∧ h[10] = decide (v / 4 % 2 = 1) ∧
      h[9] = decide (v / 2 % 2 = 1) ∧ h[8] = decide (v % 2 = 1) := by
  simp [extract_eq_ofNat, Fin.forall_fin_succ] at op
  simp [op]

/-- Each group of instructions of one shape goes through the fields of that shape's halfword. -/
theorem decodeThumb_of_encode {i : Instr} {h : Half} (e : encode i = .thumb h) : decodeThumb h = i := by
  cases i
  case tLslImm | tLsrImm | tAsrImm | tStrImm | tLdrImm | tStrbImm | tLdrbImm | tStrhImm | tLdrhImm =>
    obtain ⟨op, off, rs, rd⟩ := (encodeT5_iff ..).1 e
    obtain ⟨h15, h14, h13, h12, h11⟩ := head5_bits op
    simp [decodeThumb, h15, h14, h13, decodeShiftAdd, decodeImmediateOffset, h12, h11, off, rs, rd]
  case tAddReg | tSubReg | tAddImm3 | tSubImm3 | tStrReg | tStrbReg | tLdrReg | tLdrbReg | tStrhReg | tLdsbReg | tLdrhReg | tLdshReg =>
    obtain ⟨op, r8, rs, rd⟩ := (encodeT7_iff ..).1 e
    obtain ⟨h15, h14, h13, h12, h11, h10, h9⟩ := head7_bits op
    simp [decodeThumb, h15, h14, h13, h12, decodeShiftAdd, decodeRegisterOffset, h11, h10, h9, r8, rs, rd]
  case tMovImm | tCmpImm | tAddImm | tSubImm | tLdrPc | tStrSp | tLdrSp | tAddPc | tAddSp | tStmia | tLdmia =>
    obtain ⟨op, rd, low8⟩ := (encodeT58_iff ..).1 e
    obtain ⟨h15, h14, h13, h12, h11⟩ := head5_bits op
    simp [decodeThumb, h15, h14, h13, decodeImmediate, h12, h11, rd, low8]
  case tAnd | tEor | tLsl | tLsr | tAsr | tAdc | tSbc | tRor | tTst | tNeg | tCmp | tCmn | tOrr | tMul | tBic | tMvn =>
    obtain ⟨top, op, rs, rd⟩ := (encodeAlu_iff ..).1 e
    simp [extract_eq_ofNat, Fin.forall_fin_succ] at op
    simp [decodeThumb_alu top, decodeAlu, op, rs, rd]
  case tAddHi | tCmpHi | tMovHi =>
    obtain ⟨top, op, h1, hs, low⟩ := (encodeHi_iff ..).1 e
    have hd := (hi_field_iff ..).2 ⟨h1, low⟩
    simp [extract_eq_ofNat, Fin.forall_fin_succ] at op
    simp [decodeThumb_hi top, decodeHiRegister, op, hs, hd]
  case tBx =>
    obtain ⟨top, op, h1, hs, low⟩ := (encodeHi_iff ..).1 e
    simp [extract_eq_ofNat, Fin.forall_fin_succ] at op
    simp [decodeThumb_hi top, decodeHiRegister, op, h1, hs, low]
  case tSpPlus | tSpMinus | tPush | tPushLr | tPop | tPopPc | tFreeB1 | tFreeB2 | tFreeB6 | tFreeB8 | tFreeBE =>
    obtain ⟨op, low⟩ := (head_iff _ _ _ rfl).1 e
    simp [extract_eq_ofNat, Fin.forall_fin_succ] at op
    simp [decodeThumb, decodeMiscellaneous, op, low]
  case tBeq | tBne | tBcs | tBcc | tBmi | tBpl | tBvs | tBvc | tBhi | tBls | tBge | tBlt | tBgt | tBle | tCond1110 | tSwi =>
    obtain ⟨op, low⟩ := (head_iff _ _ _ rfl).1 e
    obtain ⟨h15, h14, h13, h12, h11, h10, h9, h8⟩ := head8_bits op
    simp [decodeThumb_conditional h15 h14 h13 h12, decodeConditionalBranch, h11, h10, h9, h8, low]
  case tB | tBlFirst | tBlSecond | tFreeE8 =>
    obtain ⟨op, low⟩ := (head_iff _ _ _ rfl).1 e
    simp [extract_eq_ofNat, Fin.forall_fin_succ] at op
    simp [decodeThumb, op, low]
  all_goals exact nomatch e

/-- Settles O3. -/
theorem decodeOfEncode : Obligations.DecodeOfEncode := by
  intro i wf
  cases code : encode i with
  | arm w => exact decodeArm_of_encode wf code
  | thumb h => exact decodeThumb_of_encode code

end Sys2Proof
end
section
/-!
SUPPORT. Block transfers as the statements speak of them: the eight ARM forms as one operation each, what the loads of a
block leave, and how an aborted block load ends.
-/

namespace Sys2Proof.Machine

/-- Settles O31. -/
theorem listOrder : Obligations.ListOrder := by
  intro list
  refine ⟨mem_regList list, regList_pairwise list, fun bit15 => ?_⟩
  have last : PC ∈ regList list := (mem_regList list PC).2 bit15
  obtain ⟨k, hk, e⟩ := List.mem_iff_getElem.1 last
  have end_of_list : ¬ k + 1 < (regList list).length := fun more =>
    regList_ne_pc (List.getElem?_eq_some_iff.2 ⟨hk, e⟩) more rfl
  rw [List.getLast?_eq_getElem?, show (regList list).length - 1 = k by omega]
  exact List.getElem?_eq_some_iff.2 ⟨hk, e⟩

/-! ### The forms -/

theorem exec_multipleLoad {x : (Cond → Bool → Bool → RegNo → BitVec 16 → Instr) × (Word → Word → Word) × (Word → Word → Word)}
    (hx : x ∈ multipleLoads) : ∃ p u,
      (∀ c sb w rn list s, exec (x.1 c sb w rn list) s = whenPassed c s (s.blockLdm p u sb w rn list))
      ∧ (∀ base list, x.2.1 base (BitVec.ofNat 32 (4 * (regList list).length)) = blockStart p u base list)
      ∧ ∀ base list, x.2.2 base (BitVec.ofNat 32 (4 * (regList list).length)) = blockFinal u base list := by
  simp only [multipleLoads, List.mem_cons, List.not_mem_nil, or_false] at hx
  obtain rfl | rfl | rfl | rfl := hx
  · exact ⟨false, true, fun _ _ _ _ _ _ => rfl, fun _ _ => rfl, fun _ _ => rfl⟩
  · exact ⟨true, true, fun _ _ _ _ _ _ => rfl, fun _ _ => rfl, fun _ _ => rfl⟩
  · exact ⟨false, false, fun _ _ _ _ _ _ => rfl, fun _ _ => rfl, fun _ _ => rfl⟩
  · exact ⟨true, false, fun _ _ _ _ _ _ => rfl, fun _ _ => rfl, fun _ _ => rfl⟩

theorem exec_multipleStore {x : (Cond → Bool → Bool → RegNo → BitVec 16 → Instr) × (Word → Word → Word) × (Word → Word → Word)}
    (hx : x ∈ multipleStores) : ∃ p u,
      (∀ c sb w rn list s, exec (x.1 c sb w rn list) s = whenPassed c s (s.blockStm p u sb w rn list))
      ∧ (∀ base list, x.2.1 base (BitVec.ofNat 32 (4 * (regList list).length)) = blockStart p u base list)
      ∧ ∀ base list, x.2.2 base (BitVec.ofNat 32 (4 * (regList list).length)) = blockFinal u base list := by
  simp only [multipleStores, List.mem_cons, List.not_mem_nil, or_false] at hx
  obtain rfl | rfl | rfl | rfl := hx
  · exact ⟨false, true, fun _ _ _ _ _ _ => rfl, fun _ _ => rfl, fun _ _ => rfl⟩
  · exact ⟨true, true, fun _ _ _ _ _ _ => rfl, fun _ _ => rfl, fun _ _ => rfl⟩
  · exact ⟨false, false, fun _ _ _ _ _ _ => rfl, fun _ _ => rfl, fun _ _ => rfl⟩
  · exact ⟨true, false, fun _ _ _ _ _ _ => rfl, fun _ _ => rfl, fun _ _ => rfl⟩

/-- What a block transfer without S allows (R313, R323). -/
theorem blockRefusal_plain {load w : Bool} {rn : RegNo} {list : BitVec 16} {mode : Mode} (nonempty : list ≠ 0) (base : rn ≠ PC) :
    blockRefusal load false w rn list mode = none := by
  rw [blockRefusal, if_neg nonempty, if_neg base]
  simp [userBank]

theorem blockRefusal_userBank {load w : Bool} {rn : RegNo} {list : BitVec 16} {mode : Mode} (nonempty : list ≠ 0) (base : rn ≠ PC)
    (mode_ne : mode ≠ .usr) (user : userBank load true list = true) :
    blockRefusal load true w rn list mode = if w then some .userBankWriteback else none := by
  have privileged : mode.privileged = true := by
    rw [← Bool.not_eq_false]
    exact mt (Mode.privileged_eq_false _).mp mode_ne
  have no_return : load = true → list[15] = false := by
    simpa [userBank, imp_iff_not_or] using user
  rw [blockRefusal, if_neg nonempty, if_neg base]
  cases load with
  | false => simp [privileged, user]
  | true => simp [privileged, user, no_return rfl]

theorem State.transferBank_plain (s : State) (load : Bool) (list : BitVec 16) : s.transferBank load false list = s.cpsr.mode := by
  simp [State.transferBank, userBank]

theorem State.transferBank_user {s : State} {load sb : Bool} {list : BitVec 16} (user : userBank load sb list = true) :
    s.transferBank load sb list = .usr := by
  simp [State.transferBank, user]

/-! ### The registers a block load leaves -/

/-- The register file `g` after the loads of a list from `start` on: the loaded registers of `bank` hold their words, the
others what they held before them, the base written back where asked. -/
structure State.BlockRegs (s : State) (g : Regs) (bank : Mode) (rn : RegNo) (w : Bool) (start final : Word) (list : BitVec 16) : Prop where
  loaded : ∀ k i r, (regList list)[k]? = some i → physReg bank i = some r → g.get r = s.readWord (slot start k)
  kept : ∀ r, (∀ i ∈ regList list, physReg bank i ≠ some r) → g.get r = (if w then s.setReg rn final else s).regs.get r

section
variable {s t : State} {bank : Mode} {rn : RegNo} {w : Bool} {start final : Word} {list : BitVec 16}

theorem State.BlockRegs.blockLoaded (h : s.BlockRegs t.regs bank rn w start final list) : s.BlockLoaded t bank start list := by
  intro k i hk hi
  obtain ⟨r, hr⟩ := physReg_some (m := bank) hi
  rw [State.bankReg_eq hr, h.loaded k i r hk hr]
  exact s.readWord_reads _

theorem State.BlockRegs.keepsBank (h : s.BlockRegs t.regs bank rn false start final list) : s.KeepsBank t bank (regList list) :=
  h.kept

theorem State.BlockRegs.keepsRegs (h : s.BlockRegs t.regs s.cpsr.mode rn w start final list) :
    s.KeepsRegs t (if w then rn :: regList list else regList list) := by
  intro r hr
  cases w with
  | false => exact h.kept r hr
  | true =>
    rw [h.kept r fun i hi => hr i (List.mem_cons_of_mem _ hi)]
    exact s.keepsRegs_setReg rn final r fun i hi => hr i (by simp at hi; simp [hi])

theorem State.BlockRegs.base (h : s.BlockRegs t.regs s.cpsr.mode rn w start final list) (written : w = true) (rn_ne : rn ≠ PC)
    (not_loaded : list.getLsbD rn.toNat = false) : t.bankReg s.cpsr.mode 0 rn = final := by
  obtain ⟨r, hr⟩ := physReg_some (m := s.cpsr.mode) rn_ne
  rw [State.bankReg_eq hr, h.kept r fun i hi e => ?_, if_pos written, State.get_setReg, if_pos hr]
  have same : i = rn := (physReg_inj rn_ne (hr.trans e.symm)).symm
  rw [mem_regList, same, not_loaded] at hi
  cases hi

/-- The loads of a block none of whose words is refused. -/
theorem State.blockLoads_regs (accepted : s.blockAccepted .read start (regList list).length) :
    s.BlockRegs (s.blockLoads bank rn w start final list).regs bank rn w start final list :=
  let ⟨_, _, loaded, kept⟩ := s.blockLoads_accepted bank rn w start final list accepted
  ⟨loaded, kept⟩

end

/-! ### A block load that runs -/

/-- An LDM all of whose words are accepted branches or returns where the list names R15, and else moves on (R316, R317, R319). -/
theorem State.blockLdm_accepted {s : State} {p u sb w : Bool} {rn : RegNo} {list : BitVec 16}
    (allowed : blockRefusal true sb w rn list s.cpsr.mode = none)
    (accepted : s.blockAccepted .read (blockStart p u (s.reg 0 rn) list) (regList list).length) :
    ∃ d g, s.BlockRegs g (s.transferBank true sb list) rn w (blockStart p u (s.reg 0 rn) list) (blockFinal u (s.reg 0 rn) list) list
      ∧ s.blockLdm p u sb w rn list =
        if list.getLsbD 15 then
          let v := s.readWord (slot (blockStart p u (s.reg 0 rn) list) ((regList list).length - 1))
          if sb then State.exceptionReturn { s with draws := d, regs := g } v
          else .next (State.branch { s with draws := d, regs := g } v)
        else .next (State.advance { s with draws := d, regs := g, bankHazard := sb || s.bankHazard }) := by
  obtain ⟨d, after⟩ := s.afterBlock_eq (regList list).length (blockStart p u (s.reg 0 rn) list)
  obtain ⟨completes, target, -, -⟩ := s.blockLoads_accepted (s.transferBank true sb list) rn w (blockStart p u (s.reg 0 rn) list)
    (blockFinal u (s.reg 0 rn) list) list accepted
  refine ⟨d, _, State.blockLoads_regs accepted, ?_⟩
  simp only [State.blockLdm, allowed, State.blockFault_accepted s _ _ _ accepted, after, completes, target, Bool.false_eq_true, if_false]
  cases list.getLsbD 15 <;> rfl

theorem State.thumbLoadMultiple_accepted {s : State} {rb : RegNo} {list : BitVec 16} (nonempty : list ≠ 0)
    (accepted : s.blockAccepted .read (s.reg 4 rb) (regList list).length) :
    ∃ d g, s.BlockRegs g s.cpsr.mode rb true (s.reg 4 rb) (blockFinal true (s.reg 4 rb) list) list
      ∧ s.thumbLoadMultiple rb list =
        .next (if list.getLsbD 15 then
            State.branch { s with draws := d, regs := g } (s.readWord (slot (s.reg 4 rb) ((regList list).length - 1)))
          else State.advance { s with draws := d, regs := g }) := by
  obtain ⟨d, after⟩ := s.afterBlock_eq (regList list).length (s.reg 4 rb)
  obtain ⟨completes, target, -, -⟩ := s.blockLoads_accepted s.cpsr.mode rb true (s.reg 4 rb) (blockFinal true (s.reg 4 rb) list) list accepted
  refine ⟨d, _, State.blockLoads_regs accepted, ?_⟩
  simp only [State.thumbLoadMultiple, nonempty, blockStart, State.blockFault_accepted s _ _ _ accepted, after, completes, target,
    Bool.false_eq_true, if_false]
  cases list.getLsbD 15 <;> rfl

/-! ### A block load that aborts -/

/-- `t` is the data abort taken from a state whose registers are those of `s` but for the base, which holds `final`, and the
registers before the `j`-th, which hold their words (R327, R455). -/
def State.BlockLoadAborted (s t : State) (bank : Mode) (base : PhysReg) (start final : Word) (list : BitVec 16) (j : Nat) : Prop :=
  ∃ g, State.Enters { s with regs := g } t .abt 0x10 (s.pc + 8) s.cpsr.f ∧ s.KeepsMemory t ∧ g.get base = final
    ∧ (∀ k i r, k < j → (regList list)[k]? = some i → physReg bank i = some r → r ≠ base →
        s.Reads .word (slot start k) (s.wordAt (slot start k)) (g.get r))
    ∧ ∀ r, r ≠ base → (∀ k i, k < j → (regList list)[k]? = some i → physReg bank i ≠ some r) → g.get r = s.regs.get r

theorem State.Enters.congr {s u t : State} {mode : Mode} {vector link : Word} {f : Bool} (h : s.Enters t mode vector link f)
    (regs : u.regs = s.regs) (cpsr : u.cpsr = s.cpsr) (spsrs : u.spsrs = s.spsrs) (inputs : u.KeepsInputs s) :
    u.Enters t mode vector link f := by
  obtain ⟨bigend, aborts, ins, memMap⟩ := inputs
  simp only [State.Enters, State.KeepsInputs, regs, cpsr, spsrs, ← bigend, ← aborts, ← ins, ← memMap]
  exact h

theorem State.blockLoadAbort_aborted {s : State} {bank : Mode} {rn : RegNo} {base : PhysReg} {w : Bool} {start final : Word}
    {list : BitVec 16} {j : Nat} (hbase : physReg s.cpsr.mode rn = some base) (hj : j < (regList list).length)
    (before : s.blockAccepted .read start j) (refused : s.aborted .read .word s.privileged (slot start j) = true) (d : Nat) :
    s.BlockLoadAborted
      (State.blockLoadAbort { s with draws := d } rn w final (s.blockLoads bank rn w start final list).regs)
      bank base start (if w then final else s.reg 0 rn) list j := by
  obtain ⟨-, loaded, kept⟩ := s.blockLoads_aborted bank rn w start final list j hj before refused
  have enters := State.blockLoadAbort_enters { s with draws := d } rn w final (s.blockLoads bank rn w start final list).regs
  have restored (r : PhysReg) : (State.setReg { s with regs := (s.blockLoads bank rn w start final list).regs } rn
      (if w then final else s.reg 0 rn)).regs.get r =
      if base = r then (if w then final else s.reg 0 rn) else (s.blockLoads bank rn w start final list).regs.get r := by
    simp only [State.get_setReg, hbase, Option.some.injEq]
  refine ⟨_, ?_, State.keepsMemory_of_mem ?_, (restored base).trans (if_pos rfl), fun k i r hk hi hr hne => ?_, fun r hne hr => ?_⟩
  · exact enters.congr (Regs.ext_get fun r => by simp only [State.get_setReg]; rfl) (by simp) (by simp)
      (by simp [State.KeepsInputs])
  · simp [State.blockLoadAbort]
  · rw [restored, if_neg (Ne.symm hne), loaded k i r hk hi hr]
    exact s.readWord_reads _
  · rw [restored, if_neg (Ne.symm hne), kept r hr]
    cases w with
    | false => rfl
    | true => rw [if_pos rfl, State.get_setReg, hbase, if_neg fun e => hne (Option.some.inj e).symm]

/-! ### The multiple loads -/

/-- Settles O32: without S every list is loaded in the current mode and R15 branches. -/
theorem multipleLoads_spec : Obligations.MultipleLoads := by
  intro x hx s c w rn list passed nonempty rn_ne
  obtain ⟨p, u, form, start, final⟩ := exec_multipleLoad hx
  simp only [form, start, final, whenPassed_true passed]
  intro accepted
  obtain ⟨d, g, regs, run⟩ := State.blockLdm_accepted (u := u) (w := w) (blockRefusal_plain nonempty rn_ne) accepted
  rw [State.transferBank_plain] at regs
  have spec (t : State) (ht : t.regs = g) (cpsr : t.cpsr = s.cpsr) :
      s.BlockLoaded t s.cpsr.mode (blockStart p u (s.reg 0 rn) list) list
      ∧ (w = true → list.getLsbD rn.toNat = false → t.reg 0 rn = blockFinal u (s.reg 0 rn) list)
      ∧ s.KeepsRegs t (if w then rn :: regList list else regList list) := by
    subst ht
    exact ⟨regs.blockLoaded, fun written out => by rw [State.reg, cpsr]; exact regs.base written rn_ne out, regs.keepsRegs⟩
  cases pc : list.getLsbD 15 with
  | true =>
    obtain ⟨loaded, base, kept⟩ := spec (State.branch { s with draws := d, regs := g } _) rfl rfl
    rw [pc] at run
    exact ⟨_, _, run, loaded, s.readWord_reads _, rfl, base, rfl, kept, State.keepsMemory_of_mem rfl, s.keepsSystem_refl⟩
  | false =>
    obtain ⟨loaded, base, kept⟩ := spec (State.advance { s with draws := d, regs := g, bankHazard := false || s.bankHazard }) rfl rfl
    rw [pc] at run
    exact ⟨_, _, run, loaded, s.readWord_reads _, rfl, base, rfl, kept, State.keepsMemory_of_mem rfl, s.keepsSystem_refl⟩

end Sys2Proof.Machine
end
section
/-!
SUPPORT. The statements of the block transfers.
-/

namespace Sys2Proof.Machine

/-! ### Loads with S -/

theorem ne_zero_of_bit15 {list : BitVec 16} (h : list.getLsbD 15 = true) : list ≠ 0 := by
  rintro rfl
  cases h

theorem blockRefusal_return {w : Bool} {rn : RegNo} {list : BitVec 16} {mode : Mode} (pc : list.getLsbD 15 = true) (base : rn ≠ PC) :
    blockRefusal true true w rn list mode =
      if mode = .usr then some .sBitInUserMode else if mode = .sys then some .noSpsr else none := by
  have bit : list[15] = true := pc
  rw [blockRefusal, if_neg (ne_zero_of_bit15 pc), if_neg base]
  simp only [userBank, bit]
  cases mode <;> rfl

/-- Settles O33: with R15 in the list the loads go to the bank of the mode, and the last of them returns with the SPSR. -/
theorem multipleLoadReturn : Obligations.MultipleLoadReturn := by
  intro x hx s c w rn list passed pc rn_ne
  obtain ⟨p, u, form, start, final⟩ := exec_multipleLoad hx
  simp only [form, start, final, whenPassed_true passed]
  have returns {psr : Psr} (spsr : s.spsr = some psr)
      (accepted : s.blockAccepted .read (blockStart p u (s.reg 0 rn) list) (regList list).length) :
      ∃ d g, s.BlockRegs g s.cpsr.mode rn w (blockStart p u (s.reg 0 rn) list) (blockFinal u (s.reg 0 rn) list) list
        ∧ s.blockLdm p u true w rn list = State.exceptionReturn { s with draws := d, regs := g }
            (s.readWord (slot (blockStart p u (s.reg 0 rn) list) ((regList list).length - 1))) := by
    have not_usr : s.cpsr.mode ≠ .usr := State.ne_usr_of_spsr spsr
    have not_sys : s.cpsr.mode ≠ .sys := fun sys => by rw [State.spsr_usr_sys (.inr sys)] at spsr; cases spsr
    have allowed : blockRefusal true true w rn list s.cpsr.mode = none := by
      rw [blockRefusal_return pc rn_ne, if_neg not_usr, if_neg not_sys]
    have bank : s.transferBank true true list = s.cpsr.mode := by
      have bit : list[15] = true := pc
      simp [State.transferBank, userBank, bit]
    obtain ⟨d, g, regs, run⟩ := State.blockLdm_accepted (u := u) (w := w) allowed accepted
    rw [pc, if_pos rfl] at run
    exact ⟨d, g, bank ▸ regs, run⟩
  refine ⟨fun psr k spsr legal accepted => ?returns, fun psr spsr illegal accepted => ?illegal, fun usr => ?usr, fun sys => ?sys⟩
  case returns =>
    obtain ⟨d, g, regs, run⟩ := returns spsr accepted
    refine ⟨_, _, run.trans (State.exceptionReturn_some (s := { s with draws := d, regs := g }) spsr legal _),
      State.BlockRegs.blockLoaded regs, s.readWord_reads _, rfl, rfl, fun written out => ?_, State.BlockRegs.keepsRegs regs,
      State.keepsMemory_of_mem rfl, s.keepsSystem_refl⟩
    exact State.BlockRegs.base regs written rn_ne out
  case illegal =>
    obtain ⟨d, g, -, run⟩ := returns spsr accepted
    exact run.trans (State.exceptionReturn_illegal (s := { s with draws := d, regs := g }) spsr illegal _)
  case usr => simp [State.blockLdm, blockRefusal_return pc rn_ne, usr]
  case sys => simp [State.blockLdm, blockRefusal_return pc rn_ne, sys]

/-- Settles O34: the bank table by its fifteen columns; without R15 a load with S is that of the User bank. -/
theorem multipleLoadUserBank : Obligations.MultipleLoadUserBank := by
  refine ⟨by decide, ?_⟩
  intro x hx s c rn list passed nonempty no_pc rn_ne mode
  obtain ⟨p, u, form, start, final⟩ := exec_multipleLoad hx
  simp only [form, start, whenPassed_true passed]
  have user : userBank true true list = true := by
    have bit : list[15] = false := no_pc
    simp [userBank, bit]
  have refusal (w : Bool) := blockRefusal_userBank (w := w) nonempty rn_ne mode user
  refine ⟨?refused, fun accepted => ?loads⟩
  case refused => simp [State.blockLdm, refusal]
  case loads =>
    obtain ⟨d, g, regs, run⟩ := State.blockLdm_accepted (w := false) (refusal false) accepted
    rw [State.transferBank_user user] at regs
    rw [no_pc] at run
    exact ⟨_, run, State.BlockRegs.blockLoaded regs, rfl, rfl, rfl, State.BlockRegs.keepsBank regs, State.keepsMemory_of_mem rfl, rfl,
      ⟨rfl, rfl, rfl, rfl⟩⟩

/-- Settles O36. -/
theorem multipleLoadAborts : Obligations.MultipleLoadAborts := by
  intro x hx s c sb w rn list base j passed allowed hbase
  obtain ⟨p, u, form, start, final⟩ := exec_multipleLoad hx
  simp only [form, start, final, whenPassed_true passed]
  intro hj before refused
  have bank : (if sb = true ∧ list.getLsbD 15 = false then Mode.usr else s.cpsr.mode) = s.transferBank true sb list := by
    have bit : list[15] = list.getLsbD 15 := rfl
    rw [State.transferBank, userBank, bit]
    cases sb <;> cases list.getLsbD 15 <;> rfl
  obtain ⟨d, after⟩ := s.afterBlock_eq (regList list).length (blockStart p u (s.reg 0 rn) list)
  have aborts := (s.blockLoads_aborted (s.transferBank true sb list) rn w _ (blockFinal u (s.reg 0 rn) list) list j hj before refused).1
  have run : s.blockLdm p u sb w rn list = .next (State.blockLoadAbort { s with draws := d } rn w (blockFinal u (s.reg 0 rn) list)
      (s.blockLoads (s.transferBank true sb list) rn w (blockStart p u (s.reg 0 rn) list) (blockFinal u (s.reg 0 rn) list) list).regs) := by
    simp only [State.blockLdm, allowed, State.blockFault_read_aborted s _ _ j hj before refused, after, aborts, if_true]
  obtain ⟨g, spec⟩ := State.blockLoadAbort_aborted hbase hj before refused d
  rw [bank]
  exact ⟨_, g, run, spec⟩

/-! ### Stores -/

theorem State.storeBlock_accepted {s : State} {bank : Mode} {rn : RegNo} {w : Bool} {start final : Word} {list : BitVec 16}
    (base : w = true → rn ≠ PC) (accepted : s.blockAccepted .write start (regList list).length) :
    ∃ t, s.storeBlock bank rn w start final list = .next t
      ∧ s.BlockStored t start ((regList list).map (s.blockOperand bank rn w final list)) w rn final := by
  refine ⟨_, ?_, s.blockStore_accepted bank rn w start final list base accepted⟩
  simp only [State.storeBlock, State.blockFault_accepted s _ _ _ accepted]

theorem State.storeBlock_aborted {s : State} {bank : Mode} {rn : RegNo} {w : Bool} {start final : Word} {list : BitVec 16} {j : Nat}
    (answered : s.blockAnswered start (regList list).length) (hj : j < (regList list).length)
    (refused : s.aborted .write .word s.privileged (slot start j) = true) :
    ∃ t, s.storeBlock bank rn w start final list = .next t
      ∧ s.BlockStoreAborted t (if w then s.setReg rn final else s) start list (s.blockOperand bank rn w final list) := by
  refine ⟨_, ?_, s.blockStore_aborted bank rn w start final list j hj refused⟩
  simp only [State.storeBlock, State.blockFault_write_none s _ _ answered]

theorem State.bankReg_ite (s : State) (m : Mode) (a : Word) (i : RegNo) : s.bankReg m a i = if i = PC then s.pc + a else s.bankReg m 0 i := by
  split
  case isTrue pc => rw [pc, State.bankReg_PC]
  case isFalse below => exact s.bankReg_ahead m below a 0

/-- What a store without S stores for a register: the pc reads ahead, and a base that is not the first its final value (R318). -/
theorem State.blockOperand_current (s : State) {rn : RegNo} (rn_ne : rn ≠ PC) (w : Bool) (final : Word) (list : BitVec 16) (i : RegNo) :
    s.blockOperand s.cpsr.mode rn w final list i =
      if i = PC then s.pc + 12 else if w = true ∧ i = rn ∧ (regList list).head? ≠ some rn then final else s.reg 0 i := by
  by_cases pc : i = PC
  · subst pc
    have other : (PC == rn) = false := by simpa using Ne.symm rn_ne
    simp only [State.blockOperand, other, Bool.and_false, Bool.false_and, Bool.false_eq_true, if_false, State.bankReg_PC, if_true]
  · rw [if_neg pc, State.blockOperand, s.bankReg_ahead _ pc 12 0]
    by_cases same : i = rn
    · subst same
      simp [State.reg]
    · simp [same, State.reg]

theorem State.blockOperand_user (s : State) (bank : Mode) (rn : RegNo) (final : Word) (list : BitVec 16) (i : RegNo) :
    s.blockOperand bank rn false final list i = if i = PC then s.pc + 12 else s.bankReg bank 0 i := by
  rw [← s.bankReg_ite]
  simp [State.blockOperand]

theorem State.blockStm_plain {s : State} {p u w : Bool} {rn : RegNo} {list : BitVec 16} (nonempty : list ≠ 0) (rn_ne : rn ≠ PC) :
    s.blockStm p u false w rn list =
      s.storeBlock s.cpsr.mode rn w (blockStart p u (s.reg 0 rn) list) (blockFinal u (s.reg 0 rn) list) list := by
  simp only [State.blockStm, blockRefusal_plain nonempty rn_ne, State.transferBank_plain]

theorem State.blockStm_user {s : State} {p u : Bool} {rn : RegNo} {list : BitVec 16} (nonempty : list ≠ 0) (rn_ne : rn ≠ PC)
    (mode : s.cpsr.mode ≠ .usr) :
    s.blockStm p u true false rn list =
      s.storeBlock .usr rn false (blockStart p u (s.reg 0 rn) list) (blockFinal u (s.reg 0 rn) list) list := by
  simp only [State.blockStm, blockRefusal_userBank (load := false) (w := false) nonempty rn_ne mode rfl,
    State.transferBank_user (load := false) (sb := true) rfl, Bool.false_eq_true, if_false]

/-- Settles O35. -/
theorem multipleStores_spec : Obligations.MultipleStores := by
  intro x hx s c w rn list passed nonempty rn_ne
  obtain ⟨p, u, form, start, final⟩ := exec_multipleStore hx
  simp only [form, start, final, whenPassed_true passed, State.blockStm_plain nonempty rn_ne,
    ← s.blockOperand_current rn_ne w (blockFinal u (s.reg 0 rn) list) list,
    ← s.blockOperand_user .usr rn (blockFinal u (s.reg 0 rn) list) list]
  refine fun accepted => ⟨State.storeBlock_accepted (fun _ => rn_ne) accepted, fun mode => ?_⟩
  rw [State.blockStm_user nonempty rn_ne mode]
  exact State.storeBlock_accepted nofun accepted

/-- Settles O37. -/
theorem multipleStoreAborts : Obligations.MultipleStoreAborts := by
  intro x hx s c w rn list j passed rn_ne
  obtain ⟨p, u, form, start, final⟩ := exec_multipleStore hx
  simp only [form, start, final, whenPassed_true passed,
    ← s.blockOperand_current rn_ne w (blockFinal u (s.reg 0 rn) list) list,
    ← s.blockOperand_user .usr rn (blockFinal u (s.reg 0 rn) list) list]
  intro hj refused answered
  have nonempty : list ≠ 0 := by
    rintro rfl
    have none : (regList 0).length = 0 := by decide
    omega
  refine ⟨?_, fun mode => ?_⟩
  · rw [State.blockStm_plain nonempty rn_ne]
    exact State.storeBlock_aborted answered hj refused
  · rw [State.blockStm_user nonempty rn_ne mode]
    exact State.storeBlock_aborted (w := false) answered hj refused

/-! ### THUMB -/

theorem lt_of_mem_loList {list : BitVec 8} {i : RegNo} (h : i ∈ regList (loList list)) : i.toNat < 8 := by
  rw [mem_regList, loList, BitVec.getLsbD_setWidth] at h
  exact BitVec.lt_of_getLsbD (Bool.and_eq_true_iff.1 h).2

theorem mem_loList_or {list : BitVec 8} {mask : BitVec 16} {i : RegNo} (h : i ∈ regList (loList list ||| mask)) :
    i.toNat < 8 ∨ mask.getLsbD i.toNat = true := by
  rw [mem_regList, BitVec.getLsbD_or, Bool.or_eq_true, ← mem_regList] at h
  exact h.imp_left lt_of_mem_loList

theorem State.thumbPush_eq {s : State} {list : BitVec 16} (nonempty : list ≠ 0) :
    s.thumbPush list = s.storeBlock s.cpsr.mode SP true (s.reg 0 SP - blockBytes list) (s.reg 0 SP - blockBytes list) list := by
  rw [State.thumbPush, if_neg nonempty, s.reg_ahead (i := SP) (by decide) 4 0]
  rfl

/-- A register that is neither the base nor R15 is stored as it is. -/
theorem State.blockOperand_other (s : State) {rn i : RegNo} (base : i ≠ rn) (pc : i ≠ PC) (w : Bool) (final : Word) (list : BitVec 16) :
    s.blockOperand s.cpsr.mode rn w final list i = s.reg 0 i := by
  have other : (i == rn) = false := by simpa using base
  rw [State.blockOperand, s.bankReg_ahead _ pc 12 0]
  simp [other, State.reg]

/-- Settles O50: PUSH and STMIA are block stores of the current mode with write-back. -/
theorem thumbMultipleStores : Obligations.ThumbMultipleStores := by
  intro s rb list bytes base l final
  have sp_ne : SP ≠ PC := by decide
  have row : ∀ x ∈ [(Instr.tPush list, SP, l, s.reg 0 SP - bytes l, s.reg 0 SP - bytes l, fun r => s.reg 0 r),
           (.tPushLr list, SP, l ||| 0x4000, s.reg 0 SP - bytes (l ||| 0x4000), s.reg 0 SP - bytes (l ||| 0x4000), fun r => s.reg 0 r),
           (.tStmia rb list, lo rb, l, base, final,
             fun r => if r = lo rb ∧ (regList l).head? ≠ some (lo rb) then final else s.reg 0 r)],
      x.2.1 ≠ PC ∧ (x.2.2.1 ≠ 0 → exec x.1 s = s.storeBlock s.cpsr.mode x.2.1 true x.2.2.2.1 x.2.2.2.2.1 x.2.2.1)
      ∧ ∀ i ∈ regList x.2.2.1, s.blockOperand s.cpsr.mode x.2.1 true x.2.2.2.2.1 x.2.2.1 i = x.2.2.2.2.2 i := by
    intro x hx
    simp only [List.mem_cons, List.not_mem_nil, or_false] at hx
    obtain rfl | rfl | rfl := hx
    · refine ⟨sp_ne, State.thumbPush_eq, fun i hi => ?_⟩
      have low := lt_of_mem_loList hi
      have other : i ≠ SP ∧ i ≠ PC := by constructor <;> (rintro rfl; exact absurd low (by decide))
      exact s.blockOperand_other other.1 other.2 ..
    · refine ⟨sp_ne, State.thumbPush_eq, fun i hi => ?_⟩
      have low := mem_loList_or hi
      have other : i ≠ SP ∧ i ≠ PC := by constructor <;> (rintro rfl; exact absurd low (by decide))
      exact s.blockOperand_other other.1 other.2 ..
    · refine ⟨lo_ne_pc rb, fun nonempty => ?_, fun i hi => ?_⟩
      · show execTStmia rb list s = _
        have nonempty : loList list ≠ 0 := nonempty
        rw [execTStmia, if_neg nonempty, State.loReg, s.reg_lo]
        rfl
      · have low := lt_of_mem_loList hi
        rw [s.blockOperand_current (lo_ne_pc rb), if_neg (by rintro rfl; exact absurd low (by decide))]
        simp
  intro x hx
  obtain ⟨base_ne, form, operand⟩ := row x hx
  dsimp only
  intro nonempty
  rw [form nonempty, ← List.map_congr_left operand]
  refine ⟨State.storeBlock_accepted fun _ => base_ne, fun answered j hj refused => ?_⟩
  obtain ⟨t, run, enters, words, outside⟩ := State.storeBlock_aborted (w := true) answered hj refused
  refine ⟨t, run, enters, fun k i hk => ?_, outside⟩
  rw [words k i hk, operand i (List.mem_of_getElem? hk)]

/-- Settles O51: POP and LDMIA are one operation on a base and a list. -/
theorem thumbMultipleLoads : Obligations.ThumbMultipleLoads := by
  intro s rb list thumb x hx
  have sp_ne : SP ≠ PC := by decide
  obtain ⟨form, rn_ne⟩ : exec x.1 s = s.thumbLoadMultiple x.2.1 x.2.2 ∧ x.2.1 ≠ PC := by
    simp only [List.mem_cons, List.not_mem_nil, or_false] at hx
    obtain rfl | rfl | rfl := hx
    · exact ⟨rfl, sp_ne⟩
    · exact ⟨rfl, sp_ne⟩
    · exact ⟨rfl, lo_ne_pc rb⟩
  have width : s.width = 2 := by simp [State.width, thumb]
  dsimp only
  rw [form, s.reg_ahead rn_ne 0 4]
  intro nonempty
  refine ⟨fun accepted => ?loads, fun j b hj before refused hb => ?aborts⟩
  case loads =>
    obtain ⟨d, g, regs, run⟩ := State.thumbLoadMultiple_accepted nonempty accepted
    have spec (t : State) (ht : t.regs = g) (cpsr : t.cpsr = s.cpsr) :
        s.BlockLoaded t s.cpsr.mode (s.reg 4 x.2.1) x.2.2
        ∧ (x.2.2.getLsbD x.2.1.toNat = false → t.reg 0 x.2.1 = blockFinal true (s.reg 4 x.2.1) x.2.2)
        ∧ s.KeepsRegs t (x.2.1 :: regList x.2.2) := by
      subst ht
      exact ⟨regs.blockLoaded, fun out => by rw [State.reg, cpsr]; exact regs.base rfl rn_ne out, regs.keepsRegs⟩
    cases pc : x.2.2.getLsbD 15 with
    | true =>
      obtain ⟨loaded, base, kept⟩ := spec (State.branch { s with draws := d, regs := g } _) rfl rfl
      rw [pc] at run
      refine ⟨_, _, run, loaded, s.readWord_reads _, ?_, base, rfl, kept, State.keepsMemory_of_mem rfl, s.keepsSystem_refl⟩
      simp [alignPc, thumb]
    | false =>
      obtain ⟨loaded, base, kept⟩ := spec (State.advance { s with draws := d, regs := g }) rfl rfl
      rw [pc] at run
      refine ⟨_, _, run, loaded, s.readWord_reads _, ?_, base, rfl, kept, State.keepsMemory_of_mem rfl, s.keepsSystem_refl⟩
      simp [State.width, thumb]
  case aborts =>
    obtain ⟨d, after⟩ := s.afterBlock_eq (regList x.2.2).length (s.reg 4 x.2.1)
    have aborts := (s.blockLoads_aborted s.cpsr.mode x.2.1 true _ (blockFinal true (s.reg 4 x.2.1) x.2.2) x.2.2 j hj before refused).1
    have run : s.thumbLoadMultiple x.2.1 x.2.2 =
        .next (State.blockLoadAbort { s with draws := d } x.2.1 true (blockFinal true (s.reg 4 x.2.1) x.2.2)
          (s.blockLoads s.cpsr.mode x.2.1 true (s.reg 4 x.2.1) (blockFinal true (s.reg 4 x.2.1) x.2.2) x.2.2).regs) := by
      simp only [State.thumbLoadMultiple, nonempty, blockStart, State.blockFault_read_aborted s _ _ j hj before refused, after, aborts,
        if_false, if_true]
    obtain ⟨g, spec⟩ := State.blockLoadAbort_aborted (w := true) hb hj before refused d
    exact ⟨_, g, run, spec⟩

end Sys2Proof.Machine
end
section
/-!
SUPPORT. Exceptions, the boundary and the return, and the swap.
-/

namespace Sys2Proof.Machine

/-! ### Entry -/

theorem State.takeException_next {s : State} (e : Exc) {r : Result} (h : r = .next (s.takeException e)) {mode : Mode} {vector link : Word}
    {f : Bool} (hmode : e.spsrMode.mode = mode) (hvector : e.vector = vector) (hlink : e.link s.cpsr.t s.pc = link)
    (hf : (s.cpsr.f || e.setsF) = f) : ∃ t, r = .next t ∧ s.Enters t mode vector link f ∧ s.KeepsMemory t := by
  subst hmode hvector hlink hf
  exact ⟨_, h, s.takeException_enters e, s.takeException_keepsMemory e⟩

/-- Settles O39. -/
theorem softwareInterruptEntry : Obligations.SoftwareInterruptEntry := by
  intro s c comment value8
  refine ⟨fun arm passed => ?_, fun thumb => ?_⟩
  · exact State.takeException_next .swi (whenPassed_true passed _) rfl rfl (by simp [Exc.link, arm]) (Bool.or_false _)
  · exact State.takeException_next .swi rfl rfl rfl (by simp [Exc.link, thumb]) (Bool.or_false _)

/-- Settles O40: the six forms are one trap. -/
theorem undefinedEntry : Obligations.UndefinedEntry := by
  intro s c high low a1 a2 a3 a4 o3 info o8 p u n w arm passed i hi
  have form : exec i s = whenPassed c s (.next (s.takeException .undefined)) := by
    simp only [List.mem_cons, List.not_mem_nil, or_false] at hi
    obtain rfl | rfl | rfl | rfl | rfl | rfl := hi <;> rfl
  rw [form]
  exact State.takeException_next .undefined (whenPassed_true passed _) rfl rfl (by simp [Exc.link, arm]) (Bool.or_false _)

/-! ### The boundary -/

theorem step_of_boundary {s u : State} (h : s.atBoundary.boundaryException s.sample = some u) : step s = .next u := by
  simp only [step, h]

/-- Settles O41: the boundary's tests in their order. -/
theorem boundaryExceptions : Obligations.BoundaryExceptions := by
  intro s reset fiq irq fetchRefused
  have boundary : s.atBoundary.boundaryException s.sample =
      if fiq then some (s.atBoundary.takeException .fiq)
      else if irq then some (s.atBoundary.takeException .irq)
      else if fetchRefused then some (s.atBoundary.takeException .prefetchAbort) else none := by
    simp only [State.boundaryException, reset]
    rfl
  have taken {e : Exc} (h : s.atBoundary.boundaryException s.sample = some (s.atBoundary.takeException e)) {mode : Mode}
      {vector link : Word} {f : Bool} (hmode : e.spsrMode.mode = mode) (hvector : e.vector = vector)
      (hlink : e.link s.cpsr.t s.pc = link) (hf : (s.cpsr.f || e.setsF) = f) :
      ∃ t, step s = .next t ∧ s.atBoundary.Enters t mode vector link f ∧ s.KeepsMemory t :=
    State.takeException_next (s := s.atBoundary) e (step_of_boundary h) hmode hvector hlink hf
  refine ⟨fun isFiq => ?fiq, fun noFiq isIrq => ?irq, fun noFiq noIrq refused => ?prefetch⟩
  case fiq => exact taken (e := .fiq) (by simp [boundary, isFiq]) rfl rfl rfl (Bool.or_true _)
  case irq => exact taken (e := .irq) (by simp [boundary, noFiq, isIrq]) rfl rfl rfl (Bool.or_false _)
  case prefetch => exact taken (e := .prefetchAbort) (by simp [boundary, noFiq, noIrq, refused]) rfl rfl rfl (Bool.or_false _)

/-- Settles O1. -/
theorem resetTransition : Obligations.ResetTransition := by
  refine ⟨⟨rfl, rfl, rfl, rfl, rfl⟩, fun s reset => ?_⟩
  have boundary : s.atBoundary.boundaryException s.sample = some s.atBoundary.takeReset := by
    simp only [State.boundaryException, reset, if_true]
  exact ⟨_, step_of_boundary boundary, rfl, rfl, rfl, rfl, rfl, State.keepsMemory_of_mem rfl, rfl, rfl⟩

/-- A step at which nothing stops the instruction at the pc runs it. -/
theorem step_runs {s : State} (boundary : s.atBoundary.boundaryException s.sample = none) (current : s.prefetch.current = false)
    (answered : s.fetchFault = none) (hazard : s.atBoundary.hitsBankHazard s.atBoundary.fetch = false) :
    step s = exec s.atBoundary.fetch { s.atBoundary.afterRead s.fetchSize s.pc with bankHazard := false } := by
  have current' : s.atBoundary.prefetch.current = false := current
  have answered' : s.atBoundary.fetchFault = none := answered
  simp only [step, boundary, current', answered', hazard, Bool.false_eq_true, if_false]
  rfl

theorem State.boundaryException_none {s : State} (reset : s.sample.reset = false) (fiq : s.sample.fiq = true → s.cpsr.f = true)
    (irq : s.sample.irq = true → s.cpsr.i = true) (fetch : s.atBoundary.fetchAborts = false) :
    s.atBoundary.boundaryException s.sample = none := by
  have noFiq : (s.sample.fiq && !s.cpsr.f) = false := by
    cases h : s.sample.fiq <;> simp_all
  have noIrq : (s.sample.irq && !s.cpsr.i) = false := by
    cases h : s.sample.irq <;> simp_all
  simp [State.boundaryException, reset, noFiq, noIrq, fetch]

/-- Settles O5. -/
theorem stepRunsDecoded : Obligations.StepRunsDecoded := by
  intro s i reset fiq irq fetch current memory arm thumb hazard
  obtain ⟨noDevice, answered⟩ : s.atBoundary.onDevice s.fetchSize s.pc = false ∧ s.fetchFault = none := State.mapKind_none memory
  have fetched : s.atBoundary.fetch = i := by
    rw [State.fetch_memory (s := s.atBoundary) noDevice, State.atBoundary_cpsr]
    cases t : s.cpsr.t with
    | false => exact arm t
    | true => exact thumb t
  rw [step_runs (State.boundaryException_none reset fiq irq fetch) current answered (by rw [fetched]; exact hazard), fetched,
    State.afterRead_memory noDevice]
  rfl

/-- Settles O2. -/
theorem decodedWords : Obligations.DecodedWords := by
  unfold Obligations.DecodedWords
  decide

/-! ### Return -/

theorem State.takeException_lr (s : State) (e : Exc) (ahead : Word) : (s.takeException e).reg ahead LR = e.link s.cpsr.t s.pc := by
  rw [State.reg, State.bankReg_eq (physReg_lr _)]
  simp

/-- A return instruction in the state an entry leaves, its result being an aligned target (R510). -/
theorem State.return_from {s : State} {e : Exc} {mk : Cond → Bool → RegNo → RegNo → Operand2 → Instr} {op : AluOp}
    (opcode : (mk, op) ∈ writingOpcodes) {rn : RegNo} {op2 : Operand2} (amount : amountIsR15 op2 = false) {target : Word}
    (result : ((s.takeException e).aluOut op rn op2).result = target) (aligned : alignPc s.cpsr.t target = target) :
    ∃ t, exec (mk .al true rn PC op2) (s.takeException e) = .next t ∧ t.pc = target ∧ t.cpsr = s.cpsr
        ∧ (s.takeException e).KeepsRegs t [] ∧ s.KeepsMemory t ∧ s.KeepsInputs t := by
  have spsr : (s.takeException e).spsr = some s.cpsr.toPsr := by
    simp [State.spsr]
  have run : exec (mk .al true rn PC op2) (s.takeException e) = .next (State.branch { s.takeException e with cpsr := s.cpsr } target) := by
    rw [exec_writingOpcode opcode, whenPassed_true rfl, State.dataProcess_return amount, result]
    exact State.exceptionReturn_some spsr (by simp) target
  exact ⟨_, run, aligned, rfl, State.keepsRegs_of_regs rfl [], State.keepsMemory_of_mem rfl, rfl, rfl, rfl, rfl⟩

/-- Settles O42. -/
theorem returnFromException : Obligations.ReturnFromException := by
  intro s e aligned movs subs back
  rw [State.pcAligned_iff] at aligned
  have by_movs (h : alignPc s.cpsr.t (e.link s.cpsr.t s.pc) = e.link s.cpsr.t s.pc) : back movs (e.link s.cpsr.t s.pc) :=
    State.return_from (mk := .mov) (op := aluMov) (by simp [writingOpcodes]) rfl
      ((s.takeException e).reg_ahead (by decide) 8 0 |>.trans (s.takeException_lr e 0)) h
  have by_subs (k : BitVec 8) (h : e.link s.cpsr.t s.pc - k.setWidth 32 = s.pc) : back (subs k) s.pc :=
    State.return_from (mk := .sub) (op := aluSub) (by simp [writingOpcodes]) rfl (by
      have operand : ((s.takeException e).shifterOperand (.imm 0 k)).1 = k.setWidth 32 := by
        simp [State.shifterOperand, shiftedImm, rotatedImm, BitVec.rotateRight, BitVec.rotateRightAux, BitVec.shiftLeft_eq_zero]
      rw [State.aluOut, aluSub, addWithCarry_not_true_result, operand, State.takeException_lr, h]) aligned
  cases e with
  | undefined => exact by_movs (alignPc_add_width _ aligned)
  | swi => exact by_movs (alignPc_add_width _ aligned)
  | prefetchAbort => exact by_subs 4 (by simp [Exc.link])
  | dataAbort => exact by_subs 8 (by simp [Exc.link])
  | irq => exact by_subs 4 (by simp [Exc.link])
  | fiq => exact by_subs 4 (by simp [Exc.link])

end Sys2Proof.Machine
end
section
/-!
SUPPORT. The swap, stored values read back, and the encodings and operands that are refused.
-/

namespace Sys2Proof.Machine

/-! ### Swap -/

section
variable {s : State} {rn rd rm : RegNo}

theorem swapForbidden_eq_false (hn : rn ≠ PC) (hd : rd ≠ PC) (hm : rm ≠ PC) : swapForbidden rn rd rm = false := by
  simp [swapForbidden, hn, hd, hm]

/-- A swap whose read and write are accepted stores Rm, then loads Rd with what was read (R341, R343). -/
theorem State.swap_accepted (k : LoadKind) (hn : rn ≠ PC) (hd : rd ≠ PC) (hm : rm ≠ PC)
    (read : s.accepts .read k.size s.privileged (k.size.align (s.reg 0 rn)))
    (write : s.accepts .write k.size s.privileged (k.size.align (s.reg 0 rn))) :
    ∃ t, s.swap k rn rd rm = .next t
      ∧ t.mem = (s.storeValue k.size (s.reg 0 rn) (s.reg 0 rm)).mem ∧ t.bigend = s.bigend
      ∧ t.reg 0 rd = s.loadValue k (s.reg 0 rn)
      ∧ s.KeepsMemoryOutside t (k.size.align (s.reg 0 rn)) k.size.bytes
      ∧ t.pc = s.pc + s.width ∧ t.cpsr = s.cpsr ∧ s.KeepsRegs t [rd] ∧ s.KeepsSystem t := by
  have run : s.swap k rn rd rm = .next ((((s.storeValue k.size (s.reg 0 rn) (s.reg 0 rm)).afterRead k.size
      (k.size.align (s.reg 0 rn))).setReg rd (s.loadValue k (s.reg 0 rn))).advance) := by
    simp only [State.swap, swapForbidden_eq_false hn hd hm, s.reg_ahead hn 8 0, s.reg_ahead hm 8 0, State.loadAborts,
      State.storeAborts, read.1, write.1, read.2, Bool.or_false, Bool.false_eq_true, if_false]
  refine ⟨_, run, by simp, by simp, ?value, ?outside, by simp [State.width], by simp, ?regs, ?system⟩
  case value => rw [State.reg_advance _ hd, State.reg_setReg_same _ hd]
  case outside =>
    intro b hb
    rw [State.byteAt_congr (s := s.storeValue k.size (s.reg 0 rn) (s.reg 0 rm)) (by simp)]
    exact s.byteAt_storeValue_ne _ _ _ _ hb
  case regs =>
    intro r hr
    have other : physReg s.cpsr.mode rd ≠ some r := hr rd (by simp)
    simp [State.get_setReg, other]
  case system => simp [State.KeepsSystem, State.KeepsInputs]

theorem State.swap_aborts (k : LoadKind) (hn : rn ≠ PC) (hd : rd ≠ PC) (hm : rm ≠ PC) {kind : AccessKind}
    (hkind : kind ∈ [AccessKind.read, .write]) (refused : s.aborted kind k.size s.privileged (k.size.align (s.reg 0 rn)) = true) :
    s.swap k rn rd rm = .next (s.takeException .dataAbort) := by
  have aborts : (s.loadAborts k s.privileged (s.reg 0 rn) || s.storeAborts k.size s.privileged (s.reg 0 rn)) = true := by
    simp only [List.mem_cons, List.not_mem_nil, or_false] at hkind
    obtain rfl | rfl := hkind
    · rw [State.loadAborts, refused, Bool.true_or]
    · rw [State.storeAborts, refused, Bool.or_true]
  simp only [State.swap, swapForbidden_eq_false hn hd hm, s.reg_ahead hn 8 0, aborts, Bool.false_eq_true, if_false, if_true]

end

/-- Settles O38. -/
theorem swapInOneStep : Obligations.SwapInOneStep := by
  intro s c rn rd rm passed hn hd hm
  have word : exec (.swp c rn rd rm) s = s.swap .word rn rd rm := whenPassed_true passed _
  have byte : exec (.swpb c rn rd rm) s = s.swap .byte rn rd rm := whenPassed_true passed _
  dsimp only
  rw [word, byte]
  refine ⟨fun read write => ?word, fun read write => ?byte, fun x hx kind hkind refused => ?aborts⟩
  case word =>
    obtain ⟨t, run, mem, bigend, value, outside, frame⟩ := State.swap_accepted .word hn hd hm read write
    refine ⟨t, _, run, s.readWord_reads _, value.trans (s.loadValue_word _), ?_, outside, frame⟩
    rw [State.wordAt_congr (s := s.storeValue .word (s.reg 0 rn) (s.reg 0 rm)) mem (by simp [bigend])]
    exact s.wordAt_storeValue _ _
  case byte =>
    obtain ⟨t, run, mem, -, value, outside, frame⟩ := State.swap_accepted .byte hn hd hm read write
    refine ⟨t, _, run, s.readByte_reads _, value, ?_, outside, frame⟩
    rw [State.byteAt_congr (s := s.storeValue .byte (s.reg 0 rn) (s.reg 0 rm)) mem]
    exact s.byteAt_storeValue _ _
  case aborts =>
    have run : exec x.1 s = .next (s.takeException .dataAbort) := by
      simp only [List.mem_cons, List.not_mem_nil, or_false] at hx
      obtain rfl | rfl := hx
      · exact word.trans (State.swap_aborts .word hn hd hm hkind refused)
      · exact byte.trans (State.swap_aborts .byte hn hd hm hkind refused)
    exact State.takeException_next .dataAbort run rfl rfl rfl (Bool.or_false _)

/-! ### Stored values -/

/-- Settles O57. -/
theorem storedThenRead : Obligations.StoredThenRead := by
  intro s a v
  refine ⟨fun size device => State.keepsMemory_of_mem (State.mem_storeValue_device device v),
    ⟨fun memory => ?_, s.keepsMemoryOutside_storeValue .word a v⟩, ⟨fun memory => ?_, s.keepsMemoryOutside_storeValue .half a v⟩,
    ⟨fun memory => ?_, s.keepsMemoryOutside_storeValue .byte a v⟩, fun k hk => ?wordByte, fun k hk => ?halfByte, fun k hk => ?wordHalf⟩
  · rw [State.wordAt_storeValue, memory]
    rfl
  · rw [State.halfAt_storeValue, memory]
    rfl
  · rw [State.byteAt_storeValue, memory]
    rfl
  case wordByte =>
    rw [State.wordAt, joinWord_byte _ _ _ _ _ k hk]
    obtain rfl | rfl | rfl | rfl : k = 0 ∨ k = 1 ∨ k = 2 ∨ k = 3 := by omega
    all_goals simp
  case halfByte =>
    rw [State.halfAt, joinHalf_byte _ _ _ k hk]
    obtain rfl | rfl : k = 0 ∨ k = 1 := by omega
    all_goals simp
  case wordHalf =>
    rw [State.wordAt, joinWord_half _ _ _ _ _ k hk]
    obtain rfl | rfl : k = 0 ∨ k = 1 := by omega
    · simp [State.halfAt]
    · simp [State.halfAt, BitVec.add_assoc]

/-! ### Encodings and operands that are refused -/

/-- Settles O54. -/
theorem reservedEncodings : Obligations.ReservedEncodings := by
  intro s c bits b8 b9 b10 b11 p u w rn rd rm
  refine ⟨rfl, rfl, fun i hi => ?free, fun passed => ⟨fun i hi => ?notDefined, fun i hi => ?signedStore⟩⟩
  case free =>
    simp only [List.mem_cons, List.not_mem_nil, or_false] at hi
    obtain rfl | rfl | rfl | rfl | rfl | rfl := hi <;> rfl
  case notDefined =>
    simp only [List.mem_cons, List.not_mem_nil, or_false] at hi
    obtain rfl | rfl := hi <;> exact whenPassed_true passed _
  case signedStore =>
    simp only [List.mem_cons, List.not_mem_nil, or_false] at hi
    obtain rfl | rfl | rfl | rfl := hi <;> exact whenPassed_true passed _

end Sys2Proof.Machine
end
section
/-!
SUPPORT. The operands that are refused, by the check that refuses them.
-/

namespace Sys2Proof.Machine

/-! ### Refusals of an operation are refusals of its forms -/

section
variable {s : State} {c : Cond}

theorem exec_singleForms_refused (passed : condPassed c s.cpsr = true) {u : Bool} {ix : Index} {rn rd : RegNo} {off : Offset}
    {r : Refusal} (h : singleRefusal ix.p ix.w rn rd off = some r) : ∀ i ∈ singleForms c u ix rn rd off, exec i s = .refused r := by
  have load (k : LoadKind) : s.singleLoad k s.privileged ix.p u ix.w rn rd off = .refused r := by simp only [State.singleLoad, h]
  have store (size : AccessSize) : s.singleStore size s.privileged ix.p u ix.w rn rd off = .refused r := by
    simp only [State.singleStore, h]
  intro i hi
  simp only [singleForms, List.mem_cons, List.not_mem_nil, or_false] at hi
  obtain rfl | rfl | rfl | rfl := hi
  · exact (whenPassed_true passed _).trans (load .word)
  · exact (whenPassed_true passed _).trans (load .byte)
  · exact (whenPassed_true passed _).trans (store .word)
  · exact (whenPassed_true passed _).trans (store .byte)

theorem exec_unprivilegedForms_refused (passed : condPassed c s.cpsr = true) {u : Bool} {rn rd : RegNo} {off : Offset}
    {r : Refusal} (h : singleRefusal false false rn rd off = some r) :
    ∀ i ∈ unprivilegedForms c u rn rd off, exec i s = .refused r := by
  have load (k : LoadKind) : s.singleLoad k false false u false rn rd off = .refused r := by simp only [State.singleLoad, h]
  have store (size : AccessSize) : s.singleStore size false false u false rn rd off = .refused r := by
    simp only [State.singleStore, h]
  intro i hi
  simp only [unprivilegedForms, List.mem_cons, List.not_mem_nil, or_false] at hi
  obtain rfl | rfl | rfl | rfl := hi
  · exact (whenPassed_true passed _).trans (load .word)
  · exact (whenPassed_true passed _).trans (load .byte)
  · exact (whenPassed_true passed _).trans (store .word)
  · exact (whenPassed_true passed _).trans (store .byte)

theorem exec_halfwordRegForms_refused (passed : condPassed c s.cpsr = true) {p u w : Bool} {rn rd rm : RegNo} {r : Refusal}
    (h : halfwordRefusal p w rn rd (some rm) = some r) : ∀ i ∈ halfwordRegForms c p u w rn rd rm, exec i s = .refused r := by
  have load (k : LoadKind) : s.halfwordLoad k p u w rn rd (some rm) (s.reg 8 rm) = .refused r := by simp only [State.halfwordLoad, h]
  have store : s.halfwordStore p u w rn rd (some rm) (s.reg 8 rm) = .refused r := by simp only [State.halfwordStore, h]
  intro i hi
  simp only [halfwordRegForms, List.mem_cons, List.not_mem_nil, or_false] at hi
  obtain rfl | rfl | rfl | rfl := hi
  · exact (whenPassed_true passed _).trans (load .half)
  · exact (whenPassed_true passed _).trans (load .signedByte)
  · exact (whenPassed_true passed _).trans (load .signedHalf)
  · exact (whenPassed_true passed _).trans store

theorem exec_halfwordImmForms_refused (passed : condPassed c s.cpsr = true) {p u w : Bool} {rn rd : RegNo} {imm8 : BitVec 8}
    {r : Refusal} (h : halfwordRefusal p w rn rd none = some r) : ∀ i ∈ halfwordImmForms c p u w rn rd imm8, exec i s = .refused r := by
  have load (k : LoadKind) : s.halfwordLoad k p u w rn rd none (imm8.setWidth 32) = .refused r := by simp only [State.halfwordLoad, h]
  have store : s.halfwordStore p u w rn rd none (imm8.setWidth 32) = .refused r := by simp only [State.halfwordStore, h]
  intro i hi
  simp only [halfwordImmForms, List.mem_cons, List.not_mem_nil, or_false] at hi
  obtain rfl | rfl | rfl | rfl := hi
  · exact (whenPassed_true passed _).trans (load .half)
  · exact (whenPassed_true passed _).trans (load .signedByte)
  · exact (whenPassed_true passed _).trans (load .signedHalf)
  · exact (whenPassed_true passed _).trans store

/-- A block transfer that is refused as a load and as a store alike. -/
theorem exec_multiple_refused (passed : condPassed c s.cpsr = true)
    {x : (Cond → Bool → Bool → RegNo → BitVec 16 → Instr) × (Word → Word → Word) × (Word → Word → Word)}
    (hx : x ∈ multipleLoads ++ multipleStores) {sb w : Bool} {rn : RegNo} {list : BitVec 16} {r : Refusal}
    (h : ∀ load, blockRefusal load sb w rn list s.cpsr.mode = some r) : exec (x.1 c sb w rn list) s = .refused r := by
  obtain load | store := List.mem_append.1 hx
  · obtain ⟨p, u, form, -⟩ := exec_multipleLoad load
    simp only [form, whenPassed_true passed, State.blockLdm, h true]
  · obtain ⟨p, u, form, -⟩ := exec_multipleStore store
    simp only [form, whenPassed_true passed, State.blockStm, h false]

end

/-! ### The checks -/

theorem singleRefusal_writebackR15 {p w : Bool} {rd : RegNo} {off : Offset} (wb : (!p || w) = true) :
    singleRefusal p w PC rd off = some .writebackR15 := by
  rw [singleRefusal, if_pos ⟨rfl, wb⟩]

theorem singleRefusal_offsetR15 {p w : Bool} {rn rd : RegNo} {ty : ShiftType} {amount : BitVec 5} (base : (!p || w) = true → rn ≠ PC) :
    singleRefusal p w rn rd (.reg ty amount PC) = some .offsetR15 := by
  have offset : offsetReg (.reg ty amount PC) = some PC := rfl
  rw [singleRefusal, if_neg fun h => base h.2 h.1, if_pos offset]

theorem singleRefusal_transferredBase {p w : Bool} {rn : RegNo} {off : Offset} (wb : (!p || w) = true) (base : rn ≠ PC)
    (offset : offsetReg off ≠ some PC) : singleRefusal p w rn rn off = some .transferredBase := by
  rw [singleRefusal, if_neg fun h => base h.1, if_neg offset, if_pos ⟨rfl, wb⟩]

theorem singleRefusal_postIndex {rn rd : RegNo} {ty : ShiftType} {amount : BitVec 5} (base : rn ≠ PC) (other : rd ≠ rn) :
    singleRefusal false false rn rd (.reg ty amount rn) = some .postIndexOffsetIsBase := by
  have offset : offsetReg (.reg ty amount rn) = some rn := rfl
  rw [singleRefusal, offset, if_neg fun h => base h.1, if_neg fun h => base (Option.some.inj h), if_neg fun h => other h.1]
  simp

theorem not_postIndexWriteBit {p w : Bool} (h : p = false → w = false) : ¬ (!p && w) = true := by
  cases p with
  | false => simp [h rfl]
  | true => simp

theorem halfwordRefusal_writebackR15 {p w : Bool} {rd : RegNo} {rm : Option RegNo} (wb : (!p || w) = true) (bit : p = false → w = false) :
    halfwordRefusal p w PC rd rm = some .writebackR15 := by
  rw [halfwordRefusal, if_neg (not_postIndexWriteBit bit), if_pos ⟨rfl, wb⟩]

theorem halfwordRefusal_offsetR15 {p w : Bool} {rn rd : RegNo} (bit : p = false → w = false) (base : (!p || w) = true → rn ≠ PC) :
    halfwordRefusal p w rn rd (some PC) = some .offsetR15 := by
  rw [halfwordRefusal, if_neg (not_postIndexWriteBit bit), if_neg fun h => base h.2 h.1, if_pos rfl]

theorem halfwordRefusal_transferredBase {p w : Bool} {rn : RegNo} {rm : Option RegNo} (bit : p = false → w = false)
    (wb : (!p || w) = true) (base : rn ≠ PC) (offset : rm ≠ some PC) : halfwordRefusal p w rn rn rm = some .transferredBase := by
  rw [halfwordRefusal, if_neg (not_postIndexWriteBit bit), if_neg fun h => base h.1, if_neg offset, if_pos ⟨rfl, wb⟩]

theorem blockRefusal_empty (load sb w : Bool) (rn : RegNo) (mode : Mode) :
    blockRefusal load sb w rn 0 mode = some .emptyRegisterList := by
  rw [blockRefusal, if_pos rfl]

theorem blockRefusal_base (load sb w : Bool) {list : BitVec 16} (nonempty : list ≠ 0) (mode : Mode) :
    blockRefusal load sb w PC list mode = some .blockBaseR15 := by
  rw [blockRefusal, if_neg nonempty, if_pos rfl]

theorem blockRefusal_usr (load w : Bool) {rn : RegNo} {list : BitVec 16} (nonempty : list ≠ 0) (base : rn ≠ PC) :
    blockRefusal load true w rn list .usr = some .sBitInUserMode := by
  rw [blockRefusal, if_neg nonempty, if_neg base]
  rfl

/-- Settles O55. -/
theorem forbiddenOperands : Obligations.ForbiddenOperands := by
  intro s c sb w p u rn rd rs rm ty amount rotate imm8 off list passed
  refine ⟨fun x hx => ?shiftAmount, fun i hi => ?testAmount, fun i hi => ?psrR15, fun mode hrd i hi => ?noSpsr,
    fun bad => ?multiply, ?accumulate, fun bad i hi => ?multiplyLong, fun ix wb i hi => ?writebackR15,
    fun ix base => exec_singleForms_refused passed (singleRefusal_offsetR15 base),
    fun base => exec_unprivilegedForms_refused passed (singleRefusal_offsetR15 fun _ => base),
    fun base offset => ⟨fun ix wb => exec_singleForms_refused passed (singleRefusal_transferredBase wb base offset),
      exec_unprivilegedForms_refused passed (singleRefusal_transferredBase rfl base offset)⟩,
    fun base other i hi => ?postIndex, fun i hi => ?writeBit, fun wb bit i hi => ?halfWritebackR15,
    fun bit base => exec_halfwordRegForms_refused passed (halfwordRefusal_offsetR15 bit base),
    fun bit wb base => ⟨fun offset => exec_halfwordRegForms_refused passed
        (halfwordRefusal_transferredBase bit wb base fun h => offset (Option.some.inj h)),
      exec_halfwordImmForms_refused passed (halfwordRefusal_transferredBase bit wb base nofun)⟩,
    fun x hx => ?block, fun x hx nonempty base mode => ?userBank, fun bad i hi => ?swap, fun rb i hi => ?emptyList⟩
  case shiftAmount =>
    rw [exec_writingOpcode hx, whenPassed_true passed]
    rfl
  case testAmount =>
    rw [← map_fst_testOperations, List.mem_map] at hi
    obtain ⟨⟨_, op⟩, hx, rfl⟩ := hi
    rw [exec_testOperation hx, whenPassed_true passed]
    rfl
  case psrR15 =>
    simp only [List.mem_cons, List.not_mem_nil, or_false] at hi
    obtain rfl | rfl | rfl := hi <;> exact whenPassed_true passed _
  case noSpsr =>
    have none : s.spsr = none := State.spsr_usr_sys mode
    have update (f : Psr → Psr) : s.updateSpsr f = .refused .noSpsr := by
      rw [State.updateSpsr, (Mode.spsr_eq_none _).mpr mode]
    simp only [List.mem_cons, List.not_mem_nil, or_false] at hi
    obtain rfl | rfl | rfl | rfl := hi <;> refine (whenPassed_true passed _).trans ?_
    · rw [if_neg hrd, none]
      rfl
    · rw [if_neg hrd, if_pos rfl, update]
    · rw [if_neg hrd, State.writeFlags, if_pos rfl, update]
    · rw [State.writeFlags, if_pos rfl, update]
  case multiply =>
    have forbidden : mulForbidden rd rs rm = true := by simpa [mulForbidden, or_assoc] using bad
    exact ⟨(whenPassed_true passed _).trans (by rw [forbidden]; rfl), (whenPassed_true passed _).trans (by rw [forbidden]; rfl)⟩
  case accumulate => exact (whenPassed_true passed _).trans (by simp)
  case multiplyLong =>
    have forbidden : longForbidden rd rn rs rm = true := by simpa [longForbidden, or_assoc] using bad
    have refused (product : BitVec 64) : s.multiplyLong sb rd rn rs rm product = .refused .multiplyLongOperands := by
      rw [State.multiplyLong, forbidden]
      rfl
    simp only [List.mem_cons, List.not_mem_nil, or_false] at hi
    obtain rfl | rfl | rfl | rfl := hi <;> exact (whenPassed_true passed _).trans (refused _)
  case writebackR15 =>
    obtain single | unprivileged := List.mem_append.1 hi
    · exact exec_singleForms_refused passed (singleRefusal_writebackR15 wb) i single
    · exact exec_unprivilegedForms_refused passed (singleRefusal_writebackR15 rfl) i unprivileged
  case postIndex =>
    obtain single | unprivileged := List.mem_append.1 hi
    · exact exec_singleForms_refused (ix := .post) passed (singleRefusal_postIndex base other) i single
    · exact exec_unprivilegedForms_refused passed (singleRefusal_postIndex base other) i unprivileged
  case writeBit =>
    obtain reg | imm := List.mem_append.1 hi
    · exact exec_halfwordRegForms_refused passed rfl i reg
    · exact exec_halfwordImmForms_refused passed rfl i imm
  case halfWritebackR15 =>
    obtain reg | imm := List.mem_append.1 hi
    · exact exec_halfwordRegForms_refused passed (halfwordRefusal_writebackR15 wb bit) i reg
    · exact exec_halfwordImmForms_refused passed (halfwordRefusal_writebackR15 wb bit) i imm
  case block =>
    refine ⟨exec_multiple_refused passed hx fun load => blockRefusal_empty ..,
      fun nonempty => exec_multiple_refused passed hx fun load => blockRefusal_base _ _ _ nonempty _,
      fun nonempty base usr => exec_multiple_refused passed hx fun load => ?_⟩
    rw [usr]
    exact blockRefusal_usr load w nonempty base
  case userBank =>
    obtain ⟨p, u, form, -⟩ := exec_multipleStore hx
    simp only [form, whenPassed_true passed, State.blockStm, blockRefusal_userBank (load := false) (w := true) nonempty base mode rfl,
      if_true]
  case swap =>
    have forbidden : swapForbidden rn rd rm = true := by simpa [swapForbidden, or_assoc] using bad
    have refused (k : LoadKind) : s.swap k rn rd rm = .refused .swapR15 := by
      rw [State.swap, forbidden]
      rfl
    simp only [List.mem_cons, List.not_mem_nil, or_false] at hi
    obtain rfl | rfl := hi <;> exact (whenPassed_true passed _).trans (refused _)
  case emptyList =>
    simp only [List.mem_cons, List.not_mem_nil, or_false] at hi
    obtain rfl | rfl | rfl | rfl := hi <;> rfl

end Sys2Proof.Machine
end
section
/-!
SUPPORT. THUMB formats 1, 4, 5 and 19.
-/

namespace Sys2Proof.Machine

/-! ### Formats 1 and 4 -/

/-- Settles O43: each shift is `thumbWrite` of what the ARM shifter gives. -/
theorem thumbShifts : Obligations.ThumbShifts := by
  intro s n rs rd a d x hx
  have value : exec x.1 s = s.thumbWrite rd (s.shifted x.2) := by
    simp only [List.mem_cons, List.not_mem_nil, or_false] at hx
    have rsValue : a = s.loReg rs := s.reg_eq_loReg rs
    have rdValue : d = s.loReg rd := s.reg_eq_loReg rd
    rw [rsValue, rdValue] at hx
    obtain rfl | rfl | rfl | rfl | rfl | rfl | rfl := hx <;> rfl
  rw [value]
  exact s.thumbWrite_resultIn rd (s.shifted x.2)

/-- Settles O45: beside MUL each operation is `thumbWrite` or `thumbTest` of its outcome. -/
theorem thumbAluOperations : Obligations.ThumbAluOperations := by
  intro s rs rd a d flags
  have rsValue : a = s.loReg rs := s.reg_eq_loReg rs
  have rdValue : d = s.loReg rd := s.reg_eq_loReg rd
  rw [rsValue, rdValue]
  refine ⟨fun x hx => ?logical, fun x hx => ?arithmetic, ?tst, ?cmp, s.thumbTest_flagsOnly _, fun other => ?mul, fun same => ?mulSame⟩
  case logical =>
    have value : exec x.1 s = s.thumbWrite rd (logical s.cpsr x.2 s.cpsr.c) := by
      simp only [List.mem_cons, List.not_mem_nil, or_false] at hx
      obtain rfl | rfl | rfl | rfl | rfl := hx <;> rfl
    rw [value]
    exact s.thumbWrite_resultIn rd _
  case arithmetic =>
    have value : exec x.1 s = s.thumbWrite rd x.2 := by
      simp only [List.mem_cons, List.not_mem_nil, or_false] at hx
      obtain rfl | rfl | rfl := hx <;> rfl
    rw [value]
    exact s.thumbWrite_resultIn rd _
  case tst => exact s.thumbTest_flagsOnly (logical s.cpsr (s.loReg rd &&& s.loReg rs) s.cpsr.c)
  case cmp => exact s.thumbTest_flagsOnly (addWithCarry (s.loReg rd) (~~~(s.loReg rs)) true)
  case mul =>
    obtain ⟨k, result⟩ := s.finishMul_resultIn true (lo rd) (s.loReg rs * s.loReg rd)
    rw [← mul_eq_ofNat]
    exact ⟨_, k, if_neg other, result⟩
  case mulSame => exact if_pos same

/-! ### Format 5 -/

theorem bothLow_iff (hs hd : RegNo) : bothLow hs hd = true ↔ hs.toNat < 8 ∧ hd.toNat < 8 := by
  revert hs hd
  decide

/-- Settles O46. -/
theorem thumbHiRegisters : Obligations.ThumbHiRegisters := by
  intro s hs hd thumb
  simp only [← s.reg_ite hs 4, ← s.reg_ite hd 4]
  refine ⟨fun high => ?high, fun hsLow hdLow i hi => ?low⟩
  case high =>
    have some_high : ¬ bothLow hs hd = true := by rw [bothLow_iff]; omega
    refine ⟨⟨_, if_neg some_high, s.finish_resultIn_self _ _⟩, ⟨_, if_neg some_high, s.finish_resultIn_self _ _⟩, ?_⟩
    obtain ⟨t, run, flags⟩ := s.thumbTest_flagsOnly (aluSub (s.reg 4 hd) (s.reg 4 hs) false s.cpsr)
    rw [← addWithCarry_not_true_result]
    exact ⟨t, (if_neg some_high).trans run, flags⟩
  case low =>
    have both : bothLow hs hd = true := (bothLow_iff hs hd).2 ⟨hsLow, hdLow⟩
    simp only [List.mem_cons, List.not_mem_nil, or_false] at hi
    obtain rfl | rfl | rfl := hi <;> exact if_pos both

/-! ### Format 19 -/

theorem signExtend_shiftLeft_twelve (offset : BitVec 11) : offset.signExtend 32 <<< 12 = BitVec.ofInt 32 (4096 * offset.toInt) := by
  rw [BitVec.shiftLeft_eq_mul_twoPow, BitVec.signExtend, Int.mul_comm, BitVec.ofInt_mul]
  rfl

theorem exec_tBlFirst (s : State) (high : BitVec 11) :
    exec (.tBlFirst high) s = .next (s.finish LR (s.pc + 4 + BitVec.ofInt 32 (4096 * high.toInt))) := by
  rw [← signExtend_shiftLeft_twelve]
  rfl

/-- What the second half leaves (R474). -/
theorem exec_tBlSecond {s : State} (thumb : s.cpsr.t = true) (low : BitVec 11) :
    ∃ t, exec (.tBlSecond low) s = .next t
      ∧ t.pc = halfAligned (s.reg 0 LR + BitVec.ofNat 32 (2 * low.toNat))
      ∧ t.reg 0 LR = (s.pc + 2) ||| 1 ∧ t.cpsr = s.cpsr ∧ s.KeepsRegs t [LR] ∧ s.KeepsMemory t ∧ s.KeepsSystem t := by
  have lr_ne : LR ≠ PC := by decide
  refine ⟨_, rfl, ?pc, ?link, by simp, ?regs, State.keepsMemory_of_mem (by simp), by simp [State.KeepsSystem, State.KeepsInputs]⟩
  case pc => rw [State.branch_pc, State.setReg_cpsr, thumb, alignPc_thumb, s.reg_ahead lr_ne 4 0, scaled2_eq_ofNat]
  case link => rw [State.reg_branch _ _ lr_ne, State.reg_setReg_same _ lr_ne]
  case regs => exact fun r hr => s.keepsRegs_setReg LR _ r hr

/-- Settles O53: two whole numbers of halfwords from an aligned pc. -/
theorem thumbLongBranch : Obligations.ThumbLongBranch := by
  intro s high low thumb
  have lr_ne : LR ≠ PC := by decide
  refine ⟨⟨_, exec_tBlFirst s high, s.finish_resultIn_self LR _⟩, exec_tBlSecond thumb low, fun aligned => ?_⟩
  obtain ⟨⟨arrives, -⟩, cpsr, -⟩ := s.finish_resultIn_self LR (s.pc + 4 + BitVec.ofInt 32 (4096 * high.toInt))
  obtain ⟨pc, link⟩ := arrives lr_ne
  obtain ⟨u, run, target, back, -⟩ := exec_tBlSecond (s := s.finish LR _) ((congrArg Cpsr.t cpsr).trans thumb) low
  refine ⟨_, u, exec_tBlFirst s high, run, ?target, ?back⟩
  case target =>
    have aligned_pc : halfAligned (s.pc + 4) = s.pc + 4 :=
      (halfAligned_add_ofInt s.pc 2).trans (congrArg (· + 4) (State.halfAligned_pc thumb aligned))
    have whole : s.pc + 4 + BitVec.ofInt 32 (4096 * high.toInt) + BitVec.ofNat 32 (2 * low.toNat) =
        s.pc + 4 + BitVec.ofInt 32 (2 * (2048 * high.toInt + low.toNat)) := by
      rw [BitVec.add_assoc, ← BitVec.ofInt_natCast, ← BitVec.ofInt_add]
      congr 2
      push_cast
      ring
    rw [target, link, whole, halfAligned_add_ofInt, aligned_pc]
    congr 2
    ring
  case back =>
    rw [back, pc, State.width, thumb]
    simp [BitVec.add_assoc]

end Sys2Proof.Machine
end
section
/-!
SUPPORT. The memory map (spec/20_memory.md, sections 1 and 4): what it says of an access, and the accesses to which nothing answers.
-/

namespace Sys2Proof.Machine

/-! ### What the map says of an access -/

theorem MapRegion.covers_iff (r : MapRegion) (size : AccessSize) (a : Word) :
    r.covers size a = true ↔ r.first.toNat < a.toNat + size.bytes ∧ a.toNat ≤ r.last.toNat := by
  simp [MapRegion.covers]

theorem State.mapKind_eq_none_iff (s : State) (size : AccessSize) (a : Word) :
    s.mapKind size a = none ↔ ∀ r ∈ s.memMap, ¬ r.covers size a = true := by
  rw [State.mapKind, Option.map_eq_none_iff, List.find?_eq_none]

theorem State.mapKind_some {s : State} {size : AccessSize} {a : Word} {kind : MapKind} (h : s.mapKind size a = some kind) :
    ∃ r ∈ s.memMap, r.covers size a = true ∧ r.kind = kind := by
  obtain ⟨r, found, same⟩ := Option.map_eq_some_iff.1 h
  exact ⟨r, List.mem_of_find?_eq_some found, List.find?_some (p := fun r : MapRegion => r.covers size a) found, same⟩

theorem State.mapFault_eq_some_iff (s : State) (size : AccessSize) (a : Word) (f : Fault) :
    s.mapFault size a = some f ↔ s.mapKind size a = some .nothing ∧ f = .unmappedAddress := by
  rw [State.mapFault]
  split <;> simp_all [eq_comm]

theorem State.onDevice_iff (s : State) (size : AccessSize) (a : Word) : s.onDevice size a = true ↔ s.mapKind size a = some .device := by
  rw [State.onDevice, beq_iff_eq]

theorem State.mapFault_device {s : State} {size : AccessSize} {a : Word} (h : s.onDevice size a = true) : s.mapFault size a = none := by
  rw [State.mapFault, if_neg (by rw [(s.onDevice_iff size a).1 h]; simp)]

/-! ### Fetches -/

theorem step_fetchFault {s : State} {f : Fault} (boundary : s.atBoundary.boundaryException s.sample = none)
    (current : s.prefetch.current = false) (fault : s.fetchFault = some f) : step s = .fault f := by
  have current' : s.atBoundary.prefetch.current = false := current
  have fault' : s.atBoundary.fetchFault = some f := fault
  simp only [step, boundary, current', fault', Bool.false_eq_true, if_false]

/-- The instruction fetched from a device is what the device answers (R74). -/
theorem State.fetch_device {s : State} (h : s.onDevice s.fetchSize s.pc = true) :
    s.fetch = if s.cpsr.t then decodeThumb ((Config.deviceRead s.draws s.pc).setWidth 16) else decodeArm (Config.deviceRead s.draws s.pc) := by
  unfold State.fetchSize at h
  unfold State.fetch State.readHalf State.readWord
  cases t : s.cpsr.t <;> simp_all

/-! ### Data accesses to which nothing answers -/

theorem State.swap_misses {s : State} (k : LoadKind) {rn rd rm : RegNo} {f : Fault} (hn : rn ≠ PC) (hd : rd ≠ PC) (hm : rm ≠ PC)
    (read : s.aborted .read k.size s.privileged (k.size.align (s.reg 8 rn)) = false)
    (write : s.misses .write k.size s.privileged (k.size.align (s.reg 8 rn)) f) : s.swap k rn rd rm = .fault f := by
  simp only [State.swap, swapForbidden_eq_false hn hd hm, State.loadAborts, State.storeAborts, read, write.1, write.2, Bool.or_false,
    Bool.false_eq_true, if_false]

theorem State.storeBlock_misses {s : State} {bank : Mode} {rn : RegNo} {w : Bool} {start final : Word} {list : BitVec 16} {j : Nat}
    {f : Fault} (hj : j < (regList list).length) (answered : s.blockAnswered start j)
    (misses : s.misses .write .word s.privileged (slot start j) f) : s.storeBlock bank rn w start final list = .fault f := by
  simp only [State.storeBlock, s.blockFault_write_misses _ start j f hj answered misses]

theorem State.blockStm_misses {s : State} {p u sb w : Bool} {rn : RegNo} {list : BitVec 16} {j : Nat} {f : Fault}
    (allowed : blockRefusal false sb w rn list s.cpsr.mode = none) (hj : j < (regList list).length)
    (answered : s.blockAnswered (blockStart p u (s.reg 0 rn) list) j)
    (misses : s.misses .write .word s.privileged (slot (blockStart p u (s.reg 0 rn) list) j) f) :
    s.blockStm p u sb w rn list = .fault f := by
  simp only [State.blockStm, allowed, State.storeBlock_misses hj answered misses]

theorem State.blockLdm_misses {s : State} {p u sb w : Bool} {rn : RegNo} {list : BitVec 16} {j : Nat} {f : Fault}
    (allowed : blockRefusal true sb w rn list s.cpsr.mode = none) (hj : j < (regList list).length)
    (before : s.blockAccepted .read (blockStart p u (s.reg 0 rn) list) j)
    (misses : s.misses .read .word s.privileged (slot (blockStart p u (s.reg 0 rn) list) j) f) :
    s.blockLdm p u sb w rn list = .fault f := by
  simp only [State.blockLdm, allowed, s.blockFault_misses .read _ _ j f hj before misses]

theorem ne_zero_of_lt_regList {list : BitVec 16} {j : Nat} (h : j < (regList list).length) : list ≠ 0 := by
  rintro rfl
  have none : (regList 0).length = 0 := by decide
  omega

theorem State.thumbPush_misses {s : State} {list : BitVec 16} {j : Nat} {f : Fault} (hj : j < (regList list).length)
    (answered : s.blockAnswered (s.reg 0 SP - blockBytes list) j)
    (misses : s.misses .write .word s.privileged (slot (s.reg 0 SP - blockBytes list) j) f) : s.thumbPush list = .fault f :=
  (State.thumbPush_eq (ne_zero_of_lt_regList hj)).trans (State.storeBlock_misses hj answered misses)

theorem State.thumbLoadMultiple_misses {s : State} {rb : RegNo} {list : BitVec 16} {j : Nat} {f : Fault} (rb_ne : rb ≠ PC)
    (hj : j < (regList list).length) (before : s.blockAccepted .read (s.reg 0 rb) j)
    (misses : s.misses .read .word s.privileged (slot (s.reg 0 rb) j) f) : s.thumbLoadMultiple rb list = .fault f := by
  rw [s.reg_ahead rb_ne 0 4] at before misses
  simp only [State.thumbLoadMultiple, if_neg (ne_zero_of_lt_regList hj), blockStart, s.blockFault_misses .read _ _ j f hj before misses]

/-- A THUMB load or store makes the access of its kind and size at its address. -/
theorem exec_thumbTransfer_transfers (s : State) (ro rb rd : LoReg) (o5 : BitVec 5) (word8 : BitVec 8)
    {x : Instr × AccessKind × AccessSize × Word}
    (hx : let base := s.reg 0 (lo rb)
      let indexed := base + s.reg 0 (lo ro)
      let k8 : Word := BitVec.ofNat 32 (4 * word8.toNat)
      x ∈ [(Instr.tLdrPc rd word8, AccessKind.read, AccessSize.word, ((s.pc + 4) &&& 0xFFFFFFFC#32) + k8),
                (.tLdrReg ro rb rd, .read, .word, indexed), (.tLdrbReg ro rb rd, .read, .byte, indexed),
                (.tLdsbReg ro rb rd, .read, .byte, indexed), (.tLdrhReg ro rb rd, .read, .half, indexed),
                (.tLdshReg ro rb rd, .read, .half, indexed),
                (.tLdrImm o5 rb rd, .read, .word, base + BitVec.ofNat 32 (4 * o5.toNat)),
                (.tLdrbImm o5 rb rd, .read, .byte, base + BitVec.ofNat 32 o5.toNat),
                (.tLdrhImm o5 rb rd, .read, .half, base + BitVec.ofNat 32 (2 * o5.toNat)),
                (.tLdrSp rd word8, .read, .word, s.reg 0 SP + k8),
                (.tStrReg ro rb rd, .write, .word, indexed), (.tStrbReg ro rb rd, .write, .byte, indexed),
                (.tStrhReg ro rb rd, .write, .half, indexed),
                (.tStrImm o5 rb rd, .write, .word, base + BitVec.ofNat 32 (4 * o5.toNat)),
                (.tStrbImm o5 rb rd, .write, .byte, base + BitVec.ofNat 32 o5.toNat),
                (.tStrhImm o5 rb rd, .write, .half, base + BitVec.ofNat 32 (2 * o5.toNat)),
                (.tStrSp rd word8, .write, .word, s.reg 0 SP + k8)])
    (even : x.2.2.1 = .half → x.2.2.2[0] = false) :
    s.Transfers s.privileged x.2.2.2 (writebackIf false 0 0) x.2.1 x.2.2.1 (exec x.1 s) := by
  obtain ⟨ldr, ldrb, ldsb, ldrh, ldsh, str, strb, strh⟩ := exec_registerOffset s ro rb rd
  simp only [List.mem_cons, List.not_mem_nil, or_false] at hx
  obtain rfl | rfl | rfl | rfl | rfl | rfl | rfl | rfl | rfl | rfl | rfl | rfl | rfl | rfl | rfl | rfl | rfl := hx
  · exact .of_eq (exec_tLdrPc s rd word8) (State.thumbLoad_transfers (k := .word) nofun)
  · exact .of_eq ldr (State.thumbLoad_transfers (k := .word) nofun)
  · exact .of_eq ldrb (State.thumbLoad_transfers (k := .byte) nofun)
  · exact .of_eq ldsb (State.thumbLoad_transfers (k := .signedByte) nofun)
  · exact .of_eq ldrh (State.thumbLoad_transfers (k := .half) even)
  · exact .of_eq ldsh (State.thumbLoad_transfers (k := .signedHalf) even)
  · exact .of_eq (exec_tLdrImm s rb rd o5) (State.thumbLoad_transfers (k := .word) nofun)
  · exact .of_eq (exec_tLdrbImm s rb rd o5) (State.thumbLoad_transfers (k := .byte) nofun)
  · exact .of_eq (exec_tLdrhImm s rb rd o5) (State.thumbLoad_transfers (k := .half) even)
  · exact .of_eq (exec_tLdrSp s rd word8) (State.thumbLoad_transfers (k := .word) nofun)
  · exact .of_eq str (State.thumbStore_transfers (size := .word) nofun)
  · exact .of_eq strb (State.thumbStore_transfers (size := .byte) nofun)
  · exact .of_eq strh (State.thumbStore_transfers (size := .half) even)
  · exact .of_eq (exec_tStrImm s rb rd o5) (State.thumbStore_transfers (size := .word) nofun)
  · exact .of_eq (exec_tStrbImm s rb rd o5) (State.thumbStore_transfers (size := .byte) nofun)
  · exact .of_eq (exec_tStrhImm s rb rd o5) (State.thumbStore_transfers (size := .half) even)
  · exact .of_eq (exec_tStrSp s rd word8) (State.thumbStore_transfers (size := .word) nofun)

/-- Settles O29: the map by its regions, fetches by the order of the step's tests, data accesses by the fault of their transfer. -/
theorem memoryMapAccesses : Obligations.MemoryMapAccesses := by
  intro s f meets size
  have fetchSize : s.fetchSize = size := rfl
  have covers (r : MapRegion) (size : AccessSize) (a : Word) : r.covers size a = true ↔ meets r size a := r.covers_iff size a
  refine ⟨fun size a => ?_, fun size a kind h => ?_, fun size a => ⟨s.mapFault_eq_some_iff size a f, s.onDevice_iff size a⟩,
    fun reset fiq irq fetch current => ⟨fun fault => ?_, fun device => ⟨Config.deviceRead s.draws s.pc, ?_⟩⟩,
    fun c u rn rd rm off imm8 passed => ⟨fun ix allowed x hx misses => ?plain, fun allowed x hx misses => ?unprivileged,
      fun p w x hx => ?halfword, fun hn hd hm x hx read write => ?swap,
      fun sb w list j => fun hj => ⟨fun allowed x hx before misses => ?ldm, fun allowed x hx answered misses => ?stm⟩⟩,
    fun ro rb rd o5 word8 list => ⟨fun x hx even misses => ?thumb, fun x hx j hj => ?push, fun j hj answered misses => ?stmia,
      fun x hx j hj before misses => ?pop⟩⟩
  · simp only [State.mapKind_eq_none_iff, covers]
  · simpa only [covers] using State.mapKind_some h
  · exact step_fetchFault (State.boundaryException_none reset fiq irq fetch) current fault
  · intro i hazard
    have device' : s.atBoundary.onDevice s.atBoundary.fetchSize s.atBoundary.pc = true := device
    have fetched : s.atBoundary.fetch = i := State.fetch_device device'
    rw [step_runs (State.boundaryException_none reset fiq irq fetch) current (State.mapFault_device device)
      (by rw [fetched]; exact hazard), fetched, State.afterRead, if_pos (show s.atBoundary.onDevice s.fetchSize s.pc = true from device')]
    rfl
  case plain => exact (exec_singleForm_transfers passed allowed hx).misses misses
  case unprivileged => exact (exec_unprivilegedForm_transfers passed allowed hx).misses misses
  case halfword =>
    intro a allowed even misses
    have not_word : x.2.2.2.2 ≠ .word := by
      simp only [List.mem_cons, List.not_mem_nil, or_false] at hx
      obtain rfl | rfl | rfl | rfl | rfl | rfl | rfl | rfl := hx <;> nofun
    rw [← AccessSize.align_even not_word even] at misses
    have rows : x ∈ [(Instr.ldrhReg c p u w rn rd rm, AccessKind.read, AccessSize.half), (.ldrsbReg c p u w rn rd rm, .read, .byte),
        (.ldrshReg c p u w rn rd rm, .read, .half), (.strhReg c p u w rn rd rm, .write, .half)].map (some rm, s.reg 8 rm, ·)
      ++ [(Instr.ldrhImm c p u w rn rd imm8, AccessKind.read, AccessSize.half), (.ldrsbImm c p u w rn rd imm8, .read, .byte),
        (.ldrshImm c p u w rn rd imm8, .read, .half), (.strhImm c p u w rn rd imm8, .write, .half)].map (none, imm8.setWidth 32, ·) := hx
    rw [List.mem_append, List.mem_map, List.mem_map] at rows
    obtain ⟨y, hy, rfl⟩ | ⟨y, hy, rfl⟩ := rows
    · exact (exec_halfwordRegForm_transfers passed allowed hy even).misses misses
    · exact (exec_halfwordImmForm_transfers passed allowed hy even).misses misses
  case swap =>
    simp only [List.mem_cons, List.not_mem_nil, or_false] at hx
    obtain rfl | rfl := hx
    · exact (whenPassed_true passed _).trans (State.swap_misses .word hn hd hm read write)
    · exact (whenPassed_true passed _).trans (State.swap_misses .byte hn hd hm read write)
  case ldm =>
    obtain ⟨p, u, form, start, -⟩ := exec_multipleLoad hx
    rw [start] at before misses
    rw [form, whenPassed_true passed]
    exact State.blockLdm_misses allowed hj before misses
  case stm =>
    obtain ⟨p, u, form, start, -⟩ := exec_multipleStore hx
    rw [start] at answered misses
    rw [form, whenPassed_true passed]
    exact State.blockStm_misses allowed hj answered misses
  case thumb => exact (exec_thumbTransfer_transfers s ro rb rd o5 word8 hx even).misses misses
  case push =>
    intro start answered misses
    have form : exec x.1 s = s.thumbPush x.2 := by
      simp only [List.mem_cons, List.not_mem_nil, or_false] at hx
      obtain rfl | rfl := hx <;> rfl
    exact form.trans (State.thumbPush_misses hj answered misses)
  case stmia =>
    show execTStmia rb list s = _
    have nonempty : loList list ≠ 0 := ne_zero_of_lt_regList hj
    rw [execTStmia, if_neg nonempty, State.loReg, s.reg_lo]
    exact State.storeBlock_misses hj answered misses
  case pop =>
    obtain ⟨form, rb_ne⟩ : exec x.1 s = s.thumbLoadMultiple x.2.1 x.2.2 ∧ x.2.1 ≠ PC := by
      have sp_ne : SP ≠ PC := by decide
      simp only [List.mem_cons, List.not_mem_nil, or_false] at hx
      obtain rfl | rfl | rfl := hx
      · exact ⟨rfl, sp_ne⟩
      · exact ⟨rfl, sp_ne⟩
      · exact ⟨rfl, lo_ne_pc rb⟩
    exact form.trans (State.thumbLoadMultiple_misses rb_ne hj before misses)

end Sys2Proof.Machine
end
section
/-!
SUPPORT. The two program hazards (spec/20_memory.md, section 6; spec/70_reset_and_hazards.md, section 3): stored bytes mark the
prefetched instructions, the marks move with the pc, and a banked register named after a user-bank LDM stops the step.
-/

namespace Sys2Proof.Machine

/-! ### Marks of the bytes stored -/

/-- If the byte at `b` belongs to one of the two instructions after the one of `s`, then `u` has the mark of that instruction (R98). -/
def State.Marks (s u : State) (b : Word) : Prop :=
  let w := s.width.toNat
  let d := (b - s.pc).toNat
  (w ≤ d → d < 2 * w → u.prefetch.following = true) ∧ (2 * w ≤ d → d < 3 * w → u.prefetch.afterNext = true)

/-- Every mark of `u` stands in `v`. -/
def State.KeepsMarks (u v : State) : Prop :=
  (u.prefetch.following = true → v.prefetch.following = true) ∧ (u.prefetch.afterNext = true → v.prefetch.afterNext = true)

section Marks
variable {s u v : State} {b : Word}

theorem State.KeepsMarks.trans {x : State} (h : u.KeepsMarks v) (h' : v.KeepsMarks x) : u.KeepsMarks x :=
  ⟨fun m => h'.1 (h.1 m), fun m => h'.2 (h.2 m)⟩

theorem State.Marks.mono (h : s.Marks u b) (keeps : u.KeepsMarks v) : s.Marks v b :=
  ⟨fun low high => keeps.1 (h.1 low high), fun low high => keeps.2 (h.2 low high)⟩

/-- Where a mark is counted from is the pc and the width alone. -/
theorem State.Marks.of_same {x : State} (h : x.Marks u b) (pc : x.pc = s.pc) (cpsr : x.cpsr = s.cpsr) : s.Marks u b := by
  simpa only [State.Marks, State.width, pc, cpsr] using h

theorem State.putByte_keepsMarks (s : State) (a : Word) (x : Byte) : s.KeepsMarks (s.putByte a x) := by
  simp only [State.KeepsMarks, State.putByte_prefetch, Prefetch.overwrite]
  split
  · simp
  · split <;> simp

theorem State.putByte_marks (s : State) (a : Word) (x : Byte) : s.Marks (s.putByte a x) a := by
  simp only [State.Marks, State.putByte_prefetch, Prefetch.overwrite]
  refine ⟨fun low high => ?_, fun low high => ?_⟩
  · rw [if_pos ⟨low, high⟩]
  · rw [if_neg (by omega), if_pos ⟨low, high⟩]

theorem State.putBytes_keepsMarks (s : State) (a : Word) (bs : List Byte) : s.KeepsMarks (s.putBytes a bs) := by
  induction bs generalizing s a with
  | nil => exact ⟨id, id⟩
  | cons x rest ih => exact (s.putByte_keepsMarks a x).trans (ih (s.putByte a x) (a + 1))

theorem State.putBytes_marks (s : State) (a b : Word) (bs : List Byte) (h : (b - a).toNat < bs.length) : s.Marks (s.putBytes a bs) b := by
  induction bs generalizing s a with
  | nil => simp at h
  | cons x rest ih =>
    by_cases first : b = a
    · subst first
      exact (s.putByte_marks b x).mono (State.putBytes_keepsMarks _ _ rest)
    · have later : (b - (a + 1)).toNat < rest.length := by
        have nonzero : (b - a).toNat ≠ 0 := fun zero => first (by bv_omega)
        rw [List.length_cons] at h
        bv_omega
      exact State.Marks.of_same (ih (s.putByte a x) (a + 1) later) rfl rfl

theorem State.storeValue_keepsMarks (s : State) (size : AccessSize) (a v : Word) : s.KeepsMarks (s.storeValue size a v) :=
  s.putBytes_keepsMarks (size.align a) (storedBytes s.bigend size v)

/-- A store marks the bytes it is made to, whatever it stores and wherever it goes (R98). -/
theorem State.storeValue_marks (s : State) (size : AccessSize) (a v b : Word) (h : (b - size.align a).toNat < size.bytes) :
    s.Marks (s.storeValue size a v) b :=
  s.putBytes_marks (size.align a) b (storedBytes s.bigend size v) (by rwa [storedBytes_length])

end Marks

/-! ### What a store instruction does before it moves on -/

/-- What a store instruction has done when it moves on: the bytes that changed are marked. -/
structure State.Stores (s u : State) : Prop where
  pc : u.pc = s.pc
  cpsr : u.cpsr = s.cpsr
  aborts : u.aborts = s.aborts
  inputs : u.inputs = s.inputs
  marks : ∀ b, s.byteAt b ≠ u.byteAt b → s.Marks u b

/-- A result whose next state is one stores led to, moved on. -/
def State.StoresIn (s : State) (r : Result) : Prop :=
  ∀ t, r = .next t → ∃ u, s.Stores u ∧ t = u.advance

theorem State.aborted_nil {s : State} (h : s.aborts = []) (kind : AccessKind) (size : AccessSize) (privileged : Bool) (a : Word) :
    s.aborted kind size privileged a = false := by
  simp [State.aborted, h]

section Stores
variable {s u v : State}

theorem State.Stores.refl (s : State) : s.Stores s :=
  ⟨rfl, rfl, rfl, rfl, fun _ changed => absurd rfl changed⟩

theorem State.Stores.congr (h : s.Stores u) (pc : v.pc = u.pc) (cpsr : v.cpsr = u.cpsr) (aborts : v.aborts = u.aborts)
    (inputs : v.inputs = u.inputs) (mem : v.mem = u.mem) (prefetch : v.prefetch = u.prefetch) : s.Stores v := by
  refine ⟨pc.trans h.pc, cpsr.trans h.cpsr, aborts.trans h.aborts, inputs.trans h.inputs, fun b changed => ?_⟩
  rw [State.byteAt_congr mem] at changed
  exact (h.marks b changed).mono (by simp [State.KeepsMarks, prefetch])

theorem State.Stores.setReg (h : s.Stores u) (rd : RegNo) (x : Word) : s.Stores (u.setReg rd x) :=
  h.congr (by simp) (by simp) (by simp) (by simp) (by simp) (by simp)

theorem State.Stores.writeBack (h : s.Stores u) (wb : Writeback) : s.Stores (u.writeBack wb) := by
  cases wb with
  | none => exact h
  | some x => exact h.setReg x.1 x.2

theorem State.Stores.afterRead (h : s.Stores u) (size : AccessSize) (a : Word) : s.Stores (u.afterRead size a) :=
  h.congr (by simp) (by simp) (by simp) (by simp) (by simp) (by simp)

/-- A byte that a store changes is one it is made to. -/
theorem State.Stores.storeValue (h : s.Stores u) (size : AccessSize) (a x : Word) : s.Stores (u.storeValue size a x) := by
  refine ⟨by simpa using h.pc, by simpa using h.cpsr, by simpa using h.aborts, by simpa using h.inputs, fun b changed => ?_⟩
  by_cases inside : (b - size.align a).toNat < size.bytes
  · exact (u.storeValue_marks size a x b inside).of_same h.pc h.cpsr
  · rw [u.byteAt_storeValue_ne size a x b (by omega)] at changed
    exact (h.marks b changed).mono (u.storeValue_keepsMarks size a x)

theorem State.Stores.storeWords (quiet : s.aborts = []) (h : s.Stores u) (vs : List Word) (a : Word) :
    s.Stores (u.storeWords vs a).1 ∧ (u.storeWords vs a).2 = false := by
  induction vs generalizing u a with
  | nil => exact ⟨h, rfl⟩
  | cons x rest ih =>
    simp only [State.storeWords, State.aborted_nil (h.aborts.trans quiet), Bool.false_eq_true, if_false]
    exact ih (h.storeValue .word a x) (a + 4)

end Stores

/-! ### The operations that store, where no abort region is in force -/

section Operations
variable {s : State}

theorem State.storesIn_refused (s : State) (r : Refusal) : s.StoresIn (.refused r) :=
  fun _ h => by simp at h

theorem State.storesIn_fault (s : State) (f : Fault) : s.StoresIn (.fault f) :=
  fun _ h => by simp at h

theorem State.Stores.next {u : State} (h : s.Stores u) : s.StoresIn (.next u.advance) := by
  rintro _ ⟨⟩
  exact ⟨u, h, rfl⟩

theorem State.StoresIn.whenPassed {r : Result} (h : s.StoresIn r) (c : Cond) : s.StoresIn (whenPassed c s r) := by
  obtain ⟨-, e⟩ | ⟨-, e⟩ := whenPassed_cases (c := c) (s := s) (e := r) rfl
  · exact e ▸ h
  · exact e ▸ (State.Stores.refl s).next

variable (quiet : s.aborts = [])
include quiet

/-- A single store marks the bytes it is made to, whatever it stores. -/
theorem State.storeSingle_marks {size : AccessSize} {privileged : Bool} {ahead a : Word} {wb : Writeback} {rd : RegNo} {t : State}
    (h : s.storeSingle size privileged ahead a wb rd = .next t) :
    ∃ u, s.Stores u ∧ t = u.advance ∧ ∀ b, (b - size.align a).toNat < size.bytes → s.Marks u b := by
  obtain ⟨aborts, -⟩ | ⟨-, f, -, e⟩ | ⟨-, -, e⟩ := State.storeSingle_cases h
  · rw [State.storeAborts, State.aborted_nil quiet] at aborts
    cases aborts
  · cases e
  · cases e
    refine ⟨_, ((State.Stores.refl s).storeValue size a (s.reg ahead rd)).writeBack wb, rfl, fun b inside => ?_⟩
    exact (s.storeValue_marks size a (s.reg ahead rd) b inside).mono (by simp [State.KeepsMarks])

theorem State.storeSingle_storesIn (size : AccessSize) (privileged : Bool) (ahead a : Word) (wb : Writeback) (rd : RegNo) :
    s.StoresIn (s.storeSingle size privileged ahead a wb rd) := fun _ h =>
  let ⟨u, stores, moved, _⟩ := State.storeSingle_marks quiet h
  ⟨u, stores, moved⟩

theorem State.singleStore_storesIn (size : AccessSize) (privileged p u w : Bool) (rn rd : RegNo) (off : Offset) :
    s.StoresIn (s.singleStore size privileged p u w rn rd off) := by
  unfold State.singleStore
  split
  · exact s.storesIn_refused _
  · exact State.storeSingle_storesIn quiet _ _ _ _ _ _

theorem State.halfwordStore_storesIn (p u w : Bool) (rn rd : RegNo) (rm : Option RegNo) (offset : Word) :
    s.StoresIn (s.halfwordStore p u w rn rd rm offset) := by
  unfold State.halfwordStore
  split
  · exact s.storesIn_refused _
  · split
    · exact s.storesIn_refused _
    · exact State.storeSingle_storesIn quiet _ _ _ _ _ _

theorem State.thumbStore_storesIn (size : AccessSize) (a : Word) (rd : LoReg) : s.StoresIn (s.thumbStore size a rd) := by
  unfold State.thumbStore
  split
  · exact s.storesIn_refused _
  · exact State.storeSingle_storesIn quiet _ _ _ _ _ _

theorem State.swap_storesIn (k : LoadKind) (rn rd rm : RegNo) : s.StoresIn (s.swap k rn rd rm) := by
  obtain ⟨-, e⟩ | ⟨-, aborts, -⟩ | ⟨-, -, f, -, e⟩ | ⟨-, -, -, e⟩ :=
    State.swap_cases (s := s) (k := k) (rn := rn) (rd := rd) (rm := rm) rfl
  · exact e ▸ s.storesIn_refused _
  · rw [State.loadAborts, State.storeAborts, State.aborted_nil quiet, State.aborted_nil quiet] at aborts
    cases aborts
  · exact e ▸ s.storesIn_fault f
  · exact e ▸ ((((State.Stores.refl s).storeValue _ _ _).afterRead _ _).setReg rd _).next

theorem State.storeBlock_storesIn (bank : Mode) (rn : RegNo) (w : Bool) (start final : Word) (list : BitVec 16) :
    s.StoresIn (s.storeBlock bank rn w start final list) := by
  obtain ⟨f, -, e⟩ | ⟨-, e⟩ := State.storeBlock_cases (s := s) (bank := bank) (rn := rn) (w := w) (start := start) (final := final)
    (list := list) rfl
  · exact e ▸ s.storesIn_fault f
  · obtain ⟨stores, accepted⟩ :=
      State.Stores.storeWords quiet (.refl s) ((regList list).map (s.blockOperand bank rn w final list)) start
    rw [e, State.blockStore]
    simp only [accepted, Bool.false_eq_true, if_false]
    cases w with
    | false => exact stores.next
    | true => exact (stores.setReg rn final).next

theorem State.blockStm_storesIn (p u sb w : Bool) (rn : RegNo) (list : BitVec 16) : s.StoresIn (s.blockStm p u sb w rn list) := by
  unfold State.blockStm
  split
  · exact s.storesIn_refused _
  · exact State.storeBlock_storesIn quiet _ _ _ _ _ _

theorem State.thumbPush_storesIn (list : BitVec 16) : s.StoresIn (s.thumbPush list) := by
  unfold State.thumbPush
  split
  · exact s.storesIn_refused _
  · exact State.storeBlock_storesIn quiet _ _ _ _ _ _

/-- A store instruction moves on with the bytes it changed marked. -/
theorem exec_storesIn {i : Instr} (hi : storesMemory i = true) : s.StoresIn (exec i s) := by
  cases i
  case swp c rn rd rm | swpb c rn rd rm => exact (State.swap_storesIn quiet _ rn rd rm).whenPassed c
  case strhReg c p u w rn rd _ | strhImm c p u w rn rd _ => exact (State.halfwordStore_storesIn quiet p u w rn rd _ _).whenPassed c
  case strt c u rn rd off | strbt c u rn rd off => exact (State.singleStore_storesIn quiet _ false false u false rn rd off).whenPassed c
  case str c u ix rn rd off | strb c u ix rn rd off => exact (State.singleStore_storesIn quiet _ _ ix.p u ix.w rn rd off).whenPassed c
  case stmia c sb w rn list | stmib c sb w rn list | stmda c sb w rn list | stmdb c sb w rn list =>
    exact (State.blockStm_storesIn quiet _ _ sb w rn list).whenPassed c
  case tStrReg _ _ rd | tStrImm _ _ rd => exact State.thumbStore_storesIn quiet .word _ rd
  case tStrSp rd _ => exact State.thumbStore_storesIn quiet .word _ rd
  case tStrbReg _ _ rd | tStrbImm _ _ rd => exact State.thumbStore_storesIn quiet .byte _ rd
  case tStrhReg _ _ rd | tStrhImm _ _ rd => exact State.thumbStore_storesIn quiet .half _ rd
  case tPush | tPushLr => exact State.thumbPush_storesIn quiet _
  case tStmia rb list =>
    change s.StoresIn (execTStmia rb list s)
    unfold execTStmia
    split
    · exact s.storesIn_refused _
    · exact State.storeBlock_storesIn quiet _ _ _ _ _ _
  all_goals cases hi

/-- STR and STRB without an offset mark the bytes at the base. -/
theorem State.singleStore_marks {size : AccessSize} {rn rd : RegNo} {t : State}
    (h : s.singleStore size s.privileged true true false rn rd (.imm 0) = .next t) :
    ∃ u, s.Stores u ∧ t = u.advance ∧ ∀ b, (b - size.align (s.reg 8 rn)).toNat < size.bytes → s.Marks u b := by
  obtain ⟨x, -, e⟩ | ⟨-, e⟩ := State.singleStore_cases h
  · cases e
  · have base : transferAddress true true (s.reg 8 rn) (s.offsetValue (.imm 0)) = s.reg 8 rn := by
      simp [transferAddress, modifiedBase, State.offsetValue]
    rw [base] at e
    exact State.storeSingle_marks quiet e

theorem State.thumbStore_marks {size : AccessSize} {a : Word} {rd : LoReg} {t : State} (h : s.thumbStore size a rd = .next t) :
    ∃ u, s.Stores u ∧ t = u.advance ∧ ∀ b, (b - size.align a).toNat < size.bytes → s.Marks u b := by
  unfold State.thumbStore at h
  split at h
  · cases h
  · exact State.storeSingle_marks quiet h

end Operations

/-! ### The marks move with the pc -/

section Step
variable {s t u : State}

theorem State.boundaryException_quiet (inputs : s.inputs = []) (aborts : s.aborts = []) :
    s.atBoundary.boundaryException s.sample = none := by
  have sample : s.sample = Sample.quiet := by simp [State.sample, inputs]
  refine State.boundaryException_none (by rw [sample]; rfl) (by rw [sample]; nofun) (by rw [sample]; nofun) ?_
  exact State.aborted_nil (by rw [State.atBoundary, sample]; exact aborts) ..

theorem State.atBoundary_quiet (inputs : s.inputs = []) : s.atBoundary = s := by
  have sample : s.sample = Sample.quiet := by simp [State.sample, inputs]
  rw [State.atBoundary, sample, inputs, List.tail_nil, ← inputs]
  rfl

theorem step_marked (inputs : s.inputs = []) (aborts : s.aborts = []) (current : s.prefetch.current = true) :
    step s = .fault .overwrittenPrefetch := by
  simp only [step, State.boundaryException_quiet inputs aborts, State.atBoundary_prefetch, current, if_true]

/-- The pc moved on, and with it the marks; the inputs and the abort regions are kept. -/
def State.MovesOn (s t : State) : Prop :=
  t.prefetch = s.prefetch.shift ∧ t.inputs = s.inputs ∧ t.aborts = s.aborts

theorem whenPassed_movesOn {r : Result} {c : Cond} (h : ∀ t, r = .next t → s.MovesOn t) (e : whenPassed c s r = .next t) : s.MovesOn t := by
  obtain ⟨-, passed⟩ | ⟨-, failed⟩ := whenPassed_cases e
  · exact h t passed
  · cases failed
    exact ⟨rfl, rfl, rfl⟩

theorem State.finish_movesOn (h : u.prefetch = s.prefetch ∧ u.inputs = s.inputs ∧ u.aborts = s.aborts) {rd : RegNo} (rd_ne : rd ≠ PC)
    (v : Word) : s.MovesOn (u.finish rd v) := by
  obtain ⟨prefetch, inputs, aborts⟩ := h
  rw [State.finish, if_neg rd_ne]
  exact ⟨by simp [prefetch], by simp [inputs], by simp [aborts]⟩

theorem exec_writingOpcode_movesOn {x : (Cond → Bool → RegNo → RegNo → Operand2 → Instr) × AluOp} (hx : x ∈ writingOpcodes) {c : Cond}
    {sb : Bool} {rn rd : RegNo} {op2 : Operand2} (rd_ne : rd ≠ PC) (h : exec (x.1 c sb rn rd op2) s = .next t) : s.MovesOn t := by
  rw [exec_writingOpcode hx] at h
  refine whenPassed_movesOn (fun t run => ?_) h
  obtain ⟨-, e⟩ | ⟨-, -, pc, -⟩ | ⟨-, -, -, e⟩ | ⟨-, -, e⟩ := State.dataProcess_cases run
  · cases e
  · exact absurd pc rd_ne
  · cases e
    exact State.finish_movesOn ⟨rfl, rfl, rfl⟩ rd_ne _
  · cases e
    exact State.finish_movesOn ⟨rfl, rfl, rfl⟩ rd_ne _

theorem exec_tMovHi_movesOn {hs hd : RegNo} (hd_ne : hd ≠ PC) (h : exec (.tMovHi hs hd) s = .next t) : s.MovesOn t := by
  change execTMovHi hs hd s = .next t at h
  unfold execTMovHi at h
  split at h
  · cases h
  · cases h
    exact State.finish_movesOn ⟨rfl, rfl, rfl⟩ hd_ne _

/-- The instruction that a quiet step runs. -/
theorem step_next_quiet (inputs : s.inputs = []) (aborts : s.aborts = []) (h : step s = .next t) :
    exec s.fetch { s.afterRead s.fetchSize s.pc with bankHazard := false } = .next t := by
  have none := State.boundaryException_quiet inputs aborts
  obtain ⟨u, taken, -⟩ | ⟨-, -, e⟩ | ⟨-, -, f, -, e⟩ | ⟨-, -, -, -, e⟩ | ⟨-, -, -, -, run⟩ := step_cases h
  · rw [none] at taken
    cases taken
  · cases e
  · cases e
  · cases e
  · rwa [State.atBoundary_quiet inputs] at run

end Step

/-! ### The hazard after a user-bank LDM -/

theorem step_bankHazard {s : State} (boundary : s.atBoundary.boundaryException s.sample = none) (current : s.prefetch.current = false)
    (answered : s.fetchFault = none) (hits : s.atBoundary.hitsBankHazard s.atBoundary.fetch = true) :
    step s = .fault .bankedRegisterAfterUserLdm := by
  have current' : s.atBoundary.prefetch.current = false := current
  have answered' : s.atBoundary.fetchFault = none := answered
  simp only [step, boundary, current', answered', hits, Bool.false_eq_true, if_false, if_true]

theorem bankedIn_iff (m : Mode) (r : RegNo) : bankedIn m r = true ↔ physReg m r ≠ physReg .usr r :=
  bne_iff_ne

/-- What the last clause of the statement says of an instruction and the registers it names. -/
def State.Stops (s : State) (i : Instr) (named : List RegNo) : Prop :=
  decodeArm (s.wordAt s.pc) = i →
    ((∃ r ∈ named, physReg s.cpsr.mode r ≠ physReg .usr r) → step s = .fault .bankedRegisterAfterUserLdm)
    ∧ ((∀ r ∈ named, physReg s.cpsr.mode r = physReg .usr r) → step s = exec i { s with bankHazard := false })

section Hazard
variable {s : State} (inputs : s.inputs = []) (aborts : s.aborts = []) (current : s.prefetch.current = false)
  (memory : s.mapKind .word s.pc = none) (hazard : s.bankHazard = true) (arm : s.cpsr.t = false)
include inputs aborts current memory hazard arm

/-- In a marked state an executed ARM instruction stops where a register it touches is banked, and runs where none is (R551). -/
theorem State.stops_of_touched {i : Instr} {c : Cond} (passed : condPassed c s.cpsr = true) (cond : conditionOf i = some c)
    {named : List RegNo} (touched : touchedRegs s.cpsr.mode i = named) : s.Stops i named := by
  intro decoded
  have size : s.fetchSize = .word := by rw [State.fetchSize, arm]; rfl
  obtain ⟨noDevice, answered⟩ : s.onDevice s.fetchSize s.pc = false ∧ s.fetchFault = none :=
    State.mapKind_none (by rw [size]; exact memory)
  have quiet : s.atBoundary = s := State.atBoundary_quiet inputs
  have none := State.boundaryException_quiet inputs aborts
  have fetched : s.fetch = i := by rw [State.fetch_memory noDevice, arm, ← decoded]; rfl
  have hits : s.hitsBankHazard s.fetch = named.any (bankedIn s.cpsr.mode) := by
    simp only [State.hitsBankHazard, fetched, hazard, isExecuted, cond, passed, touched, Bool.true_and]
  refine ⟨fun banked => ?_, fun plain => ?_⟩
  · have stop : s.hitsBankHazard s.fetch = true := by
      simpa only [hits, List.any_eq_true, bankedIn_iff] using banked
    exact step_bankHazard none current answered (by rwa [quiet])
  · have go : s.atBoundary.hitsBankHazard s.atBoundary.fetch = false := by
      simpa only [quiet, hits, List.any_eq_false, bankedIn_iff, not_not] using plain
    rw [step_runs none current answered go, quiet, fetched, State.afterRead_memory noDevice]

end Hazard

/-! ### The statement -/

/-- An instruction that changes a byte, or stores to it by one of the four plain stores, moves on with the mark of that byte. -/
theorem exec_marks {i : Instr} {s t : State} {b : Word} (run : exec i s = .next t) (quiet : s.aborts = [])
    (touched : s.byteAt b ≠ t.byteAt b
      ∨ (∃ rn rd, i = .str .al true (.pre false) rn rd (.imm 0) ∧ (b - wordAligned (s.reg 8 rn)).toNat < 4)
      ∨ (∃ rn rd, i = .strb .al true (.pre false) rn rd (.imm 0) ∧ b = s.reg 8 rn)
      ∨ (∃ ro rb rd, i = .tStrReg ro rb rd ∧ (b - wordAligned (s.reg 0 (lo rb) + s.reg 0 (lo ro))).toNat < 4)
      ∨ (∃ ro rb rd, i = .tStrbReg ro rb rd ∧ b = s.reg 0 (lo rb) + s.reg 0 (lo ro))) :
    ∃ u, s.Stores u ∧ t = u.advance ∧ s.Marks u b := by
  obtain changed | ⟨rn, rd, rfl, near⟩ | ⟨rn, rd, rfl, at_base⟩ | ⟨ro, rb, rd, rfl, near⟩ | ⟨ro, rb, rd, rfl, at_sum⟩ := touched
  case inl =>
    have stores : storesMemory i = true := by
      rw [← Bool.not_eq_false]
      exact fun none => changed (onlyStoresChangeMemory i s t none run b).symm
    obtain ⟨u, stored, rfl⟩ := exec_storesIn quiet stores t run
    exact ⟨u, stored, rfl, stored.marks b changed⟩
  case inr.inl =>
    obtain ⟨u, stored, moved, marks⟩ := State.singleStore_marks (size := .word) quiet run
    exact ⟨u, stored, moved, marks b near⟩
  case inr.inr.inl =>
    obtain ⟨u, stored, moved, marks⟩ := State.singleStore_marks (size := .byte) quiet run
    exact ⟨u, stored, moved, marks b (by simp [at_base, AccessSize.align, AccessSize.bytes])⟩
  case inr.inr.inr.inl =>
    obtain ⟨-, -, -, -, -, str, -, -⟩ := exec_registerOffset s ro rb rd
    obtain ⟨u, stored, moved, marks⟩ := State.thumbStore_marks quiet (str.symm.trans run)
    exact ⟨u, stored, moved, marks b near⟩
  case inr.inr.inr.inr =>
    obtain ⟨-, -, -, -, -, -, strb, -⟩ := exec_registerOffset s ro rb rd
    obtain ⟨u, stored, moved, marks⟩ := State.thumbStore_marks quiet (strb.symm.trans run)
    exact ⟨u, stored, moved, marks b (by simp [at_sum, AccessSize.align, AccessSize.bytes])⟩

/-- Settles O56: a mark of the next instruction stops the next step, a mark of the one after it moves on to the step after, and a banked
register among those named stops a marked state. -/
theorem hazardsStop : Obligations.HazardsStop := by
  refine ⟨fun i s t b run aborts inputs touched => ?overwritten, fun s inputs aborts current memory hazard arm => ?banked⟩
  case overwritten =>
    obtain ⟨v, stored, rfl, following, afterNext⟩ := exec_marks run aborts touched
    have inputs' : v.advance.inputs = [] := stored.inputs.trans inputs
    have aborts' : v.advance.aborts = [] := stored.aborts.trans aborts
    refine ⟨fun low high => step_marked inputs' aborts' (following low high), fun low high u next form => ?_⟩
    have ran := step_next_quiet inputs' aborts' next
    have moved : State.MovesOn { v.advance.afterRead v.advance.fetchSize v.advance.pc with bankHazard := false } u := by
      obtain ⟨x, hx, c, sb, rn, rd, op2, rd_ne, fetched⟩ | ⟨hs, hd, hd_ne, fetched⟩ := form
      · rw [fetched] at ran
        exact exec_writingOpcode_movesOn hx rd_ne ran
      · rw [fetched] at ran
        exact exec_tMovHi_movesOn hd_ne ran
    obtain ⟨prefetch, inputs'', aborts''⟩ := moved
    refine step_marked (inputs''.trans (by simpa using inputs')) (aborts''.trans (by simpa using aborts')) ?_
    rw [prefetch]
    simpa [Prefetch.shift] using afterNext low high
  case banked =>
    intro c sb w p u ix rn rd rs rm imm8 list offset rotate imm12 ty amount passed operands offsets stops
    have names {i : Instr} {named : List RegNo} (cond : conditionOf i = some c) (touched : touchedRegs s.cpsr.mode i = named) :
        stops i named :=
      State.stops_of_touched inputs aborts current memory hazard arm passed cond touched
    refine ⟨fun o ho => ?operand, fun x hx => ?single, fun i hi => ?halfReg, fun i hi => ?halfImm, fun x hx => ?block, fun i hi => ?swap,
      names rfl rfl, fun i hi => ?multiply, names rfl rfl, fun i hi => ?status, names rfl rfl, names rfl rfl, names rfl rfl⟩
    case operand =>
      have regs : operand2Regs o.1 = o.2 := by
        simp only [operands, List.mem_cons, List.not_mem_nil, or_false] at ho
        obtain rfl | rfl | rfl := ho <;> rfl
      rw [← regs]
      simp only [List.mem_cons, List.not_mem_nil, or_false]
      refine ⟨fun i hi => ?_, fun i hi => ?_, fun i hi => ?_⟩
      · obtain rfl | rfl | rfl | rfl | rfl | rfl | rfl | rfl | rfl | rfl := hi <;> exact names rfl rfl
      · obtain rfl | rfl := hi <;> exact names rfl rfl
      · obtain rfl | rfl | rfl | rfl := hi <;> exact names rfl rfl
    case single =>
      simp only [List.mem_flatMap, List.mem_map] at hx
      obtain ⟨o, ho, i, hi, rfl⟩ := hx
      have regs : offsetRegs o.1 = o.2 := by
        simp only [offsets, List.mem_cons, List.not_mem_nil, or_false] at ho
        obtain rfl | rfl := ho <;> rfl
      rw [← regs]
      simp only [singleForms, unprivilegedForms, List.mem_append, List.mem_cons, List.not_mem_nil, or_false] at hi
      obtain (rfl | rfl | rfl | rfl) | rfl | rfl | rfl | rfl := hi <;> exact names rfl rfl
    case halfReg =>
      simp only [halfwordRegForms, List.mem_cons, List.not_mem_nil, or_false] at hi
      obtain rfl | rfl | rfl | rfl := hi <;> exact names rfl rfl
    case halfImm =>
      simp only [halfwordImmForms, List.mem_cons, List.not_mem_nil, or_false] at hi
      obtain rfl | rfl | rfl | rfl := hi <;> exact names rfl rfl
    case block =>
      simp only [multipleLoads, multipleStores, List.mem_append, List.mem_cons, List.not_mem_nil, or_false] at hx
      obtain (rfl | rfl | rfl | rfl) | rfl | rfl | rfl | rfl := hx <;> exact names rfl rfl
    case swap =>
      simp only [List.mem_cons, List.not_mem_nil, or_false] at hi
      obtain rfl | rfl := hi <;> exact names rfl rfl
    case multiply =>
      simp only [List.mem_cons, List.not_mem_nil, or_false] at hi
      obtain rfl | rfl | rfl | rfl | rfl := hi <;> exact names rfl rfl
    case status =>
      simp only [List.mem_cons, List.not_mem_nil, or_false] at hi
      obtain rfl | rfl | rfl := hi <;> exact names rfl rfl

end Sys2Proof.Machine
end
